-- ==== Sys2Proof/Word.lean ====
section
/-! DEFINITION. The word types of P2P-CORE: 64-bit registers (10_state.md R21), 8-bit bytes (00_scope.md R7), and
the fields of the 32-bit command word (30_encoding.md R91). -/

namespace Sys2Proof

/-- An argument register's contents: 64 bits (10_state.md R21). -/
abbrev Word := BitVec 64

/-- One byte of host memory (00_scope.md R7). -/
abbrev Byte := BitVec 8

/-- A command word, CMD32 (30_encoding.md R90). -/
abbrev CmdWord := BitVec 32

/-- The FMT field of a command word: six bits, of which 0 to 49 name a format (30_encoding.md R94, R97). -/
abbrev Fmt := BitVec 6

end Sys2Proof
end

