-- ==== Sys2Proof/Config.lean ====
section
/-! DEFINITION. What an implementation of P2P-CORE fixes: the parameters of 00_scope.md R6 with the types of the
descriptor ROM (10_state.md R29), and the free values of the model. -/

namespace Sys2Proof

/-- The byte order of a packed unit (a descriptor's TAG) or of the host's planar elements. -/
inductive ByteOrder where
  | little
  | big
  deriving DecidableEq, Repr

/-- A channel code other than PAD (30_encoding.md R102): R shares the code of Y, G of U, B of V. -/
inductive Channel where
  | y
  | u
  | v
  | a
  deriving DecidableEq, Repr

/-- One slot of a GENERIC descriptor (10_state.md R29). A padding slot has no shift and no depth (decision D30). -/
inductive Slot where
  | pad
  | field (c : Channel) (shift depth : Nat)
  deriving DecidableEq, Repr

/-- The fields of a GENERIC descriptor (10_state.md R29); PKB is `Layout.pkb`, derived from PKW. -/
structure Layout where
  /-- PLW, planar element width in bits. -/
  plw : Nat
  /-- PKW, packed unit width in bits. -/
  pkw : Nat
  /-- TAG, byte order of a packed unit. -/
  tag : ByteOrder
  /-- PPP, pixels per packed unit. -/
  ppp : Nat
  /-- SS, log2 of the horizontal subsampling. -/
  ss : Nat
  /-- The four slots, in descriptor order. -/
  slots : Vector Slot 4
  deriving DecidableEq, Repr

/-- A descriptor (10_state.md R29). One of CLASS V210 holds only its TAG (30_encoding.md R118). -/
inductive Descriptor where
  | generic (d : Layout)
  | v210 (tag : ByteOrder)
  deriving DecidableEq, Repr

/-- A key of the dispatch cache: the (operation, alpha-policy) pair of the source (10_state.md R33). -/
inductive Key where
  | unpack
  | packFill0
  | packFill1
  deriving DecidableEq, Repr

/-- One entry of ACCEL_TABLE: the combination (fmt, key) has the handle `handle`. -/
structure AccelEntry where
  fmt : Fmt
  key : Key
  handle : Byte
  deriving DecidableEq, Repr

/-- The parameters of 00_scope.md R6, and BASE of 10_state.md R37. They are arguments of the model: State carries
them as plain data, and no step changes them. -/
structure Config where
  /-- ADDR_W, the width in bits of a host memory address. -/
  addrW : Nat
  /-- HOST_BYTE_ORDER, the byte order of planar elements. -/
  hostOrder : ByteOrder
  /-- ACCEL_TABLE as a list of its entries; a combination that is not listed has handle 0. -/
  accel : List AccelEntry
  /-- ALIGN_CHECK. -/
  alignCheck : Bool
  /-- CATALOG, the descriptor ROM, indexed by format id. -/
  catalog : List Descriptor
  /-- BASE, the block's place in the host's physical map; no rule reads it (10_state.md R37). -/
  base : Nat
  deriving DecidableEq, Repr

/-- FREE VALUE. The byte that host memory holds at an address of the footprint of a command that stopped with an
access fault: 60_exceptions.md R271 point 5 leaves it unspecified (93_implementation_defined.md U9). The first
argument is State's counter `freeIx`, the second the address. notes/assumptions/6.md. -/
opaque Config.faultByte : Nat → Nat → Byte

end Sys2Proof
end

