-- ==== Sys2Proof/Machine/Catalog.lean ====
section
/-! DEFINITION. The two ROMs of P2P-CORE: the descriptor catalog (30_encoding.md R112 to R118) with the checks it
must pass (10_state.md R30, R31), the registry (30_encoding.md R105), and the default parameters (00_scope.md R6). -/

namespace Sys2Proof

/-! ### Derived fields of a descriptor -/

/-- PKB, bytes of a packed unit (10_state.md R29). -/
def Layout.pkb (d : Layout) : Nat := d.pkw / 8

/-- EB, bytes of a planar element (41_scanline.md R171). -/
def Layout.eb (d : Layout) : Nat := d.plw / 8

/-- A slot's channel; none for PAD. -/
def Slot.channel? : Slot → Option Channel
  | .pad => none
  | .field c _ _ => some c

/-- How many slots of a list name the channel `c`. -/
def countSlots (c : Channel) : List Slot → Nat
  | [] => 0
  | s :: rest => (if s.channel? = some c then 1 else 0) + countSlots c rest

/-- How many slots of the descriptor name the channel `c` (k_c of 20_memory.md R69). -/
def Layout.count (d : Layout) (c : Channel) : Nat := countSlots c d.slots.toList

/-- `c in used(d)` (41_scanline.md R171). -/
def Layout.used (d : Layout) (c : Channel) : Bool := d.count c != 0

/-- The four channels in code order (30_encoding.md R102). -/
def Channel.all : List Channel := [.y, .u, .v, .a]

/-- `sub(d, c)`: U and V are subsampled when SS > 0 (10_state.md R35, 41_scanline.md R171). -/
def Layout.sub (d : Layout) (c : Channel) : Bool :=
  match c with
  | .u => d.ss != 0
  | .v => d.ss != 0
  | .y => false
  | .a => false

/-- `e0(d, c, x)`: the element of channel `c` that pixel `x` falls in (41_scanline.md R171). -/
def Layout.elem (d : Layout) (c : Channel) (x : Nat) : Nat :=
  if d.sub c then x >>> d.ss else x

/-! ### Checks on a catalog -/

/-- `1 <= DEPTH <= PLW` and `SHIFT + DEPTH <= PKW` (10_state.md R30, R31 (c)). -/
def Slot.fits (plw pkw : Nat) : Slot → Bool
  | .pad => true
  | .field _ sh dp => decide (1 ≤ dp) && decide (dp ≤ plw) && decide (sh + dp ≤ pkw)

/-- The bit ranges of two slots are disjoint (10_state.md R30). -/
def Slot.apart : Slot → Slot → Bool
  | .field _ sh dp, .field _ sh' dp' => decide (sh + dp ≤ sh') || decide (sh' + dp' ≤ sh)
  | .pad, _ => true
  | .field _ _ _, .pad => true

/-- Every two slots of a list are disjoint. -/
def slotsApart : List Slot → Bool
  | [] => true
  | s :: rest => rest.all (fun t => Slot.apart s t) && slotsApart rest

/-- A channel appears in no slot, or in PPP of them, or in PPP >> SS of them if subsampled (10_state.md R31 (b)). -/
def Layout.countOk (d : Layout) (c : Channel) : Bool :=
  d.count c == 0 || d.count c == (if d.sub c then d.ppp >>> d.ss else d.ppp)

/-- The field values of 10_state.md R29 and the conditions of R30 and R31 on a GENERIC descriptor. -/
def Layout.ok (d : Layout) : Bool :=
  [8, 16, 32, 64].contains d.plw && [8, 16, 24, 32, 48, 64].contains d.pkw
    && [1, 2].contains d.ppp && [0, 1].contains d.ss && d.ppp % 2 ^ d.ss == 0
    && d.slots.toList.all (Slot.fits d.plw d.pkw) && slotsApart d.slots.toList
    && Channel.all.all d.countOk && decide (d.count .a ≤ 1)

/-! ### Registry ROM -/

/-- CLASS of a registry entry (10_state.md R32). -/
inductive FormatClass where
  | generic
  | v210
  deriving DecidableEq, Repr

/-- One entry of the registry ROM (10_state.md R32). -/
structure RegistryEntry where
  cls : FormatClass
  /-- NV: a semi-planar format. -/
  nv : Bool
  /-- SSV: log2 vertical subsampling of the chroma plane. -/
  ssv : Nat
  /-- LUMA_B: bytes per luma sample of the luma copy. -/
  lumaB : Nat
  deriving DecidableEq, Repr

/-- REGISTRY(fmt) (30_encoding.md R105); none where FMT names no format (R97). -/
def registry (fmt : Fmt) : Option RegistryEntry :=
  let n := fmt.toNat
  if n ≤ 33 then some ⟨.generic, false, 0, 0⟩
  else if n ≤ 35 then some ⟨.v210, false, 0, 0⟩
  else if n ≤ 37 then some ⟨.generic, false, 0, 0⟩
  else if n ≤ 39 then some ⟨.generic, true, 1, 1⟩
  else if n ≤ 45 then some ⟨.generic, true, 1, 2⟩
  else if n ≤ 49 then some ⟨.generic, true, 0, 2⟩
  else none

/-- CLASS of a descriptor (10_state.md R29). -/
def Descriptor.cls : Descriptor → FormatClass
  | .generic _ => .generic
  | .v210 _ => .v210

/-- A descriptor passes its checks; a V210 one has nothing to check (30_encoding.md R118). -/
def Descriptor.ok : Descriptor → Bool
  | .generic d => d.ok
  | .v210 _ => true

/-- Each descriptor of a list passes its checks and has the registry's CLASS for its id. -/
def entriesOk : Nat → List Descriptor → Bool
  | _, [] => true
  | n, d :: rest =>
    d.ok && (registry (BitVec.ofNat 6 n)).any (fun r => r.cls == d.cls) && entriesOk (n + 1) rest

/-- A catalog the model accepts (70_reset_and_hazards.md R301): 50 entries that pass 10_state.md R30 and R31. -/
def catalogOk (cat : List Descriptor) : Bool :=
  cat.length == 50 && entriesOk 0 cat

/-! ### The default catalog (30_encoding.md R112 to R118) -/

/-- A GENERIC descriptor from its fields and four slots. -/
def gen (plw pkw ppp ss : Nat) (s0 s1 s2 s3 : Slot) (tag : ByteOrder) : Descriptor :=
  .generic ⟨plw, pkw, tag, ppp, ss, #v[s0, s1, s2, s3]⟩

/-- The `_be` and the `_le` member of a pair: identical but for TAG (30_encoding.md R101, R119). -/
def pairOf (f : ByteOrder → Descriptor) : List Descriptor := [f .big, f .little]

/-- Y or R in a slot. -/
abbrev fy := Slot.field .y
/-- U or G in a slot. -/
abbrev fu := Slot.field .u
/-- V or B in a slot. -/
abbrev fv := Slot.field .v
/-- A in a slot. -/
abbrev fa := Slot.field .a

/-- 30_encoding.md R112: ids 0 to 5. -/
def catalogRgb8 : List Descriptor :=
  pairOf (gen 8 24 1 0 (fv 0 8) (fu 8 8) (fy 16 8) .pad)
  ++ pairOf (gen 8 32 1 0 (fv 0 8) (fu 8 8) (fy 16 8) (fa 24 8))
  ++ pairOf (gen 8 32 1 0 (fa 0 8) (fv 8 8) (fu 16 8) (fy 24 8))

/-- 30_encoding.md R113: ids 6 to 17. -/
def catalogRgb16 : List Descriptor :=
  pairOf (gen 16 48 1 0 (fv 0 16) (fu 16 16) (fy 32 16) .pad)
  ++ pairOf (gen 16 64 1 0 (fv 0 16) (fu 16 16) (fy 32 16) (fa 48 16))
  ++ pairOf (gen 16 64 1 0 (fa 0 16) (fv 16 16) (fu 32 16) (fy 48 16))
  ++ pairOf (gen 16 64 1 0 (fy 0 16) (fu 16 16) (fv 32 16) (fa 48 16))
  ++ pairOf (gen 16 64 1 0 (fa 0 16) (fy 16 16) (fu 32 16) (fv 48 16))
  ++ pairOf (gen 16 48 1 0 (fy 0 16) (fu 16 16) (fv 32 16) .pad)

/-- 30_encoding.md R114: ids 18 and 19. -/
def catalogRgb30 : List Descriptor :=
  pairOf (gen 16 32 1 0 (fv 0 10) (fu 10 10) (fy 20 10) .pad)

/-- 30_encoding.md R115: ids 20 to 25. -/
def catalogYuv444 : List Descriptor :=
  pairOf (gen 16 32 1 0 (fu 0 10) (fy 10 10) (fv 20 10) (fa 30 2))
  ++ pairOf (gen 16 64 1 0 (fu 4 12) (fy 20 12) (fv 36 12) (fa 52 12))
  ++ pairOf (gen 16 64 1 0 (fu 0 16) (fy 16 16) (fv 32 16) (fa 48 16))

/-- 30_encoding.md R104, R116: ids 26 (yuy2) and 27 (uyvy), TAG little. -/
def catalogYuv422Byte : List Descriptor :=
  [gen 8 32 2 1 (fy 0 8) (fu 8 8) (fy 16 8) (fv 24 8) .little,
   gen 8 32 2 1 (fu 0 8) (fy 8 8) (fv 16 8) (fy 24 8) .little]

/-- 30_encoding.md R116: ids 28 to 33. -/
def catalogYuv422 : List Descriptor :=
  pairOf (gen 16 64 2 1 (fy 6 10) (fu 22 10) (fy 38 10) (fv 54 10))
  ++ pairOf (gen 16 64 2 1 (fy 4 12) (fu 20 12) (fy 36 12) (fv 52 12))
  ++ pairOf (gen 16 64 2 1 (fy 0 16) (fu 16 16) (fy 32 16) (fv 48 16))

/-- 30_encoding.md R118: ids 34 and 35. -/
def catalogV210 : List Descriptor := pairOf .v210

/-- 30_encoding.md R116: ids 36 and 37. -/
def catalogV216 : List Descriptor :=
  pairOf (gen 16 64 2 1 (fu 0 16) (fy 16 16) (fv 32 16) (fy 48 16))

/-- 30_encoding.md R117: ids 38 to 49. -/
def catalogNv : List Descriptor :=
  pairOf (gen 8 16 2 1 (fu 0 8) (fv 8 8) .pad .pad)
  ++ pairOf (gen 16 32 2 1 (fu 6 10) (fv 22 10) .pad .pad)
  ++ pairOf (gen 16 32 2 1 (fu 4 12) (fv 20 12) .pad .pad)
  ++ pairOf (gen 16 32 2 1 (fu 0 16) (fv 16 16) .pad .pad)
  ++ pairOf (gen 16 32 2 1 (fu 6 10) (fv 22 10) .pad .pad)
  ++ pairOf (gen 16 32 2 1 (fu 0 16) (fv 16 16) .pad .pad)

/-- The default CATALOG, indexed by format id 0 to 49 (30_encoding.md R101). -/
def defaultCatalog : List Descriptor :=
  catalogRgb8 ++ catalogRgb16 ++ catalogRgb30 ++ catalogYuv444 ++ catalogYuv422Byte ++ catalogYuv422
    ++ catalogV210 ++ catalogV216 ++ catalogNv

/-- The default parameters (00_scope.md R6). BASE has no default in the spec: 0 is a DESIGN CHOICE
(notes/assumptions/5.md) that no rule reads. -/
def Config.default : Config :=
  { addrW := 64, hostOrder := .little, accel := [], alignCheck := false, catalog := defaultCatalog, base := 0 }

/-- The handle ACCEL_TABLE gives a combination (00_scope.md R6, 43_registry_dispatch.md R221): 0 where not listed. -/
def accelHandle (fmt : Fmt) (key : Key) : List AccelEntry → Byte
  | [] => 0
  | e :: rest => if e.fmt = fmt ∧ e.key = key then e.handle else accelHandle fmt key rest

/-! ### The encoded masks of a descriptor (30_encoding.md R103) -/

/-- A slot's channel code (30_encoding.md R102). -/
def Slot.code : Slot → Nat
  | .pad => 0xFF
  | .field .y _ _ => 0
  | .field .u _ _ => 1
  | .field .v _ _ => 2
  | .field .a _ _ => 3

/-- A slot's entry of SHIFT_MASK; a PAD slot's 0 is a placeholder. -/
def Slot.shiftCode : Slot → Nat
  | .pad => 0
  | .field _ sh _ => sh

/-- A slot's entry of DEPTH_MASK; a PAD slot's 0 is a placeholder. -/
def Slot.depthCode : Slot → Nat
  | .pad => 0
  | .field _ _ dp => dp

/-- Four slot entries in one 32-bit word, slot `s` in bits 8s+7 to 8s. -/
def maskWord (f : Slot → Nat) : List Slot → Nat
  | [] => 0
  | s :: rest => f s + 256 * maskWord f rest

/-- (COMP_MASK, SHIFT_MASK, DEPTH_MASK) of a GENERIC descriptor; none for V210, which has no slots. -/
def Descriptor.masks : Descriptor → Option (Nat × Nat × Nat)
  | .generic d => some (maskWord Slot.code d.slots.toList, maskWord Slot.shiftCode d.slots.toList,
      maskWord Slot.depthCode d.slots.toList)
  | .v210 _ => none

end Sys2Proof
end

