-- ==== Sys2Proof/Machine/State.lean ====
section
/-! DEFINITION. The state of P2P-CORE (10_state.md R20), the host's moves (R42), the ways a step stops, and reset
(R41, 70_reset_and_hazards.md R300). -/

namespace Sys2Proof.Machine

/-! ### Argument registers (10_state.md R21) -/

/-- An argument register is Unwritten or holds a 64-bit value (10_state.md R23): the Unwritten state is the spec's
own, and a read of it is Fault(UNWRITTEN). -/
inductive Reg where
  | unwritten
  | value (w : Word)
  deriving DecidableEq, Repr

/-- The names of the argument registers (10_state.md R21); planes 0 to 3 are the argument of the last four. -/
inductive ArgName where
  | bfxIn
  | bfxOut
  | left
  | right
  | width
  | height
  | src (p : Fin 4)
  | srcStride (p : Fin 4)
  | dst (p : Fin 4)
  | dstStride (p : Fin 4)
  deriving DecidableEq, Repr

/-- The argument register file (10_state.md R21). -/
structure ArgRegs where
  bfxIn : Reg
  bfxOut : Reg
  left : Reg
  right : Reg
  width : Reg
  height : Reg
  src : Vector Reg 4
  srcStride : Vector Reg 4
  dst : Vector Reg 4
  dstStride : Vector Reg 4
  deriving DecidableEq, Repr

/-! ### Engine status (10_state.md R34) -/

/-- The reasons of 60_exceptions.md R270. A command that raises one ends in a next state with status
Faulted(reason); each is the spec's own fault, raised by the commands its row names. -/
inductive FaultReason where
  /-- Any CMD write that is no legal command word. -/
  | illegalCmd
  /-- Every command: FMT in 50 to 63. -/
  | badFormat
  /-- EXTRACT, ALIGN: a v210 format. -/
  | formatOp
  /-- EXTRACT, ALIGN: a PAD slot. -/
  | padSlot
  /-- All commands but SELECT, and a host read: an Unwritten argument register. -/
  | unwritten
  /-- The memory commands: LEFT, RIGHT, WIDTH or HEIGHT above 32 bits, or a GENERIC range not admitted. -/
  | range
  /-- The memory commands on ids 34 and 35: a range not in multiples of 6. -/
  | v210Range
  /-- The memory commands: a null pointer that names no absent alpha. -/
  | nullPtr
  /-- The memory commands: a pointer register or an access outside the address space. -/
  | addrWrap
  /-- The memory commands: a byte both read and written, or written twice. -/
  | overlap
  /-- The memory commands, when ALIGN_CHECK is true: a misaligned access. -/
  | misaligned
  /-- The memory commands: an access to a byte outside ADMIT. -/
  | buffer
  deriving DecidableEq, Repr

/-- The engine status (10_state.md R34). -/
inductive Status where
  | idle
  | faulted (reason : FaultReason)
  deriving DecidableEq, Repr

/-! ### Dispatch cache (10_state.md R33) -/

/-- One entry of the dispatch cache. -/
inductive CacheEntry where
  | unresolved
  | resolved (handle : Byte)
  deriving DecidableEq, Repr

/-! ### Memory -/

/-- Host memory as (address, byte) pairs in canonical form: addresses strictly rising, and no entry equal to 0,
which is what an unlisted address reads as (DESIGN CHOICE, unsafe: notes/assumptions/3.md). -/
abbrev Memory := List Host.Cell

/-- The bytes at addresses `base` to `base + len - 1`. Addresses are integers until an access checks them
(00_scope.md R9). -/
structure Region where
  base : Int
  len : Nat
  deriving DecidableEq, Repr

/-! ### The host (10_state.md R42) -/

/-- One host action. `regWrite` and `regRead` are accesses to the register space at a byte offset, of a size in
bytes (10_state.md R37). -/
inductive HostAction where
  | regWrite (offset size : Nat) (value : Word)
  | regRead (offset size : Nat)
  | memWrite (addr : Nat) (value : Byte)
  | memRead (addr : Nat)
  | reset
  deriving DecidableEq, Repr

/-! ### State -/

/-- The state of the block with its parameters and its host. -/
structure State where
  /-- The parameters (00_scope.md R6), the descriptor ROM among them; no step changes them. -/
  cfg : Config
  /-- ADMIT, the launch memory (20_memory.md R64); no step changes it. -/
  admitSet : List Region
  /-- Host memory (20_memory.md R60). -/
  mem : Memory
  /-- The argument register file (10_state.md R21). -/
  regs : ArgRegs
  /-- The engine status (10_state.md R34). -/
  status : Status
  /-- The dispatch cache, entry 3 * fmt + key (10_state.md R33). -/
  cache : Vector CacheEntry 150
  /-- The host's actions still to come, oldest first (10_state.md R40). notes/assumptions/2.md. -/
  pending : List HostAction
  /-- The model's own field: the values host reads have returned, newest first. notes/assumptions/12.md. -/
  returned : List Word
  /-- The model's own field: the counter of free values. notes/assumptions/7.md. -/
  freeIx : Nat
  deriving DecidableEq, Repr

/-! ### The ways a step stops -/

/-- Where the machine stops. A fault of 60_exceptions.md R270 is none of these: it is a next state. -/
inductive Fault where
  /-- A CMD write while Faulted that no reset follows: "stuck (no step until reset)" (10_state.md R42,
  93_implementation_defined.md U19). Raised by the launch of a command; safe. -/
  | stuck
  /-- A host memory access at an address that does not exist, at or above 2^ADDR_W (20_memory.md R60). Raised by
  the host's memory actions; safe. notes/assumptions/13.md. -/
  | noSuchAddress
  deriving DecidableEq, Repr

/-- What the model refuses: host programs and tables the spec says are refused. -/
inductive Refusal where
  /-- A command that has no meaning yet. Raised by no arm of `exec`; safe. -/
  | notModelled (mnemonic : String)
  /-- A host access that is not an aligned 64-bit word (10_state.md R37). Raised by register-space actions; safe. -/
  | badAccess
  /-- A host access to a reserved or unlisted offset (10_state.md R37, R42). Raised by register-space actions; safe. -/
  | reservedOffset
  /-- A host write of BFX_OUT (10_state.md R27, R42). Raised by register-space actions; safe. -/
  | bfxOutWrite
  /-- A host read of CMD (10_state.md R25, R42). Raised by register-space actions; safe. -/
  | cmdRead
  /-- A catalog that fails its checks (70_reset_and_hazards.md R301). Raised by every step, and by a command whose
  descriptor is missing; safe. -/
  | badCatalog
  /-- A term of Instr that no command word decodes to: a line command in the form of the other CLASS. Raised by
  the line commands; safe. notes/assumptions/18.md. -/
  | illFormed
  deriving DecidableEq, Repr

/-- The result of a command or a step. -/
abbrev Result := Host.Outcome State Fault Refusal

/-! ### Reset -/

/-- The argument registers after reset: every one Unwritten (10_state.md R41). -/
def ArgRegs.reset : ArgRegs :=
  { bfxIn := .unwritten, bfxOut := .unwritten, left := .unwritten, right := .unwritten
    width := .unwritten, height := .unwritten
    src := Vector.replicate 4 .unwritten, srcStride := Vector.replicate 4 .unwritten
    dst := Vector.replicate 4 .unwritten, dstStride := Vector.replicate 4 .unwritten }

/-- The block's own state after reset (10_state.md R41, 70_reset_and_hazards.md R300): registers Unwritten, status
Idle, all 150 cache entries UNRESOLVED. Host memory, the parameters and the host's side stay. -/
def State.resetBlock (s : State) : State :=
  { s with regs := ArgRegs.reset, status := .idle, cache := Vector.replicate 150 .unresolved }

/-- The machine right after reset (10_state.md R41) with the default parameters (00_scope.md R6). The spec gives
host memory and ADMIT no content: nothing is listed (notes/assumptions/3.md, 4.md). The host has no action to
come (2.md). -/
def State.reset : State :=
  { cfg := Config.default, admitSet := [], mem := [], regs := ArgRegs.reset, status := .idle
    cache := Vector.replicate 150 .unresolved, pending := [], returned := [], freeIx := 0 }

end Sys2Proof.Machine
end

