-- ==== Sys2Proof/Machine/Ops.lean ====
section
/-! DEFINITION. The shared operations: memory, registers, the dispatch cache, checked accesses, footprints, and
raising a fault (00_scope.md R9 to R11; 20_memory.md; 60_exceptions.md R271). -/

namespace Sys2Proof.Machine

/-! ### Host memory -/

/-- What an address that is not listed reads as (DESIGN CHOICE, unsafe: notes/assumptions/3.md). -/
def Memory.unlisted : Byte := 0

/-- The byte at an address. -/
def Memory.read (m : Memory) (a : Nat) : Byte :=
  match m with
  | [] => Memory.unlisted
  | (k, v) :: rest => if a = k then v else if a < k then Memory.unlisted else Memory.read rest a

/-- The memory with one byte written, in canonical form. -/
def Memory.write (m : Memory) (a : Nat) (b : Byte) : Memory :=
  match m with
  | [] => if b = Memory.unlisted then [] else [(a, b)]
  | (k, v) :: rest =>
    if a < k then (if b = Memory.unlisted then (k, v) :: rest else (a, b) :: (k, v) :: rest)
    else if a = k then (if b = Memory.unlisted then rest else (a, b) :: rest)
    else (k, v) :: Memory.write rest a b

/-- Every address of the list is at least `lo`, the addresses rise strictly, and no byte is the unlisted one. -/
def Memory.wfFrom : Nat → Memory → Bool
  | _, [] => true
  | lo, (k, v) :: rest => decide (lo ≤ k) && v != Memory.unlisted && Memory.wfFrom (k + 1) rest

/-- The canonical form of a memory. -/
def Memory.wf (m : Memory) : Bool := Memory.wfFrom 0 m

/-- The `n` bytes at `a`, in address order (`MemRead` of 00_scope.md R10, unchecked). -/
def Memory.readBytes (m : Memory) (a : Nat) : Nat → List Byte
  | 0 => []
  | n + 1 => m.read a :: Memory.readBytes m (a + 1) n

/-- The memory with a list of bytes written at `a`, in address order (`MemWrite` of 00_scope.md R10, unchecked). -/
def Memory.writeBytes (m : Memory) (a : Nat) : List Byte → Memory
  | [] => m
  | b :: rest => Memory.writeBytes (m.write a b) (a + 1) rest

/-! ### Byte order (00_scope.md R10) -/

/-- The number whose least significant byte comes first. -/
def natOfLittle : List Byte → Nat
  | [] => 0
  | b :: rest => b.toNat + 256 * natOfLittle rest

/-- The `n` bytes of a number, least significant first. -/
def littleOfNat : Nat → Nat → List Byte
  | 0, _ => []
  | n + 1, v => BitVec.ofNat 8 v :: littleOfNat n (v / 256)

/-- The value of bytes in address order, in a byte order (`LoadInt`). -/
def natOfBytes (o : ByteOrder) (bs : List Byte) : Nat :=
  match o with
  | .little => natOfLittle bs
  | .big => natOfLittle bs.reverse

/-- The `n` bytes, in address order, that read back as `v < 2^(8n)` (`StoreInt`). -/
def bytesOfNat (o : ByteOrder) (n v : Nat) : List Byte :=
  match o with
  | .little => littleOfNat n v
  | .big => (littleOfNat n v).reverse

/-! ### Checked accesses (41_scanline.md R170) -/

/-- What an access depends on beside memory: ADDR_W, HOST_BYTE_ORDER, ALIGN_CHECK and ADMIT. -/
structure Bus where
  addrW : Nat
  hostOrder : ByteOrder
  alignCheck : Bool
  admitSet : List Region

/-- The bus of a state. -/
def State.bus (s : State) : Bus := ⟨s.cfg.addrW, s.cfg.hostOrder, s.cfg.alignCheck, s.admitSet⟩

/-- An address lies in a region. -/
def Region.has (r : Region) (a : Int) : Bool := decide (r.base ≤ a) && decide (a < r.base + r.len)

/-- An address is in the launch memory (20_memory.md R64). -/
def admits (admitSet : List Region) (a : Int) : Bool := admitSet.any (fun r => r.has a)

/-- Every one of the `n` bytes at `a` is in the launch memory. -/
def admitsAll (admitSet : List Region) (a : Int) : Nat → Bool
  | 0 => true
  | n + 1 => admits admitSet a && admitsAll admitSet (a + 1) n

/-- The bytes of an access that has any are in `0 .. 2^ADDR_W - 1` (00_scope.md R9). -/
def Bus.inSpace (b : Bus) (a : Int) (n : Nat) : Bool :=
  n == 0 || (decide (0 ≤ a) && decide (a + n ≤ 2 ^ b.addrW))

/-- The address obeys ALIGN_CHECK for an access of alignment `al` (20_memory.md R67). -/
def Bus.alignedTo (b : Bus) (a : Int) (al : Nat) : Bool := !b.alignCheck || a % (al : Int) == 0

/-- The checks on an access of `n` bytes at `a` with alignment `al`, in the order of 41_scanline.md R170. -/
def Bus.check (b : Bus) (a : Int) (n al : Nat) : Except FaultReason Unit :=
  if !b.inSpace a n then .error .addrWrap
  else if !b.alignedTo a al then .error .misaligned
  else if !admitsAll b.admitSet a n then .error .buffer
  else .ok ()

/-- `MemRead(a, n)`: checked (00_scope.md R10). -/
def Bus.memRead (b : Bus) (m : Memory) (a : Int) (n al : Nat) : Except FaultReason (List Byte) :=
  match b.check a n al with
  | .error r => .error r
  | .ok () => .ok (m.readBytes a.toNat n)

/-- `MemWrite(a, n, bs)`: checked (00_scope.md R10). -/
def Bus.memWrite (b : Bus) (m : Memory) (a : Int) (bs : List Byte) (al : Nat) : Except FaultReason Memory :=
  match b.check a bs.length al with
  | .error r => .error r
  | .ok () => .ok (m.writeBytes a.toNat bs)

/-- `LoadInt(a, n, order)` (00_scope.md R10). -/
def Bus.loadInt (b : Bus) (m : Memory) (a : Int) (n al : Nat) (o : ByteOrder) : Except FaultReason Nat :=
  match b.memRead m a n al with
  | .error r => .error r
  | .ok bs => .ok (natOfBytes o bs)

/-- `StoreInt(a, n, order, v)` (00_scope.md R10). -/
def Bus.storeInt (b : Bus) (m : Memory) (a : Int) (n al : Nat) (o : ByteOrder) (v : Nat) :
    Except FaultReason Memory :=
  b.memWrite m a (bytesOfNat o n v) al

/-- The alignment of a packed unit: PKB for 2, 4 and 8 bytes, none for the others (20_memory.md R67). -/
def unitAlign (pkb : Nat) : Nat := if pkb = 2 ∨ pkb = 4 ∨ pkb = 8 then pkb else 1

/-- `LoadUnit(a, d)` (41_scanline.md R170, 20_memory.md R63). -/
def Bus.loadUnit (b : Bus) (m : Memory) (a : Int) (d : Layout) : Except FaultReason Nat :=
  b.loadInt m a d.pkb (unitAlign d.pkb) d.tag

/-- `StoreUnit(a, d, w)` (41_scanline.md R170, 20_memory.md R63). -/
def Bus.storeUnit (b : Bus) (m : Memory) (a : Int) (d : Layout) (w : Nat) : Except FaultReason Memory :=
  b.storeInt m a d.pkb (unitAlign d.pkb) d.tag w

/-- `LoadPlanar(a, d)` for an element of `eb` bytes (41_scanline.md R170, 20_memory.md R65). -/
def Bus.loadPlanar (b : Bus) (m : Memory) (a : Int) (eb : Nat) : Except FaultReason Nat :=
  b.loadInt m a eb eb b.hostOrder

/-- `StorePlanar(a, d, v)` for an element of `eb` bytes (41_scanline.md R170, 20_memory.md R65). -/
def Bus.storePlanar (b : Bus) (m : Memory) (a : Int) (eb v : Nat) : Except FaultReason Memory :=
  b.storeInt m a eb eb b.hostOrder v

/-! ### Footprints and overlap (20_memory.md R69 to R73, R82) -/

/-- The regions a command reads and the regions it writes. -/
structure Footprint where
  reads : List Region
  writes : List Region

/-- An address is in the footprint. -/
def Footprint.has (f : Footprint) (a : Int) : Bool := (f.reads ++ f.writes).any (fun r => r.has a)

/-- No byte lies in both regions. -/
def Region.apart (r q : Region) : Bool :=
  r.len == 0 || q.len == 0 || decide (r.base + r.len ≤ q.base) || decide (q.base + q.len ≤ r.base)

/-- No byte lies in two regions of the list. -/
def allApart : List Region → Bool
  | [] => true
  | r :: rest => rest.all (fun q => r.apart q) && allApart rest

/-- No byte written is also read, and none is written twice (20_memory.md R73). -/
def Footprint.noOverlap (f : Footprint) : Bool :=
  allApart f.writes && f.writes.all (fun w => f.reads.all (fun r => w.apart r))

/-! ### Argument registers (10_state.md R21 to R24, R37) -/

/-- The contents of an argument register. -/
def ArgRegs.get (g : ArgRegs) : ArgName → Reg
  | .bfxIn => g.bfxIn
  | .bfxOut => g.bfxOut
  | .left => g.left
  | .right => g.right
  | .width => g.width
  | .height => g.height
  | .src p => g.src[p]
  | .srcStride p => g.srcStride[p]
  | .dst p => g.dst[p]
  | .dstStride p => g.dstStride[p]

/-- The register file with one register holding a value. -/
def ArgRegs.put (g : ArgRegs) (n : ArgName) (w : Word) : ArgRegs :=
  match n with
  | .bfxIn => { g with bfxIn := .value w }
  | .bfxOut => { g with bfxOut := .value w }
  | .left => { g with left := .value w }
  | .right => { g with right := .value w }
  | .width => { g with width := .value w }
  | .height => { g with height := .value w }
  | .src p => { g with src := g.src.set p (.value w) }
  | .srcStride p => { g with srcStride := g.srcStride.set p (.value w) }
  | .dst p => { g with dst := g.dst.set p (.value w) }
  | .dstStride p => { g with dstStride := g.dstStride.set p (.value w) }

/-- `arg[NAME] <- v` (00_scope.md R11). -/
def State.putReg (s : State) (n : ArgName) (w : Word) : State := { s with regs := s.regs.put n w }

/-- `arg[NAME]` (00_scope.md R11): an Unwritten register is Fault(UNWRITTEN) (10_state.md R23). -/
def State.arg (s : State) (n : ArgName) : Except FaultReason Word :=
  match s.regs.get n with
  | .unwritten => .error .unwritten
  | .value w => .ok w

/-- What an offset of the register space names (10_state.md R21, R25, R37). -/
inductive RegTarget where
  | cmd
  | arg (n : ArgName)
  deriving DecidableEq, Repr

/-- The used offsets of the register space (10_state.md R21, R25); every other offset is reserved (R37). -/
def registerMap : List (Nat × RegTarget) :=
  [(0x000, .cmd), (0x008, .arg .bfxIn), (0x010, .arg .bfxOut), (0x018, .arg .left), (0x020, .arg .right),
   (0x028, .arg .width), (0x030, .arg .height),
   (0x040, .arg (.src 0)), (0x048, .arg (.src 1)), (0x050, .arg (.src 2)), (0x058, .arg (.src 3)),
   (0x060, .arg (.srcStride 0)), (0x068, .arg (.srcStride 1)), (0x070, .arg (.srcStride 2)),
   (0x078, .arg (.srcStride 3)),
   (0x080, .arg (.dst 0)), (0x088, .arg (.dst 1)), (0x090, .arg (.dst 2)), (0x098, .arg (.dst 3)),
   (0x0A0, .arg (.dstStride 0)), (0x0A8, .arg (.dstStride 1)), (0x0B0, .arg (.dstStride 2)),
   (0x0B8, .arg (.dstStride 3))]

/-- What an offset names; none if it is reserved. -/
def regAt (offset : Nat) : Option RegTarget := registerMap.lookup offset

/-! ### Raising a fault (60_exceptions.md R271) -/

/-- `raise Fault(reason)` before any memory access: the status becomes Faulted(reason); registers, cache and
memory keep their values (60_exceptions.md R271, R272). -/
def raiseFault (s : State) (r : FaultReason) : Result := .next { s with status := .faulted r }

/-- One region of a footprint made unspecified: each of its bytes that exists and is admitted becomes a free
byte. -/
def forgetRegion (b : Bus) (ix : Nat) (base : Int) : Nat → Memory → Memory
  | 0, m => m
  | n + 1, m =>
    let m' := if b.inSpace base 1 && admits b.admitSet base
      then m.write base.toNat (Config.faultByte ix base.toNat) else m
    forgetRegion b ix (base + 1) n m'

/-- Memory unspecified over a list of regions (60_exceptions.md R271 point 5). notes/assumptions/6.md. -/
def forgetRegions (b : Bus) (ix : Nat) : List Region → Memory → Memory
  | [], m => m
  | r :: rest, m => forgetRegions b ix rest (forgetRegion b ix r.base r.len m)

/-- `raise Fault(reason)` at a memory access of a command with the footprint `f`: as `raiseFault`, and memory is
unspecified over the footprint (60_exceptions.md R271 point 5); the free-value counter advances. -/
def raiseAccessFault (s : State) (f : Footprint) (r : FaultReason) : Result :=
  .next { s with status := .faulted r, mem := forgetRegions s.bus s.freeIx (f.reads ++ f.writes) s.mem
                 freeIx := s.freeIx + 1 }

/-- The end of a memory command after its register reads: the checks made before the first access (range, null
pointers, then overlap of the whole footprint), then the accesses in reference order (60_exceptions.md R272 steps
5 to 8; 44_frame.md R247). Either all accesses succeed and memory is the one they leave, or one faults. -/
def runTransfer (s : State) (checks : Except FaultReason Unit) (f : Footprint)
    (accesses : Memory → Except FaultReason Memory) : Result :=
  match checks with
  | .error r => raiseFault s r
  | .ok () =>
    if f.noOverlap then
      match accesses s.mem with
      | .error r => raiseAccessFault s f r
      | .ok m => .next { s with mem := m }
    else raiseFault s .overlap

/-! ### Dispatch cache (10_state.md R33, 43_registry_dispatch.md R222) -/

/-- The place of a key among the three entries of a format. -/
def Key.index : Key → Nat
  | .unpack => 0
  | .packFill0 => 1
  | .packFill1 => 2

/-- The place of the entry of a format and a key. -/
def cacheIndex (fmt : Fmt) (key : Key) : Nat := 3 * fmt.toNat + Key.index key

/-- CACHE[fmt][key]; a format id that names no format has no entry and reads UNRESOLVED. -/
def State.cacheAt (s : State) (fmt : Fmt) (key : Key) : CacheEntry :=
  match s.cache[cacheIndex fmt key]? with
  | some e => e
  | none => .unresolved

/-- The state after `Resolve(fmt, key)`: an UNRESOLVED entry takes the handle of ACCEL_TABLE; a RESOLVED one stays
(43_registry_dispatch.md R222, R224). -/
def State.resolve (s : State) (fmt : Fmt) (key : Key) : State :=
  match s.cacheAt fmt key with
  | .unresolved =>
    { s with cache := s.cache.setIfInBounds (cacheIndex fmt key) (.resolved (accelHandle fmt key s.cfg.accel)) }
  | .resolved _ => s

/-- The handle `Resolve(fmt, key)` returns (43_registry_dispatch.md R222). -/
def State.handle (s : State) (fmt : Fmt) (key : Key) : Byte :=
  match s.cacheAt fmt key with
  | .unresolved => accelHandle fmt key s.cfg.accel
  | .resolved h => h

/-- The key of a pack with a fill policy (43_registry_dispatch.md R225). -/
def packKey (fill : Bool) : Key := if fill then .packFill1 else .packFill0

/-- REGISTRY(fmt) and DESC(fmt) for a command: BAD_FORMAT where FMT names no format (30_encoding.md R97). -/
def withFormat (s : State) (fmt : Fmt) (k : RegistryEntry → Descriptor → Result) : Result :=
  match registry fmt with
  | none => raiseFault s .badFormat
  | some r =>
    match s.cfg.catalog[fmt.toNat]? with
    | none => .refused .badCatalog
    | some d => k r d

end Sys2Proof.Machine
end

