-- ==== Sys2Proof/Machine/Operands.lean ====
section
/-! DEFINITION. The operand forms: how a command reads its argument registers (10_state.md R22, R39; the order is
that of 60_exceptions.md R272 step 4), and the quantities per plane and per row that the engines use
(41_scanline.md R171; 42_v210.md R207; 44_frame.md R244). -/

namespace Sys2Proof.Machine

/-! ### Register operands -/

/-- LEFT, RIGHT, WIDTH or HEIGHT: 32 bits, RANGE if bits 63:32 are not zero (10_state.md R22). -/
def State.argDim (s : State) (n : ArgName) : Except FaultReason Nat :=
  match s.arg n with
  | .error r => .error r
  | .ok w => if w.toNat < 2 ^ 32 then .ok w.toNat else .error .range

/-- A pointer register: ADDR_WRAP if a bit at or above ADDR_W is set (10_state.md R22). -/
def State.argPtr (s : State) (n : ArgName) : Except FaultReason Int :=
  match s.arg n with
  | .error r => .error r
  | .ok w => if w.toNat < 2 ^ s.cfg.addrW then .ok w.toNat else .error .addrWrap

/-- A stride register, signed (10_state.md R22, 00_scope.md R9). -/
def State.argStride (s : State) (n : ArgName) : Except FaultReason Int :=
  match s.arg n with
  | .error r => .error r
  | .ok w => .ok w.toInt

/-- One integer per plane: pointers, strides or cursors. Plane 0 is Y or R, 1 is U or G, 2 is V or B, 3 is A
(30_encoding.md R102). -/
structure Planes where
  y : Int
  u : Int
  v : Int
  a : Int
  deriving DecidableEq, Repr

/-- The entry of a channel's plane: `plane(c) = c` (30_encoding.md R102). -/
def Planes.get (p : Planes) : Channel → Int
  | .y => p.y
  | .u => p.u
  | .v => p.v
  | .a => p.a

/-- One channel's entry advanced by `k`. -/
def Planes.advance (p : Planes) (c : Channel) (k : Int) : Planes :=
  match c with
  | .y => { p with y := p.y + k }
  | .u => { p with u := p.u + k }
  | .v => { p with v := p.v + k }
  | .a => { p with a := p.a + k }

/-- The operands of a line command. -/
structure LineOperands where
  /-- The packed pointer P. -/
  packed : Int
  /-- The four plane pointers. -/
  planes : Planes
  left : Nat
  right : Nat
  deriving DecidableEq, Repr

/-- The reads of UNPACK_LINE, both forms, in order: SRC0, DST0 to DST3, LEFT, RIGHT (41_scanline.md R176,
42_v210.md R204). -/
def State.unpackLineOperands (s : State) : Except FaultReason LineOperands := do
  let p ← s.argPtr (.src 0)
  let d0 ← s.argPtr (.dst 0)
  let d1 ← s.argPtr (.dst 1)
  let d2 ← s.argPtr (.dst 2)
  let d3 ← s.argPtr (.dst 3)
  let left ← s.argDim .left
  let right ← s.argDim .right
  return ⟨p, ⟨d0, d1, d2, d3⟩, left, right⟩

/-- The reads of PACK_LINE, both forms, in order: SRC0 to SRC3, DST0, LEFT, RIGHT (41_scanline.md R182,
42_v210.md R205). -/
def State.packLineOperands (s : State) : Except FaultReason LineOperands := do
  let s0 ← s.argPtr (.src 0)
  let s1 ← s.argPtr (.src 1)
  let s2 ← s.argPtr (.src 2)
  let s3 ← s.argPtr (.src 3)
  let p ← s.argPtr (.dst 0)
  let left ← s.argDim .left
  let right ← s.argDim .right
  return ⟨p, ⟨s0, s1, s2, s3⟩, left, right⟩

/-- One plane's pointers and strides, as the frame commands read them. -/
structure PlaneOperands where
  src : Int
  srcStride : Int
  dst : Int
  dstStride : Int
  deriving DecidableEq, Repr

/-- The reads of plane `p`, in order: SRCp, SRC_STRIDEp, DSTp, DST_STRIDEp (44_frame.md R241). -/
def State.planeOperands (s : State) (p : Fin 4) : Except FaultReason PlaneOperands := do
  let src ← s.argPtr (.src p)
  let srcStride ← s.argStride (.srcStride p)
  let dst ← s.argPtr (.dst p)
  let dstStride ← s.argStride (.dstStride p)
  return ⟨src, srcStride, dst, dstStride⟩

/-- The operands of a frame command. -/
structure FrameOperands where
  width : Nat
  height : Nat
  src : Planes
  srcStride : Planes
  dst : Planes
  dstStride : Planes
  deriving DecidableEq, Repr

/-- The reads of both frame commands: WIDTH, HEIGHT, then planes 0 to 3 (44_frame.md R241, R243). -/
def State.frameOperands (s : State) : Except FaultReason FrameOperands := do
  let w ← s.argDim .width
  let h ← s.argDim .height
  let p0 ← s.planeOperands 0
  let p1 ← s.planeOperands 1
  let p2 ← s.planeOperands 2
  let p3 ← s.planeOperands 3
  return { width := w, height := h
           src := ⟨p0.src, p1.src, p2.src, p3.src⟩
           srcStride := ⟨p0.srcStride, p1.srcStride, p2.srcStride, p3.srcStride⟩
           dst := ⟨p0.dst, p1.dst, p2.dst, p3.dst⟩
           dstStride := ⟨p0.dstStride, p1.dstStride, p2.dstStride, p3.dstStride⟩ }

/-! ### Quantities of a row -/

end Sys2Proof.Machine

namespace Sys2Proof
open Machine

/-- `cur[c] = D[plane(c)] + e0(d, c, left) * EB` for every channel (41_scanline.md R173, R178). -/
def Layout.cursors (d : Layout) (p : Planes) (left : Nat) : Planes :=
  ⟨p.y + (d.elem .y left * d.eb : Nat), p.u + (d.elem .u left * d.eb : Nat),
   p.v + (d.elem .v left * d.eb : Nat), p.a + (d.elem .a left * d.eb : Nat)⟩

/-- `pcur = P + (left div PPP) * PKB` (41_scanline.md R173, R178). -/
def Layout.packedCursor (d : Layout) (p : Int) (left : Nat) : Int := p + (left / d.ppp * d.pkb : Nat)

/-- The number of packed units of a range (41_scanline.md R176). -/
def Layout.units (d : Layout) (left right : Nat) : Nat := (right - left) / d.ppp

/-- The alpha plane takes part: the format has an A slot and its pointer is not null (41_scanline.md R173, R178). -/
def Layout.alphaOn (d : Layout) (p : Planes) : Bool := d.used .a && p.a != 0

/-- A channel takes part in a row: it is used, and an alpha has a pointer (20_memory.md R69). -/
def Layout.active (d : Layout) (p : Planes) (c : Channel) : Bool := d.used c && p.get c != 0

/-- The channels a GENERIC format uses other than A (41_scanline.md R173). -/
def Layout.needed (d : Layout) : List Channel := [.y, .u, .v].filter (fun c => d.used c)

end Sys2Proof

namespace Sys2Proof.Machine

/-- Row `y` of a plane: a null base stays null (44_frame.md R244). -/
def planeRow (base stride : Int) (y : Nat) : Int := if base = 0 then 0 else base + y * stride

/-- The four plane pointers of row `y` (44_frame.md R241, R243). -/
def Planes.row (p t : Planes) (y : Nat) : Planes :=
  ⟨planeRow p.y t.y y, planeRow p.u t.u y, planeRow p.v t.v y, planeRow p.a t.a y⟩

end Sys2Proof.Machine
end

