-- ==== Sys2Proof/Machine/Bitfield.lean ====
section
/-! DEFINITION. BFX, the bitfield extractor and aligner (40_bitfield.md): the primitives the scanline engine uses
too, and the commands EXTRACT and ALIGN. -/

namespace Sys2Proof.Machine

/-- `mask(n) = 2^n - 1` (00_scope.md R8). -/
def mask (n : Nat) : Nat := 2 ^ n - 1

/-- `extract(w, d, s)` for a slot with this shift and depth (40_bitfield.md R150). The widening to PLW bits changes
no value: the result is below 2^DEPTH. -/
def extractField (w shift depth : Nat) : Nat := (w >>> shift) &&& mask depth

/-- `align(v, d, s)` for a slot with this shift and depth (40_bitfield.md R151). -/
def alignField (v shift depth : Nat) : Nat := (v &&& mask depth) <<< shift

/-- A BFX command (40_bitfield.md R152, R153): FORMAT_OP for a v210 format, then PAD_SLOT, then the read of BFX_IN;
`f` gives the result from the descriptor, the slot's shift and depth, and BFX_IN. -/
def bfxCommand (s : State) (fmt : Fmt) (slot : BitVec 2) (f : Layout → Nat → Nat → Nat → Nat) : Result :=
  withFormat s fmt fun _ desc =>
    match desc with
    | .v210 _ => raiseFault s .formatOp
    | .generic d =>
      match d.slots[slot.toNat] with
      | .pad => raiseFault s .padSlot
      | .field _ sh dp =>
        match s.arg .bfxIn with
        | .error r => raiseFault s r
        | .ok w => .next (s.putReg .bfxOut (BitVec.ofNat 64 (f d sh dp w.toNat)))

/-- EXTRACT (40_bitfield.md R152): bits 63:PKW of BFX_IN are ignored. -/
def execExtract (fmt : Fmt) (slot : BitVec 2) (s : State) : Result :=
  bfxCommand s fmt slot fun d sh dp word => extractField (word % 2 ^ d.pkw) sh dp

/-- ALIGN (40_bitfield.md R153). -/
def execAlign (fmt : Fmt) (slot : BitVec 2) (s : State) : Result :=
  bfxCommand s fmt slot fun _ sh dp v => alignField v sh dp

end Sys2Proof.Machine
end

