-- ==== Sys2Proof/Machine/Scanline.lean ====
section
/-! DEFINITION. SLE, the scanline unpack and pack engine (41_scanline.md): the row functions of a GENERIC format
and the generic forms of UNPACK_LINE and PACK_LINE. -/

namespace Sys2Proof
open Machine

/-! ### Checks and footprints of a row -/

/-- A range is admitted for a GENERIC descriptor, or RANGE (41_scanline.md R172). -/
def Layout.rangeCheck (d : Layout) (left right : Nat) : Except FaultReason Unit :=
  if left ≤ right ∧ left % d.ppp = 0 ∧ right % d.ppp = 0 then .ok () else .error .range

/-- The packed pointer and the pointer of every used channel but A are not null (41_scanline.md R173, R178). -/
def Layout.pointersOk (d : Layout) (packed : Int) (p : Planes) : Bool :=
  packed != 0 && d.needed.all (fun c => p.get c != 0)

/-- The packed bytes of a range (20_memory.md R69). -/
def Layout.packedRegion (d : Layout) (packed : Int) (left right : Nat) : Region :=
  ⟨d.packedCursor packed left, d.units left right * d.pkb⟩

/-- The bytes of channel `c`'s plane that a range covers (20_memory.md R69). -/
def Layout.planeRegion (d : Layout) (p : Planes) (left right : Nat) (c : Channel) : Region :=
  ⟨(d.cursors p left).get c, d.units left right * d.count c * d.eb⟩

/-- The planar bytes of a range: those of every active channel (20_memory.md R69, R70). -/
def Layout.planeRegions (d : Layout) (p : Planes) (left right : Nat) : List Region :=
  (Channel.all.filter (fun c => d.active p c)).map (d.planeRegion p left right)

/-! ### Unpack -/

end Sys2Proof

namespace Sys2Proof.Machine

/-- The slots of one unit, in order, on unpack: each active slot's field of `w` goes to its channel's cursor, which
advances by one element (41_scanline.md R175, R176). -/
def unpackSlots (b : Bus) (d : Layout) (alphaOn : Bool) (w : Nat) :
    List Slot → Planes → Memory → Except FaultReason (Planes × Memory)
  | [], cur, m => .ok (cur, m)
  | .pad :: rest, cur, m => unpackSlots b d alphaOn w rest cur m
  | .field c sh dp :: rest, cur, m =>
    if c = .a ∧ alphaOn = false then unpackSlots b d alphaOn w rest cur m
    else match b.storePlanar m (cur.get c) d.eb (extractField w sh dp) with
      | .error r => .error r
      | .ok m' => unpackSlots b d alphaOn w rest (cur.advance c d.eb) m'

/-- The units of a row on unpack (41_scanline.md R176). -/
def unpackUnits (b : Bus) (d : Layout) (alphaOn : Bool) :
    Nat → Int → Planes → Memory → Except FaultReason Memory
  | 0, _, _, m => .ok m
  | n + 1, pcur, cur, m =>
    match b.loadUnit m pcur d with
    | .error r => .error r
    | .ok w =>
      match unpackSlots b d alphaOn w d.slots.toList cur m with
      | .error r => .error r
      | .ok (cur', m') => unpackUnits b d alphaOn n (pcur + d.pkb) cur' m'

end Sys2Proof.Machine

namespace Sys2Proof
open Machine

/-- The accesses of `UnpackRow(d, P, D, left, right)` after its checks (41_scanline.md R176). -/
def Layout.unpackRow (d : Layout) (b : Bus) (packed : Int) (p : Planes) (left right : Nat) (m : Memory) :
    Except FaultReason Memory :=
  unpackUnits b d (d.alphaOn p) (d.units left right) (d.packedCursor packed left) (d.cursors p left) m

/-! ### Pack -/

end Sys2Proof

namespace Sys2Proof.Machine

/-- The contribution of the fill policy: all ones in the A slot (41_scanline.md R180). -/
def alphaSeed : List Slot → Nat
  | [] => 0
  | .field .a sh dp :: _ => mask dp <<< sh
  | _ :: rest => alphaSeed rest

/-- The slots of one unit, in order, on pack: each active slot's element is read at its channel's cursor, which
advances, and its contribution is ORed into the word (41_scanline.md R179, R181, R182). -/
def packSlots (b : Bus) (d : Layout) (alphaSrc : Bool) (m : Memory) :
    List Slot → Planes → Nat → Except FaultReason (Planes × Nat)
  | [], cur, w => .ok (cur, w)
  | .pad :: rest, cur, w => packSlots b d alphaSrc m rest cur w
  | .field c sh dp :: rest, cur, w =>
    if c = .a ∧ alphaSrc = false then packSlots b d alphaSrc m rest cur w
    else match b.loadPlanar m (cur.get c) d.eb with
      | .error r => .error r
      | .ok v => packSlots b d alphaSrc m rest (cur.advance c d.eb) (w ||| alignField v sh dp)

end Sys2Proof.Machine

namespace Sys2Proof
open Machine

/-- The word a unit starts from: 0, or the alpha seed when fill is on and no alpha source is supplied
(41_scanline.md R180, R181). -/
def Layout.seed (d : Layout) (fill alphaSrc : Bool) : Nat :=
  if fill && !alphaSrc then alphaSeed d.slots.toList else 0

end Sys2Proof

namespace Sys2Proof.Machine

/-- The units of a row on pack (41_scanline.md R182). -/
def packUnits (b : Bus) (d : Layout) (fill alphaSrc : Bool) :
    Nat → Planes → Int → Memory → Except FaultReason Memory
  | 0, _, _, m => .ok m
  | n + 1, cur, pcur, m =>
    match packSlots b d alphaSrc m d.slots.toList cur (d.seed fill alphaSrc) with
    | .error r => .error r
    | .ok (cur', w) =>
      match b.storeUnit m pcur d w with
      | .error r => .error r
      | .ok m' => packUnits b d fill alphaSrc n cur' (pcur + d.pkb) m'

end Sys2Proof.Machine

namespace Sys2Proof
open Machine

/-- The accesses of `PackRow(d, S, P, left, right, fill)` after its checks (41_scanline.md R182). -/
def Layout.packRow (d : Layout) (b : Bus) (fill : Bool) (p : Planes) (packed : Int) (left right : Nat)
    (m : Memory) : Except FaultReason Memory :=
  packUnits b d fill (d.alphaOn p) (d.units left right) (d.cursors p left) (d.packedCursor packed left) m

/-! ### Line commands, generic form -/

/-- The checks of a row before its footprint's (60_exceptions.md R272 steps 5 and 6). -/
def Layout.lineChecks (d : Layout) (o : LineOperands) : Except FaultReason Unit :=
  match d.rangeCheck o.left o.right with
  | .error r => .error r
  | .ok () => if d.pointersOk o.packed o.planes then .ok () else .error .nullPtr

/-- The footprint of UNPACK_LINE (20_memory.md R69). -/
def Layout.unpackFootprint (d : Layout) (o : LineOperands) : Footprint :=
  ⟨[d.packedRegion o.packed o.left o.right], d.planeRegions o.planes o.left o.right⟩

/-- The footprint of PACK_LINE (20_memory.md R70). -/
def Layout.packFootprint (d : Layout) (o : LineOperands) : Footprint :=
  ⟨d.planeRegions o.planes o.left o.right, [d.packedRegion o.packed o.left o.right]⟩

end Sys2Proof

namespace Sys2Proof.Machine

/-- UNPACK_LINE, generic form (41_scanline.md R176). -/
def execUnpackLine (fmt : Fmt) (s : State) : Result :=
  withFormat s fmt fun _ desc =>
    match desc with
    | .v210 _ => .refused .illFormed
    | .generic d =>
      match s.unpackLineOperands with
      | .error r => raiseFault s r
      | .ok o =>
        runTransfer (s.resolve fmt .unpack) (d.lineChecks o) (d.unpackFootprint o)
          (d.unpackRow s.bus o.packed o.planes o.left o.right)

/-- PACK_LINE, generic form (41_scanline.md R182). -/
def execPackLine (fmt : Fmt) (fill : Bool) (s : State) : Result :=
  withFormat s fmt fun _ desc =>
    match desc with
    | .v210 _ => .refused .illFormed
    | .generic d =>
      match s.packLineOperands with
      | .error r => raiseFault s r
      | .ok o =>
        runTransfer (s.resolve fmt (packKey fill)) (d.lineChecks o) (d.packFootprint o)
          (d.packRow s.bus fill o.planes o.packed o.left o.right)

end Sys2Proof.Machine
end

