-- ==== Sys2Proof/Machine/V210.lean ====
section
/-! DEFINITION. V210, the 10-bit group codec (42_v210.md): the group layout, the row functions, and the v210 forms
of UNPACK_LINE and PACK_LINE. -/

namespace Sys2Proof.Machine

/-! ### The group (42_v210.md R201) -/

/-- The four words of a group. -/
structure GroupWords where
  w0 : Nat
  w1 : Nat
  w2 : Nat
  w3 : Nat
  deriving DecidableEq, Repr

/-- The words in order. -/
def GroupWords.list (g : GroupWords) : List Nat := [g.w0, g.w1, g.w2, g.w3]

/-- The twelve samples of a group. -/
structure GroupSamples where
  y0 : Nat
  y1 : Nat
  y2 : Nat
  y3 : Nat
  y4 : Nat
  y5 : Nat
  u0 : Nat
  u1 : Nat
  u2 : Nat
  v0 : Nat
  v1 : Nat
  v2 : Nat
  deriving DecidableEq, Repr

/-- Y0 to Y5. -/
def GroupSamples.ys (g : GroupSamples) : List Nat := [g.y0, g.y1, g.y2, g.y3, g.y4, g.y5]
/-- U0 to U2. -/
def GroupSamples.us (g : GroupSamples) : List Nat := [g.u0, g.u1, g.u2]
/-- V0 to V2. -/
def GroupSamples.vs (g : GroupSamples) : List Nat := [g.v0, g.v1, g.v2]

/-- Bits 9:0 of a word. -/
def field10Low (w : Nat) : Nat := w &&& 0x3FF
/-- Bits 19:10 of a word. -/
def field10Mid (w : Nat) : Nat := (w >>> 10) &&& 0x3FF
/-- Bits 29:20 of a word. -/
def field10High (w : Nat) : Nat := (w >>> 20) &&& 0x3FF

/-- The samples of a group's words (42_v210.md R201, R204); bits 31:30 are ignored. -/
def groupUnpack (g : GroupWords) : GroupSamples :=
  { y0 := field10Mid g.w0, y1 := field10Low g.w1, y2 := field10High g.w1
    y3 := field10Mid g.w2, y4 := field10Low g.w3, y5 := field10High g.w3
    u0 := field10Low g.w0, u1 := field10Mid g.w1, u2 := field10High g.w2
    v0 := field10High g.w0, v1 := field10Low g.w2, v2 := field10Mid g.w3 }

/-- A word from three samples of which 10 bits count; bits 31:30 are 0 (42_v210.md R205). -/
def word10 (low mid high : Nat) : Nat :=
  (low &&& 0x3FF) ||| ((mid &&& 0x3FF) <<< 10) ||| ((high &&& 0x3FF) <<< 20)

/-- The words of a group's samples (42_v210.md R201, R205). -/
def groupPack (s : GroupSamples) : GroupWords :=
  { w0 := word10 s.u0 s.y0 s.v0, w1 := word10 s.y1 s.u1 s.y2
    w2 := word10 s.v1 s.y3 s.u2, w3 := word10 s.y4 s.v2 s.y5 }

/-! ### Checks, cursors and footprints -/

/-- A v210 range is admitted, or V210_RANGE (42_v210.md R203). -/
def v210RangeCheck (left right : Nat) : Except FaultReason Unit :=
  if left ≤ right ∧ left % 6 = 0 ∧ right % 6 = 0 then .ok () else .error .v210Range

/-- The packed, Y, U and V pointers are not null; plane 3 does not matter (42_v210.md R206). -/
def v210PointersOk (packed : Int) (p : Planes) : Bool :=
  packed != 0 && p.y != 0 && p.u != 0 && p.v != 0

/-- The packed cursor (42_v210.md R207). -/
def v210PackedCursor (packed : Int) (left : Nat) : Int := packed + (left / 6 * 16 : Nat)

/-- The plane cursors (42_v210.md R207); plane 3 is never used. -/
def v210Cursors (p : Planes) (left : Nat) : Planes :=
  ⟨p.y + (2 * left : Nat), p.u + (2 * (left / 2) : Nat), p.v + (2 * (left / 2) : Nat), p.a⟩

/-- The number of groups of a range. -/
def v210Groups (left right : Nat) : Nat := (right - left) / 6

/-- The packed bytes of a range (20_memory.md R71). -/
def v210PackedRegion (packed : Int) (left right : Nat) : Region :=
  ⟨v210PackedCursor packed left, 16 * v210Groups left right⟩

/-- The planar bytes of a range: 12 luma bytes and 6 of each chroma per group (20_memory.md R71). -/
def v210PlaneRegions (p : Planes) (left right : Nat) : List Region :=
  [⟨(v210Cursors p left).y, 12 * v210Groups left right⟩,
   ⟨(v210Cursors p left).u, 6 * v210Groups left right⟩,
   ⟨(v210Cursors p left).v, 6 * v210Groups left right⟩]

/-! ### Row functions -/

/-- A list of `n`-byte numbers stored at successive addresses (42_v210.md R204, R205): the elements of a plane or
the words of a group. -/
def storeSeq (b : Bus) (n : Nat) (o : ByteOrder) (a : Int) : List Nat → Memory → Except FaultReason Memory
  | [], m => .ok m
  | v :: rest, m =>
    match b.storeInt m a n n o v with
    | .error r => .error r
    | .ok m' => storeSeq b n o (a + n) rest m'

/-- The four words of the group at `a` (42_v210.md R202). -/
def loadGroup (b : Bus) (m : Memory) (a : Int) (tag : ByteOrder) : Except FaultReason GroupWords := do
  let w0 ← b.loadInt m a 4 4 tag
  let w1 ← b.loadInt m (a + 4) 4 4 tag
  let w2 ← b.loadInt m (a + 8) 4 4 tag
  let w3 ← b.loadInt m (a + 12) 4 4 tag
  return ⟨w0, w1, w2, w3⟩

/-- The twelve planar elements of a group, in the order of 42_v210.md R205: Y0 to Y5, U0 to U2, V0 to V2. -/
def loadSamples (b : Bus) (m : Memory) (cur : Planes) : Except FaultReason GroupSamples := do
  let y0 ← b.loadPlanar m cur.y 2
  let y1 ← b.loadPlanar m (cur.y + 2) 2
  let y2 ← b.loadPlanar m (cur.y + 4) 2
  let y3 ← b.loadPlanar m (cur.y + 6) 2
  let y4 ← b.loadPlanar m (cur.y + 8) 2
  let y5 ← b.loadPlanar m (cur.y + 10) 2
  let u0 ← b.loadPlanar m cur.u 2
  let u1 ← b.loadPlanar m (cur.u + 2) 2
  let u2 ← b.loadPlanar m (cur.u + 4) 2
  let v0 ← b.loadPlanar m cur.v 2
  let v1 ← b.loadPlanar m (cur.v + 2) 2
  let v2 ← b.loadPlanar m (cur.v + 4) 2
  return ⟨y0, y1, y2, y3, y4, y5, u0, u1, u2, v0, v1, v2⟩

/-- The cursors of the next group (42_v210.md R207). -/
def nextGroup (cur : Planes) : Planes := ⟨cur.y + 12, cur.u + 6, cur.v + 6, cur.a⟩

/-- The stores of one unpacked group: the Y elements, then U, then V (42_v210.md R204). -/
def storeGroup (b : Bus) (cur : Planes) (g : GroupSamples) (m : Memory) : Except FaultReason Memory :=
  match storeSeq b 2 b.hostOrder cur.y g.ys m with
  | .error r => .error r
  | .ok m1 =>
    match storeSeq b 2 b.hostOrder cur.u g.us m1 with
    | .error r => .error r
    | .ok m2 => storeSeq b 2 b.hostOrder cur.v g.vs m2

/-- The groups of a row on unpack (42_v210.md R204). -/
def unpackGroups (b : Bus) (tag : ByteOrder) : Nat → Int → Planes → Memory → Except FaultReason Memory
  | 0, _, _, m => .ok m
  | n + 1, pcur, cur, m =>
    match loadGroup b m pcur tag with
    | .error r => .error r
    | .ok g =>
      match storeGroup b cur (groupUnpack g) m with
      | .error r => .error r
      | .ok m' => unpackGroups b tag n (pcur + 16) (nextGroup cur) m'

/-- The groups of a row on pack (42_v210.md R205). -/
def packGroups (b : Bus) (tag : ByteOrder) : Nat → Planes → Int → Memory → Except FaultReason Memory
  | 0, _, _, m => .ok m
  | n + 1, cur, pcur, m =>
    match loadSamples b m cur with
    | .error r => .error r
    | .ok g =>
      match storeSeq b 4 tag pcur (groupPack g).list m with
      | .error r => .error r
      | .ok m' => packGroups b tag n (nextGroup cur) (pcur + 16) m'

/-- The accesses of `UnpackV210` after its checks (42_v210.md R204). -/
def v210UnpackRow (tag : ByteOrder) (b : Bus) (packed : Int) (p : Planes) (left right : Nat) (m : Memory) :
    Except FaultReason Memory :=
  unpackGroups b tag (v210Groups left right) (v210PackedCursor packed left) (v210Cursors p left) m

/-- The accesses of `PackV210` after its checks (42_v210.md R205). -/
def v210PackRow (tag : ByteOrder) (b : Bus) (p : Planes) (packed : Int) (left right : Nat) (m : Memory) :
    Except FaultReason Memory :=
  packGroups b tag (v210Groups left right) (v210Cursors p left) (v210PackedCursor packed left) m

/-! ### Line commands, v210 form -/

/-- The checks of a v210 row before its footprint's (60_exceptions.md R272 steps 5 and 6). -/
def v210LineChecks (o : LineOperands) : Except FaultReason Unit :=
  match v210RangeCheck o.left o.right with
  | .error r => .error r
  | .ok () => if v210PointersOk o.packed o.planes then .ok () else .error .nullPtr

/-- The footprint of UNPACK_LINE on a v210 format (20_memory.md R71). -/
def v210UnpackFootprint (o : LineOperands) : Footprint :=
  ⟨[v210PackedRegion o.packed o.left o.right], v210PlaneRegions o.planes o.left o.right⟩

/-- The footprint of PACK_LINE on a v210 format (20_memory.md R71). -/
def v210PackFootprint (o : LineOperands) : Footprint :=
  ⟨v210PlaneRegions o.planes o.left o.right, [v210PackedRegion o.packed o.left o.right]⟩

/-- UNPACK_LINE, v210 form (42_v210.md R204). -/
def execUnpackLineV210 (fmt : Fmt) (s : State) : Result :=
  withFormat s fmt fun _ desc =>
    match desc with
    | .generic _ => .refused .illFormed
    | .v210 tag =>
      match s.unpackLineOperands with
      | .error r => raiseFault s r
      | .ok o =>
        runTransfer (s.resolve fmt .unpack) (v210LineChecks o) (v210UnpackFootprint o)
          (v210UnpackRow tag s.bus o.packed o.planes o.left o.right)

/-- PACK_LINE, v210 form (42_v210.md R205). The fill policy picks the key of the dispatch cache and changes nothing
else (R206). -/
def execPackLineV210 (fmt : Fmt) (fill : Bool) (s : State) : Result :=
  withFormat s fmt fun _ desc =>
    match desc with
    | .generic _ => .refused .illFormed
    | .v210 tag =>
      match s.packLineOperands with
      | .error r => raiseFault s r
      | .ok o =>
        runTransfer (s.resolve fmt (packKey fill)) (v210LineChecks o) (v210PackFootprint o)
          (v210PackRow tag s.bus o.planes o.packed o.left o.right)

end Sys2Proof.Machine
end

