-- ==== Sys2Proof/Machine/Frame.lean ====
section
/-! DEFINITION. FRM, the frame iterator (44_frame.md): the row functions by CLASS, the luma copy, and the commands
UNPACK_FRAME and PACK_FRAME. -/

namespace Sys2Proof
open Machine

/-! ### The row functions by CLASS (43_registry_dispatch.md R220, 44_frame.md R241) -/

/-- The range check of the row function (44_frame.md R247 step 2). -/
def Descriptor.rangeCheck (desc : Descriptor) (left right : Nat) : Except FaultReason Unit :=
  match desc with
  | .generic d => d.rangeCheck left right
  | .v210 _ => v210RangeCheck left right

/-- The null checks of the row function (44_frame.md R247 step 3). -/
def Descriptor.pointersOk (desc : Descriptor) (packed : Int) (p : Planes) : Bool :=
  match desc with
  | .generic d => d.pointersOk packed p
  | .v210 _ => v210PointersOk packed p

/-- The packed bytes of a row (20_memory.md R69 to R71). -/
def Descriptor.packedRegion (desc : Descriptor) (packed : Int) (left right : Nat) : Region :=
  match desc with
  | .generic d => d.packedRegion packed left right
  | .v210 _ => v210PackedRegion packed left right

/-- The planar bytes of a row (20_memory.md R69 to R71). -/
def Descriptor.planeRegions (desc : Descriptor) (p : Planes) (left right : Nat) : List Region :=
  match desc with
  | .generic d => d.planeRegions p left right
  | .v210 _ => v210PlaneRegions p left right

/-- The accesses of the unpack row function. -/
def Descriptor.unpackRow (desc : Descriptor) (b : Bus) (packed : Int) (p : Planes) (left right : Nat) (m : Memory) :
    Except FaultReason Memory :=
  match desc with
  | .generic d => d.unpackRow b packed p left right m
  | .v210 tag => v210UnpackRow tag b packed p left right m

/-- The accesses of the pack row function; the v210 one ignores `fill` (42_v210.md R206). -/
def Descriptor.packRow (desc : Descriptor) (b : Bus) (fill : Bool) (p : Planes) (packed : Int) (left right : Nat)
    (m : Memory) : Except FaultReason Memory :=
  match desc with
  | .generic d => d.packRow b fill p packed left right m
  | .v210 tag => v210PackRow tag b p packed left right m

end Sys2Proof

namespace Sys2Proof.Machine

/-! ### The luma copy (44_frame.md R245, R246) -/

/-- The arguments of `CopyPlane`. -/
structure LumaCopy where
  src : Int
  srcStride : Int
  dst : Int
  dstStride : Int
  nbytes : Nat
  nrows : Nat
  deriving DecidableEq, Repr

/-- Rows `y` to `y + n - 1` of `CopyPlane` (44_frame.md R245): single bytes, of which none needs alignment
(20_memory.md R67, R68). -/
def copyRows (b : Bus) (l : LumaCopy) : Nat → Nat → Memory → Except FaultReason Memory
  | 0, _, m => .ok m
  | n + 1, y, m =>
    match b.memRead m (l.src + y * l.srcStride) l.nbytes 1 with
    | .error r => .error r
    | .ok bs =>
      match b.memWrite m (l.dst + y * l.dstStride) bs 1 with
      | .error r => .error r
      | .ok m' => copyRows b l n (y + 1) m'

/-- The bytes row `y` of the copy reads. -/
def LumaCopy.readAt (l : LumaCopy) (y : Nat) : Region := ⟨l.src + y * l.srcStride, l.nbytes⟩

/-- The bytes row `y` of the copy writes. -/
def LumaCopy.writeAt (l : LumaCopy) (y : Nat) : Region := ⟨l.dst + y * l.dstStride, l.nbytes⟩

/-- The bytes the copy reads, row by row. -/
def LumaCopy.reads (l : LumaCopy) : List Region :=
  (List.range l.nrows).map l.readAt

/-- The bytes the copy writes, row by row. -/
def LumaCopy.writes (l : LumaCopy) : List Region :=
  (List.range l.nrows).map l.writeAt

/-! ### The plan of a frame command (44_frame.md R242, R246, R250) -/

/-- What a frame command does after its register reads: the packed side, the planar side, the number of row calls,
the width of a row, and the luma copy if it runs. -/
structure FramePlan where
  packed : Int
  packedStride : Int
  planes : Planes
  planeStrides : Planes
  rows : Nat
  width : Nat
  luma : Option LumaCopy
  deriving DecidableEq, Repr

/-- The number of row calls (44_frame.md R242). -/
def frameRowCount (r : RegistryEntry) (height : Nat) : Nat := if r.nv then height >>> r.ssv else height

/-- The luma copy of a frame command: for an NV format without SKIP_UNPACKED_PLANES (44_frame.md R246). -/
def lumaOf (r : RegistryEntry) (skip : Bool) (o : FrameOperands) : Option LumaCopy :=
  if r.nv && !skip then
    some ⟨o.src.y, o.srcStride.y, o.dst.y, o.dstStride.y, o.width * r.lumaB, o.height⟩
  else none

/-- The planar side of a frame (44_frame.md R250): all four planes, or U and V alone for an NV format. -/
def chromaPlanes (nv : Bool) (p : Planes) : Planes := if nv then ⟨0, p.u, p.v, 0⟩ else p

/-- The plan of UNPACK_FRAME (44_frame.md R241). -/
def unpackPlan (r : RegistryEntry) (skip : Bool) (o : FrameOperands) : FramePlan :=
  { packed := if r.nv then o.src.u else o.src.y
    packedStride := if r.nv then o.srcStride.u else o.srcStride.y
    planes := chromaPlanes r.nv o.dst
    planeStrides := o.dstStride
    rows := frameRowCount r o.height
    width := o.width
    luma := lumaOf r skip o }

/-- The plan of PACK_FRAME (44_frame.md R243). -/
def packPlan (r : RegistryEntry) (skip : Bool) (o : FrameOperands) : FramePlan :=
  { packed := if r.nv then o.dst.u else o.dst.y
    packedStride := if r.nv then o.dstStride.u else o.dstStride.y
    planes := chromaPlanes r.nv o.src
    planeStrides := o.srcStride
    rows := frameRowCount r o.height
    width := o.width
    luma := lumaOf r skip o }

/-- The packed pointer of row `y` (44_frame.md R244). -/
def FramePlan.packedRow (p : FramePlan) (y : Nat) : Int := p.packed + y * p.packedStride

/-- The plane pointers of row `y` (44_frame.md R244). -/
def FramePlan.planesRow (p : FramePlan) (y : Nat) : Planes := p.planes.row p.planeStrides y

/-! ### Checks and footprint (44_frame.md R247; 20_memory.md R82) -/

/-- No row of the luma copy is read or written through a null pointer: SRC0 and DST0, also when there is no row
(44_frame.md R246, R247), and every row's pointer (20_memory.md R61). notes/assumptions/9.md. -/
def lumaPointersOk : Option LumaCopy → Bool
  | none => true
  | some l => (List.range (max l.nrows 1)).all fun y => (l.readAt y).base != 0 && (l.writeAt y).base != 0

/-- The null checks of the row function, for every row and for the base pointers even when there is no row
(44_frame.md R247). notes/assumptions/8.md. -/
def FramePlan.rowPointersOk (p : FramePlan) (desc : Descriptor) : Bool :=
  (List.range (max p.rows 1)).all fun y => desc.pointersOk (p.packedRow y) (p.planesRow y)

/-- The checks of a frame command before its footprint's (44_frame.md R247 steps 2 and 3). -/
def FramePlan.checks (p : FramePlan) (desc : Descriptor) : Except FaultReason Unit :=
  match desc.rangeCheck 0 p.width with
  | .error r => .error r
  | .ok () => if p.rowPointersOk desc && lumaPointersOk p.luma then .ok () else .error .nullPtr

/-- The packed regions of the rows. -/
def FramePlan.packedRegions (p : FramePlan) (desc : Descriptor) : List Region :=
  (List.range p.rows).map fun y => desc.packedRegion (p.packedRow y) 0 p.width

/-- The planar regions of the rows. -/
def FramePlan.planeRegions (p : FramePlan) (desc : Descriptor) : List Region :=
  (List.range p.rows).flatMap fun y => desc.planeRegions (p.planesRow y) 0 p.width

/-- The regions the luma copy reads, if it runs. -/
def FramePlan.lumaReads (p : FramePlan) : List Region := (p.luma.map LumaCopy.reads).getD []

/-- The regions the luma copy writes, if it runs. -/
def FramePlan.lumaWrites (p : FramePlan) : List Region := (p.luma.map LumaCopy.writes).getD []

/-- The footprint of UNPACK_FRAME (20_memory.md R82). -/
def FramePlan.unpackFootprint (p : FramePlan) (desc : Descriptor) : Footprint :=
  ⟨p.lumaReads ++ p.packedRegions desc, p.lumaWrites ++ p.planeRegions desc⟩

/-- The footprint of PACK_FRAME (20_memory.md R82). -/
def FramePlan.packFootprint (p : FramePlan) (desc : Descriptor) : Footprint :=
  ⟨p.lumaReads ++ p.planeRegions desc, p.lumaWrites ++ p.packedRegions desc⟩

/-! ### The accesses -/

/-- Rows `y` to `y + n - 1`, in order (44_frame.md R247). The row function's own checks were made for all rows
before (notes/assumptions/8.md). -/
def frameRows (row : Nat → Memory → Except FaultReason Memory) : Nat → Nat → Memory → Except FaultReason Memory
  | 0, _, m => .ok m
  | n + 1, y, m =>
    match row y m with
    | .error r => .error r
    | .ok m' => frameRows row n (y + 1) m'

/-- The luma copy, if it runs. -/
def copyLuma (b : Bus) (l : Option LumaCopy) (m : Memory) : Except FaultReason Memory :=
  match l with
  | none => .ok m
  | some l => copyRows b l l.nrows 0 m

/-- The luma copy, if any, and then the rows (44_frame.md R247). -/
def FramePlan.run (p : FramePlan) (b : Bus) (row : Nat → Memory → Except FaultReason Memory) (m : Memory) :
    Except FaultReason Memory :=
  match copyLuma b p.luma m with
  | .error r => .error r
  | .ok m' => frameRows row p.rows 0 m'

/-- The accesses of UNPACK_FRAME (44_frame.md R241). -/
def FramePlan.unpack (p : FramePlan) (b : Bus) (desc : Descriptor) : Memory → Except FaultReason Memory :=
  p.run b fun y m => desc.unpackRow b (p.packedRow y) (p.planesRow y) 0 p.width m

/-- The accesses of PACK_FRAME (44_frame.md R243). -/
def FramePlan.pack (p : FramePlan) (b : Bus) (fill : Bool) (desc : Descriptor) :
    Memory → Except FaultReason Memory :=
  p.run b fun y m => desc.packRow b fill (p.planesRow y) (p.packedRow y) 0 p.width m

/-! ### Commands -/

/-- UNPACK_FRAME (44_frame.md R241); ALPHA_SET_ONE is ignored (30_encoding.md R93). -/
def execUnpackFrame (fmt : Fmt) (skip _alphaOne : Bool) (s : State) : Result :=
  withFormat s fmt fun r desc =>
    match s.frameOperands with
    | .error e => raiseFault s e
    | .ok o =>
      runTransfer (s.resolve fmt .unpack) ((unpackPlan r skip o).checks desc)
        ((unpackPlan r skip o).unpackFootprint desc) ((unpackPlan r skip o).unpack s.bus desc)

/-- PACK_FRAME (44_frame.md R243); `fill` is ALPHA_SET_ONE. -/
def execPackFrame (fmt : Fmt) (skip fill : Bool) (s : State) : Result :=
  withFormat s fmt fun r desc =>
    match s.frameOperands with
    | .error e => raiseFault s e
    | .ok o =>
      runTransfer (s.resolve fmt (packKey fill)) ((packPlan r skip o).checks desc)
        ((packPlan r skip o).packFootprint desc) ((packPlan r skip o).pack s.bus fill desc)

end Sys2Proof.Machine
end

