-- ==== Sys2Proof/Machine/Registry.lean ====
section
/-! DEFINITION. REG, the format registry and dispatch multiplexer (43_registry_dispatch.md): SELECT. -/

namespace Sys2Proof.Machine

/-- SELECT for one key (43_registry_dispatch.md R225): BFX_OUT takes the handle, and the cache entry is resolved.
Valid for every format id, v210 and NV formats too. -/
def selectCommand (s : State) (fmt : Fmt) (key : Key) : Result :=
  match registry fmt with
  | none => raiseFault s .badFormat
  | some _ => .next ((s.resolve fmt key).putReg .bfxOut (BitVec.zeroExtend 64 (s.handle fmt key)))

/-- SELECT with SEL_PACK = 0 (43_registry_dispatch.md R225). -/
def execSelectU (fmt : Fmt) (s : State) : Result := selectCommand s fmt .unpack

/-- SELECT with SEL_PACK = 1 (43_registry_dispatch.md R225). -/
def execSelectP (fmt : Fmt) (fill : Bool) (s : State) : Result := selectCommand s fmt (packKey fill)

end Sys2Proof.Machine
end

