-- ==== Sys2Proof/Syntax.lean ====
section
/-! DEFINITION. The commands of P2P-CORE command set 1: one constructor per row of spec/opcode_table.json. -/

namespace Sys2Proof

/-- A command (30_encoding.md R92, R95). The operands are the fields of the command word that the command uses or
accepts with either value (R93); register operands are implicit (R94). -/
inductive Instr where
  /-- EXTRACT (40_bitfield.md R152). -/
  | extract (fmt : Fmt) (slot : BitVec 2)
  /-- ALIGN (40_bitfield.md R153). -/
  | align (fmt : Fmt) (slot : BitVec 2)
  /-- UNPACK_LINE, v210 form (42_v210.md R204). -/
  | unpackLineV210 (fmt : Fmt)
  /-- UNPACK_LINE, generic form (41_scanline.md R176). -/
  | unpackLine (fmt : Fmt)
  /-- PACK_LINE, v210 form (42_v210.md R205); `fill` is accepted and has no effect. -/
  | packLineV210 (fmt : Fmt) (fill : Bool)
  /-- PACK_LINE, generic form (41_scanline.md R182). -/
  | packLine (fmt : Fmt) (fill : Bool)
  /-- UNPACK_FRAME (44_frame.md R241); `alphaOne` is accepted and has no effect. -/
  | unpackFrame (fmt : Fmt) (skip alphaOne : Bool)
  /-- PACK_FRAME (44_frame.md R243). -/
  | packFrame (fmt : Fmt) (skip fill : Bool)
  /-- SELECT with SEL_PACK = 0 (43_registry_dispatch.md R225). -/
  | selectU (fmt : Fmt)
  /-- SELECT with SEL_PACK = 1 (43_registry_dispatch.md R225). -/
  | selectP (fmt : Fmt) (fill : Bool)
  deriving DecidableEq, Repr

/-- The FMT field of a command. -/
def Instr.fmt : Instr → Fmt
  | .extract f _ => f
  | .align f _ => f
  | .unpackLineV210 f => f
  | .unpackLine f => f
  | .packLineV210 f _ => f
  | .packLine f _ => f
  | .unpackFrame f _ _ => f
  | .packFrame f _ _ => f
  | .selectU f => f
  | .selectP f _ => f

end Sys2Proof
end

