-- ==== Sys2Proof/Machine/Dispatch.lean ====
section
/-! DEFINITION. One arm per constructor of Instr: each command's meaning. -/

namespace Sys2Proof.Machine

/-- A command run in a state (10_state.md R26). -/
def exec (i : Instr) (s : State) : Host.Outcome State Fault Refusal :=
  match i with
  | .extract fmt slot => Sys2Proof.Machine.execExtract fmt slot s
  | .align fmt slot => Sys2Proof.Machine.execAlign fmt slot s
  | .unpackLineV210 fmt => Sys2Proof.Machine.execUnpackLineV210 fmt s
  | .unpackLine fmt => Sys2Proof.Machine.execUnpackLine fmt s
  | .packLineV210 fmt fill => Sys2Proof.Machine.execPackLineV210 fmt fill s
  | .packLine fmt fill => Sys2Proof.Machine.execPackLine fmt fill s
  | .unpackFrame fmt skip alphaOne => Sys2Proof.Machine.execUnpackFrame fmt skip alphaOne s
  | .packFrame fmt skip fill => Sys2Proof.Machine.execPackFrame fmt skip fill s
  | .selectU fmt => Sys2Proof.Machine.execSelectU fmt s
  | .selectP fmt fill => Sys2Proof.Machine.execSelectP fmt fill s

end Sys2Proof.Machine
end

