-- ==== Sys2Proof/WellFormed.lean ====
section
/-! DEFINITION. The commands that some command word decodes to (30_encoding.md R95, R97). -/

namespace Sys2Proof

/-- FMT names a format (30_encoding.md R97). -/
def Instr.formatNamed (i : Instr) : Bool := (registry i.fmt).isSome

/-- The CLASS of the format, where FMT names one (30_encoding.md R105). -/
def classOf (fmt : Fmt) : Option FormatClass := (registry fmt).map RegistryEntry.cls

/-- The line commands have one form per CLASS: the v210 form exactly for V210 formats (30_encoding.md R95). -/
def Instr.formFits : Instr → Bool
  | .unpackLineV210 f => classOf f == some .v210
  | .packLineV210 f _ => classOf f == some .v210
  | .unpackLine f => classOf f != some .v210
  | .packLine f _ => classOf f != some .v210
  | .extract _ _ => true
  | .align _ _ => true
  | .unpackFrame _ _ _ => true
  | .packFrame _ _ _ => true
  | .selectU _ => true
  | .selectP _ _ => true

/-- A well-formed command: FMT names a format, and a line command has the form of its format's CLASS. -/
def Instr.wellFormed (i : Instr) : Bool := i.formatNamed && i.formFits

end Sys2Proof
end

