-- ==== Sys2Proof/Decode.lean ====
section
/-! DEFINITION. Decoding a CMD write to a command, and encoding a command (30_encoding.md R90 to R97). -/

namespace Sys2Proof

/-- Why a CMD write gives no command (30_encoding.md R95): the two decode faults of 60_exceptions.md R270. -/
inductive DecodeError where
  /-- ILLEGAL_CMD (30_encoding.md R96). -/
  | illegalCmd
  /-- BAD_FORMAT (30_encoding.md R97). -/
  | badFormat
  deriving DecidableEq, Repr

/-! ### Fields of a command word (10_state.md R25, 30_encoding.md R91) -/

/-- OP, bits 3:0. -/
def CmdWord.op (w : CmdWord) : BitVec 4 := w.extractLsb' 0 4
/-- SLOT, bits 5:4. -/
def CmdWord.slot (w : CmdWord) : BitVec 2 := w.extractLsb' 4 2
/-- SEL_PACK, bit 6. -/
def CmdWord.selPack (w : CmdWord) : Bool := w.getLsbD 6
/-- FMT, bits 13:8. -/
def CmdWord.fmt (w : CmdWord) : Fmt := w.extractLsb' 8 6
/-- SKIP_UNPACKED_PLANES, bit 16. -/
def CmdWord.skip (w : CmdWord) : Bool := w.getLsbD 16
/-- ALPHA_SET_ONE, bit 17. -/
def CmdWord.alphaOne (w : CmdWord) : Bool := w.getLsbD 17
/-- A reserved bit, 31:18, 15:14 or 7, is set (30_encoding.md R95). -/
def CmdWord.reservedSet (w : CmdWord) : Bool := w &&& 0xFFFCC080#32 != 0#32

/-- The form of a command word: its OP row of 30_encoding.md R92 with the must-be-zero fields of R93; none where
OP is reserved or such a field is set. The CLASS of the format picks the form of a line command (R95). -/
def formOf (w : CmdWord) : Option Instr :=
  let f := CmdWord.fmt w
  let slot := CmdWord.slot w
  let sel := CmdWord.selPack w
  let skip := CmdWord.skip w
  let one := CmdWord.alphaOne w
  let v210 := classOf f == some .v210
  match (CmdWord.op w).toNat with
  | 1 => if sel || skip || one then none else some (.extract f slot)
  | 2 => if sel || skip || one then none else some (.align f slot)
  | 3 => if slot != 0 || sel || skip || one then none
         else some (if v210 then .unpackLineV210 f else .unpackLine f)
  | 4 => if slot != 0 || sel || skip then none
         else some (if v210 then .packLineV210 f one else .packLine f one)
  | 5 => if slot != 0 || sel then none else some (.unpackFrame f skip one)
  | 6 => if slot != 0 || sel then none else some (.packFrame f skip one)
  | 7 => if slot != 0 || skip then none
         else if sel then some (.selectP f one)
         else if one then none else some (.selectU f)
  | _ => none

/-- `decode(cmd)` of 30_encoding.md R95 on a 32-bit command word: total, ILLEGAL_CMD before BAD_FORMAT. -/
def decode (w : CmdWord) : Except DecodeError Instr :=
  if CmdWord.reservedSet w then .error .illegalCmd
  else match formOf w with
    | none => .error .illegalCmd
    | some i => if i.formatNamed then .ok i else .error .badFormat

/-- A 64-bit CMD write: bits 63:32 must be zero (10_state.md R25), bits 31:0 are the command word. -/
def decodeCmd (v : Word) : Except DecodeError Instr :=
  if v.extractLsb' 32 32 != 0#32 then .error .illegalCmd else decode (v.extractLsb' 0 32)

/-! ### The encoder -/

/-- The command word with the given fields, from its most significant field down (30_encoding.md R91). -/
def packFields (one skip : Bool) (fmt : Fmt) (sel : Bool) (slot : BitVec 2) (op : BitVec 4) : CmdWord :=
  0#14 ++ BitVec.ofBool one ++ BitVec.ofBool skip ++ 0#2 ++ fmt ++ 0#1 ++ BitVec.ofBool sel ++ slot ++ op

/-- The command word of a command (30_encoding.md R92, R93, R99). -/
def encode : Instr → CmdWord
  | .extract f slot => packFields false false f false slot 1
  | .align f slot => packFields false false f false slot 2
  | .unpackLineV210 f => packFields false false f false 0 3
  | .unpackLine f => packFields false false f false 0 3
  | .packLineV210 f fill => packFields fill false f false 0 4
  | .packLine f fill => packFields fill false f false 0 4
  | .unpackFrame f skip one => packFields one skip f false 0 5
  | .packFrame f skip fill => packFields fill skip f false 0 6
  | .selectU f => packFields false false f false 0 7
  | .selectP f fill => packFields fill false f true 0 7

/-- The 64-bit value a host writes to CMD for a command: bits 63:32 zero (10_state.md R25). -/
def encodeCmd (i : Instr) : Word := 0#32 ++ encode i

/-- The command the decoder reads from an opcode-table word: `w` is the command word, which the host writes to
bits 31:0 of CMD; every command has this one length (30_encoding.md R90). -/
def decodeTableWord (nbits w : Nat) : Option Instr :=
  match decodeCmd (BitVec.ofNat 64 (w % 2 ^ nbits)) with
  | .ok i => some i
  | .error _ => none

end Sys2Proof
end

