-- ==== Sys2Proof/Machine/Flags.lean ====
section
/-! DEFINITION. P2P-CORE has no condition codes and no status flags (10_state.md R38). What it has in their place is
the engine status and the number of each fault reason (60_exceptions.md R270). -/

namespace Sys2Proof.Machine

/-- The code of a fault reason, 1 to 12 (60_exceptions.md R270). No register holds it. -/
def FaultReason.code : FaultReason → Nat
  | .illegalCmd => 1
  | .badFormat => 2
  | .formatOp => 3
  | .padSlot => 4
  | .unwritten => 5
  | .range => 6
  | .v210Range => 7
  | .nullPtr => 8
  | .addrWrap => 9
  | .overlap => 10
  | .misaligned => 11
  | .buffer => 12

/-- The fault a decode error raises (30_encoding.md R95). -/
def reasonOfDecode : DecodeError → FaultReason
  | .illegalCmd => .illegalCmd
  | .badFormat => .badFormat

/-- The block is Idle and accepts a command (10_state.md R34). -/
def State.isIdle (s : State) : Bool := s.status == .idle

end Sys2Proof.Machine
end

