-- ==== Sys2Proof/Machine/HostPort.lean ====
section
/-! DEFINITION. The host's side of P2P-CORE: register-space accesses, host memory, reset, and the launch of a command
by a CMD write (10_state.md R25, R26, R37, R42; 70_reset_and_hazards.md R300). -/

namespace Sys2Proof.Machine

/-- A CMD write (10_state.md R26). While Faulted it has no step until reset (R42): if the host's next action is
reset, the step is that reset; else the machine is stuck (notes/assumptions/10.md). While Idle it decodes the word
and runs the command, or raises the decode fault. -/
def launch (v : Word) (s : State) : Result :=
  match s.status with
  | .faulted _ =>
    match s.pending with
    | .reset :: rest => .next (State.resetBlock { s with pending := rest })
    | _ => .fault .stuck
  | .idle =>
    match decodeCmd v with
    | .error e => raiseFault s (reasonOfDecode e)
    | .ok i => exec i s

/-- What a register-space access names (10_state.md R37): refused unless it is an aligned 64-bit word at a used
offset. -/
def regTarget (offset size : Nat) : Except Refusal RegTarget :=
  if size ≠ 8 ∨ offset % 8 ≠ 0 then .error .badAccess
  else match regAt offset with
    | none => .error .reservedOffset
    | some t => .ok t

/-- A host write to the register space (10_state.md R42). -/
def hostRegWrite (offset size : Nat) (v : Word) (s : State) : Result :=
  match regTarget offset size with
  | .error r => .refused r
  | .ok .cmd => launch v s
  | .ok (.arg n) => if n = .bfxOut then .refused .bfxOutWrite else .next (s.putReg n v)

/-- A host read of the register space (10_state.md R42). An Unwritten register raises Fault(UNWRITTEN); a status
that is Faulted already keeps its first reason (notes/assumptions/11.md). -/
def hostRegRead (offset size : Nat) (s : State) : Result :=
  match regTarget offset size with
  | .error r => .refused r
  | .ok .cmd => .refused .cmdRead
  | .ok (.arg n) =>
    match s.arg n with
    | .error r =>
      match s.status with
      | .idle => raiseFault s r
      | .faulted _ => .next s
    | .ok w => .next { s with returned := w :: s.returned }

/-- A host write of one byte of host memory (10_state.md R42). -/
def hostMemWrite (a : Nat) (v : Byte) (s : State) : Result :=
  if a < 2 ^ s.cfg.addrW then .next { s with mem := s.mem.write a v } else .fault .noSuchAddress

/-- A host read of one byte of host memory (10_state.md R42). -/
def hostMemRead (a : Nat) (s : State) : Result :=
  if a < 2 ^ s.cfg.addrW then .next { s with returned := BitVec.zeroExtend 64 (s.mem.read a) :: s.returned }
  else .fault .noSuchAddress

/-- One host action (10_state.md R42), in the state whose `pending` it has left. -/
def hostMove (a : HostAction) (s : State) : Result :=
  match a with
  | .regWrite offset size v => hostRegWrite offset size v s
  | .regRead offset size => hostRegRead offset size s
  | .memWrite addr v => hostMemWrite addr v s
  | .memRead addr => hostMemRead addr s
  | .reset => .next s.resetBlock

/-- One step of the block and its host: the host's next action, or nothing where it has none (the block waits,
60_exceptions.md R284). A catalog that fails its checks is refused (70_reset_and_hazards.md R301). -/
def runPending (s : State) : Result :=
  if catalogOk s.cfg.catalog then
    match s.pending with
    | [] => .next s
    | a :: rest => hostMove a { s with pending := rest }
  else .refused .badCatalog

/-- A CMD write of the command word `w` of `nbits` bits put before the host's other actions. -/
def pushCommand (s : State) (nbits w : Nat) : State :=
  { s with pending := .regWrite 0 8 (BitVec.ofNat 64 (w % 2 ^ nbits)) :: s.pending }

end Sys2Proof.Machine
end

