-- ==== Sys2Proof/Machine/Step.lean ====
section
/-! DEFINITION. One step of the machine. -/

namespace Sys2Proof.Machine

/-- One step: the host's next action, of which a CMD write runs one command (10_state.md R26, R40). -/
def step : State → Host.Outcome State Fault Refusal := runPending

/-- The state in which the very next step is a CMD write of this command word (10_state.md R25, R40): the block
fetches no instruction from memory, so the word stands at the head of the host's actions. -/
def State.withFetchWord (s : State) (nbits w : Nat) : State := pushCommand s nbits w

end Sys2Proof.Machine
end

