-- ==== Sys2Proof/Safety.lean ====
section
/-! DEFINITION. The terms the claims about P2P-CORE use: a footprint the launch memory covers, aligned rows, what a
converted row holds, what a command reads, which CMD writes are illegal, and the invariant of the machine. -/

namespace Sys2Proof.Machine

/-! ### A footprint that can be accessed (20_memory.md R64, R67) -/

/-- Every byte of the region exists and is in the launch memory. -/
def Bus.ready (b : Bus) (r : Region) : Bool := b.inSpace r.base r.len && admitsAll b.admitSet r.base r.len

/-- Every byte of the footprint exists and is in the launch memory. -/
def Footprint.ready (f : Footprint) (b : Bus) : Bool := (f.reads ++ f.writes).all b.ready

end Sys2Proof.Machine

namespace Sys2Proof
open Machine

/-- The packed pointer and every active plane pointer obey ALIGN_CHECK (20_memory.md R67). -/
def Layout.alignedRow (d : Layout) (b : Bus) (packed : Int) (p : Planes) : Bool :=
  b.alignedTo packed (unitAlign d.pkb)
    && Channel.all.all fun c => !d.active p c || b.alignedTo (p.get c) d.eb

end Sys2Proof

namespace Sys2Proof.Machine

/-- The pointers of a v210 row obey ALIGN_CHECK (20_memory.md R67, 42_v210.md R202). -/
def v210AlignedRow (b : Bus) (packed : Int) (p : Planes) : Bool :=
  b.alignedTo packed 4 && b.alignedTo p.y 2 && b.alignedTo p.u 2 && b.alignedTo p.v 2

/-! ### What a converted row holds -/

/-- The value of a planar element of `eb` bytes (20_memory.md R65). -/
def planarValue (o : ByteOrder) (m : Memory) (a : Int) (eb : Nat) : Nat := natOfBytes o (m.readBytes a.toNat eb)

end Sys2Proof.Machine

namespace Sys2Proof
open Machine

/-- The value of a packed unit (20_memory.md R63). -/
def Layout.unitValue (d : Layout) (m : Memory) (a : Int) : Nat := natOfBytes d.tag (m.readBytes a.toNat d.pkb)

/-- Where unit `u` of the range that starts at pixel `left` lies (20_memory.md R62). -/
def Layout.unitAddr (d : Layout) (packed : Int) (left u : Nat) : Int := packed + ((left / d.ppp + u) * d.pkb : Nat)

/-- Where the element of slot `k` of that unit lies: its channel's elements stand in pixel order, those of one unit
in slot order (20_memory.md R65, 41_scanline.md R175, R177). -/
def Layout.elemAddr (d : Layout) (p : Planes) (left u k : Nat) (c : Channel) : Int :=
  p.get c + ((d.elem c left + (u * d.count c + countSlots c (d.slots.toList.take k))) * d.eb : Nat)

/-- `m'` holds the planes of the units of `m` over a range: each active slot's element is the slot's field
(41_scanline.md R176). A null pointer switches an alpha off. -/
def Layout.Unpacked (d : Layout) (o : ByteOrder) (m m' : Memory) (packed : Int) (p : Planes) (left right : Nat) :
    Prop :=
  ∀ u < d.units left right, ∀ (k : Fin 4) (c : Channel) (sh dp : Nat), d.slots[k] = .field c sh dp →
    p.get c ≠ 0 →
    planarValue o m' (d.elemAddr p left u k c) d.eb = d.unitValue m (d.unitAddr packed left u) / 2 ^ sh % 2 ^ dp

/-- `m'` holds the units of the planes of `m` over a range: a slot holds the low bits of its element, an absent
alpha's slot all ones or zero by the fill policy, and every other bit is 0 (41_scanline.md R180 to R182). -/
def Layout.Packed (d : Layout) (o : ByteOrder) (fill : Bool) (m m' : Memory) (packed : Int) (p : Planes)
    (left right : Nat) : Prop :=
  ∀ u < d.units left right,
    (∀ (k : Fin 4) (c : Channel) (sh dp : Nat), d.slots[k] = .field c sh dp →
      d.unitValue m' (d.unitAddr packed left u) / 2 ^ sh % 2 ^ dp =
        if p.get c = 0 then (if fill then 2 ^ dp - 1 else 0)
        else planarValue o m (d.elemAddr p left u k c) d.eb % 2 ^ dp) ∧
    (∀ j, (∀ (k : Fin 4) (c : Channel) (sh dp : Nat), d.slots[k] = .field c sh dp → ¬(sh ≤ j ∧ j < sh + dp)) →
      (d.unitValue m' (d.unitAddr packed left u)).testBit j = false)

end Sys2Proof

namespace Sys2Proof.Machine

/-- The v210 group layout (42_v210.md R201): sample `sample` of a channel sits in word `word` from bit `shift` up. -/
structure V210Field where
  channel : Channel
  sample : Nat
  word : Nat
  shift : Nat
  deriving DecidableEq, Repr

/-- The table of 42_v210.md R201, row by row. -/
def v210Table : List V210Field :=
  [⟨.u, 0, 0, 0⟩, ⟨.y, 0, 0, 10⟩, ⟨.v, 0, 0, 20⟩,
   ⟨.y, 1, 1, 0⟩, ⟨.u, 1, 1, 10⟩, ⟨.y, 2, 1, 20⟩,
   ⟨.v, 1, 2, 0⟩, ⟨.y, 3, 2, 10⟩, ⟨.u, 2, 2, 20⟩,
   ⟨.y, 4, 3, 0⟩, ⟨.v, 2, 3, 10⟩, ⟨.y, 5, 3, 20⟩]

/-- Word `i` of group `g` of the range that starts at pixel `left` (42_v210.md R202, R207). -/
def v210Word (tag : ByteOrder) (m : Memory) (packed : Int) (left g i : Nat) : Nat :=
  natOfBytes tag (m.readBytes (packed + ((left / 6 + g) * 16 + 4 * i : Nat)).toNat 4)

/-- Where sample `k` of a channel of group `g` lies: Y advances 6 elements a group, U and V 3 (42_v210.md R207). -/
def v210Elem (p : Planes) (left g : Nat) (c : Channel) (k : Nat) : Int :=
  match c with
  | .y => p.y + (2 * (left + 6 * g + k) : Nat)
  | .u => p.u + (2 * (left / 2 + 3 * g + k) : Nat)
  | .v => p.v + (2 * (left / 2 + 3 * g + k) : Nat)
  | .a => p.a

/-- `m'` holds the samples of the groups of `m` over a range (42_v210.md R204). -/
def V210Unpacked (tag o : ByteOrder) (m m' : Memory) (packed : Int) (p : Planes) (left right : Nat) : Prop :=
  ∀ g < v210Groups left right, ∀ e ∈ v210Table,
    planarValue o m' (v210Elem p left g e.channel e.sample) 2
      = v210Word tag m packed left g e.word / 2 ^ e.shift % 2 ^ 10

/-- `m'` holds the groups of the samples of `m` over a range; bits 31:30 of every word are 0 (42_v210.md R205). -/
def V210Packed (tag o : ByteOrder) (m m' : Memory) (packed : Int) (p : Planes) (left right : Nat) : Prop :=
  ∀ g < v210Groups left right,
    (∀ e ∈ v210Table, v210Word tag m' packed left g e.word / 2 ^ e.shift % 2 ^ 10
      = planarValue o m (v210Elem p left g e.channel e.sample) 2 % 2 ^ 10) ∧
    ∀ i < 4, v210Word tag m' packed left g i < 2 ^ 30

/-- Every byte outside the regions a footprint writes reads as before. -/
def UnwrittenBytesKept (f : Footprint) (m m' : Memory) : Prop :=
  ∀ a : Nat, (f.writes.any fun r => r.has a) = false → m'.read a = m.read a

/-- Every byte outside the footprint reads as before. -/
def OutsideKept (f : Footprint) (m m' : Memory) : Prop := ∀ a : Nat, f.has a = false → m'.read a = m.read a

end Sys2Proof.Machine

namespace Sys2Proof
open Machine

/-- The row of either CLASS is aligned. -/
def Descriptor.alignedRow (desc : Descriptor) (b : Bus) (packed : Int) (p : Planes) : Bool :=
  match desc with
  | .generic d => d.alignedRow b packed p
  | .v210 _ => v210AlignedRow b packed p

/-- `m'` holds the planes of a packed row of `m`, for either CLASS. -/
def Descriptor.Unpacked (desc : Descriptor) (o : ByteOrder) (m m' : Memory) (packed : Int) (p : Planes)
    (left right : Nat) : Prop :=
  match desc with
  | .generic d => d.Unpacked o m m' packed p left right
  | .v210 tag => V210Unpacked tag o m m' packed p left right

/-- `m'` holds the packed row of the planes of `m`, for either CLASS; v210 has no fill (42_v210.md R206). -/
def Descriptor.Packed (desc : Descriptor) (o : ByteOrder) (fill : Bool) (m m' : Memory) (packed : Int) (p : Planes)
    (left right : Nat) : Prop :=
  match desc with
  | .generic d => d.Packed o fill m m' packed p left right
  | .v210 tag => V210Packed tag o m m' packed p left right

end Sys2Proof

namespace Sys2Proof.Machine

/-- `m'` holds the luma plane of `m`, byte for byte, if the copy runs (44_frame.md R245). -/
def LumaCopied (l : Option LumaCopy) (m m' : Memory) : Prop :=
  ∀ c, l = some c → ∀ y < c.nrows, ∀ i < c.nbytes,
    m'.read (c.dst + y * c.dstStride + i).toNat = m.read (c.src + y * c.srcStride + i).toNat

/-! ### The argument registers of a command, as words (10_state.md R22, R39) -/

/-- The words of the seven registers a line command reads. -/
structure LineWords where
  packed : Word
  y : Word
  u : Word
  v : Word
  a : Word
  left : Word
  right : Word
  deriving DecidableEq, Repr

/-- The operands those words give: pointers and pixel positions as integers. -/
def LineWords.operands (w : LineWords) : LineOperands :=
  { packed := w.packed.toNat, planes := ⟨w.y.toNat, w.u.toNat, w.v.toNat, w.a.toNat⟩
    left := w.left.toNat, right := w.right.toNat }

/-- No pointer has a bit at or above ADDR_W, and LEFT and RIGHT are below 2^32 (10_state.md R22). -/
def LineWords.fit (w : LineWords) (addrW : Nat) : Bool :=
  [w.packed, w.y, w.u, w.v, w.a].all (fun x => decide (x.toNat < 2 ^ addrW))
    && decide (w.left.toNat < 2 ^ 32) && decide (w.right.toNat < 2 ^ 32)

/-- The registers of UNPACK_LINE hold these words: SRC0, DST0 to DST3, LEFT, RIGHT (10_state.md R39). -/
def unpackLineHeld (s : State) (w : LineWords) : Bool :=
  s.regs.get (.src 0) == .value w.packed && s.regs.get (.dst 0) == .value w.y && s.regs.get (.dst 1) == .value w.u
    && s.regs.get (.dst 2) == .value w.v && s.regs.get (.dst 3) == .value w.a
    && s.regs.get .left == .value w.left && s.regs.get .right == .value w.right

/-- The registers of PACK_LINE hold these words: DST0, SRC0 to SRC3, LEFT, RIGHT (10_state.md R39). -/
def packLineHeld (s : State) (w : LineWords) : Bool :=
  s.regs.get (.dst 0) == .value w.packed && s.regs.get (.src 0) == .value w.y && s.regs.get (.src 1) == .value w.u
    && s.regs.get (.src 2) == .value w.v && s.regs.get (.src 3) == .value w.a
    && s.regs.get .left == .value w.left && s.regs.get .right == .value w.right

/-- The words of one plane's four registers. -/
structure PlaneWords where
  src : Word
  srcStride : Word
  dst : Word
  dstStride : Word
  deriving DecidableEq, Repr

/-- The words of the eighteen registers a frame command reads. -/
structure FrameWords where
  width : Word
  height : Word
  p0 : PlaneWords
  p1 : PlaneWords
  p2 : PlaneWords
  p3 : PlaneWords
  deriving DecidableEq, Repr

/-- The operands those words give: strides are signed (00_scope.md R9). -/
def FrameWords.operands (w : FrameWords) : FrameOperands :=
  { width := w.width.toNat, height := w.height.toNat
    src := ⟨w.p0.src.toNat, w.p1.src.toNat, w.p2.src.toNat, w.p3.src.toNat⟩
    srcStride := ⟨w.p0.srcStride.toInt, w.p1.srcStride.toInt, w.p2.srcStride.toInt, w.p3.srcStride.toInt⟩
    dst := ⟨w.p0.dst.toNat, w.p1.dst.toNat, w.p2.dst.toNat, w.p3.dst.toNat⟩
    dstStride := ⟨w.p0.dstStride.toInt, w.p1.dstStride.toInt, w.p2.dstStride.toInt, w.p3.dstStride.toInt⟩ }

/-- No pointer has a bit at or above ADDR_W, and WIDTH and HEIGHT are below 2^32 (10_state.md R22). -/
def FrameWords.fit (w : FrameWords) (addrW : Nat) : Bool :=
  [w.p0, w.p1, w.p2, w.p3].all (fun p => decide (p.src.toNat < 2 ^ addrW) && decide (p.dst.toNat < 2 ^ addrW))
    && decide (w.width.toNat < 2 ^ 32) && decide (w.height.toNat < 2 ^ 32)

/-- The four registers of a plane hold these words. -/
def planeHeld (s : State) (p : Fin 4) (w : PlaneWords) : Bool :=
  s.regs.get (.src p) == .value w.src && s.regs.get (.srcStride p) == .value w.srcStride
    && s.regs.get (.dst p) == .value w.dst && s.regs.get (.dstStride p) == .value w.dstStride

/-- The eighteen registers of a frame command hold these words (10_state.md R39). -/
def frameHeld (s : State) (w : FrameWords) : Bool :=
  s.regs.get .width == .value w.width && s.regs.get .height == .value w.height
    && planeHeld s 0 w.p0 && planeHeld s 1 w.p1 && planeHeld s 2 w.p2 && planeHeld s 3 w.p3

/-! ### Admitted ranges -/

/-- A v210 range is admitted (42_v210.md R203). -/
def v210Admits (left right : Nat) : Bool := decide (left ≤ right) && left % 6 == 0 && right % 6 == 0

end Sys2Proof.Machine

namespace Sys2Proof
open Machine

/-- A range is admitted for a GENERIC descriptor (41_scanline.md R172). -/
def Layout.admits (d : Layout) (left right : Nat) : Bool :=
  decide (left ≤ right) && left % d.ppp == 0 && right % d.ppp == 0

/-- A range is admitted by the row function of the descriptor's CLASS (44_frame.md R247 step 2). -/
def Descriptor.admits (desc : Descriptor) (left right : Nat) : Bool :=
  match desc with
  | .generic d => d.admits left right
  | .v210 _ => v210Admits left right

/-- The fault of a range that is not admitted: RANGE, or V210_RANGE (41_scanline.md R172, 42_v210.md R203). -/
def Descriptor.rangeFault (desc : Descriptor) : FaultReason :=
  match desc with
  | .generic _ => .range
  | .v210 _ => .v210Range

end Sys2Proof

namespace Sys2Proof.Machine

/-! ### What a command reads (10_state.md R39) -/

/-- The registers of plane `p`, in the order the frame commands read them (44_frame.md R241). -/
def planeArgs (p : Fin 4) : List ArgName := [.src p, .srcStride p, .dst p, .dstStride p]

/-- The argument registers a command reads, in order (10_state.md R39, 60_exceptions.md R272 step 4). -/
def registersRead : Instr → List ArgName
  | .extract _ _ => [.bfxIn]
  | .align _ _ => [.bfxIn]
  | .unpackLineV210 _ => [.src 0, .dst 0, .dst 1, .dst 2, .dst 3, .left, .right]
  | .unpackLine _ => [.src 0, .dst 0, .dst 1, .dst 2, .dst 3, .left, .right]
  | .packLineV210 _ _ => [.src 0, .src 1, .src 2, .src 3, .dst 0, .left, .right]
  | .packLine _ _ => [.src 0, .src 1, .src 2, .src 3, .dst 0, .left, .right]
  | .unpackFrame _ _ _ => [.width, .height] ++ planeArgs 0 ++ planeArgs 1 ++ planeArgs 2 ++ planeArgs 3
  | .packFrame _ _ _ => [.width, .height] ++ planeArgs 0 ++ planeArgs 1 ++ planeArgs 2 ++ planeArgs 3
  | .selectU _ => []
  | .selectP _ _ => []

/-- The fault a command's read of a register raises (10_state.md R22, R23): UNWRITTEN, then RANGE for a dimension of
more than 32 bits, or ADDR_WRAP for a pointer of more than ADDR_W bits. -/
def operandFault (s : State) (n : ArgName) : Option FaultReason :=
  match s.regs.get n with
  | .unwritten => some .unwritten
  | .value w =>
    match n with
    | .left => if 2 ^ 32 ≤ w.toNat then some .range else none
    | .right => if 2 ^ 32 ≤ w.toNat then some .range else none
    | .width => if 2 ^ 32 ≤ w.toNat then some .range else none
    | .height => if 2 ^ 32 ≤ w.toNat then some .range else none
    | .src _ => if 2 ^ s.cfg.addrW ≤ w.toNat then some .addrWrap else none
    | .dst _ => if 2 ^ s.cfg.addrW ≤ w.toNat then some .addrWrap else none
    | .srcStride _ => none
    | .dstStride _ => none
    | .bfxIn => none
    | .bfxOut => none

/-- EXTRACT and ALIGN name a non-padding slot of a GENERIC format (40_bitfield.md R152); no other command does. -/
def namesSlot (s : State) : Instr → Bool
  | .extract f k => slotNamed f k
  | .align f k => slotNamed f k
  | .unpackLineV210 _ => true
  | .unpackLine _ => true
  | .packLineV210 _ _ => true
  | .packLine _ _ => true
  | .unpackFrame _ _ _ => true
  | .packFrame _ _ _ => true
  | .selectU _ => true
  | .selectP _ _ => true
where
  /-- The slot of a format is a field. -/
  slotNamed (f : Fmt) (k : BitVec 2) : Bool :=
    match s.cfg.catalog[f.toNat]? with
    | some (.generic d) => d.slots[k.toNat] != .pad
    | some (.v210 _) => false
    | none => false

/-- The footprint of a command in a state (20_memory.md R60, R69 to R71, R82); none for a command that accesses no
memory or whose register reads fault. -/
def commandFootprint (i : Instr) (s : State) : Footprint :=
  match i with
  | .extract _ _ => ⟨[], []⟩
  | .align _ _ => ⟨[], []⟩
  | .selectU _ => ⟨[], []⟩
  | .selectP _ _ => ⟨[], []⟩
  | .unpackLineV210 _ => (lineOf s.unpackLineOperands v210UnpackFootprint)
  | .packLineV210 _ _ => (lineOf s.packLineOperands v210PackFootprint)
  | .unpackLine f => genericOf s f fun d => lineOf s.unpackLineOperands d.unpackFootprint
  | .packLine f _ => genericOf s f fun d => lineOf s.packLineOperands d.packFootprint
  | .unpackFrame f skip _ =>
    frameOf s f fun r desc o => (unpackPlan r skip o).unpackFootprint desc
  | .packFrame f skip _ =>
    frameOf s f fun r desc o => (packPlan r skip o).packFootprint desc
where
  /-- The footprint of a line command from its operands. -/
  lineOf (o : Except FaultReason LineOperands) (k : LineOperands → Footprint) : Footprint :=
    match o with
    | .ok o => k o
    | .error _ => ⟨[], []⟩
  /-- The footprint of a GENERIC format. -/
  genericOf (s : State) (f : Fmt) (k : Layout → Footprint) : Footprint :=
    match s.cfg.catalog[f.toNat]? with
    | some (.generic d) => k d
    | some (.v210 _) => ⟨[], []⟩
    | none => ⟨[], []⟩
  /-- The footprint of a frame command from its registry entry, descriptor and operands. -/
  frameOf (s : State) (f : Fmt) (k : RegistryEntry → Descriptor → FrameOperands → Footprint) : Footprint :=
    match registry f, s.cfg.catalog[f.toNat]?, s.frameOperands with
    | some r, some desc, .ok o => k r desc o
    | _, _, _ => ⟨[], []⟩

/-! ### The accesses of a command, in reference order (00_scope.md R12; 60_exceptions.md R272 step 8) -/

/-- One access: its address, its bytes, and the alignment ALIGN_CHECK asks of it (20_memory.md R67, R68). -/
structure Access where
  addr : Int
  len : Nat
  align : Nat
  deriving DecidableEq, Repr

/-- The reason of the first access that does not pass its checks; none if all pass (60_exceptions.md R272 step 8). -/
def Bus.firstFault (b : Bus) : List Access → Option FaultReason
  | [] => none
  | x :: rest =>
    match b.check x.addr x.len x.align with
    | .error r => some r
    | .ok () => b.firstFault rest

end Sys2Proof.Machine

namespace Sys2Proof
open Machine

/-- The access to packed unit `u` of the range that starts at pixel `left` (41_scanline.md R170). -/
def Layout.unitAccess (d : Layout) (packed : Int) (left u : Nat) : Access :=
  ⟨d.unitAddr packed left u, d.pkb, unitAlign d.pkb⟩

/-- The accesses to that unit's planar elements, slot by slot; none for padding or an absent alpha (41_scanline.md
R175, R179). -/
def Layout.elemAccesses (d : Layout) (p : Planes) (left u : Nat) : List Access :=
  d.slots.toList.zipIdx.filterMap fun s => match s.1 with
    | .pad => none
    | .field c _ _ => if p.get c = 0 then none else some ⟨d.elemAddr p left u s.2 c, d.eb, d.eb⟩

/-- The accesses of UnpackRow: each unit, then its elements (41_scanline.md R176). -/
def Layout.unpackAccesses (d : Layout) (packed : Int) (p : Planes) (left right : Nat) : List Access :=
  (List.range (d.units left right)).flatMap fun u => d.unitAccess packed left u :: d.elemAccesses p left u

/-- The accesses of PackRow: each unit's elements, then the unit (41_scanline.md R182). -/
def Layout.packAccesses (d : Layout) (packed : Int) (p : Planes) (left right : Nat) : List Access :=
  (List.range (d.units left right)).flatMap fun u => d.elemAccesses p left u ++ [d.unitAccess packed left u]

end Sys2Proof

namespace Sys2Proof.Machine

/-- The accesses to the four words of group `g` (42_v210.md R202). -/
def v210WordAccesses (packed : Int) (left g : Nat) : List Access :=
  (List.range 4).map fun i => ⟨packed + ((left / 6 + g) * 16 + 4 * i : Nat), 4, 4⟩

/-- The accesses to its samples: Y0 to Y5, U0 to U2, V0 to V2 (42_v210.md R204, R205). -/
def v210SampleAccesses (p : Planes) (left g : Nat) : List Access :=
  ((List.range 6).map fun k => ⟨v210Elem p left g .y k, 2, 2⟩)
    ++ ((List.range 3).map fun k => ⟨v210Elem p left g .u k, 2, 2⟩)
    ++ ((List.range 3).map fun k => ⟨v210Elem p left g .v k, 2, 2⟩)

/-- The accesses of UnpackV210 (42_v210.md R204). -/
def v210UnpackAccesses (packed : Int) (p : Planes) (left right : Nat) : List Access :=
  (List.range (v210Groups left right)).flatMap fun g => v210WordAccesses packed left g ++ v210SampleAccesses p left g

/-- The accesses of PackV210 (42_v210.md R205). -/
def v210PackAccesses (packed : Int) (p : Planes) (left right : Nat) : List Access :=
  (List.range (v210Groups left right)).flatMap fun g => v210SampleAccesses p left g ++ v210WordAccesses packed left g

end Sys2Proof.Machine

namespace Sys2Proof
open Machine

/-- The accesses of the unpack row function. -/
def Descriptor.unpackAccesses (desc : Descriptor) (packed : Int) (p : Planes) (left right : Nat) : List Access :=
  match desc with
  | .generic d => d.unpackAccesses packed p left right
  | .v210 _ => v210UnpackAccesses packed p left right

/-- The accesses of the pack row function. -/
def Descriptor.packAccesses (desc : Descriptor) (packed : Int) (p : Planes) (left right : Nat) : List Access :=
  match desc with
  | .generic d => d.packAccesses packed p left right
  | .v210 _ => v210PackAccesses packed p left right

end Sys2Proof

namespace Sys2Proof.Machine

/-- The accesses of the luma copy: each row is read, then written (44_frame.md R245). -/
def lumaAccesses : Option LumaCopy → List Access
  | none => []
  | some l => (List.range l.nrows).flatMap fun (y : Nat) =>
    [⟨l.src + y * l.srcStride, l.nbytes, 1⟩, ⟨l.dst + y * l.dstStride, l.nbytes, 1⟩]

/-- The accesses of UNPACK_FRAME: the luma copy, then the rows (44_frame.md R241, R247). -/
def FramePlan.unpackAccesses (p : FramePlan) (desc : Descriptor) : List Access :=
  lumaAccesses p.luma ++
    (List.range p.rows).flatMap fun y => desc.unpackAccesses (p.packedRow y) (p.planesRow y) 0 p.width

/-- The accesses of PACK_FRAME: the luma copy, then the rows (44_frame.md R243, R247). -/
def FramePlan.packAccesses (p : FramePlan) (desc : Descriptor) : List Access :=
  lumaAccesses p.luma ++
    (List.range p.rows).flatMap fun y => desc.packAccesses (p.packedRow y) (p.planesRow y) 0 p.width

/-! ### The catalog as the spec prints it (30_encoding.md R112 to R117) -/

/-- A row of the catalog's tables: the ids, PLW, PKW, PPP, SS, and COMP_MASK, SHIFT_MASK and DEPTH_MASK (R103). -/
structure CatalogRow where
  ids : List Nat
  plw : Nat
  pkw : Nat
  ppp : Nat
  ss : Nat
  comp : Nat
  shift : Nat
  depth : Nat

/-- R112 to R115: rgb24 to rgba32, rgb48 to bgr48, rgb30, y410 to y416. -/
def catalogRows444 : List CatalogRow :=
  [⟨[0, 1], 8, 24, 1, 0, 0xFF000102, 0x00100800, 0x00080808⟩,
   ⟨[2, 3], 8, 32, 1, 0, 0x03000102, 0x18100800, 0x08080808⟩,
   ⟨[4, 5], 8, 32, 1, 0, 0x00010203, 0x18100800, 0x08080808⟩,
   ⟨[6, 7], 16, 48, 1, 0, 0xFF000102, 0x00201000, 0x00101010⟩,
   ⟨[8, 9], 16, 64, 1, 0, 0x03000102, 0x30201000, 0x10101010⟩,
   ⟨[10, 11], 16, 64, 1, 0, 0x00010203, 0x30201000, 0x10101010⟩,
   ⟨[12, 13], 16, 64, 1, 0, 0x03020100, 0x30201000, 0x10101010⟩,
   ⟨[14, 15], 16, 64, 1, 0, 0x02010003, 0x30201000, 0x10101010⟩,
   ⟨[16, 17], 16, 48, 1, 0, 0xFF020100, 0x00201000, 0x00101010⟩,
   ⟨[18, 19], 16, 32, 1, 0, 0xFF000102, 0x00140A00, 0x000A0A0A⟩,
   ⟨[20, 21], 16, 32, 1, 0, 0x03020001, 0x1E140A00, 0x020A0A0A⟩,
   ⟨[22, 23], 16, 64, 1, 0, 0x03020001, 0x34241404, 0x0C0C0C0C⟩,
   ⟨[24, 25], 16, 64, 1, 0, 0x03020001, 0x30201000, 0x10101010⟩]

/-- R116 and R117: yuy2 to v216, nv12 to p216. -/
def catalogRows422 : List CatalogRow :=
  [⟨[26], 8, 32, 2, 1, 0x02000100, 0x18100800, 0x08080808⟩,
   ⟨[27], 8, 32, 2, 1, 0x00020001, 0x18100800, 0x08080808⟩,
   ⟨[28, 29], 16, 64, 2, 1, 0x02000100, 0x36261606, 0x0A0A0A0A⟩,
   ⟨[30, 31], 16, 64, 2, 1, 0x02000100, 0x34241404, 0x0C0C0C0C⟩,
   ⟨[32, 33], 16, 64, 2, 1, 0x02000100, 0x30201000, 0x10101010⟩,
   ⟨[36, 37], 16, 64, 2, 1, 0x00020001, 0x30201000, 0x10101010⟩,
   ⟨[38, 39], 8, 16, 2, 1, 0xFFFF0201, 0x00000800, 0x00000808⟩,
   ⟨[40, 41], 16, 32, 2, 1, 0xFFFF0201, 0x00001606, 0x00000A0A⟩,
   ⟨[42, 43], 16, 32, 2, 1, 0xFFFF0201, 0x00001404, 0x00000C0C⟩,
   ⟨[44, 45], 16, 32, 2, 1, 0xFFFF0201, 0x00001000, 0x00001010⟩,
   ⟨[46, 47], 16, 32, 2, 1, 0xFFFF0201, 0x00001606, 0x00000A0A⟩,
   ⟨[48, 49], 16, 32, 2, 1, 0xFFFF0201, 0x00001000, 0x00001010⟩]

/-- The fault reasons a command may raise once it has decoded (60_exceptions.md R270): its row's "raised by", with
V210_RANGE only on a v210 format and MISALIGNED only when ALIGN_CHECK is true. -/
def mayRaise (s : State) (i : Instr) (r : FaultReason) : Bool :=
  match r with
  | .illegalCmd => false
  | .badFormat => !i.formatNamed
  | .formatOp => isBfx && classOf i.fmt == some .v210
  | .padSlot => isBfx && classOf i.fmt == some .generic
  | .unwritten => !isSelect
  | .range => isMemory
  | .v210Range => isMemory && classOf i.fmt == some .v210
  | .nullPtr => isMemory
  | .addrWrap => isMemory
  | .overlap => isMemory
  | .misaligned => isMemory && s.cfg.alignCheck
  | .buffer => isMemory
where
  /-- EXTRACT or ALIGN. -/
  isBfx : Bool := match i with
    | .extract _ _ => true
    | .align _ _ => true
    | .unpackLineV210 _ => false
    | .unpackLine _ => false
    | .packLineV210 _ _ => false
    | .packLine _ _ => false
    | .unpackFrame _ _ _ => false
    | .packFrame _ _ _ => false
    | .selectU _ => false
    | .selectP _ _ => false
  /-- SELECT. -/
  isSelect : Bool := match i with
    | .extract _ _ => false
    | .align _ _ => false
    | .unpackLineV210 _ => false
    | .unpackLine _ => false
    | .packLineV210 _ _ => false
    | .packLine _ _ => false
    | .unpackFrame _ _ _ => false
    | .packFrame _ _ _ => false
    | .selectU _ => true
    | .selectP _ _ => true
  /-- One of the four memory commands. -/
  isMemory : Bool := !isBfx && !isSelect

/-! ### CMD writes (30_encoding.md R93, R96) -/

/-- OP of a CMD write, bits 3:0. -/
def cmdOp (v : Word) : Nat := v.toNat % 16

/-- FMT of a CMD write, bits 13:8. -/
def cmdFmt (v : Word) : Nat := v.toNat / 256 % 64

/-- A must-be-zero field of 30_encoding.md R93 is set: SLOT (bits 5:4), SEL_PACK (6), SKIP (16), ALPHA_SET_ONE (17). -/
def mustBeZeroSet (v : Word) : Prop :=
  let slot := v.getLsbD 4 = true ∨ v.getLsbD 5 = true
  let sel := v.getLsbD 6 = true
  let skip := v.getLsbD 16 = true
  let one := v.getLsbD 17 = true
  (cmdOp v = 1 ∧ (sel ∨ skip ∨ one)) ∨ (cmdOp v = 2 ∧ (sel ∨ skip ∨ one)) ∨
  (cmdOp v = 3 ∧ (slot ∨ sel ∨ skip ∨ one)) ∨ (cmdOp v = 4 ∧ (slot ∨ sel ∨ skip)) ∨
  (cmdOp v = 5 ∧ (slot ∨ sel)) ∨ (cmdOp v = 6 ∧ (slot ∨ sel)) ∨
  (cmdOp v = 7 ∧ (slot ∨ skip ∨ (¬ sel ∧ one)))

/-- The illegal CMD writes of 30_encoding.md R96: a reserved OP, a reserved bit (7, 15:14, 31:18) or a bit of 63:32
set, or a must-be-zero field set. -/
def IllegalCmd (v : Word) : Prop :=
  cmdOp v = 0 ∨ 8 ≤ cmdOp v ∨
  (∃ i, (i = 7 ∨ i = 14 ∨ i = 15 ∨ 18 ≤ i) ∧ v.getLsbD i = true) ∨ mustBeZeroSet v

/-! ### Host actions -/

/-- The state when a CMD write comes to its launch: the host's next action is this CMD write (10_state.md R25). -/
def cmdWriteNext (s : State) (v : Word) (rest : List HostAction) : Prop :=
  catalogOk s.cfg.catalog = true ∧ s.pending = .regWrite 0 8 v :: rest

/-- The next step is a reset: the host's next action is reset, or a CMD write stuck in Faulted that reset follows. -/
def resetNext (s : State) : Prop :=
  (∃ rest, s.pending = .reset :: rest) ∨
  ((∃ r, s.status = .faulted r) ∧ ∃ v rest, s.pending = .regWrite 0 8 v :: .reset :: rest)

/-! ### The invariant of the machine -/

/-- Host memory is in canonical form and lists only addresses that exist; every RESOLVED entry of the dispatch cache
holds the handle of ACCEL_TABLE (43_registry_dispatch.md R226). -/
structure State.Inv (s : State) : Prop where
  memWf : Memory.wf s.mem = true
  memInSpace : ∀ c ∈ s.mem, c.1 < 2 ^ s.cfg.addrW
  cacheTrue : ∀ (f : Fmt) (k : Key) (h : Byte), s.cacheAt f k = .resolved h → h = accelHandle f k s.cfg.accel

end Sys2Proof.Machine
end

