-- ==== Sys2Proof/Certificates/Slice0/Obligations.lean ====
section
/-! DEFINITION. The statements about P2P-CORE for the provers. A state's catalog passes its checks wherever a statement
needs the descriptors (70_reset_and_hazards.md R301: another catalog is refused), and its memory is in canonical form
wherever it reads memory back (`Obligations.StepKeepsInv` says that every step keeps that form). -/

open Sys2Proof Sys2Proof.Machine

/-! ### Decoding (30_encoding.md) -/

/-- Every well-formed command decodes from its encoding, with every operand at every value (30_encoding.md R91 to
R95). -/
def Obligations.DecodeOfEncode : Prop := ∀ i : Instr, i.wellFormed = true → decodeCmd (encodeCmd i) = .ok i

/-- A CMD write that decodes is the encoding of the command it decodes to, which is well-formed: each command has
one encoding (30_encoding.md R90 to R97). -/
def Obligations.EncodeOfDecode : Prop :=
  ∀ (v : Word) (i : Instr), decodeCmd v = .ok i → i.wellFormed = true ∧ encodeCmd i = v

/-- A few command words of the spec, written out, decode to their commands (95_test_vectors.md 2.1). -/
def Obligations.SampleWords : Prop :=
  decodeCmd 0x1531 = .ok (.extract 21 3) ∧ decodeCmd 0x1D02 = .ok (.align 29 0) ∧
  decodeCmd 0x2303 = .ok (.unpackLineV210 35) ∧ decodeCmd 0x2403 = .ok (.unpackLine 36) ∧
  decodeCmd 0x2204 = .ok (.packLineV210 34 false) ∧ decodeCmd 0x20204 = .ok (.packLine 2 true) ∧
  decodeCmd 0x22705 = .ok (.unpackFrame 39 false true) ∧ decodeCmd 0x32806 = .ok (.packFrame 40 true true) ∧
  decodeCmd 0x2307 = .ok (.selectU 35) ∧ decodeCmd 0x20247 = .ok (.selectP 2 true)

/-- The illegal CMD writes are those R96 lists, they alone fail to decode with ILLEGAL_CMD, and a step that launches
one raises that fault and changes nothing else (30_encoding.md R96). -/
def Obligations.IllegalWordsFault : Prop :=
  (∀ v : Word, decodeCmd v = .error .illegalCmd ↔ IllegalCmd v) ∧
  ∀ (s : State) (v : Word) (rest : List HostAction), cmdWriteNext s v rest → s.status = .idle → IllegalCmd v →
    step s = .next { s with pending := rest, status := .faulted .illegalCmd }

/-- FMT 50 to 63 names no format, and a command with such an FMT raises BAD_FORMAT and changes nothing else
(30_encoding.md R97). -/
def Obligations.UnnamedFormatsFault : Prop :=
  (∀ f : Fmt, registry f = none ↔ 50 ≤ f.toNat) ∧
  ∀ (s : State) (v : Word) (rest : List HostAction), cmdWriteNext s v rest → s.status = .idle → ¬ IllegalCmd v →
    50 ≤ cmdFmt v → step s = .next { s with pending := rest, status := .faulted .badFormat }

/-- A CMD write in Idle that decodes to a command runs exactly that command, in the state whose host action it has
left (10_state.md R26, R40). -/
def Obligations.StepRunsDecodedCommand : Prop :=
  ∀ (s : State) (v : Word) (rest : List HostAction) (i : Instr), cmdWriteNext s v rest → s.status = .idle →
    decodeCmd v = .ok i → step s = exec i { s with pending := rest }

/-! ### Catalog and registry (10_state.md R28 to R32, 30_encoding.md R105 to R119) -/

/-- Every GENERIC descriptor of an accepted catalog meets R30: its slots fit and share no bit. It also meets the
conditions (a) to (d) of R31. -/
def Obligations.AcceptedDescriptors : Prop :=
  ∀ (cat : List Descriptor) (n : Nat) (d : Layout), catalogOk cat = true → cat[n]? = some (.generic d) →
    (∀ (i : Fin 4) (c : Channel) (sh dp : Nat), d.slots[i] = .field c sh dp →
      sh + dp ≤ d.pkw ∧ 1 ≤ dp ∧ dp ≤ d.plw ∧
      ∀ (j : Fin 4) (c' : Channel) (sh' dp' : Nat), d.slots[j] = .field c' sh' dp' → i ≠ j →
        ∀ b : Nat, ¬ ((sh ≤ b ∧ b < sh + dp) ∧ (sh' ≤ b ∧ b < sh' + dp'))) ∧
    d.ppp % 2 ^ d.ss = 0 ∧
    (∀ c : Channel, 0 < d.count c →
      d.count c = if (c = .u ∨ c = .v) ∧ 0 < d.ss then d.ppp / 2 ^ d.ss else d.ppp) ∧
    d.count .a ≤ 1

/-- The default catalog passes its checks, the two members of every pair differ only in TAG, and every GENERIC entry is the
row the spec prints for its id, masks included (10_state.md R31; 30_encoding.md R101, R103, R104, R112 to R119: the catalog
is the spec's own decision D7); the registry ROM is the table of 30_encoding.md R105. -/
def Obligations.RomTables : Prop :=
  catalogOk defaultCatalog = true ∧
  (∀ n < 25, n ≠ 13 →
    match defaultCatalog[2 * n]?, defaultCatalog[2 * n + 1]? with
    | some (Descriptor.generic d), some (Descriptor.generic e) => d.tag = .big ∧ e = { d with tag := .little }
    | some (Descriptor.v210 t), some (Descriptor.v210 u) => t = .big ∧ u = .little
    | _, _ => False) ∧
  (∀ row ∈ catalogRows444 ++ catalogRows422, ∀ n ∈ row.ids,
    match defaultCatalog[n]? with
    | some (Descriptor.generic d) => d.plw = row.plw ∧ d.pkw = row.pkw ∧ d.ppp = row.ppp ∧ d.ss = row.ss ∧
        (Descriptor.generic d).masks = some (row.comp, row.shift, row.depth) ∧ (n = 26 ∨ n = 27 → d.tag = .little)
    | _ => False) ∧
  (∀ n < 50, n = 34 ∨ n = 35 ∨ ∃ row ∈ catalogRows444 ++ catalogRows422, n ∈ row.ids) ∧
  ∀ f : Fmt,
    ((f.toNat ≤ 33 ∨ f.toNat = 36 ∨ f.toNat = 37) → registry f = some ⟨.generic, false, 0, 0⟩) ∧
    ((f.toNat = 34 ∨ f.toNat = 35) → registry f = some ⟨.v210, false, 0, 0⟩) ∧
    ((f.toNat = 38 ∨ f.toNat = 39) → registry f = some ⟨.generic, true, 1, 1⟩) ∧
    (40 ≤ f.toNat → f.toNat ≤ 45 → registry f = some ⟨.generic, true, 1, 2⟩) ∧
    (46 ≤ f.toNat → f.toNat ≤ 49 → registry f = some ⟨.generic, true, 0, 2⟩)

/-! ### Reset, status and the invariant -/

/-- In State.reset every argument register is Unwritten, the status is Idle and every cache entry is UNRESOLVED, and
the parameters have their defaults (10_state.md R41, 00_scope.md R6). -/
def Obligations.ResetState : Prop :=
  (∀ n : ArgName, State.reset.regs.get n = .unwritten) ∧ State.reset.status = .idle ∧
  (∀ (f : Fmt) (k : Key), f.toNat < 50 → State.reset.cacheAt f k = .unresolved) ∧
  State.reset.cfg.addrW = 64 ∧ State.reset.cfg.hostOrder = .little ∧ State.reset.cfg.alignCheck = false ∧
  State.reset.cfg.catalog = defaultCatalog ∧
  ∀ (f : Fmt) (k : Key), accelHandle f k State.reset.cfg.accel = 0

/-- A reset, whatever the status: registers Unwritten, status Idle, cache UNRESOLVED, and host memory and the ROMs as
they were (70_reset_and_hazards.md R300, 10_state.md R41). That it also leaves the launch memory, the list of returned
values and the counter of free values is the model's choice: notes/assumptions/4.md, 12.md and 7.md. -/
def Obligations.ResetAction : Prop :=
  ∀ (s : State) (rest : List HostAction), catalogOk s.cfg.catalog = true → s.pending = .reset :: rest →
    ∃ t, step s = .next t ∧ (∀ n, t.regs.get n = .unwritten) ∧ t.status = .idle ∧
      (∀ (f : Fmt) (k : Key), f.toNat < 50 → t.cacheAt f k = .unresolved) ∧
      t.mem = s.mem ∧ t.cfg = s.cfg ∧ t.admitSet = s.admitSet ∧ t.returned = s.returned ∧ t.freeIx = s.freeIx ∧
      t.pending = rest

/-- A CMD write while Faulted has no step, whatever the word, until the host resets; the reset that follows it is
taken (10_state.md R42, 93_implementation_defined.md U19, 95_test_vectors.md P6). That the reset may follow the stuck
write is the model's reading: notes/assumptions/10.md. -/
def Obligations.StuckUntilReset : Prop :=
  ∀ (s : State) (v : Word) (rest : List HostAction) (r : FaultReason), cmdWriteNext s v rest → s.status = .faulted r →
    ((∀ rest', rest ≠ .reset :: rest') → step s = .fault .stuck) ∧
    ∀ rest', rest = .reset :: rest' → step s = .next (State.resetBlock { s with pending := rest' })

/-- No step but a reset leaves Faulted or changes its reason (10_state.md R34, 60_exceptions.md R277). That a host read
of an Unwritten register, which 10_state.md R42 makes raise UNWRITTEN, keeps the first reason while Faulted is the model's
inference: notes/assumptions/11.md. So is the reset that a stuck CMD write is followed by, the second case of `resetNext`:
notes/assumptions/10.md. -/
def Obligations.OnlyResetLeavesFaulted : Prop :=
  ∀ (s t : State) (r : FaultReason), s.status = .faulted r → step s = .next t →
    t.status = .faulted r ∨ (resetNext s ∧ t.status = .idle)

/-- The invariant holds after reset. The canonical form of memory is the model's own (notes/assumptions/3.md). -/
def Obligations.InvAtReset : Prop := State.reset.Inv

/-- Every step keeps the invariant: memory in canonical form with existing addresses only, and every RESOLVED cache
entry the handle of ACCEL_TABLE (20_memory.md R60, 43_registry_dispatch.md R226). The canonical form is the model's own:
notes/assumptions/3.md. -/
def Obligations.StepKeepsInv : Prop := ∀ s t : State, s.Inv → step s = .next t → t.Inv

/-- A RESOLVED cache entry stays as it is through every step but a reset, which makes every entry UNRESOLVED
(43_registry_dispatch.md R224). That the reset may follow a stuck CMD write, the second case of `resetNext`, is the model's
inference: notes/assumptions/10.md. -/
def Obligations.ResolvedEntriesStay : Prop :=
  ∀ (s t : State) (f : Fmt) (k : Key) (h : Byte), step s = .next t → s.cacheAt f k = .resolved h →
    t.cacheAt f k = .resolved h ∨
    (resetNext s ∧ ∀ (f' : Fmt) (k' : Key), f'.toNat < 50 → t.cacheAt f' k' = .unresolved)

/-- No step changes a parameter, the descriptor ROM or the launch memory, and a catalog that fails its checks is refused
(10_state.md R20, R28; 20_memory.md R64; 70_reset_and_hazards.md R301). Two things are the model's choice: that ADMIT
stays for a whole run (notes/assumptions/4.md), and that the catalog is checked at every step, where R301 has it checked
before the first (notes/assumptions/5.md). -/
def Obligations.ParametersNeverChange : Prop :=
  (∀ s t : State, step s = .next t → t.cfg = s.cfg ∧ t.admitSet = s.admitSet) ∧
  ∀ s : State, catalogOk s.cfg.catalog = false → step s = .refused .badCatalog

/-! ### The host (10_state.md R21, R25, R37, R42) -/

/-- The register map: each register at its offset, and no other offset in use (10_state.md R21, R25, R37). -/
def Obligations.RegisterMap : Prop :=
  regAt 0x000 = some .cmd ∧ regAt 0x008 = some (.arg .bfxIn) ∧ regAt 0x010 = some (.arg .bfxOut) ∧
  regAt 0x018 = some (.arg .left) ∧ regAt 0x020 = some (.arg .right) ∧ regAt 0x028 = some (.arg .width) ∧
  regAt 0x030 = some (.arg .height) ∧
  (∀ p : Fin 4, regAt (0x040 + 8 * p) = some (.arg (.src p)) ∧ regAt (0x060 + 8 * p) = some (.arg (.srcStride p)) ∧
    regAt (0x080 + 8 * p) = some (.arg (.dst p)) ∧ regAt (0x0A0 + 8 * p) = some (.arg (.dstStride p))) ∧
  ∀ off : Nat, regAt off ≠ none → off % 8 = 0 ∧ off < 0x0C0 ∧ off ≠ 0x038

/-- A host write of an argument register other than BFX_OUT, in any status: the register holds the value and nothing
else changes. A host read of an argument register returns its value; of an Unwritten one, while Idle, it raises
UNWRITTEN (10_state.md R42, 60_exceptions.md R270). While Faulted that read leaves the status: the model's reading,
notes/assumptions/11.md. The list of returned values is the model's own (notes/assumptions/12.md). -/
def Obligations.HostRegisterAccess : Prop :=
  ∀ (s : State) (off : Nat) (rest : List HostAction) (n : ArgName), catalogOk s.cfg.catalog = true →
    regAt off = some (.arg n) →
    (∀ v : Word, s.pending = .regWrite off 8 v :: rest → n ≠ .bfxOut →
      ∃ t, step s = .next t ∧ t.regs.get n = .value v ∧ (∀ k, k ≠ n → t.regs.get k = s.regs.get k) ∧
        t = { s with pending := rest, regs := t.regs }) ∧
    (s.pending = .regRead off 8 :: rest →
      (∀ w, s.regs.get n = .value w → step s = .next { s with pending := rest, returned := w :: s.returned }) ∧
      (s.regs.get n = .unwritten → s.status = .idle →
        step s = .next { s with pending := rest, status := .faulted .unwritten }) ∧
      (s.regs.get n = .unwritten → ∀ r, s.status = .faulted r → step s = .next { s with pending := rest }))

/-- The refused host accesses: one that is not an aligned 64-bit word, a reserved offset, a write of BFX_OUT, a read of
CMD (10_state.md R37, R42). -/
def Obligations.HostRefusals : Prop :=
  ∀ (s : State) (off size : Nat) (v : Word) (rest : List HostAction), catalogOk s.cfg.catalog = true →
    (s.pending = .regWrite off size v :: rest ∨ s.pending = .regRead off size :: rest) →
    ((size ≠ 8 ∨ off % 8 ≠ 0) → step s = .refused .badAccess) ∧
    (size = 8 → off % 8 = 0 → regAt off = none → step s = .refused .reservedOffset) ∧
    (s.pending = .regWrite 0x010 8 v :: rest → step s = .refused .bfxOutWrite) ∧
    (s.pending = .regRead 0x000 8 :: rest → step s = .refused .cmdRead)

/-- A host memory write and then a host memory read: the read returns the byte written, or the byte that was there, and
nothing of the block changes (10_state.md R42, 20_memory.md R60, R76). The list the byte is returned in, widened to 64
bits, is the model's own (notes/assumptions/12.md); so is the stop at an address that R60 gives no byte
(notes/assumptions/13.md). -/
def Obligations.HostMemoryAccess : Prop :=
  (∀ (s : State) (a b : Nat) (v : Byte) (rest : List HostAction), catalogOk s.cfg.catalog = true →
    Memory.wf s.mem = true → a < 2 ^ s.cfg.addrW → b < 2 ^ s.cfg.addrW →
    s.pending = .memWrite a v :: .memRead b :: rest →
    ∃ t u, step s = .next t ∧ step t = .next u ∧
      u.returned = BitVec.zeroExtend 64 (if b = a then v else s.mem.read b) :: s.returned ∧
      u = { s with pending := rest, returned := u.returned, mem := t.mem } ∧
      ∀ c, t.mem.read c = if c = a then v else s.mem.read c) ∧
  ∀ (s : State) (a : Nat) (v : Byte) (rest : List HostAction), catalogOk s.cfg.catalog = true → 2 ^ s.cfg.addrW ≤ a →
    (s.pending = .memWrite a v :: rest ∨ s.pending = .memRead a :: rest) → step s = .fault .noSuchAddress

/-! ### Every command -/

/-- Every well-formed command ends, in every state: it answers a next state (10_state.md R26, 70_reset_and_hazards.md
R307). -/
def Obligations.CommandsAnswer : Prop :=
  ∀ (i : Instr) (s : State), catalogOk s.cfg.catalog = true → i.wellFormed = true → ∃ t, exec i s = .next t

/-- No command writes an argument register but BFX_OUT, and only EXTRACT, ALIGN and SELECT write that one (10_state.md
R24). Nor does one change the parameters, ADMIT, or the host's side of the state. -/
def Obligations.CommandsKeepRegisters : Prop :=
  ∀ (i : Instr) (s t : State), exec i s = .next t →
    (∀ n, n ≠ .bfxOut → t.regs.get n = s.regs.get n) ∧
    ((∀ f k, i ≠ .extract f k) → (∀ f k, i ≠ .align f k) → (∀ f, i ≠ .selectU f) → (∀ f b, i ≠ .selectP f b) →
      t.regs = s.regs) ∧
    t.cfg = s.cfg ∧ t.admitSet = s.admitSet ∧ t.pending = s.pending ∧ t.returned = s.returned

/-- EXTRACT, ALIGN and SELECT make no memory access: they leave host memory as it is, and they run alike over any host
memory (20_memory.md R60). -/
def Obligations.RegisterCommandsUseNoMemory : Prop :=
  ∀ (i : Instr) (s : State) (m : Memory),
    ((∃ f k, i = .extract f k) ∨ (∃ f k, i = .align f k) ∨ (∃ f, i = .selectU f) ∨ (∃ f b, i = .selectP f b)) →
    ∀ t, exec i s = .next t → t.mem = s.mem ∧ exec i { s with mem := m } = .next { t with mem := m }

/-- No command touches a byte outside its footprint: such a byte is unchanged, whether the command completes or faults,
and no byte of the footprint that the command leaves depends on one (20_memory.md R74). After an access fault
60_exceptions.md R271 leaves the footprint's bytes unspecified: that two runs then leave the same ones is the model's
choice, whose free byte depends on the fault's number and the address alone (notes/assumptions/6.md, 7.md). -/
def Obligations.FootprintBoundsAccess : Prop :=
  ∀ (i : Instr) (s t t' : State) (m : Memory), Memory.wf s.mem = true → Memory.wf m = true →
    (∀ a : Nat, (commandFootprint i s).has a = true → m.read a = s.mem.read a) →
    exec i s = .next t → exec i { s with mem := m } = .next t' →
    (∀ a : Nat, (commandFootprint i s).has a = false → t.mem.read a = s.mem.read a) ∧
    ∀ a : Nat, (commandFootprint i s).has a = true → t'.mem.read a = t.mem.read a

/-- A command that completes changed only bytes its footprint writes, and every byte of its footprint exists and is in
the launch memory, with no overlap: an access outside ADMIT or the address space never passes (20_memory.md R64, R73,
R74; 00_scope.md R9). -/
def Obligations.CompletedAccessesAreAdmitted : Prop :=
  ∀ (i : Instr) (s t : State), catalogOk s.cfg.catalog = true → Memory.wf s.mem = true → exec i s = .next t →
    s.status = .idle → t.status = .idle →
    UnwrittenBytesKept (commandFootprint i s) s.mem t.mem ∧ (commandFootprint i s).noOverlap = true ∧
    ∀ r ∈ (commandFootprint i s).reads ++ (commandFootprint i s).writes, ∀ a : Int, r.has a = true →
      0 ≤ a ∧ a < 2 ^ s.cfg.addrW ∧ admits s.admitSet a = true

/-- A fault: the status takes a reason, the registers and every RESOLVED cache entry keep their values, memory outside
the footprint is unchanged, and all of memory is unchanged unless the reason is one an access can raise
(60_exceptions.md R271, R272). The counter of free values is the model's own (notes/assumptions/7.md). -/
def Obligations.FaultEntry : Prop :=
  ∀ (i : Instr) (s t : State) (r : FaultReason), Memory.wf s.mem = true → s.status = .idle → exec i s = .next t →
    t.status = .faulted r →
    t.regs = s.regs ∧ (∀ f k h, s.cacheAt f k = .resolved h → t.cacheAt f k = .resolved h) ∧
    OutsideKept (commandFootprint i s) s.mem t.mem ∧
    (r ≠ .addrWrap → r ≠ .misaligned → r ≠ .buffer → t.mem = s.mem ∧ t.freeIx = s.freeIx)

/-- Each fault is raised only by the commands and in the cases of its row (60_exceptions.md R270): BAD_FORMAT only for
an unnamed format, V210_RANGE only on ids 34 and 35, MISALIGNED only with ALIGN_CHECK, SELECT nothing else. -/
def Obligations.FaultsRaisedBy : Prop :=
  ∀ (i : Instr) (s t : State) (r : FaultReason), catalogOk s.cfg.catalog = true → s.status = .idle →
    exec i s = .next t → t.status = .faulted r → mayRaise s i r = true

/-- The register reads come in the order of R39 and R272, before the cache is resolved: the first register whose read
faults gives the reason, UNWRITTEN before RANGE or ADDR_WRAP, and nothing else changes (10_state.md R22, R23, R39;
60_exceptions.md R272). -/
def Obligations.OperandFaults : Prop :=
  ∀ (i : Instr) (s : State) (pre post : List ArgName) (n : ArgName) (r : FaultReason),
    catalogOk s.cfg.catalog = true → i.wellFormed = true → namesSlot s i = true →
    registersRead i = pre ++ n :: post → (∀ k ∈ pre, operandFault s k = none) → operandFault s n = some r →
    exec i s = .next { s with status := .faulted r }

/-- The handle never changes what a command does to memory or which fault it raises (43_registry_dispatch.md R223):
runs that differ in the dispatch cache and ACCEL_TABLE agree on memory, status and every register but BFX_OUT. That they
agree on memory and on the counter of free values after an access fault too, where R271 and R72 let the writes done vary,
is the model's choice: notes/assumptions/6.md, 7.md. -/
def Obligations.HandlesNeverMatter : Prop :=
  ∀ (i : Instr) (s t : State) (cache : Vector CacheEntry 150) (accel : List AccelEntry), exec i s = .next t →
    ∃ t', exec i { s with cache := cache, cfg := { s.cfg with accel := accel } } = .next t' ∧ t'.mem = t.mem ∧
      t'.status = t.status ∧ t'.freeIx = t.freeIx ∧ ∀ n, n ≠ .bfxOut → t'.regs.get n = t.regs.get n

/-- No fault depends on a data value (60_exceptions.md R270, R272): runs over different memories, or with another
value in BFX_IN, end with the same status. That the runs with another BFX_IN leave the same memory after an access fault
too, where R271 leaves it unspecified, is the model's choice: notes/assumptions/6.md, 7.md. -/
def Obligations.DataNeverDecidesAFault : Prop :=
  ∀ (i : Instr) (s t : State), exec i s = .next t →
    (∀ m : Memory, ∃ t', exec i { s with mem := m } = .next t' ∧ t'.status = t.status ∧ t'.cache = t.cache) ∧
    ∀ w w' : Word, s.regs.get .bfxIn = .value w →
      ∃ t', exec i (s.putReg .bfxIn w') = .next t' ∧ t'.status = t.status ∧ t'.mem = t.mem

/-- A command that completes gives the same memory when it runs again (20_memory.md R75). -/
def Obligations.RunningTwice : Prop :=
  ∀ (i : Instr) (s t : State), catalogOk s.cfg.catalog = true → Memory.wf s.mem = true → s.status = .idle →
    exec i s = .next t → t.status = .idle → ∃ u, exec i t = .next u ∧ u.status = .idle ∧ u.mem = t.mem

/-- An empty range and an empty frame access no memory (41_scanline.md R176, 42_v210.md R204, 44_frame.md R241): once the
range and null checks have passed, the command completes whatever ADMIT, ALIGN_CHECK and the pointers are, and changes its
cache entry alone; and memory stays where a check fails. The null checks of a frame are the model's reading:
notes/assumptions/8.md, 9.md. -/
def Obligations.EmptyCommandsTouchNothing : Prop :=
  ∀ (s : State) (fmt : Fmt) (fill skip one : Bool),
    (catalogOk s.cfg.catalog = true → ∀ w : LineWords, w.fit s.cfg.addrW = true → w.left = w.right →
      (∀ d : Layout, s.cfg.catalog[fmt.toNat]? = some (.generic d) → d.admits w.left.toNat w.right.toNat = true →
        d.pointersOk w.operands.packed w.operands.planes = true →
        (unpackLineHeld s w = true → exec (.unpackLine fmt) s = .next (s.resolve fmt .unpack)) ∧
        (packLineHeld s w = true → exec (.packLine fmt fill) s = .next (s.resolve fmt (packKey fill)))) ∧
      (∀ tag, s.cfg.catalog[fmt.toNat]? = some (.v210 tag) → v210Admits w.left.toNat w.right.toNat = true →
        w.packed ≠ 0 → w.y ≠ 0 → w.u ≠ 0 → w.v ≠ 0 →
        (unpackLineHeld s w = true → exec (.unpackLineV210 fmt) s = .next (s.resolve fmt .unpack)) ∧
        (packLineHeld s w = true → exec (.packLineV210 fmt fill) s = .next (s.resolve fmt (packKey fill))))) ∧
    (catalogOk s.cfg.catalog = true → ∀ (w : FrameWords) (r : RegistryEntry) (desc : Descriptor),
      w.fit s.cfg.addrW = true → frameHeld s w = true → (w.width = 0 ∨ w.height = 0) →
      registry fmt = some r → s.cfg.catalog[fmt.toNat]? = some desc →
      desc.admits 0 w.width.toNat = true →
      let passed (p : FramePlan) : Prop :=
        (∀ y < max p.rows 1, desc.pointersOk (p.packedRow y) (p.planesRow y) = true) ∧ lumaPointersOk p.luma = true
      (passed (unpackPlan r skip w.operands) → exec (.unpackFrame fmt skip one) s = .next (s.resolve fmt .unpack)) ∧
      (passed (packPlan r skip w.operands) →
        exec (.packFrame fmt skip fill) s = .next (s.resolve fmt (packKey fill)))) ∧
    (∀ (o : LineOperands) (t : State), o.left = o.right →
      (s.unpackLineOperands = .ok o ∧ (exec (.unpackLine fmt) s = .next t ∨ exec (.unpackLineV210 fmt) s = .next t) ∨
       s.packLineOperands = .ok o ∧ (exec (.packLine fmt fill) s = .next t ∨ exec (.packLineV210 fmt fill) s = .next t))
      → t.mem = s.mem) ∧
    ∀ (o : FrameOperands) (t : State), s.frameOperands = .ok o → (o.width = 0 ∨ o.height = 0) →
      (exec (.unpackFrame fmt skip one) s = .next t ∨ exec (.packFrame fmt skip fill) s = .next t) → t.mem = s.mem

/-! ### Memory representation and overlap (00_scope.md R10, 20_memory.md) -/

/-- `LoadInt` is the sum of R10, byte `i` with weight `2^(8i)` in little order and `2^(8(n-1-i))` in big order; `StoreInt`
writes the bytes that it reads back (00_scope.md R10). -/
def Obligations.ByteOrders : Prop :=
  (∀ bs : List Byte,
    natOfBytes .little bs = ((List.range bs.length).map fun i => (bs.getD i 0).toNat * 2 ^ (8 * i)).sum ∧
    natOfBytes .big bs
      = ((List.range bs.length).map fun i => (bs.getD i 0).toNat * 2 ^ (8 * (bs.length - 1 - i))).sum) ∧
  ∀ (o : ByteOrder) (n v : Nat), v < 2 ^ (8 * n) →
    (bytesOfNat o n v).length = n ∧ natOfBytes o (bytesOfNat o n v) = v

/-- A footprint has no overlap exactly when no byte of a written region is a byte of a read region or of another
written region (20_memory.md R73). That an address outside the address space counts too is the model's inference:
notes/assumptions/14.md. -/
def Obligations.OverlapIsASharedByte : Prop :=
  ∀ f : Footprint, f.noOverlap = true ↔
    (∀ w ∈ f.writes, ∀ r ∈ f.reads, ∀ a : Int, ¬ (w.has a = true ∧ r.has a = true)) ∧
    ∀ (i j : Nat) (hi : i < f.writes.length) (hj : j < f.writes.length), i ≠ j →
      ∀ a : Int, ¬ ((f.writes[i]).has a = true ∧ (f.writes[j]).has a = true)

/-- The footprints of the line commands are the byte ranges of R69 to R71; pack exchanges reads and writes. -/
def Obligations.LineFootprints : Prop :=
  (∀ (d : Layout) (o : LineOperands) (a : Int), d.ok = true → d.admits o.left o.right = true →
    ((d.unpackFootprint o).reads.any (fun r => r.has a) = true ↔
      o.packed + (o.left / d.ppp * d.pkb : Nat) ≤ a ∧ a < o.packed + (o.right / d.ppp * d.pkb : Nat)) ∧
    ((d.unpackFootprint o).writes.any (fun r => r.has a) = true ↔ ∃ c : Channel, 0 < d.count c ∧ o.planes.get c ≠ 0 ∧
      let e0 := if (c = .u ∨ c = .v) ∧ 0 < d.ss then o.left / 2 ^ d.ss else o.left
      o.planes.get c + (e0 * d.eb : Nat) ≤ a ∧
        a < o.planes.get c + ((e0 + (o.right - o.left) / d.ppp * d.count c) * d.eb : Nat)) ∧
    (d.packFootprint o).reads = (d.unpackFootprint o).writes ∧
    (d.packFootprint o).writes = (d.unpackFootprint o).reads) ∧
  ∀ (o : LineOperands) (a : Int), v210Admits o.left o.right = true →
    ((v210UnpackFootprint o).reads.any (fun r => r.has a) = true ↔
      o.packed + (o.left / 6 * 16 : Nat) ≤ a ∧ a < o.packed + (o.right / 6 * 16 : Nat)) ∧
    ((v210UnpackFootprint o).writes.any (fun r => r.has a) = true ↔
      (o.planes.y + (2 * o.left : Nat) ≤ a ∧ a < o.planes.y + (2 * o.right : Nat)) ∨
      (o.planes.u + (2 * (o.left / 2) : Nat) ≤ a ∧ a < o.planes.u + (2 * (o.right / 2) : Nat)) ∨
      (o.planes.v + (2 * (o.left / 2) : Nat) ≤ a ∧ a < o.planes.v + (2 * (o.right / 2) : Nat))) ∧
    (v210PackFootprint o).reads = (v210UnpackFootprint o).writes ∧
    (v210PackFootprint o).writes = (v210UnpackFootprint o).reads

/-- The checks of an access of `n > 0` bytes at `a`, in order: ADDR_WRAP if a byte does not exist, then MISALIGNED if
ALIGN_CHECK is true and `a` is no multiple of the alignment, then BUFFER if a byte is not in the launch memory; else it
passes. A line or frame command whose checks before the first access pass ends with the reason of the first access, in
reference order, that does not pass: the entry is resolved, memory outside the footprint is unchanged, and no other register
or entry changes. If all accesses pass, it completes (41_scanline.md R170, R176, R182; 42_v210.md R204, R205; 44_frame.md
R241, R243, R245; 20_memory.md R64, R67; 00_scope.md R9, R12; 60_exceptions.md R271, R272). The counter of free values is
the model's own (notes/assumptions/7.md); the null checks of a frame, the overlap outside the address space and the alpha
row that its stride makes absent are its reading (notes/assumptions/8.md, 9.md, 14.md, 17.md). -/
def Obligations.AccessFaults : Prop :=
  (∀ (b : Bus) (a : Int) (n al : Nat), 0 < n →
    let exists' := ∀ x : Int, a ≤ x → x < a + n → 0 ≤ x ∧ x < 2 ^ b.addrW
    let misaligned := b.alignCheck = true ∧ ¬ (al : Int) ∣ a
    let admitted := ∀ x : Int, a ≤ x → x < a + n → admits b.admitSet x = true
    (¬ exists' → b.check a n al = .error .addrWrap) ∧
    (exists' → misaligned → b.check a n al = .error .misaligned) ∧
    (exists' → ¬ misaligned → ¬ admitted → b.check a n al = .error .buffer) ∧
    (exists' → ¬ misaligned → admitted → b.check a n al = .ok ())) ∧
  ∀ (s : State) (fmt : Fmt) (fill skip one : Bool), catalogOk s.cfg.catalog = true → Memory.wf s.mem = true →
    let ends (i : Instr) (k : Key) (f : Footprint) (l : List Access) : Prop := f.noOverlap = true →
      match s.bus.firstFault l with
      | some r => ∃ m, exec i s
            = .next { s.resolve fmt k with status := .faulted r, mem := m, freeIx := s.freeIx + 1 } ∧
          OutsideKept f s.mem m
      | none => ∃ m, exec i s = .next { s.resolve fmt k with mem := m } ∧ UnwrittenBytesKept f s.mem m
    (∀ w : LineWords, w.fit s.cfg.addrW = true →
      let packed := w.operands.packed
      let planes := w.operands.planes
      (∀ d : Layout, s.cfg.catalog[fmt.toNat]? = some (.generic d) → d.admits w.left.toNat w.right.toNat = true →
        d.pointersOk packed planes = true →
        (unpackLineHeld s w = true → ends (.unpackLine fmt) .unpack (d.unpackFootprint w.operands)
          (d.unpackAccesses packed planes w.left.toNat w.right.toNat)) ∧
        (packLineHeld s w = true → ends (.packLine fmt fill) (packKey fill) (d.packFootprint w.operands)
          (d.packAccesses packed planes w.left.toNat w.right.toNat))) ∧
      ∀ tag, s.cfg.catalog[fmt.toNat]? = some (.v210 tag) → v210Admits w.left.toNat w.right.toNat = true →
        v210PointersOk packed planes = true →
        (unpackLineHeld s w = true → ends (.unpackLineV210 fmt) .unpack (v210UnpackFootprint w.operands)
          (v210UnpackAccesses packed planes w.left.toNat w.right.toNat)) ∧
        (packLineHeld s w = true → ends (.packLineV210 fmt fill) (packKey fill) (v210PackFootprint w.operands)
          (v210PackAccesses packed planes w.left.toNat w.right.toNat))) ∧
    ∀ (w : FrameWords) (r : RegistryEntry) (desc : Descriptor), w.fit s.cfg.addrW = true → frameHeld s w = true →
      registry fmt = some r → s.cfg.catalog[fmt.toNat]? = some desc → desc.admits 0 w.width.toNat = true →
      let passed (p : FramePlan) : Prop :=
        (∀ y < max p.rows 1, desc.pointersOk (p.packedRow y) (p.planesRow y) = true) ∧ lumaPointersOk p.luma = true
      let u := unpackPlan r skip w.operands
      let k := packPlan r skip w.operands
      (passed u → ends (.unpackFrame fmt skip one) .unpack (u.unpackFootprint desc) (u.unpackAccesses desc)) ∧
      (passed k → ends (.packFrame fmt skip fill) (packKey fill) (k.packFootprint desc) (k.packAccesses desc))

/-! ### BFX (40_bitfield.md) -/

/-- The laws of R155 for an accepted descriptor and its non-padding slots: (a) extract after align keeps the slot's
bits, (b) another slot extracts 0 from it, (c) a word with no bit outside the slots is the OR of its fields. -/
def Obligations.BitfieldLaws : Prop :=
  ∀ (d : Layout), d.ok = true →
    (∀ (i : Fin 4) (c : Channel) (sh dp v : Nat), d.slots[i] = .field c sh dp →
      extractField (alignField v sh dp) sh dp = v % 2 ^ dp ∧
      ∀ (j : Fin 4) (c' : Channel) (sh' dp' : Nat), d.slots[j] = .field c' sh' dp' → i ≠ j →
        extractField (alignField v sh dp) sh' dp' = 0) ∧
    ∀ w : Nat, (∀ b : Nat, w.testBit b = true → ∃ (i : Fin 4) (c : Channel) (sh dp : Nat),
        d.slots[i] = .field c sh dp ∧ sh ≤ b ∧ b < sh + dp) →
      d.slots.toList.foldl (fun acc sl => match sl with
        | .pad => acc
        | .field _ sh dp => acc ||| alignField (extractField w sh dp) sh dp) 0 = w

/-- Contributions of distinct slots share no bit, so that their OR is their sum (40_bitfield.md R154). -/
def Obligations.ContributionsAdd : Prop :=
  ∀ (d : Layout), d.ok = true →
    (∀ (i j : Fin 4) (c c' : Channel) (sh dp sh' dp' v v' : Nat), i ≠ j → d.slots[i] = .field c sh dp →
      d.slots[j] = .field c' sh' dp' → alignField v sh dp &&& alignField v' sh' dp' = 0) ∧
    ∀ v : Fin 4 → Nat,
      (List.finRange 4).foldl (fun acc i => acc ||| (match d.slots[i] with
        | .pad => 0
        | .field _ sh dp => alignField (v i) sh dp)) 0
      = ((List.finRange 4).map fun i => match d.slots[i] with
        | .pad => 0
        | .field _ sh dp => alignField (v i) sh dp).sum

/-- EXTRACT: BFX_OUT takes the slot's field of the low PKW bits of BFX_IN, and nothing else changes (40_bitfield.md
R150, R152). -/
def Obligations.ExtractResult : Prop :=
  ∀ (s : State) (fmt : Fmt) (slot : BitVec 2) (d : Layout) (c : Channel) (sh dp : Nat) (w : Word),
    catalogOk s.cfg.catalog = true → s.cfg.catalog[fmt.toNat]? = some (.generic d) →
    d.slots[slot.toNat] = .field c sh dp → s.regs.get .bfxIn = .value w →
    exec (.extract fmt slot) s
      = .next { s with regs := { s.regs with bfxOut := .value (BitVec.ofNat 64 (w.toNat % 2 ^ d.pkw / 2 ^ sh % 2 ^ dp)) } }

/-- ALIGN: BFX_OUT takes the low DEPTH bits of BFX_IN at the slot's offset, with no bit at or above PKW, and nothing
else changes (40_bitfield.md R151, R153). -/
def Obligations.AlignResult : Prop :=
  ∀ (s : State) (fmt : Fmt) (slot : BitVec 2) (d : Layout) (c : Channel) (sh dp : Nat) (w : Word),
    catalogOk s.cfg.catalog = true → s.cfg.catalog[fmt.toNat]? = some (.generic d) →
    d.slots[slot.toNat] = .field c sh dp → s.regs.get .bfxIn = .value w →
    w.toNat % 2 ^ dp * 2 ^ sh < 2 ^ d.pkw ∧ w.toNat % 2 ^ dp * 2 ^ sh < 2 ^ 64 ∧
    exec (.align fmt slot) s
      = .next { s with regs := { s.regs with bfxOut := .value (BitVec.ofNat 64 (w.toNat % 2 ^ dp * 2 ^ sh)) } }

/-- EXTRACT and ALIGN fault on a v210 format with FORMAT_OP, and on a padding slot with PAD_SLOT, before they read
BFX_IN, and change nothing else (40_bitfield.md R152, R153; 60_exceptions.md R272). -/
def Obligations.BitfieldFaults : Prop :=
  ∀ (s : State) (i : Instr) (fmt : Fmt) (slot : BitVec 2), catalogOk s.cfg.catalog = true →
    (i = .extract fmt slot ∨ i = .align fmt slot) →
    ((fmt = 34 ∨ fmt = 35) → exec i s = .next { s with status := .faulted .formatOp }) ∧
    ∀ d : Layout, s.cfg.catalog[fmt.toNat]? = some (.generic d) → d.slots[slot.toNat] = .pad →
      exec i s = .next { s with status := .faulted .padSlot }

/-! ### The line commands, generic form (41_scanline.md) -/

/-- UNPACK_LINE, generic form, completes, and every element of every active plane is its slot's field; no byte outside
the planes' ranges changes, and of the rest of the state only the cache entry is resolved (41_scanline.md R173 to
R176). -/
def Obligations.UnpackLineResult : Prop :=
  ∀ (s : State) (fmt : Fmt) (d : Layout) (w : LineWords), catalogOk s.cfg.catalog = true →
    s.cfg.catalog[fmt.toNat]? = some (.generic d) → Memory.wf s.mem = true →
    unpackLineHeld s w = true → w.fit s.cfg.addrW = true → d.admits w.left.toNat w.right.toNat = true →
    d.pointersOk w.operands.packed w.operands.planes = true → (d.unpackFootprint w.operands).noOverlap = true →
    (d.unpackFootprint w.operands).ready s.bus = true →
    (w.left.toNat < w.right.toNat → d.alignedRow s.bus w.operands.packed w.operands.planes = true) →
    ∃ m, exec (.unpackLine fmt) s = .next { s.resolve fmt .unpack with mem := m } ∧
      d.Unpacked s.cfg.hostOrder s.mem m w.operands.packed w.operands.planes w.left.toNat w.right.toNat ∧
      UnwrittenBytesKept (d.unpackFootprint w.operands) s.mem m

/-- PACK_LINE, generic form, completes, and every packed unit holds the low bits of its elements, all ones or zeros in
an absent alpha's slot, and 0 in every other bit; nothing else changes but the cache entry (41_scanline.md R178 to
R182). -/
def Obligations.PackLineResult : Prop :=
  ∀ (s : State) (fmt : Fmt) (fill : Bool) (d : Layout) (w : LineWords), catalogOk s.cfg.catalog = true →
    s.cfg.catalog[fmt.toNat]? = some (.generic d) → Memory.wf s.mem = true →
    packLineHeld s w = true → w.fit s.cfg.addrW = true → d.admits w.left.toNat w.right.toNat = true →
    d.pointersOk w.operands.packed w.operands.planes = true → (d.packFootprint w.operands).noOverlap = true →
    (d.packFootprint w.operands).ready s.bus = true →
    (w.left.toNat < w.right.toNat → d.alignedRow s.bus w.operands.packed w.operands.planes = true) →
    ∃ m, exec (.packLine fmt fill) s = .next { s.resolve fmt (packKey fill) with mem := m } ∧
      d.Packed s.cfg.hostOrder fill s.mem m w.operands.packed w.operands.planes w.left.toNat w.right.toNat ∧
      UnwrittenBytesKept (d.packFootprint w.operands) s.mem m

/-- A range is admitted for a GENERIC descriptor as R172 says; on one that is not, the line commands, and the frame
commands over `[0, WIDTH)`, raise RANGE and change only the status and their cache entry; on an admitted one they do not
raise RANGE (41_scanline.md R172, 44_frame.md R247). -/
def Obligations.GenericRange : Prop :=
  ∀ (s : State) (fmt : Fmt) (fill skip : Bool) (d : Layout), catalogOk s.cfg.catalog = true →
    s.cfg.catalog[fmt.toNat]? = some (.generic d) → s.status = .idle →
    let admitted (left right : Nat) := left ≤ right ∧ left % d.ppp = 0 ∧ right % d.ppp = 0
    let raises (i : Instr) (k : Key) (ok : Prop) :=
      (¬ ok → exec i s = .next { s.resolve fmt k with status := .faulted .range }) ∧
      (ok → ∀ t, exec i s = .next t → t.status ≠ .faulted .range)
    (d.ppp = 1 → ∀ left right, left ≤ right → admitted left right) ∧
    (∀ w : LineWords, w.fit s.cfg.addrW = true →
      (unpackLineHeld s w = true → raises (.unpackLine fmt) .unpack (admitted w.left.toNat w.right.toNat)) ∧
      (packLineHeld s w = true → raises (.packLine fmt fill) (packKey fill) (admitted w.left.toNat w.right.toNat))) ∧
    ∀ w : FrameWords, w.fit s.cfg.addrW = true → frameHeld s w = true →
      raises (.unpackFrame fmt skip fill) .unpack (admitted 0 w.width.toNat) ∧
      raises (.packFrame fmt skip fill) (packKey fill) (admitted 0 w.width.toNat)

/-- On an admitted range a null packed pointer, or a null pointer of a used channel other than alpha, is NULL_PTR, an
empty range included; on a v210 format, so is a null packed, Y, U or V pointer, and plane 3 does not matter
(41_scanline.md R173, R174, R178; 42_v210.md R206; 20_memory.md R61). -/
def Obligations.NullPointers : Prop :=
  ∀ (s : State) (fmt : Fmt) (fill : Bool) (w : LineWords), catalogOk s.cfg.catalog = true →
    w.fit s.cfg.addrW = true →
    (∀ d : Layout, s.cfg.catalog[fmt.toNat]? = some (.generic d) → d.admits w.left.toNat w.right.toNat = true →
      (w.packed = 0 ∨ (0 < d.count .y ∧ w.y = 0) ∨ (0 < d.count .u ∧ w.u = 0) ∨ (0 < d.count .v ∧ w.v = 0)) →
      (unpackLineHeld s w = true →
        exec (.unpackLine fmt) s = .next { s.resolve fmt .unpack with status := .faulted .nullPtr }) ∧
      (packLineHeld s w = true →
        exec (.packLine fmt fill) s = .next { s.resolve fmt (packKey fill) with status := .faulted .nullPtr })) ∧
    ∀ tag, s.cfg.catalog[fmt.toNat]? = some (.v210 tag) → v210Admits w.left.toNat w.right.toNat = true →
      (w.packed = 0 ∨ w.y = 0 ∨ w.u = 0 ∨ w.v = 0) →
      (unpackLineHeld s w = true →
        exec (.unpackLineV210 fmt) s = .next { s.resolve fmt .unpack with status := .faulted .nullPtr }) ∧
      (packLineHeld s w = true →
        exec (.packLineV210 fmt fill) s = .next { s.resolve fmt (packKey fill) with status := .faulted .nullPtr })

/-- After the range and null checks, an overlapping footprint is OVERLAP before any access, for the four line forms
(20_memory.md R73, 60_exceptions.md R272). That an overlap outside the address space
is OVERLAP and not ADDR_WRAP is the model's inference: notes/assumptions/14.md. -/
def Obligations.LineOverlap : Prop :=
  ∀ (s : State) (fmt : Fmt) (fill : Bool) (w : LineWords), catalogOk s.cfg.catalog = true →
    w.fit s.cfg.addrW = true →
    (∀ d : Layout, s.cfg.catalog[fmt.toNat]? = some (.generic d) → d.admits w.left.toNat w.right.toNat = true →
      d.pointersOk w.operands.packed w.operands.planes = true →
      (unpackLineHeld s w = true → (d.unpackFootprint w.operands).noOverlap = false →
        exec (.unpackLine fmt) s = .next { s.resolve fmt .unpack with status := .faulted .overlap }) ∧
      (packLineHeld s w = true → (d.packFootprint w.operands).noOverlap = false →
        exec (.packLine fmt fill) s = .next { s.resolve fmt (packKey fill) with status := .faulted .overlap })) ∧
    ∀ tag, s.cfg.catalog[fmt.toNat]? = some (.v210 tag) → v210Admits w.left.toNat w.right.toNat = true →
      w.packed ≠ 0 → w.y ≠ 0 → w.u ≠ 0 → w.v ≠ 0 →
      (unpackLineHeld s w = true → (v210UnpackFootprint w.operands).noOverlap = false →
        exec (.unpackLineV210 fmt) s = .next { s.resolve fmt .unpack with status := .faulted .overlap }) ∧
      (packLineHeld s w = true → (v210PackFootprint w.operands).noOverlap = false →
        exec (.packLineV210 fmt fill) s = .next { s.resolve fmt (packKey fill) with status := .faulted .overlap })

/-- A line command that completes over a range of at least one unit had its pointers aligned as ALIGN_CHECK asks: with
ALIGN_CHECK true none passes at a misaligned pointer (20_memory.md R67, 41_scanline.md R170). -/
def Obligations.CompletedRowsAreAligned : Prop :=
  ∀ (s t : State) (fmt : Fmt) (fill : Bool) (w : LineWords), catalogOk s.cfg.catalog = true →
    w.fit s.cfg.addrW = true → s.status = .idle → t.status = .idle → w.left.toNat < w.right.toNat →
    (∀ d : Layout, s.cfg.catalog[fmt.toNat]? = some (.generic d) →
      (unpackLineHeld s w = true ∧ exec (.unpackLine fmt) s = .next t ∨
       packLineHeld s w = true ∧ exec (.packLine fmt fill) s = .next t) →
      d.alignedRow s.bus w.operands.packed w.operands.planes = true) ∧
    ∀ tag, s.cfg.catalog[fmt.toNat]? = some (.v210 tag) →
      (unpackLineHeld s w = true ∧ exec (.unpackLineV210 fmt) s = .next t ∨
       packLineHeld s w = true ∧ exec (.packLineV210 fmt fill) s = .next t) →
      v210AlignedRow s.bus w.operands.packed w.operands.planes = true

/-- The round trip of a GENERIC row (41_scanline.md R183), with the planes packed from and unpacked to at any two
places: pack then unpack gives back each element's low DEPTH bits, so the element itself if it is within its depth;
unpack then pack gives back every bit of the active slots, all ones or zeros in an absent alpha's slot by the fill
policy, and 0 elsewhere. -/
def Obligations.GenericRoundTrip : Prop :=
  ∀ (d : Layout) (b : Bus) (fill : Bool) (packed packed' : Int) (p q : Planes) (left right : Nat) (m m1 m2 : Memory),
    d.ok = true → Memory.wf m = true → d.admits left right = true → d.pointersOk packed p = true →
    d.pointersOk packed' p = true → d.pointersOk packed q = true →
    (∀ o : LineOperands, (o = ⟨packed, p, left, right⟩ ∨ o = ⟨packed', p, left, right⟩ ∨ o = ⟨packed, q, left, right⟩) →
      (d.unpackFootprint o).noOverlap = true ∧ (d.packFootprint o).noOverlap = true) →
    (d.packRow b fill p packed left right m = .ok m1 → d.unpackRow b packed q left right m1 = .ok m2 →
      ∀ u < d.units left right, ∀ (k : Fin 4) (c : Channel) (sh dp : Nat), d.slots[k] = .field c sh dp →
        p.get c ≠ 0 → q.get c ≠ 0 →
        planarValue b.hostOrder m2 (d.elemAddr q left u k c) d.eb
          = planarValue b.hostOrder m (d.elemAddr p left u k c) d.eb % 2 ^ dp) ∧
    (d.unpackRow b packed p left right m = .ok m1 → d.packRow b fill p packed' left right m1 = .ok m2 →
      ∀ u < d.units left right,
        (∀ (k : Fin 4) (c : Channel) (sh dp : Nat), d.slots[k] = .field c sh dp →
          d.unitValue m2 (d.unitAddr packed' left u) / 2 ^ sh % 2 ^ dp =
            if p.get c = 0 then (if fill then 2 ^ dp - 1 else 0)
            else d.unitValue m (d.unitAddr packed left u) / 2 ^ sh % 2 ^ dp) ∧
        ∀ j, (∀ (k : Fin 4) (c : Channel) (sh dp : Nat), d.slots[k] = .field c sh dp → ¬(sh ≤ j ∧ j < sh + dp)) →
          (d.unitValue m2 (d.unitAddr packed' left u)).testBit j = false)

/-- A row over a sub-range leaves in that sub-range the bytes that the row over the whole range leaves, on unpack and
on pack (41_scanline.md R184). -/
def Obligations.SubRanges : Prop :=
  ∀ (d : Layout) (b : Bus) (fill : Bool) (packed : Int) (p : Planes) (left right last : Nat) (m m1 m2 : Memory),
    d.ok = true → Memory.wf m = true → d.admits left right = true → d.admits 0 last = true → right ≤ last →
    d.pointersOk packed p = true → (d.unpackFootprint ⟨packed, p, 0, last⟩).noOverlap = true →
    (d.unpackRow b packed p left right m = .ok m1 → d.unpackRow b packed p 0 last m = .ok m2 →
      ∀ r ∈ d.planeRegions p left right, ∀ a : Nat, r.has a = true → m1.read a = m2.read a) ∧
    (d.packRow b fill p packed left right m = .ok m1 → d.packRow b fill p packed 0 last m = .ok m2 →
      ∀ a : Nat, (d.packedRegion packed left right).has a = true → m1.read a = m2.read a)

/-- Byte-order duality of a row (20_memory.md R81): unpacking under the other TAG the units of a GENERIC row, or the words
of a v210 row, with their bytes reversed gives the same planes. -/
def Obligations.ByteOrderDuality : Prop :=
  (∀ (d : Layout) (b : Bus) (packed : Int) (p : Planes) (left right : Nat) (m n m' n' : Memory),
    d.ok = true → Memory.wf m = true → Memory.wf n = true → d.tag = .little → d.admits left right = true →
    d.pointersOk packed p = true → (d.unpackFootprint ⟨packed, p, left, right⟩).noOverlap = true →
    (∀ u < d.units left right, n.readBytes (d.unitAddr packed left u).toNat d.pkb
      = (m.readBytes (d.unitAddr packed left u).toNat d.pkb).reverse) →
    d.unpackRow b packed p left right m = .ok m' →
    ({ d with tag := .big } : Layout).unpackRow b packed p left right n = .ok n' →
    ∀ u < d.units left right, ∀ (k : Fin 4) (c : Channel) (sh dp : Nat), d.slots[k] = .field c sh dp → p.get c ≠ 0 →
      planarValue b.hostOrder n' (d.elemAddr p left u k c) d.eb
        = planarValue b.hostOrder m' (d.elemAddr p left u k c) d.eb) ∧
  ∀ (b : Bus) (packed : Int) (p : Planes) (left right : Nat) (m n m' n' : Memory),
    Memory.wf m = true → Memory.wf n = true → v210Admits left right = true → v210PointersOk packed p = true →
    (v210UnpackFootprint ⟨packed, p, left, right⟩).noOverlap = true →
    (∀ g < v210Groups left right, ∀ i < 4,
      n.readBytes (packed + ((left / 6 + g) * 16 + 4 * i : Nat)).toNat 4
        = (m.readBytes (packed + ((left / 6 + g) * 16 + 4 * i : Nat)).toNat 4).reverse) →
    v210UnpackRow .little b packed p left right m = .ok m' → v210UnpackRow .big b packed p left right n = .ok n' →
    ∀ g < v210Groups left right, ∀ e ∈ v210Table,
      planarValue b.hostOrder n' (v210Elem p left g e.channel e.sample) 2
        = planarValue b.hostOrder m' (v210Elem p left g e.channel e.sample) 2

/-! ### v210 (42_v210.md) -/

/-- UNPACK_LINE, v210 form, completes, and every sample of every group is its field of the group's words; plane 3 and
every byte outside the three planes' ranges are unchanged (42_v210.md R201 to R207). -/
def Obligations.UnpackLineV210Result : Prop :=
  ∀ (s : State) (fmt : Fmt) (tag : ByteOrder) (w : LineWords), catalogOk s.cfg.catalog = true →
    s.cfg.catalog[fmt.toNat]? = some (.v210 tag) → Memory.wf s.mem = true →
    unpackLineHeld s w = true → w.fit s.cfg.addrW = true → v210Admits w.left.toNat w.right.toNat = true →
    w.packed ≠ 0 → w.y ≠ 0 → w.u ≠ 0 → w.v ≠ 0 → (v210UnpackFootprint w.operands).noOverlap = true →
    (v210UnpackFootprint w.operands).ready s.bus = true →
    (w.left.toNat < w.right.toNat → v210AlignedRow s.bus w.operands.packed w.operands.planes = true) →
    ∃ m, exec (.unpackLineV210 fmt) s = .next { s.resolve fmt .unpack with mem := m } ∧
      V210Unpacked tag s.cfg.hostOrder s.mem m w.operands.packed w.operands.planes w.left.toNat w.right.toNat ∧
      UnwrittenBytesKept (v210UnpackFootprint w.operands) s.mem m

/-- PACK_LINE, v210 form, completes, and every group's words hold the low 10 bits of its samples, with 0 in bits 31:30;
the fill policy picks the cache entry and changes nothing else (42_v210.md R201 to R207). -/
def Obligations.PackLineV210Result : Prop :=
  ∀ (s : State) (fmt : Fmt) (fill : Bool) (tag : ByteOrder) (w : LineWords), catalogOk s.cfg.catalog = true →
    s.cfg.catalog[fmt.toNat]? = some (.v210 tag) → Memory.wf s.mem = true →
    packLineHeld s w = true → w.fit s.cfg.addrW = true → v210Admits w.left.toNat w.right.toNat = true →
    w.packed ≠ 0 → w.y ≠ 0 → w.u ≠ 0 → w.v ≠ 0 → (v210PackFootprint w.operands).noOverlap = true →
    (v210PackFootprint w.operands).ready s.bus = true →
    (w.left.toNat < w.right.toNat → v210AlignedRow s.bus w.operands.packed w.operands.planes = true) →
    ∃ m, exec (.packLineV210 fmt fill) s = .next { s.resolve fmt (packKey fill) with mem := m } ∧
      V210Packed tag s.cfg.hostOrder s.mem m w.operands.packed w.operands.planes w.left.toNat w.right.toNat ∧
      UnwrittenBytesKept (v210PackFootprint w.operands) s.mem m

/-- A v210 range is admitted as R203 says; on one that is not, the line commands, and the frame commands over
`[0, WIDTH)`, raise V210_RANGE and change only the status and their cache entry; on an admitted one they do not raise it
(42_v210.md R203, 44_frame.md R247). -/
def Obligations.V210Range : Prop :=
  ∀ (s : State) (fmt : Fmt) (fill skip : Bool) (tag : ByteOrder), catalogOk s.cfg.catalog = true →
    s.cfg.catalog[fmt.toNat]? = some (.v210 tag) → s.status = .idle →
    let admitted (left right : Nat) := left ≤ right ∧ left % 6 = 0 ∧ right % 6 = 0
    let raises (i : Instr) (k : Key) (ok : Prop) :=
      (¬ ok → exec i s = .next { s.resolve fmt k with status := .faulted .v210Range }) ∧
      (ok → ∀ t, exec i s = .next t → t.status ≠ .faulted .v210Range)
    (∀ w : LineWords, w.fit s.cfg.addrW = true →
      (unpackLineHeld s w = true → raises (.unpackLineV210 fmt) .unpack (admitted w.left.toNat w.right.toNat)) ∧
      (packLineHeld s w = true →
        raises (.packLineV210 fmt fill) (packKey fill) (admitted w.left.toNat w.right.toNat))) ∧
    ∀ w : FrameWords, w.fit s.cfg.addrW = true → frameHeld s w = true →
      raises (.unpackFrame fmt skip fill) .unpack (admitted 0 w.width.toNat) ∧
      raises (.packFrame fmt skip fill) (packKey fill) (admitted 0 w.width.toNat)

/-- The v210 round trip of a group (42_v210.md R208): samples below 2^10 come back, and words come back but for their
bits 31:30, which come back as 0. -/
def Obligations.V210RoundTrip : Prop :=
  (∀ g : GroupSamples, (∀ x ∈ g.ys ++ g.us ++ g.vs, x < 2 ^ 10) → groupUnpack (groupPack g) = g) ∧
  ∀ g : GroupWords, (groupPack (groupUnpack g)).list = g.list.map fun w => w % 2 ^ 30

/-! ### Dispatch and SELECT (43_registry_dispatch.md) -/

/-- `Resolve`: an UNRESOLVED entry takes ACCEL_TABLE's handle, a RESOLVED one stays, the handle returned is the entry's,
and nothing else changes (43_registry_dispatch.md R222). -/
def Obligations.ResolveMemoizes : Prop :=
  ∀ (s : State) (f : Fmt) (k : Key), f.toNat < 50 →
    (s.resolve f k).cacheAt f k = .resolved (s.handle f k) ∧
    (s.cacheAt f k = .unresolved → s.handle f k = accelHandle f k s.cfg.accel) ∧
    (∀ h, s.cacheAt f k = .resolved h → s.handle f k = h) ∧
    (∀ (f' : Fmt) (k' : Key), ¬(f' = f ∧ k' = k) → (s.resolve f k).cacheAt f' k' = s.cacheAt f' k') ∧
    s.resolve f k = { s with cache := (s.resolve f k).cache }

/-- SELECT, on every format id 0 to 49: BFX_OUT takes the handle of the combination, its cache entry is resolved, and
nothing else changes; in a state that meets the invariant the handle is ACCEL_TABLE's, whatever ran before
(43_registry_dispatch.md R222, R224 to R226). -/
def Obligations.SelectResult : Prop :=
  ∀ (s : State) (f : Fmt) (fill : Bool), f.toNat < 50 →
    exec (.selectU f) s = .next { s.resolve f .unpack with
      regs := { s.regs with bfxOut := .value (BitVec.zeroExtend 64 (s.handle f .unpack)) } } ∧
    exec (.selectP f fill) s = .next { s.resolve f (if fill then .packFill1 else .packFill0) with
      regs := { s.regs with
        bfxOut := .value (BitVec.zeroExtend 64 (s.handle f (if fill then .packFill1 else .packFill0))) } } ∧
    (s.Inv → ∀ k : Key, s.handle f k = accelHandle f k s.cfg.accel)

/-! ### The frame commands (44_frame.md) -/

/-- What the frame commands use of their planes (44_frame.md R241 to R246, R250): the packed side is plane 0, or plane 1
of an NV format; an NV format has planes 1 and 2 alone on its planar side and HEIGHT >> SSV rows; its luma copy runs
without SKIP over plane 0, WIDTH * LUMA_B bytes in HEIGHT rows; row `y` of a plane lies `y` strides on, a null base
staying null. The flags that do not apply have no effect: SKIP_UNPACKED_PLANES on a format that is not NV, and
ALPHA_SET_ONE on UNPACK_FRAME (30_encoding.md R93). -/
def Obligations.FramePlanes : Prop :=
  (∀ (r : RegistryEntry) (skip : Bool) (o : FrameOperands),
    (r.nv = false →
      unpackPlan r skip o = ⟨o.src.y, o.srcStride.y, o.dst, o.dstStride, o.height, o.width, none⟩ ∧
      packPlan r skip o = ⟨o.dst.y, o.dstStride.y, o.src, o.srcStride, o.height, o.width, none⟩) ∧
    (r.nv = true →
      let luma := if skip then none
        else some ⟨o.src.y, o.srcStride.y, o.dst.y, o.dstStride.y, o.width * r.lumaB, o.height⟩
      unpackPlan r skip o
        = ⟨o.src.u, o.srcStride.u, ⟨0, o.dst.u, o.dst.v, 0⟩, o.dstStride, o.height / 2 ^ r.ssv, o.width, luma⟩ ∧
      packPlan r skip o
        = ⟨o.dst.u, o.dstStride.u, ⟨0, o.src.u, o.src.v, 0⟩, o.srcStride, o.height / 2 ^ r.ssv, o.width, luma⟩) ∧
    ∀ (p : FramePlan) (y : Nat) (c : Channel), p.packedRow y = p.packed + y * p.packedStride ∧
      (p.planesRow y).get c = if p.planes.get c = 0 then 0 else p.planes.get c + y * p.planeStrides.get c) ∧
  ∀ (s : State) (fmt : Fmt) (skip skip' one one' fill : Bool) (r : RegistryEntry), registry fmt = some r →
    exec (.unpackFrame fmt skip one) s = exec (.unpackFrame fmt skip one') s ∧
    (r.nv = false → exec (.unpackFrame fmt skip one) s = exec (.unpackFrame fmt skip' one') s ∧
      exec (.packFrame fmt skip fill) s = exec (.packFrame fmt skip' fill) s)

/-- UNPACK_FRAME completes: the luma plane is copied byte for byte where the copy runs, every row's planes hold its
packed units' fields, and no other byte changes (44_frame.md R240 to R247). The null checks of
every row and of every luma row, and an alpha row that is absent where its stride brings the pointer to 0, are the model's
reading: notes/assumptions/8.md, 9.md, 17.md. -/
def Obligations.UnpackFrameResult : Prop :=
  ∀ (s : State) (fmt : Fmt) (skip alphaOne : Bool) (r : RegistryEntry) (desc : Descriptor) (w : FrameWords),
    catalogOk s.cfg.catalog = true → registry fmt = some r → s.cfg.catalog[fmt.toNat]? = some desc →
    Memory.wf s.mem = true → frameHeld s w = true → w.fit s.cfg.addrW = true →
    desc.admits 0 w.width.toNat = true →
    let p := unpackPlan r skip w.operands
    (∀ y < max p.rows 1, desc.pointersOk (p.packedRow y) (p.planesRow y) = true) → lumaPointersOk p.luma = true →
    (p.unpackFootprint desc).noOverlap = true → (p.unpackFootprint desc).ready s.bus = true →
    (∀ y < p.rows, 0 < w.width.toNat → desc.alignedRow s.bus (p.packedRow y) (p.planesRow y) = true) →
    ∃ m, exec (.unpackFrame fmt skip alphaOne) s = .next { s.resolve fmt .unpack with mem := m } ∧
      LumaCopied p.luma s.mem m ∧
      (∀ y < p.rows, desc.Unpacked s.cfg.hostOrder s.mem m (p.packedRow y) (p.planesRow y) 0 w.width.toNat) ∧
      UnwrittenBytesKept (p.unpackFootprint desc) s.mem m

/-- PACK_FRAME completes: the luma plane is copied byte for byte where the copy runs, every row's packed units hold its
planes' elements, and no other byte changes (44_frame.md R240 to R247). The null checks of
every row and of every luma row, and an alpha row that is absent where its stride brings the pointer to 0, are the model's
reading: notes/assumptions/8.md, 9.md, 17.md. -/
def Obligations.PackFrameResult : Prop :=
  ∀ (s : State) (fmt : Fmt) (skip fill : Bool) (r : RegistryEntry) (desc : Descriptor) (w : FrameWords),
    catalogOk s.cfg.catalog = true → registry fmt = some r → s.cfg.catalog[fmt.toNat]? = some desc →
    Memory.wf s.mem = true → frameHeld s w = true → w.fit s.cfg.addrW = true →
    desc.admits 0 w.width.toNat = true →
    let p := packPlan r skip w.operands
    (∀ y < max p.rows 1, desc.pointersOk (p.packedRow y) (p.planesRow y) = true) → lumaPointersOk p.luma = true →
    (p.packFootprint desc).noOverlap = true → (p.packFootprint desc).ready s.bus = true →
    (∀ y < p.rows, 0 < w.width.toNat → desc.alignedRow s.bus (p.packedRow y) (p.planesRow y) = true) →
    ∃ m, exec (.packFrame fmt skip fill) s = .next { s.resolve fmt (packKey fill) with mem := m } ∧
      LumaCopied p.luma s.mem m ∧
      (∀ y < p.rows, desc.Packed s.cfg.hostOrder fill s.mem m (p.packedRow y) (p.planesRow y) 0 w.width.toNat) ∧
      UnwrittenBytesKept (p.packFootprint desc) s.mem m

/-- The checks of a frame command, in order, before any access and even for no rows: the range of a row, then the null
checks of the rows and of the luma copy, then overlap over the whole footprint (44_frame.md R247, R248). The model's reading
are: the null check of every row's and every luma row's advanced pointer, and not of the base alone
(notes/assumptions/8.md, 9.md); the alpha row that its stride makes absent, and so out of the footprint
(notes/assumptions/17.md); OVERLAP for an overlap outside the address space (notes/assumptions/14.md). -/
def Obligations.FrameChecks : Prop :=
  ∀ (s : State) (fmt : Fmt) (skip fill : Bool) (r : RegistryEntry) (desc : Descriptor) (w : FrameWords),
    catalogOk s.cfg.catalog = true → registry fmt = some r → s.cfg.catalog[fmt.toNat]? = some desc →
    frameHeld s w = true → w.fit s.cfg.addrW = true →
    ∀ (i : Instr) (k : Key) (p : FramePlan) (f : Footprint),
      (i = .unpackFrame fmt skip fill ∧ k = .unpack ∧ p = unpackPlan r skip w.operands ∧ f = p.unpackFootprint desc ∨
       i = .packFrame fmt skip fill ∧ k = packKey fill ∧ p = packPlan r skip w.operands ∧ f = p.packFootprint desc) →
      (desc.admits 0 w.width.toNat = false →
        exec i s = .next { s.resolve fmt k with status := .faulted desc.rangeFault }) ∧
      (desc.admits 0 w.width.toNat = true →
        ((∃ y < max p.rows 1, desc.pointersOk (p.packedRow y) (p.planesRow y) = false) ∨
          lumaPointersOk p.luma = false) →
        exec i s = .next { s.resolve fmt k with status := .faulted .nullPtr }) ∧
      (desc.admits 0 w.width.toNat = true →
        (∀ y < max p.rows 1, desc.pointersOk (p.packedRow y) (p.planesRow y) = true) →
        lumaPointersOk p.luma = true → f.noOverlap = false →
        exec i s = .next { s.resolve fmt k with status := .faulted .overlap })
end

