-- ==== Sys2Proof/Laws/Memory.lean ====
section
/-! SUPPORT. The laws of host memory: a read after a write, the canonical form, and equality of memories. -/

namespace Sys2Proof.Machine

/-- A memory whose addresses start at `lo` reads as unlisted below `lo`. -/
theorem read_below {lo a : Nat} (m : Memory) (h : Memory.wfFrom lo m = true) (ha : a < lo) :
    m.read a = Memory.unlisted := by
  cases m with
  | nil => rfl
  | cons c rest =>
    obtain ⟨k, v⟩ := c
    simp only [Memory.wfFrom, Bool.and_eq_true, decide_eq_true_eq] at h
    have h1 : a ≠ k := by omega
    have h2 : a < k := by omega
    simp [Memory.read, h1, h2]

theorem wfFrom_mono {lo lo' : Nat} (m : Memory) (h : Memory.wfFrom lo m = true) (hl : lo' ≤ lo) :
    Memory.wfFrom lo' m = true := by
  cases m with
  | nil => rfl
  | cons c rest =>
    obtain ⟨k, v⟩ := c
    simp only [Memory.wfFrom, Bool.and_eq_true, decide_eq_true_eq] at h ⊢
    exact ⟨⟨by omega, h.1.2⟩, h.2⟩

theorem wfFrom_write {lo a : Nat} (m : Memory) (b : Byte) (h : Memory.wfFrom lo m = true) (ha : lo ≤ a) :
    Memory.wfFrom lo (m.write a b) = true := by
  induction m generalizing lo with
  | nil =>
    unfold Memory.write
    split
    · rfl
    · simp_all [Memory.wfFrom]
  | cons c rest ih =>
    obtain ⟨k, v⟩ := c
    have h' := h
    simp only [Memory.wfFrom, Bool.and_eq_true, decide_eq_true_eq] at h'
    unfold Memory.write
    split
    · split
      · exact h
      · simp_all [Memory.wfFrom]
    · split
      · split
        · exact wfFrom_mono rest h'.2 (by omega)
        · simp_all [Memory.wfFrom]
      · simp only [Memory.wfFrom, Bool.and_eq_true, decide_eq_true_eq]
        exact ⟨h'.1, ih h'.2 (by omega)⟩

/-- A write keeps the canonical form. -/
theorem wf_write (m : Memory) (a : Nat) (b : Byte) (h : Memory.wf m = true) : Memory.wf (m.write a b) = true :=
  wfFrom_write m b h (Nat.zero_le a)

theorem read_write_from {lo : Nat} (m : Memory) (a k : Nat) (b : Byte) (h : Memory.wfFrom lo m = true) :
    (m.write a b).read k = if k = a then b else m.read k := by
  induction m generalizing lo with
  | nil => by_cases hb : b = Memory.unlisted <;> by_cases hk : k = a <;> simp_all [Memory.write, Memory.read]
  | cons c rest ih =>
    obtain ⟨k', v⟩ := c
    simp only [Memory.wfFrom, Bool.and_eq_true, decide_eq_true_eq] at h
    have hr : ∀ x, x < k' + 1 → Memory.read rest x = Memory.unlisted := fun x hx => read_below rest h.2 hx
    unfold Memory.write
    split
    · rename_i hlt
      split
      · rename_i hb
        by_cases hk : k = a
        · subst hk
          have : k ≠ k' := by omega
          simp [Memory.read, this, hlt, hb]
        · simp [hk]
      · by_cases hk : k = a
        · simp [Memory.read, hk]
        · simp only [hk, if_false]
          by_cases h2 : k < a
          · have h3 : k ≠ k' := by omega
            have h4 : k < k' := by omega
            simp [Memory.read, hk, h2, h3, h4]
          · simp [Memory.read, hk, h2]
    · split
      · rename_i h1 heq
        subst heq
        split
        · rename_i hb
          by_cases hk : k = a
          · simp [hk, hb, hr]
          · by_cases h2 : k < a
            · simp [Memory.read, hk, h2, hr k (by omega)]
            · simp [Memory.read, hk, h2]
        · by_cases hk : k = a
          · simp [Memory.read, hk]
          · simp [Memory.read, hk]
      · rename_i h1 h2
        by_cases hk' : k = k'
        · have h3 : k ≠ a := by omega
          have h4 : k' ≠ a := by omega
          simp [Memory.read, hk', h4]
        · by_cases h5 : k < k'
          · have h3 : k ≠ a := by omega
            simp [Memory.read, hk', h5, h3]
          · simp [Memory.read, hk', h5, ih h.2]

/-- A read after a write: the byte written at its address, every other byte as before. -/
theorem read_write (m : Memory) (a k : Nat) (b : Byte) (h : Memory.wf m = true) :
    (m.write a b).read k = if k = a then b else m.read k :=
  read_write_from m a k b h

theorem ext_from {lo lo' : Nat} (m m' : Memory) (h : Memory.wfFrom lo m = true) (h' : Memory.wfFrom lo' m' = true)
    (he : ∀ a, m.read a = m'.read a) : m = m' := by
  induction m generalizing lo lo' m' with
  | nil =>
    cases m' with
    | nil => rfl
    | cons c rest =>
      obtain ⟨k, v⟩ := c
      have := he k
      simp only [Memory.wfFrom, Bool.and_eq_true, decide_eq_true_eq, bne_iff_ne, ne_eq] at h'
      simp [Memory.read] at this
      exact absurd this.symm h'.1.2
  | cons c rest ih =>
    obtain ⟨k, v⟩ := c
    simp only [Memory.wfFrom, Bool.and_eq_true, decide_eq_true_eq, bne_iff_ne, ne_eq] at h
    cases m' with
    | nil =>
      have := he k
      simp [Memory.read] at this
      exact absurd this h.1.2
    | cons c' rest' =>
      obtain ⟨k', v'⟩ := c'
      simp only [Memory.wfFrom, Bool.and_eq_true, decide_eq_true_eq, bne_iff_ne, ne_eq] at h'
      have hk : k = k' := by
        by_contra hne
        rcases Nat.lt_or_gt_of_ne hne with hlt | hlt
        · have := he k
          simp [Memory.read, hne, hlt] at this
          exact h.1.2 this
        · have := he k'
          have hne' : k' ≠ k := fun e => hne e.symm
          simp [Memory.read, hne', hlt] at this
          exact h'.1.2 this.symm
      subst hk
      have hv : v = v' := by have := he k; simpa [Memory.read] using this
      subst hv
      have hrest : rest = rest' := by
        refine ih rest' h.2 h'.2 fun a => ?_
        by_cases hak : a < k + 1
        · rw [read_below rest h.2 hak, read_below rest' h'.2 hak]
        · have := he a
          have h1 : a ≠ k := by omega
          have h2 : ¬ a < k := by omega
          simpa [Memory.read, h1, h2] using this
      rw [hrest]

/-- Canonical memories that read alike are equal. -/
theorem memory_ext {m m' : Memory} (h : Memory.wf m = true) (h' : Memory.wf m' = true)
    (he : ∀ a, m.read a = m'.read a) : m = m' := ext_from m m' h h' he

/-! ### Byte lists -/

theorem wf_writeBytes (bs : List Byte) (m : Memory) (a : Nat) (h : Memory.wf m = true) :
    Memory.wf (m.writeBytes a bs) = true := by
  induction bs generalizing m a with
  | nil => exact h
  | cons b rest ih => exact ih _ _ (wf_write m a b h)

/-- A read after a write of a list of bytes: inside its range the byte written, outside as before. -/
theorem read_writeBytes (bs : List Byte) (m : Memory) (a k : Nat) (h : Memory.wf m = true) :
    (m.writeBytes a bs).read k = if hk : a ≤ k ∧ k < a + bs.length then bs[k - a]'(by omega) else m.read k := by
  induction bs generalizing m a with
  | nil =>
    simp [Memory.writeBytes]
  | cons b rest ih =>
    rw [Memory.writeBytes, ih _ _ (wf_write m a b h)]
    by_cases h1 : a + 1 ≤ k ∧ k < a + 1 + rest.length
    · have h2 : a ≤ k ∧ k < a + (b :: rest).length := by simp only [List.length_cons]; omega
      rw [dif_pos h1, dif_pos h2, List.getElem_cons, dif_neg (by omega)]
      congr 1
    · rw [dif_neg h1, read_write m a k b h]
      by_cases h2 : k = a
      · subst h2
        simp
      · rw [if_neg h2, dif_neg]
        simp only [List.length_cons]
        omega

@[simp] theorem length_readBytes (m : Memory) (a n : Nat) : (m.readBytes a n).length = n := by
  induction n generalizing a with
  | zero => rfl
  | succ n ih => simp [Memory.readBytes, ih]

theorem getElem_readBytes (m : Memory) (a n i : Nat) (h : i < (m.readBytes a n).length) :
    (m.readBytes a n)[i] = m.read (a + i) := by
  induction n generalizing a i with
  | zero => simp [Memory.readBytes] at h
  | succ n ih =>
    cases i with
    | zero => simp [Memory.readBytes]
    | succ i =>
      simp only [Memory.readBytes, List.getElem_cons_succ]
      rw [ih (a + 1) i (by simpa [Memory.readBytes] using h)]
      congr 1
      omega

/-- Two memories that agree on a range of addresses have the same bytes there. -/
theorem readBytes_congr (m m' : Memory) (a n : Nat) (h : ∀ k, a ≤ k → k < a + n → m.read k = m'.read k) :
    m.readBytes a n = m'.readBytes a n := by
  apply List.ext_getElem (by simp)
  intro i h1 h2
  rw [getElem_readBytes, getElem_readBytes]
  simp only [length_readBytes] at h1
  exact h _ (by omega) (by omega)

/-- Reading back the bytes just written. -/
theorem readBytes_writeBytes (m : Memory) (a : Nat) (bs : List Byte) (h : Memory.wf m = true) :
    (m.writeBytes a bs).readBytes a bs.length = bs := by
  apply List.ext_getElem (by simp)
  intro i h1 h2
  rw [getElem_readBytes, read_writeBytes bs m a _ h, dif_pos ⟨by omega, by omega⟩]
  congr 1
  omega

/-! ### Byte order (00_scope.md R10) -/

@[simp] theorem length_littleOfNat (n v : Nat) : (littleOfNat n v).length = n := by
  induction n generalizing v with
  | zero => rfl
  | succ n ih => simp [littleOfNat, ih]

@[simp] theorem length_bytesOfNat (o : ByteOrder) (n v : Nat) : (bytesOfNat o n v).length = n := by
  cases o <;> simp [bytesOfNat]

theorem natOfLittle_littleOfNat (n v : Nat) : natOfLittle (littleOfNat n v) = v % 256 ^ n := by
  induction n generalizing v with
  | zero => simp [littleOfNat, natOfLittle, Nat.mod_one]
  | succ n ih =>
    have hb : (BitVec.ofNat 8 v).toNat = v % 256 := BitVec.toNat_ofNat v 8
    simp only [littleOfNat, natOfLittle, ih, hb]
    rw [Nat.pow_succ', Nat.mod_mul]

/-- `LoadInt` reads back what `StoreInt` wrote (00_scope.md R10). -/
theorem natOfBytes_bytesOfNat (o : ByteOrder) (n v : Nat) : natOfBytes o (bytesOfNat o n v) = v % 256 ^ n := by
  cases o <;> simp [natOfBytes, bytesOfNat, natOfLittle_littleOfNat]

theorem natOfLittle_lt (bs : List Byte) : natOfLittle bs < 256 ^ bs.length := by
  induction bs with
  | nil => simp [natOfLittle]
  | cons b rest ih =>
    simp only [natOfLittle, List.length_cons, Nat.pow_succ']
    have := b.isLt
    omega

theorem natOfBytes_lt (o : ByteOrder) (bs : List Byte) : natOfBytes o bs < 256 ^ bs.length := by
  cases o with
  | little => exact natOfLittle_lt bs
  | big => simpa [natOfBytes] using natOfLittle_lt bs.reverse

/-- Reversing the bytes exchanges the two byte orders (20_memory.md R81). -/
theorem natOfBytes_reverse (bs : List Byte) : natOfBytes .big bs.reverse = natOfBytes .little bs := by
  simp [natOfBytes]

theorem littleOfNat_natOfLittle (bs : List Byte) : littleOfNat bs.length (natOfLittle bs) = bs := by
  induction bs with
  | nil => rfl
  | cons b rest ih =>
    have hb := b.isLt
    have h1 : BitVec.ofNat 8 (b.toNat + 256 * natOfLittle rest) = b := by
      apply BitVec.eq_of_toNat_eq
      simp only [BitVec.toNat_ofNat]
      omega
    have h2 : (b.toNat + 256 * natOfLittle rest) / 256 = natOfLittle rest := by omega
    simp [natOfLittle, littleOfNat, h1, h2, ih]

/-- Writing the number that bytes stand for gives the bytes back. -/
theorem bytesOfNat_natOfBytes (o : ByteOrder) (bs : List Byte) : bytesOfNat o bs.length (natOfBytes o bs) = bs := by
  cases o with
  | little => exact littleOfNat_natOfLittle bs
  | big =>
    have := littleOfNat_natOfLittle bs.reverse
    simp only [List.length_reverse] at this
    simp [bytesOfNat, natOfBytes, this]

end Sys2Proof.Machine
end

