-- ==== Sys2Proof/Laws/Access.lean ====
section
/-! SUPPORT. What a checked access can do (41_scanline.md R170): when it succeeds, and what it reads and writes. -/

namespace Sys2Proof.Machine

/-! ### Checks -/

/-- A check answers ok, or the first of its three faults. -/
theorem check_ok_iff (b : Bus) (a : Int) (n al : Nat) :
    b.check a n al = .ok () ↔ b.inSpace a n = true ∧ b.alignedTo a al = true ∧ admitsAll b.admitSet a n = true := by
  unfold Bus.check
  cases b.inSpace a n <;> cases b.alignedTo a al <;> cases admitsAll b.admitSet a n <;> simp

/-- The reasons a check can fail with. -/
theorem check_error {b : Bus} {a : Int} {n al : Nat} {r : FaultReason} (h : b.check a n al = .error r) :
    (r = .addrWrap ∧ b.inSpace a n = false) ∨ (r = .misaligned ∧ b.alignedTo a al = false) ∨
      (r = .buffer ∧ admitsAll b.admitSet a n = false) := by
  unfold Bus.check at h
  cases h1 : b.inSpace a n <;> cases h2 : b.alignedTo a al <;> cases h3 : admitsAll b.admitSet a n <;>
    simp [h1, h2, h3] at h <;> simp [← h]

theorem inSpace_iff (b : Bus) (a : Int) {n : Nat} (hn : 0 < n) :
    b.inSpace a n = true ↔ 0 ≤ a ∧ a + n ≤ 2 ^ b.addrW := by
  have : n ≠ 0 := by omega
  simp [Bus.inSpace, this]

theorem admitsAll_iff (admitSet : List Region) (a : Int) (n : Nat) :
    admitsAll admitSet a n = true ↔ ∀ x : Int, a ≤ x → x < a + n → admits admitSet x = true := by
  induction n generalizing a with
  | zero => simp only [admitsAll, true_iff]; intro x h1 h2; omega
  | succ n ih =>
    simp only [admitsAll, Bool.and_eq_true, ih]
    constructor
    · rintro ⟨h1, h2⟩ x hx hx'
      by_cases e : x = a
      · exact e ▸ h1
      · exact h2 x (by omega) (by push_cast at hx'; omega)
    · intro h
      exact ⟨h a (by omega) (by push_cast; omega), fun x h1 h2 => h x (by omega) (by push_cast; omega)⟩

/-- A byte address exists and is in the launch memory. -/
def Bus.good (b : Bus) (x : Int) : Prop := 0 ≤ x ∧ x < 2 ^ b.addrW ∧ admits b.admitSet x = true

/-- An access all of whose bytes exist and are admitted, at an address that obeys ALIGN_CHECK, passes its checks. -/
theorem check_of_good {b : Bus} {a : Int} {n al : Nat} (h : ∀ x : Int, a ≤ x → x < a + n → b.good x)
    (hal : b.alignedTo a al = true) : b.check a n al = .ok () := by
  rw [check_ok_iff]
  refine ⟨?_, hal, ?_⟩
  · rcases Nat.eq_zero_or_pos n with rfl | hn
    · simp [Bus.inSpace]
    · rw [inSpace_iff b a hn]
      have h1 := h a (by omega) (by omega)
      have h2 := h (a + n - 1) (by omega) (by omega)
      exact ⟨h1.1, by have := h2.2.1; omega⟩
  · rw [admitsAll_iff]
    exact fun x h1 h2 => (h x h1 h2).2.2

/-- A passed check of a non-empty access. -/
theorem good_of_check {b : Bus} {a : Int} {n al : Nat} (h : b.check a n al = .ok ()) (x : Int) (h1 : a ≤ x)
    (h2 : x < a + n) : b.good x := by
  rw [check_ok_iff] at h
  have hn : 0 < n := by omega
  have hs := (inSpace_iff b a hn).1 h.1
  exact ⟨by omega, by omega, (admitsAll_iff _ _ _).1 h.2.2 x h1 h2⟩

/-! ### What an access leaves -/

/-- Every listed address of a memory is below `2^ADDR_W`. -/
def Memory.below (m : Memory) (w : Nat) : Bool := m.all fun c => decide (c.1 < 2 ^ w)

theorem below_write {m : Memory} {w a : Nat} (b : Byte) (h : m.below w = true) (ha : a < 2 ^ w) :
    (m.write a b).below w = true := by
  induction m with
  | nil => unfold Memory.write; split <;> simp [Memory.below, ha]
  | cons c rest ih =>
    obtain ⟨k, v⟩ := c
    simp only [Memory.below, List.all_cons, Bool.and_eq_true, decide_eq_true_eq] at h ih
    unfold Memory.write
    repeat' split
    all_goals simp only [Memory.below, List.all_cons, Bool.and_eq_true, decide_eq_true_eq]
    all_goals first | exact h | exact h.2 | exact ⟨ha, h⟩ | exact ⟨ha, h.2⟩ | exact ⟨h.1, ih h.2⟩

theorem below_writeBytes (bs : List Byte) {m : Memory} {w a : Nat} (h : m.below w = true)
    (ha : a + bs.length ≤ 2 ^ w) : (m.writeBytes a bs).below w = true := by
  induction bs generalizing m a with
  | nil => exact h
  | cons b rest ih =>
    simp only [List.length_cons] at ha
    exact ih (below_write b h (by omega)) (by omega)

/-- `m'` is `m` after writes to addresses of `W` that exist and are admitted. -/
structure Wrote (b : Bus) (W : Int → Prop) (m m' : Memory) : Prop where
  wf : Memory.wf m = true → Memory.wf m' = true
  below : m.below b.addrW = true → m'.below b.addrW = true
  outside : Memory.wf m = true → ∀ k : Nat, ¬ W k → m'.read k = m.read k

namespace Wrote

theorem refl (b : Bus) (W : Int → Prop) (m : Memory) : Wrote b W m m := ⟨id, id, fun _ _ _ => rfl⟩

theorem trans {b : Bus} {W : Int → Prop} {m m' m'' : Memory} (h : Wrote b W m m') (h' : Wrote b W m' m'') :
    Wrote b W m m'' :=
  ⟨h'.wf ∘ h.wf, h'.below ∘ h.below, fun hw k hk => (h'.outside (h.wf hw) k hk).trans (h.outside hw k hk)⟩

theorem mono {b : Bus} {W W' : Int → Prop} {m m' : Memory} (h : Wrote b W m m') (hs : ∀ x, W x → W' x) :
    Wrote b W' m m' := ⟨h.wf, h.below, fun hw k hk => h.outside hw k fun hW => hk (hs _ hW)⟩

/-- Bytes none of which was written are as before. -/
theorem readBytes_outside {b : Bus} {W : Int → Prop} {m m' : Memory} (h : Wrote b W m m') (hm : Memory.wf m = true)
    {a : Int} {n : Nat} (ha : 0 ≤ a) (hd : ∀ x : Int, a ≤ x → x < a + n → ¬ W x) :
    m'.readBytes a.toNat n = m.readBytes a.toNat n := by
  apply readBytes_congr
  intro k h1 h2
  exact h.outside hm k (hd k (by omega) (by omega))

end Wrote

/-- What a successful `MemWrite` does. -/
theorem memWrite_ok {b : Bus} {m m' : Memory} {a : Int} {bs : List Byte} {al : Nat}
    (h : b.memWrite m a bs al = .ok m') :
    b.check a bs.length al = .ok () ∧ m' = m.writeBytes a.toNat bs := by
  unfold Bus.memWrite at h
  split at h
  · cases h
  · exact ⟨by assumption, by cases h; rfl⟩

theorem memWrite_eq {b : Bus} {a : Int} {bs : List Byte} {al : Nat} (m : Memory)
    (h : b.check a bs.length al = .ok ()) : b.memWrite m a bs al = .ok (m.writeBytes a.toNat bs) := by
  simp [Bus.memWrite, h]

theorem wrote_of_memWrite {b : Bus} {m m' : Memory} {a : Int} {bs : List Byte} {al : Nat}
    (h : b.memWrite m a bs al = .ok m') : Wrote b (fun x => a ≤ x ∧ x < a + bs.length) m m' := by
  obtain ⟨hc, rfl⟩ := memWrite_ok h
  refine ⟨wf_writeBytes bs m _, fun hb => ?_, fun hw k hk => ?_⟩
  · rcases Nat.eq_zero_or_pos bs.length with h0 | hn
    · rw [List.length_eq_zero_iff.1 h0]; exact hb
    · have := (inSpace_iff b a hn).1 ((check_ok_iff _ _ _ _).1 hc).1
      refine below_writeBytes bs hb ?_
      have h2 : ((a.toNat + bs.length : Nat) : Int) ≤ ((2 ^ b.addrW : Nat) : Int) := by
        push_cast; omega
      exact_mod_cast h2
  · rw [read_writeBytes bs m _ k hw, dif_neg]
    rintro ⟨h1, h2⟩
    have hg := good_of_check hc a (le_refl a) (by omega)
    exact hk ⟨by have := hg.1; omega, by have := hg.1; omega⟩

/-- What a successful `MemRead` gives. -/
theorem memRead_ok {b : Bus} {m : Memory} {a : Int} {n al : Nat} {bs : List Byte}
    (h : b.memRead m a n al = .ok bs) : b.check a n al = .ok () ∧ bs = m.readBytes a.toNat n := by
  unfold Bus.memRead at h
  split at h
  · cases h
  · exact ⟨by assumption, by cases h; rfl⟩

theorem memRead_eq {b : Bus} {a : Int} {n al : Nat} (m : Memory) (h : b.check a n al = .ok ()) :
    b.memRead m a n al = .ok (m.readBytes a.toNat n) := by
  simp [Bus.memRead, h]

/-- What a successful `LoadInt` gives. -/
theorem loadInt_ok {b : Bus} {m : Memory} {a : Int} {n al : Nat} {o : ByteOrder} {v : Nat}
    (h : b.loadInt m a n al o = .ok v) :
    b.check a n al = .ok () ∧ v = natOfBytes o (m.readBytes a.toNat n) := by
  unfold Bus.loadInt at h
  split at h
  · cases h
  · rename_i bs hb
    obtain ⟨h1, rfl⟩ := memRead_ok hb
    exact ⟨h1, by cases h; rfl⟩

theorem loadInt_eq {b : Bus} {a : Int} {n al : Nat} (m : Memory) (o : ByteOrder) (h : b.check a n al = .ok ()) :
    b.loadInt m a n al o = .ok (natOfBytes o (m.readBytes a.toNat n)) := by
  simp [Bus.loadInt, memRead_eq m h]

/-- A failed `LoadInt` failed its checks. -/
theorem loadInt_error {b : Bus} {m : Memory} {a : Int} {n al : Nat} {o : ByteOrder} {r : FaultReason}
    (h : b.loadInt m a n al o = .error r) : b.check a n al = .error r := by
  unfold Bus.loadInt Bus.memRead at h
  split at h
  · rename_i e he
    split at he
    · rename_i r' hr'
      cases he
      cases h
      exact hr'
    · cases he
  · cases h

/-- A failed `MemWrite` failed its checks. -/
theorem memWrite_error {b : Bus} {m : Memory} {a : Int} {bs : List Byte} {al : Nat} {r : FaultReason}
    (h : b.memWrite m a bs al = .error r) : b.check a bs.length al = .error r := by
  unfold Bus.memWrite at h
  split at h
  · rename_i r' hr'
    cases h
    exact hr'
  · cases h

theorem storeInt_eq {b : Bus} {a : Int} {n al : Nat} (m : Memory) (o : ByteOrder) (v : Nat)
    (h : b.check a n al = .ok ()) :
    b.storeInt m a n al o v = .ok (m.writeBytes a.toNat (bytesOfNat o n v)) := by
  unfold Bus.storeInt
  exact memWrite_eq m (by simpa using h)

theorem wrote_of_storeInt {b : Bus} {m m' : Memory} {a : Int} {n al : Nat} {o : ByteOrder} {v : Nat}
    (h : b.storeInt m a n al o v = .ok m') : Wrote b (fun x => a ≤ x ∧ x < a + n) m m' := by
  have := wrote_of_memWrite h
  simpa using this

theorem check_of_storeInt {b : Bus} {m m' : Memory} {a : Int} {n al : Nat} {o : ByteOrder} {v : Nat}
    (h : b.storeInt m a n al o v = .ok m') : b.check a n al = .ok () := by
  simpa using (memWrite_ok h).1

theorem storeInt_error {b : Bus} {m : Memory} {a : Int} {n al : Nat} {o : ByteOrder} {v : Nat} {r : FaultReason}
    (h : b.storeInt m a n al o v = .error r) : b.check a n al = .error r := by
  simpa using memWrite_error h

/-- The bytes a successful `StoreInt` leaves at its address. -/
theorem readBytes_storeInt {b : Bus} {m m' : Memory} {a : Int} {n al : Nat} {o : ByteOrder} {v : Nat}
    (h : b.storeInt m a n al o v = .ok m') (hw : Memory.wf m = true) :
    m'.readBytes a.toNat n = bytesOfNat o n v := by
  obtain ⟨_, rfl⟩ := memWrite_ok h
  have := readBytes_writeBytes m a.toNat (bytesOfNat o n v) hw
  simpa using this

end Sys2Proof.Machine
end

