-- ==== Sys2Proof/Laws/Footprint.lean ====
section
/-! SUPPORT. Regions, footprints and overlap (20_memory.md R69 to R73). -/

namespace Sys2Proof.Machine

theorem has_iff (r : Region) (x : Int) : r.has x = true ↔ r.base ≤ x ∧ x < r.base + r.len := by
  simp [Region.has]

theorem apart_not_both {r q : Region} (h : r.apart q = true) {x : Int} (h1 : r.has x = true) (h2 : q.has x = true) :
    False := by
  rw [has_iff] at h1 h2
  simp only [Region.apart, Bool.or_eq_true, beq_iff_eq, decide_eq_true_eq] at h
  omega

theorem apart_symm {r q : Region} (h : r.apart q = true) : q.apart r = true := by
  simp only [Region.apart, Bool.or_eq_true, beq_iff_eq, decide_eq_true_eq] at h ⊢
  omega

theorem allApart_append {l l' : List Region} :
    allApart (l ++ l') = true ↔ allApart l = true ∧ allApart l' = true ∧ ∀ r ∈ l, ∀ q ∈ l', r.apart q = true := by
  induction l with
  | nil => simp [allApart]
  | cons r rest ih =>
    simp only [List.cons_append, allApart, Bool.and_eq_true, ih, List.all_append, List.all_eq_true,
      List.mem_cons, forall_eq_or_imp]
    tauto

theorem allApart_map {α : Type} {l : List α} {f : α → Region} (hn : l.Nodup) (h : allApart (l.map f) = true)
    {c c' : α} (h1 : c ∈ l) (h2 : c' ∈ l) (hne : c ≠ c') : (f c).apart (f c') = true := by
  induction l with
  | nil => cases h1
  | cons a rest ih =>
    simp only [List.map_cons, allApart, Bool.and_eq_true, List.all_eq_true, List.mem_map,
      forall_exists_index, and_imp, forall_apply_eq_imp_iff₂] at h
    rw [List.nodup_cons] at hn
    rcases List.mem_cons.1 h1 with rfl | h1'
    · rcases List.mem_cons.1 h2 with rfl | h2'
      · exact absurd rfl hne
      · exact h.1 c' h2'
    · rcases List.mem_cons.1 h2 with rfl | h2'
      · exact apart_symm (h.1 c h1')
      · exact ih hn.2 h.2 h1' h2'

/-- What the absence of overlap gives (20_memory.md R73). -/
theorem noOverlap_iff (f : Footprint) :
    f.noOverlap = true ↔ allApart f.writes = true ∧ ∀ w ∈ f.writes, ∀ r ∈ f.reads, w.apart r = true := by
  simp [Footprint.noOverlap]

/-- A ready region's bytes can be accessed. -/
theorem good_of_ready {b : Bus} {r : Region} (h : b.ready r = true) {x : Int} (hx : r.has x = true) : b.good x := by
  rw [has_iff] at hx
  simp only [Bus.ready, Bool.and_eq_true] at h
  have hn : 0 < r.len := by omega
  have h1 := (inSpace_iff b r.base hn).1 h.1
  exact ⟨by omega, by omega, (admitsAll_iff _ _ _).1 h.2 x hx.1 hx.2⟩

theorem ready_iff (f : Footprint) (b : Bus) :
    f.ready b = true ↔ (∀ r ∈ f.reads, b.ready r = true) ∧ ∀ r ∈ f.writes, b.ready r = true := by
  simp [Footprint.ready]

/-- Every byte of a ready footprint can be accessed. -/
theorem good_of_footprint {b : Bus} {f : Footprint} (h : f.ready b = true) {r : Region}
    (hr : r ∈ f.reads ∨ r ∈ f.writes) {x : Int} (hx : r.has x = true) : b.good x := by
  rw [ready_iff] at h
  rcases hr with hr | hr
  · exact good_of_ready (h.1 r hr) hx
  · exact good_of_ready (h.2 r hr) hx

/-- Writes inside the regions a footprint writes leave every other byte. -/
theorem Wrote.unwritten {b : Bus} {W : Int → Prop} {m m' : Memory} {f : Footprint} (h : Wrote b W m m')
    (hw : Memory.wf m = true) (hs : ∀ x, W x → ∃ r ∈ f.writes, r.has x = true) : UnwrittenBytesKept f m m' := by
  intro a ha
  refine h.outside hw a fun hW => ?_
  obtain ⟨r, hr, hx⟩ := hs a hW
  have : (f.writes.any fun r => r.has a) = true := List.any_eq_true.2 ⟨r, hr, hx⟩
  rw [this] at ha
  cases ha

/-! ### Memory left unspecified by an access fault (60_exceptions.md R271 point 5) -/

theorem forgetRegion_wrote (b : Bus) (ix : Nat) (base : Int) (n : Nat) (m : Memory) :
    Wrote b (fun x => base ≤ x ∧ x < base + n) m (forgetRegion b ix base n m) := by
  induction n generalizing base m with
  | zero => exact Wrote.refl _ _ _
  | succ n ih =>
    unfold forgetRegion
    refine Wrote.trans ?_ ((ih (base + 1) _).mono ?_)
    · split
      · rename_i hc
        rw [Bool.and_eq_true, inSpace_iff b base (by omega)] at hc
        have hb : base.toNat < 2 ^ b.addrW := by
          have : (base.toNat : Int) < ((2 ^ b.addrW : Nat) : Int) := by push_cast; omega
          exact_mod_cast this
        refine ⟨fun hw => wf_write m _ _ hw, fun h => below_write _ h hb, fun hw k hk => ?_⟩
        rw [read_write m _ k _ hw, if_neg]
        intro e
        exact hk ⟨by omega, by omega⟩
      · exact Wrote.refl _ _ _
    · intro x hx
      push_cast
      omega

theorem forgetRegions_wrote (b : Bus) (ix : Nat) (l : List Region) (m : Memory) :
    Wrote b (fun x => ∃ r ∈ l, r.has x = true) m (forgetRegions b ix l m) := by
  induction l generalizing m with
  | nil => exact Wrote.refl _ _ _
  | cons r rest ih =>
    unfold forgetRegions
    refine ((forgetRegion_wrote b ix r.base r.len m).mono ?_).trans ((ih _).mono ?_)
    · intro x hx
      exact ⟨r, by simp, (has_iff r x).2 hx⟩
    · rintro x ⟨q, hq, hx⟩
      exact ⟨q, by simp [hq], hx⟩

theorem footprint_has_iff (f : Footprint) (x : Int) :
    f.has x = true ↔ ∃ r ∈ f.reads ++ f.writes, r.has x = true := by
  simp only [Footprint.has, List.any_eq_true]

/-- An access fault leaves every byte outside the footprint (60_exceptions.md R271 point 5). -/
theorem forgetRegions_outside (b : Bus) (ix : Nat) (f : Footprint) (m : Memory) (hw : Memory.wf m = true) :
    OutsideKept f m (forgetRegions b ix (f.reads ++ f.writes) m) := by
  intro a ha
  refine (forgetRegions_wrote b ix (f.reads ++ f.writes) m).outside hw a fun hx => ?_
  rw [(footprint_has_iff f a).2 hx] at ha
  cases ha

/-! ### The end of a memory command (60_exceptions.md R272) -/

/-- All a memory command can do after its register reads. -/
theorem runTransfer_cases {s t : State} {checks : Except FaultReason Unit} {f : Footprint}
    {accesses : Memory → Except FaultReason Memory} (h : runTransfer s checks f accesses = .next t) :
    (∃ r, checks = .error r ∧ t = { s with status := .faulted r }) ∨
    (checks = .ok () ∧ f.noOverlap = false ∧ t = { s with status := .faulted .overlap }) ∨
    (checks = .ok () ∧ f.noOverlap = true ∧ ∃ r, accesses s.mem = .error r ∧
      t = { s with status := .faulted r, mem := forgetRegions s.bus s.freeIx (f.reads ++ f.writes) s.mem,
                   freeIx := s.freeIx + 1 }) ∨
    (checks = .ok () ∧ f.noOverlap = true ∧ ∃ m, accesses s.mem = .ok m ∧ t = { s with mem := m }) := by
  unfold runTransfer raiseFault raiseAccessFault at h
  split at h
  · cases h; exact .inl ⟨_, rfl, rfl⟩
  · split at h
    · rename_i hno
      split at h
      · cases h; exact .inr (.inr (.inl ⟨rfl, hno, _, ‹_›, rfl⟩))
      · cases h; exact .inr (.inr (.inr ⟨rfl, hno, _, ‹_›, rfl⟩))
    · rename_i hno
      cases h
      exact .inr (.inl ⟨rfl, by simpa using hno, rfl⟩)

/-- A memory command always answers a next state. -/
theorem runTransfer_next (s : State) (checks : Except FaultReason Unit) (f : Footprint)
    (accesses : Memory → Except FaultReason Memory) : ∃ t, runTransfer s checks f accesses = .next t := by
  unfold runTransfer raiseFault raiseAccessFault
  split
  · exact ⟨_, rfl⟩
  · split
    · split
      · exact ⟨_, rfl⟩
      · exact ⟨_, rfl⟩
    · exact ⟨_, rfl⟩

end Sys2Proof.Machine
end

