-- ==== Sys2Proof/Laws/Scanline.lean ====
section
/-! SUPPORT. What the loops of the scanline engine do (41_scanline.md): where they write, when they succeed, and the
value of every element and every unit they leave. -/

namespace Sys2Proof.Machine

theorem get_advance (p : Planes) (c c' : Channel) (k : Int) :
    (p.advance c k).get c' = if c' = c then p.get c' + k else p.get c' := by
  cases c <;> cases c' <;> simp [Planes.advance, Planes.get]

/-- A channel takes part: it is not an alpha that is switched off. -/
def Takes (on : Bool) (c : Channel) : Prop := ¬(c = .a ∧ on = false)

/-- `n` elements of `eb` bytes at a channel's cursor hold the address. -/
def InPlane (cur : Planes) (c : Channel) (n eb : Nat) (x : Int) : Prop :=
  cur.get c ≤ x ∧ x < cur.get c + (n * eb : Nat)

/-- The bytes of the slots' elements of one unit. -/
def SlotBytes (eb : Nat) (on : Bool) (sl : List Slot) (cur : Planes) (x : Int) : Prop :=
  ∃ c, Takes on c ∧ InPlane cur c (countSlots c sl) eb x

theorem countSlots_pad (c : Channel) (rest : List Slot) : countSlots c (.pad :: rest) = countSlots c rest := by
  simp [countSlots, Slot.channel?]

theorem countSlots_field (c c' : Channel) (sh dp : Nat) (rest : List Slot) :
    countSlots c (.field c' sh dp :: rest) = (if c = c' then 1 else 0) + countSlots c rest := by
  by_cases h : c = c'
  · simp [countSlots, Slot.channel?, h]
  · have : ¬ c' = c := fun e => h e.symm
    simp [countSlots, Slot.channel?, h, this]

/-- The bytes after the first slot's element, seen from the advanced cursor, are among the unit's bytes. -/
theorem inPlane_advance {cur : Planes} {c c' : Channel} {sh dp eb : Nat} {rest : List Slot} {x : Int}
    (h : InPlane (cur.advance c (eb : Int)) c' (countSlots c' rest) eb x) :
    InPlane cur c' (countSlots c' (.field c sh dp :: rest)) eb x := by
  unfold InPlane at h ⊢
  rw [get_advance] at h
  rw [countSlots_field]
  by_cases e : c' = c
  · simp only [e, if_true] at h ⊢
    rw [Nat.add_mul, Nat.one_mul]
    omega
  · simp only [e, if_false, Nat.zero_add] at h ⊢
    exact h

theorem inPlane_first {cur : Planes} {c : Channel} {sh dp eb : Nat} {rest : List Slot} {x : Int}
    (h1 : cur.get c ≤ x) (h2 : x < cur.get c + eb) :
    InPlane cur c (countSlots c (.field c sh dp :: rest)) eb x := by
  unfold InPlane
  rw [countSlots_field, if_pos rfl, Nat.add_mul, Nat.one_mul]
  omega

/-- A slot's element comes before the end of its channel's elements in the unit. -/
theorem countSlots_take_lt {c : Channel} {sh dp : Nat} (sl : List Slot) (j : Nat) (hj : j < sl.length)
    (he : sl[j] = .field c sh dp) : countSlots c (sl.take j) + 1 ≤ countSlots c sl := by
  induction sl generalizing j with
  | nil => simp at hj
  | cons s rest ih =>
    cases j with
    | zero =>
      simp only [List.getElem_cons_zero] at he
      subst he
      simp only [List.take_zero]
      rw [countSlots_field, if_pos rfl]
      simp only [countSlots]
      omega
    | succ j =>
      simp only [List.getElem_cons_succ] at he
      have := ih j (by simpa using hj) he
      simp only [List.take_succ_cons, countSlots]
      omega

/-! ### The slots of one unit on unpack -/

/-- The cases of a successful slot on unpack. -/
theorem unpackSlots_field_ok {b : Bus} {d : Layout} {on : Bool} {w : Nat} {c : Channel} {sh dp : Nat}
    {rest : List Slot} {cur cur' : Planes} {m m' : Memory}
    (h : unpackSlots b d on w (.field c sh dp :: rest) cur m = .ok (cur', m')) :
    (¬ Takes on c ∧ unpackSlots b d on w rest cur m = .ok (cur', m')) ∨
    (Takes on c ∧ ∃ m1, b.storePlanar m (cur.get c) d.eb (extractField w sh dp) = .ok m1 ∧
      unpackSlots b d on w rest (cur.advance c d.eb) m1 = .ok (cur', m')) := by
  unfold unpackSlots at h
  split at h
  · exact .inl ⟨fun ht => ht ‹_›, h⟩
  · split at h
    · cases h
    · exact .inr ⟨‹_›, _, ‹_›, h⟩

theorem unpackSlots_wrote {b : Bus} {d : Layout} {on : Bool} {w : Nat} {sl : List Slot} {cur cur' : Planes}
    {m m' : Memory} (h : unpackSlots b d on w sl cur m = .ok (cur', m')) :
    Wrote b (SlotBytes d.eb on sl cur) m m' := by
  induction sl generalizing cur m with
  | nil => cases h; exact Wrote.refl _ _ _
  | cons s rest ih =>
    cases s with
    | pad =>
      refine (ih h).mono ?_
      rintro x ⟨c, ht, hx⟩
      exact ⟨c, ht, by rwa [countSlots_pad]⟩
    | field c sh dp =>
      rcases unpackSlots_field_ok h with ⟨hn, h'⟩ | ⟨ht, m1, h1, h2⟩
      · refine (ih h').mono ?_
        rintro x ⟨c', ht', hx⟩
        refine ⟨c', ht', ?_⟩
        have : c' ≠ c := fun e => hn (e ▸ ht')
        rw [countSlots_field, if_neg this, Nat.zero_add]
        exact hx
      · refine ((wrote_of_storeInt h1).mono ?_).trans ((ih h2).mono ?_)
        · rintro x ⟨hx1, hx2⟩
          exact ⟨c, ht, inPlane_first hx1 hx2⟩
        · rintro x ⟨c', ht', hx⟩
          exact ⟨c', ht', inPlane_advance hx⟩

/-- Each channel that takes part advances by one element per slot (41_scanline.md R177). -/
theorem unpackSlots_cursor {b : Bus} {d : Layout} {on : Bool} {w : Nat} {sl : List Slot} {cur cur' : Planes}
    {m m' : Memory} (h : unpackSlots b d on w sl cur m = .ok (cur', m')) (c : Channel) (hc : Takes on c) :
    cur'.get c = cur.get c + (countSlots c sl * d.eb : Nat) := by
  induction sl generalizing cur m with
  | nil => cases h; simp [countSlots]
  | cons s rest ih =>
    cases s with
    | pad => rw [countSlots_pad]; exact ih h
    | field c' sh dp =>
      rw [countSlots_field]
      rcases unpackSlots_field_ok h with ⟨hn, h'⟩ | ⟨ht, m1, h1, h2⟩
      · have : c ≠ c' := fun e => hn (e ▸ hc)
        rw [if_neg this, Nat.zero_add]
        exact ih h'
      · rw [ih h2, get_advance]
        by_cases e : c = c'
        · rw [if_pos e, if_pos e, Nat.add_mul, Nat.one_mul]
          omega
        · rw [if_neg e, if_neg e, Nat.zero_add]

/-- Every active slot's element holds the slot's field of the unit word (41_scanline.md R175, R176). -/
theorem unpackSlots_value {b : Bus} {d : Layout} {on : Bool} {w : Nat} {sl : List Slot} {cur cur' : Planes}
    {m m' : Memory} (h : unpackSlots b d on w sl cur m = .ok (cur', m')) (hw : Memory.wf m = true)
    (hap : ∀ c c' x, Takes on c → Takes on c' → c ≠ c' → InPlane cur c (countSlots c sl) d.eb x →
      ¬ InPlane cur c' (countSlots c' sl) d.eb x)
    (i : Nat) (hi : i < sl.length) (c : Channel) (sh dp : Nat) (hs : sl[i] = .field c sh dp) (hc : Takes on c) :
    m'.readBytes (cur.get c + (countSlots c (sl.take i) * d.eb : Nat)).toNat d.eb
      = bytesOfNat b.hostOrder d.eb (extractField w sh dp) := by
  induction sl generalizing cur m i with
  | nil => simp at hi
  | cons s rest ih =>
    cases s with
    | pad =>
      cases i with
      | zero => simp at hs
      | succ i =>
        simp only [List.take_succ_cons, countSlots_pad]
        simp only [countSlots_pad] at hap
        exact ih h hw hap i (by simpa using hi) (by simpa using hs)
    | field c' sh' dp' =>
      rcases unpackSlots_field_ok h with ⟨hn, h'⟩ | ⟨ht, m1, h1, h2⟩
      · cases i with
        | zero => simp only [List.getElem_cons_zero] at hs; cases hs; exact absurd hc hn
        | succ i =>
          have hne : ∀ k, Takes on k → countSlots k (.field c' sh' dp' :: rest) = countSlots k rest := by
            intro k hk
            have : k ≠ c' := fun e => hn (e ▸ hk)
            rw [countSlots_field, if_neg this, Nat.zero_add]
          have hcc : c ≠ c' := fun e => hn (e ▸ hc)
          rw [List.take_succ_cons, countSlots_field, if_neg hcc, Nat.zero_add]
          refine ih h' hw ?_ i (by simpa using hi) (by simpa using hs)
          intro k k' x hk hk' hne' hx
          have := hap k k' x hk hk' hne'
          rw [hne k hk, hne k' hk'] at this
          exact this hx
      · have hw1 : Memory.wf m1 = true := (wrote_of_storeInt h1).wf hw
        have hap' : ∀ k k' x, Takes on k → Takes on k' → k ≠ k' →
            InPlane (cur.advance c' d.eb) k (countSlots k rest) d.eb x →
            ¬ InPlane (cur.advance c' d.eb) k' (countSlots k' rest) d.eb x := by
          intro k k' x hk hk' hne hx hx'
          exact hap k k' x hk hk' hne (inPlane_advance hx) (inPlane_advance hx')
        cases i with
        | zero =>
          simp only [List.getElem_cons_zero] at hs
          cases hs
          have hck := check_of_storeInt h1
          simp only [List.take_zero, countSlots, Nat.zero_mul, Nat.cast_zero, Int.add_zero]
          rcases Nat.eq_zero_or_pos d.eb with h0 | hpos
          · rw [h0]
            cases b.hostOrder <;> rfl
          have h0 : 0 ≤ cur.get c := ((good_of_check hck) _ (le_refl _) (by omega)).1
          rw [(unpackSlots_wrote h2).readBytes_outside hw1 h0 ?_]
          · exact readBytes_storeInt h1 hw
          · rintro x hx1 hx2 ⟨k, hk, hx⟩
            by_cases e : k = c
            · subst e
              have := hx.1
              rw [get_advance, if_pos rfl] at this
              omega
            · exact hap c k x hc hk (fun e' => e e'.symm) (inPlane_first hx1 hx2) (inPlane_advance hx)
        | succ i =>
          have := ih h2 hw1 hap' i (by simpa using hi) (by simpa using hs)
          rw [List.take_succ_cons, countSlots_field]
          rw [get_advance] at this
          by_cases e : c = c'
          · rw [if_pos e] at this ⊢
            rw [Nat.add_mul, Nat.one_mul]
            rw [show cur.get c + ((d.eb + countSlots c (rest.take i) * d.eb : Nat) : Int)
              = cur.get c + (d.eb : Int) + ((countSlots c (rest.take i) * d.eb : Nat) : Int) by push_cast; ring]
            exact this
          · rw [if_neg e] at this ⊢
            rw [Nat.zero_add]
            exact this

/-- The cursor of a channel whose element was stored is no negative address. -/
theorem unpackSlots_cursor_nonneg {b : Bus} {d : Layout} {on : Bool} {w : Nat} {sl : List Slot} {cur cur' : Planes}
    {m m' : Memory} (h : unpackSlots b d on w sl cur m = .ok (cur', m')) (c : Channel) (hc : Takes on c)
    (hp : 0 < countSlots c sl) (heb : 0 < d.eb) : 0 ≤ cur.get c := by
  induction sl generalizing cur m with
  | nil => simp [countSlots] at hp
  | cons s rest ih =>
    cases s with
    | pad => exact ih h (by rwa [countSlots_pad] at hp)
    | field k sh dp =>
      rcases unpackSlots_field_ok h with ⟨hn, h'⟩ | ⟨ht, m1, h1, h2⟩
      · have : c ≠ k := fun e => hn (e ▸ hc)
        rw [countSlots_field, if_neg this, Nat.zero_add] at hp
        exact ih h' hp
      · by_cases e : c = k
        · subst e
          exact (good_of_check (check_of_storeInt h1) _ (le_refl _) (by omega)).1
        · rw [countSlots_field, if_neg e, Nat.zero_add] at hp
          have := ih h2 hp
          rwa [get_advance, if_neg e] at this

/-- A cursor that obeys ALIGN_CHECK still does so some elements later. -/
theorem alignedTo_add {b : Bus} {a : Int} {al : Nat} (k : Nat) (h : b.alignedTo a al = true) :
    b.alignedTo (a + (k * al : Nat)) al = true := by
  unfold Bus.alignedTo at h ⊢
  cases hb : b.alignCheck
  · simp
  · simp only [hb, Bool.not_true, Bool.false_or, beq_iff_eq] at h ⊢
    rw [Nat.cast_mul, mul_comm, Int.add_mul_emod_self_left]
    exact h

/-- The slots of a unit succeed when every element's bytes exist and are admitted and the cursors are aligned. -/
theorem unpackSlots_total {b : Bus} {d : Layout} {on : Bool} {w : Nat} {sl : List Slot} {cur : Planes} (m : Memory)
    (hg : ∀ x, SlotBytes d.eb on sl cur x → b.good x)
    (hal : ∀ c, Takes on c → 0 < countSlots c sl → b.alignedTo (cur.get c) d.eb = true) :
    ∃ r, unpackSlots b d on w sl cur m = .ok r := by
  induction sl generalizing cur m with
  | nil => exact ⟨_, rfl⟩
  | cons s rest ih =>
    cases s with
    | pad =>
      refine ih m (fun x hx => ?_) (fun c hc h => ?_)
      · obtain ⟨c, ht, hx⟩ := hx
        exact hg x ⟨c, ht, by rwa [countSlots_pad]⟩
      · exact hal c hc (by rwa [countSlots_pad])
    | field c sh dp =>
      unfold unpackSlots
      split
      · rename_i hn
        refine ih m (fun x hx => ?_) (fun k hk h => ?_)
        · obtain ⟨k, ht, hx⟩ := hx
          have : k ≠ c := fun e => (e ▸ ht) hn
          exact hg x ⟨k, ht, by rwa [countSlots_field, if_neg this, Nat.zero_add]⟩
        · have : k ≠ c := fun e => (e ▸ hk) hn
          exact hal k hk (by rwa [countSlots_field, if_neg this, Nat.zero_add])
      · rename_i hn
        have hck : b.check (cur.get c) d.eb d.eb = .ok () := by
          refine check_of_good (fun x h1 h2 => hg x ⟨c, hn, inPlane_first h1 h2⟩) ?_
          exact hal c hn (by rw [countSlots_field, if_pos rfl]; omega)
        unfold Bus.storePlanar
        rw [storeInt_eq m _ _ hck]
        refine ih _ (fun x hx => ?_) (fun k hk h => ?_)
        · obtain ⟨k, ht, hx⟩ := hx
          exact hg x ⟨k, ht, inPlane_advance hx⟩
        · rw [get_advance]
          have h1 := hal k hk (by rw [countSlots_field]; omega)
          split
          · have := alignedTo_add 1 h1
            simpa using this
          · exact h1

/-! ### The units of a row on unpack -/

/-- The bytes of the elements of `n` units. -/
def UnitBytes (d : Layout) (on : Bool) (n : Nat) (cur : Planes) (x : Int) : Prop :=
  ∃ c, Takes on c ∧ InPlane cur c (n * d.count c) d.eb x

/-- The cases of a successful unit on unpack. -/
theorem unpackUnits_succ_ok {b : Bus} {d : Layout} {on : Bool} {n : Nat} {pcur : Int} {cur : Planes}
    {m m' : Memory} (h : unpackUnits b d on (n + 1) pcur cur m = .ok m') :
    ∃ w cur1 m1, b.loadUnit m pcur d = .ok w ∧ unpackSlots b d on w d.slots.toList cur m = .ok (cur1, m1) ∧
      unpackUnits b d on n (pcur + d.pkb) cur1 m1 = .ok m' := by
  unfold unpackUnits at h
  split at h
  · cases h
  · split at h
    · cases h
    · exact ⟨_, _, _, ‹_›, ‹_›, h⟩

theorem inPlane_unit_first {d : Layout} {n : Nat} {cur : Planes} {c : Channel} {x : Int}
    (h : InPlane cur c (countSlots c d.slots.toList) d.eb x) : InPlane cur c ((n + 1) * d.count c) d.eb x := by
  unfold InPlane at h ⊢
  have : (n + 1) * d.count c * d.eb = n * d.count c * d.eb + countSlots c d.slots.toList * d.eb := by
    unfold Layout.count; ring
  rw [this]
  omega

theorem inPlane_unit_rest {d : Layout} {n : Nat} {cur cur1 : Planes} {c : Channel} {x : Int}
    (hc : cur1.get c = cur.get c + (countSlots c d.slots.toList * d.eb : Nat))
    (h : InPlane cur1 c (n * d.count c) d.eb x) : InPlane cur c ((n + 1) * d.count c) d.eb x := by
  unfold InPlane at h ⊢
  have : (n + 1) * d.count c * d.eb = n * d.count c * d.eb + countSlots c d.slots.toList * d.eb := by
    unfold Layout.count; ring
  rw [this]
  rw [hc] at h
  omega

theorem unpackUnits_wrote {b : Bus} {d : Layout} {on : Bool} {n : Nat} {pcur : Int} {cur : Planes}
    {m m' : Memory} (h : unpackUnits b d on n pcur cur m = .ok m') : Wrote b (UnitBytes d on n cur) m m' := by
  induction n generalizing pcur cur m with
  | zero => cases h; exact Wrote.refl _ _ _
  | succ n ih =>
    obtain ⟨w, cur1, m1, _, h2, h3⟩ := unpackUnits_succ_ok h
    refine ((unpackSlots_wrote h2).mono ?_).trans ((ih h3).mono ?_)
    · rintro x ⟨c, ht, hx⟩
      exact ⟨c, ht, inPlane_unit_first hx⟩
    · rintro x ⟨c, ht, hx⟩
      exact ⟨c, ht, inPlane_unit_rest (unpackSlots_cursor h2 c ht) hx⟩

/-- Every element of every active slot holds the slot's field of its unit, as the unit stood before the row
(41_scanline.md R175 to R177), when the planes do not overlap each other or the packed bytes. -/
theorem unpackUnits_value {b : Bus} {d : Layout} {on : Bool} {n : Nat} {pcur : Int} {cur : Planes} {m m' : Memory}
    (h : unpackUnits b d on n pcur cur m = .ok m') (hw : Memory.wf m = true) (hpkb : 0 < d.pkb)
    (hap : ∀ c c' x, Takes on c → Takes on c' → c ≠ c' → InPlane cur c (n * d.count c) d.eb x →
      ¬ InPlane cur c' (n * d.count c') d.eb x)
    (hsrc : ∀ x, pcur ≤ x → x < pcur + (n * d.pkb : Nat) → ¬ UnitBytes d on n cur x)
    (u : Nat) (hu : u < n) (i : Nat) (hi : i < d.slots.toList.length) (c : Channel) (sh dp : Nat)
    (hs : d.slots.toList[i] = .field c sh dp) (hc : Takes on c) :
    m'.readBytes (cur.get c + ((u * d.count c + countSlots c (d.slots.toList.take i)) * d.eb : Nat)).toNat d.eb
      = bytesOfNat b.hostOrder d.eb
          (extractField (natOfBytes d.tag (m.readBytes (pcur + (u * d.pkb : Nat)).toNat d.pkb)) sh dp) := by
  induction n generalizing pcur cur m u with
  | zero => omega
  | succ n ih =>
    obtain ⟨w, cur1, m1, h1, h2, h3⟩ := unpackUnits_succ_ok h
    obtain ⟨hck, hwv⟩ := loadInt_ok h1
    have hp0 : 0 ≤ pcur := (good_of_check hck pcur (le_refl _) (by omega)).1
    have hcur := fun k hk => unpackSlots_cursor h2 k hk
    have hw1 : Memory.wf m1 = true := (unpackSlots_wrote h2).wf hw
    have hmul : ((n + 1) * d.pkb : Nat) = n * d.pkb + d.pkb := by ring
    have hfirst : ∀ x, SlotBytes d.eb on d.slots.toList cur x → UnitBytes d on (n + 1) cur x := by
      rintro x ⟨k, hk, hx⟩
      exact ⟨k, hk, inPlane_unit_first hx⟩
    have hrest : ∀ x, UnitBytes d on n cur1 x → UnitBytes d on (n + 1) cur x := by
      rintro x ⟨k, hk, hx⟩
      exact ⟨k, hk, inPlane_unit_rest (hcur k hk) hx⟩
    cases u with
    | zero =>
      have hval := unpackSlots_value h2 hw
        (fun k k' x hk hk' hne hx hx' =>
          hap k k' x hk hk' hne (inPlane_unit_first hx) (inPlane_unit_first hx'))
        i hi c sh dp hs hc
      simp only [Nat.zero_mul, Nat.zero_add, Nat.cast_zero, Int.add_zero]
      rw [← hwv, ← hval]
      -- the element of the first unit is inside its plane region and outside what the rest writes
      have hlt := countSlots_take_lt d.slots.toList i hi hs
      rcases Nat.eq_zero_or_pos d.eb with h0 | hpos
      · rw [h0]; rfl
      have hin : ∀ x, cur.get c + ((countSlots c (d.slots.toList.take i) * d.eb : Nat) : Int) ≤ x →
          x < cur.get c + ((countSlots c (d.slots.toList.take i) * d.eb : Nat) : Int) + d.eb →
          InPlane cur c (countSlots c d.slots.toList) d.eb x := by
        intro x hx1 hx2
        have hle : (countSlots c (d.slots.toList.take i) + 1) * d.eb ≤ countSlots c d.slots.toList * d.eb :=
          Nat.mul_le_mul_right _ hlt
        rw [Nat.add_mul, Nat.one_mul] at hle
        unfold InPlane
        omega
      by_cases ha : 0 ≤ cur.get c + ((countSlots c (d.slots.toList.take i) * d.eb : Nat) : Int)
      · refine (unpackUnits_wrote h3).readBytes_outside hw1 ha ?_
        rintro x hx1 hx2 ⟨k, hk, hx⟩
        have hx' := hin x hx1 hx2
        by_cases e : k = c
        · subst e
          have h5 := hx.1
          have h6 := hx'.2
          rw [hcur k hk] at h5
          omega
        · exact hap c k x hc hk (fun e' => e e'.symm) (inPlane_unit_first hx')
            (inPlane_unit_rest (hcur k hk) hx)
      · -- a negative element address would have failed its check
        exfalso
        have := unpackSlots_cursor_nonneg h2 c hc (by omega) hpos
        omega
    | succ u =>
      have hlen : (d.pkb : Int) + ((n * d.pkb : Nat) : Int) = (((n + 1) * d.pkb : Nat) : Int) := by
        rw [hmul]; push_cast; ring
      have hv := ih h3 hw1
        (fun k k' x hk hk' hne hx hx' =>
          hap k k' x hk hk' hne (inPlane_unit_rest (hcur k hk) hx) (inPlane_unit_rest (hcur k' hk') hx'))
        (fun x hx1 hx2 hx => hsrc x (by omega) (by omega) (hrest x hx)) u (by omega)
      rw [hcur c hc] at hv
      have e1 : cur.get c + (((u + 1) * d.count c + countSlots c (d.slots.toList.take i)) * d.eb : Nat)
          = cur.get c + (countSlots c d.slots.toList * d.eb : Nat)
            + ((u * d.count c + countSlots c (d.slots.toList.take i)) * d.eb : Nat) := by
        have : ((u + 1) * d.count c + countSlots c (d.slots.toList.take i)) * d.eb
            = countSlots c d.slots.toList * d.eb
              + (u * d.count c + countSlots c (d.slots.toList.take i)) * d.eb := by
          unfold Layout.count; ring
        rw [this]; push_cast; ring
      rw [e1, hv]
      have e2 : pcur + (d.pkb : Int) + ((u * d.pkb : Nat) : Int) = pcur + (((u + 1) * d.pkb : Nat) : Int) := by
        push_cast; ring
      rw [e2]
      have hnn : (0 : Int) ≤ (((u + 1) * d.pkb : Nat) : Int) := Int.natCast_nonneg _
      have hmono : ((u + 1) * d.pkb + d.pkb : Nat) ≤ (n + 1) * d.pkb := by
        have : (u + 1 + 1) * d.pkb ≤ (n + 1) * d.pkb := Nat.mul_le_mul_right _ (by omega)
        rw [Nat.add_mul (u + 1) 1, Nat.one_mul] at this
        exact this
      have hkeep : m1.readBytes (pcur + (((u + 1) * d.pkb : Nat) : Int)).toNat d.pkb
          = m.readBytes (pcur + (((u + 1) * d.pkb : Nat) : Int)).toNat d.pkb := by
        refine (unpackSlots_wrote h2).readBytes_outside hw (by omega) fun x hx1 hx2 hx => ?_
        exact hsrc x (by omega) (by omega) (hfirst x hx)
      rw [hkeep]

/-- The units of a row succeed when all bytes exist and are admitted and the cursors are aligned. -/
theorem unpackUnits_total {b : Bus} {d : Layout} {on : Bool} {n : Nat} {pcur : Int} {cur : Planes} (m : Memory)
    (hp : ∀ x, pcur ≤ x → x < pcur + (n * d.pkb : Nat) → b.good x)
    (hpal : b.alignedTo pcur (unitAlign d.pkb) = true)
    (hg : ∀ x, UnitBytes d on n cur x → b.good x)
    (hal : ∀ c, Takes on c → 0 < d.count c → b.alignedTo (cur.get c) d.eb = true) :
    ∃ m', unpackUnits b d on n pcur cur m = .ok m' := by
  induction n generalizing pcur cur m with
  | zero => exact ⟨_, rfl⟩
  | succ n ih =>
    have hmul : ((n + 1) * d.pkb : Nat) = n * d.pkb + d.pkb := by ring
    have hck : b.check pcur d.pkb (unitAlign d.pkb) = .ok () :=
      check_of_good (fun x h1 h2 => hp x h1 (by omega)) hpal
    have hld := loadInt_eq m d.tag hck
    obtain ⟨⟨cur1, m1⟩, h2⟩ := unpackSlots_total (w := natOfBytes d.tag (m.readBytes pcur.toNat d.pkb))
      (sl := d.slots.toList) (cur := cur) (on := on) (d := d) (b := b) m
      (fun x hx => by
        obtain ⟨c, ht, hx⟩ := hx
        exact hg x ⟨c, ht, inPlane_unit_first hx⟩)
      (fun c hc h => hal c hc h)
    have hcur := fun k hk => unpackSlots_cursor h2 k hk
    obtain ⟨m', h3⟩ := ih (pcur := pcur + d.pkb) (cur := cur1) m1
      (fun x h1 h2 => hp x (by omega) (by omega))
      (by
        have : ∃ k, (k * unitAlign d.pkb : Nat) = d.pkb := by
          unfold unitAlign
          split
          · exact ⟨1, by omega⟩
          · exact ⟨d.pkb, by omega⟩
        obtain ⟨k, hk⟩ := this
        have h := alignedTo_add k hpal
        rwa [hk] at h)
      (fun x hx => by
        obtain ⟨c, ht, hx⟩ := hx
        exact hg x ⟨c, ht, inPlane_unit_rest (hcur c ht) hx⟩)
      (fun c hc h => by
        rw [hcur c hc]
        exact alignedTo_add _ (hal c hc h))
    refine ⟨m', ?_⟩
    unfold unpackUnits Bus.loadUnit
    rw [hld]
    simp only [h2]
    exact h3

/-! ### The slots of one unit on pack -/

/-- The cases of a successful slot on pack. -/
theorem packSlots_field_ok {b : Bus} {d : Layout} {on : Bool} {m : Memory} {c : Channel} {sh dp : Nat}
    {rest : List Slot} {cur cur' : Planes} {w w' : Nat}
    (h : packSlots b d on m (.field c sh dp :: rest) cur w = .ok (cur', w')) :
    (¬ Takes on c ∧ packSlots b d on m rest cur w = .ok (cur', w')) ∨
    (Takes on c ∧ ∃ v, b.loadPlanar m (cur.get c) d.eb = .ok v ∧
      packSlots b d on m rest (cur.advance c d.eb) (w ||| alignField v sh dp) = .ok (cur', w')) := by
  unfold packSlots at h
  split at h
  · exact .inl ⟨fun ht => ht ‹_›, h⟩
  · split at h
    · cases h
    · exact .inr ⟨‹_›, _, ‹_›, h⟩

/-- Each channel that takes part advances by one element per slot (41_scanline.md R179). -/
theorem packSlots_cursor {b : Bus} {d : Layout} {on : Bool} {m : Memory} {sl : List Slot} {cur cur' : Planes}
    {w w' : Nat} (h : packSlots b d on m sl cur w = .ok (cur', w')) (c : Channel) (hc : Takes on c) :
    cur'.get c = cur.get c + (countSlots c sl * d.eb : Nat) := by
  induction sl generalizing cur w with
  | nil => cases h; simp [countSlots]
  | cons s rest ih =>
    cases s with
    | pad => rw [countSlots_pad]; exact ih h
    | field c' sh dp =>
      rw [countSlots_field]
      rcases packSlots_field_ok h with ⟨hn, h'⟩ | ⟨ht, v, h1, h2⟩
      · have : c ≠ c' := fun e => hn (e ▸ hc)
        rw [if_neg this, Nat.zero_add]
        exact ih h'
      · rw [ih h2, get_advance]
        by_cases e : c = c'
        · rw [if_pos e, if_pos e, Nat.add_mul, Nat.one_mul]
          omega
        · rw [if_neg e, if_neg e, Nat.zero_add]

/-- The slots of a unit read nothing but their elements. -/
theorem packSlots_congr {b : Bus} {d : Layout} {on : Bool} {m m' : Memory} {sl : List Slot} {cur : Planes} {w : Nat}
    {r : Planes × Nat} (h : packSlots b d on m sl cur w = .ok r)
    (he : ∀ k : Nat, SlotBytes d.eb on sl cur k → m'.read k = m.read k) :
    packSlots b d on m' sl cur w = .ok r := by
  induction sl generalizing cur w with
  | nil => exact h
  | cons s rest ih =>
    obtain ⟨r1, r2⟩ := r
    cases s with
    | pad =>
      refine ih (cur := cur) (w := w) h fun k hk => he k ?_
      obtain ⟨c, ht, hx⟩ := hk
      exact ⟨c, ht, by rwa [countSlots_pad]⟩
    | field c sh dp =>
      unfold packSlots
      rcases packSlots_field_ok h with ⟨hn, h'⟩ | ⟨ht, v, h1, h2⟩
      · rw [if_pos (not_not.1 hn)]
        refine ih h' fun k hk => he k ?_
        obtain ⟨c', ht', hx⟩ := hk
        have : c' ≠ c := fun e => hn (e ▸ ht')
        exact ⟨c', ht', by rwa [countSlots_field, if_neg this, Nat.zero_add]⟩
      · rw [if_neg ht]
        obtain ⟨hck, hv⟩ := loadInt_ok h1
        have hsame : m'.readBytes (cur.get c).toNat d.eb = m.readBytes (cur.get c).toNat d.eb := by
          apply readBytes_congr
          intro k h3 h4
          have h0 : 0 ≤ cur.get c := (good_of_check hck _ (le_refl _) (by omega)).1
          exact he k ⟨c, ht, inPlane_first (by omega) (by omega)⟩
        have hld : b.loadPlanar m' (cur.get c) d.eb = .ok v := by
          unfold Bus.loadPlanar
          rw [loadInt_eq m' _ hck, hsame, ← hv]
        rw [hld]
        refine ih h2 fun k hk => he k ?_
        obtain ⟨c', ht', hx⟩ := hk
        exact ⟨c', ht', inPlane_advance hx⟩

/-- A bit of an aligned value (40_bitfield.md R151). -/
theorem testBit_alignField (v sh dp j : Nat) :
    (alignField v sh dp).testBit j = true ↔ sh ≤ j ∧ j < sh + dp ∧ v.testBit (j - sh) = true := by
  unfold alignField mask
  rw [Nat.testBit_shiftLeft, Nat.testBit_and, Nat.testBit_two_pow_sub_one]
  simp only [Bool.and_eq_true, decide_eq_true_eq, ge_iff_le]
  constructor
  · rintro ⟨h1, h2, h3⟩
    exact ⟨h1, by omega, h2⟩
  · rintro ⟨h1, h2, h3⟩
    exact ⟨h1, h3, by omega⟩

/-- A bit of the composed word: a bit it started from, or a bit of an active slot's element (41_scanline.md
R181). -/
theorem testBit_packSlots {b : Bus} {d : Layout} {on : Bool} {m : Memory} {sl : List Slot} {cur cur' : Planes}
    {w w' : Nat} (h : packSlots b d on m sl cur w = .ok (cur', w')) (j : Nat) :
    w'.testBit j = true ↔ w.testBit j = true ∨ ∃ (i : Nat) (hi : i < sl.length) (c : Channel) (sh dp : Nat),
      sl[i] = .field c sh dp ∧ Takes on c ∧ sh ≤ j ∧ j < sh + dp ∧
      (natOfBytes b.hostOrder (m.readBytes (cur.get c + (countSlots c (sl.take i) * d.eb : Nat)).toNat
        d.eb)).testBit (j - sh) = true := by
  induction sl generalizing cur w with
  | nil =>
    cases h
    simp
  | cons s rest ih =>
    cases s with
    | pad =>
      rw [ih (cur := cur) (w := w) h]
      refine or_congr Iff.rfl ⟨?_, ?_⟩
      · rintro ⟨i, hi, c, sh, dp, h1, h2⟩
        refine ⟨i + 1, by simpa using hi, c, sh, dp, by simpa using h1, ?_⟩
        simpa only [List.take_succ_cons, countSlots_pad] using h2
      · rintro ⟨i, hi, c, sh, dp, h1, h2⟩
        cases i with
        | zero => simp at h1
        | succ i =>
          refine ⟨i, by simpa using hi, c, sh, dp, by simpa using h1, ?_⟩
          simpa only [List.take_succ_cons, countSlots_pad] using h2
    | field c' sh' dp' =>
      rcases packSlots_field_ok h with ⟨hn, h'⟩ | ⟨ht, v, h1, h2⟩
      · rw [ih h']
        refine or_congr Iff.rfl ⟨?_, ?_⟩
        · rintro ⟨i, hi, c, sh, dp, h1, h2, h3⟩
          have : c ≠ c' := fun e => hn (e ▸ h2)
          refine ⟨i + 1, by simpa using hi, c, sh, dp, by simpa using h1, h2, ?_⟩
          rwa [List.take_succ_cons, countSlots_field, if_neg this, Nat.zero_add]
        · rintro ⟨i, hi, c, sh, dp, h1, h2, h3⟩
          have : c ≠ c' := fun e => hn (e ▸ h2)
          cases i with
          | zero =>
            simp only [List.getElem_cons_zero] at h1
            cases h1
            exact absurd rfl this
          | succ i =>
            refine ⟨i, by simpa using hi, c, sh, dp, by simpa using h1, h2, ?_⟩
            rwa [List.take_succ_cons, countSlots_field, if_neg this, Nat.zero_add] at h3
      · obtain ⟨_, hv⟩ := loadInt_ok h1
        have haddr : ∀ (c : Channel) (i : Nat),
            cur.get c + (countSlots c ((Slot.field c' sh' dp' :: rest).take (i + 1)) * d.eb : Nat)
              = (cur.advance c' d.eb).get c + (countSlots c (rest.take i) * d.eb : Nat) := by
          intro c i
          rw [List.take_succ_cons, countSlots_field, get_advance]
          split
          · push_cast; ring
          · rw [Nat.zero_add]
        rw [ih h2, Nat.testBit_or, Bool.or_eq_true, testBit_alignField, or_assoc]
        refine or_congr Iff.rfl ⟨?_, ?_⟩
        · rintro (⟨h3, h4, h5⟩ | ⟨i, hi, c, sh, dp, h3, h4, h5, h6, h7⟩)
          · refine ⟨0, by simp, c', sh', dp', rfl, ht, h3, h4, ?_⟩
            simpa [countSlots, ← hv] using h5
          · refine ⟨i + 1, by simpa using hi, c, sh, dp, by simpa using h3, h4, h5, h6, ?_⟩
            rw [haddr]
            exact h7
        · rintro ⟨i, hi, c, sh, dp, h3, h4, h5, h6, h7⟩
          cases i with
          | zero =>
            simp only [List.getElem_cons_zero] at h3
            cases h3
            refine .inl ⟨h5, h6, ?_⟩
            simpa [countSlots, ← hv] using h7
          | succ i =>
            refine .inr ⟨i, by simpa using hi, c, sh, dp, by simpa using h3, h4, h5, h6, ?_⟩
            rw [← haddr]
            exact h7

/-- The slots of a unit succeed when every element's bytes exist and are admitted and the cursors are aligned. -/
theorem packSlots_total {b : Bus} {d : Layout} {on : Bool} {sl : List Slot} {cur : Planes} (m : Memory) (w : Nat)
    (hg : ∀ x, SlotBytes d.eb on sl cur x → b.good x)
    (hal : ∀ c, Takes on c → 0 < countSlots c sl → b.alignedTo (cur.get c) d.eb = true) :
    ∃ r, packSlots b d on m sl cur w = .ok r := by
  induction sl generalizing cur w with
  | nil => exact ⟨_, rfl⟩
  | cons s rest ih =>
    cases s with
    | pad =>
      refine ih w (fun x hx => ?_) (fun c hc h => ?_)
      · obtain ⟨c, ht, hx⟩ := hx
        exact hg x ⟨c, ht, by rwa [countSlots_pad]⟩
      · exact hal c hc (by rwa [countSlots_pad])
    | field c sh dp =>
      unfold packSlots
      split
      · rename_i hn
        refine ih w (fun x hx => ?_) (fun k hk h => ?_)
        · obtain ⟨k, ht, hx⟩ := hx
          have : k ≠ c := fun e => (e ▸ ht) hn
          exact hg x ⟨k, ht, by rwa [countSlots_field, if_neg this, Nat.zero_add]⟩
        · have : k ≠ c := fun e => (e ▸ hk) hn
          exact hal k hk (by rwa [countSlots_field, if_neg this, Nat.zero_add])
      · rename_i hn
        have hck : b.check (cur.get c) d.eb d.eb = .ok () := by
          refine check_of_good (fun x h1 h2 => hg x ⟨c, hn, inPlane_first h1 h2⟩) ?_
          exact hal c hn (by rw [countSlots_field, if_pos rfl]; omega)
        unfold Bus.loadPlanar
        rw [loadInt_eq m _ hck]
        refine ih _ (fun x hx => ?_) (fun k hk h => ?_)
        · obtain ⟨k, ht, hx⟩ := hx
          exact hg x ⟨k, ht, inPlane_advance hx⟩
        · rw [get_advance]
          have h1 := hal k hk (by rw [countSlots_field]; omega)
          split
          · have := alignedTo_add 1 h1
            simpa using this
          · exact h1

/-! ### The units of a row on pack -/

/-- `n` packed units at `pcur` hold the address. -/
def InPacked (pcur : Int) (n pkb : Nat) (x : Int) : Prop := pcur ≤ x ∧ x < pcur + (n * pkb : Nat)

/-- The cases of a successful unit on pack. -/
theorem packUnits_succ_ok {b : Bus} {d : Layout} {fill on : Bool} {n : Nat} {pcur : Int} {cur : Planes}
    {m m' : Memory} (h : packUnits b d fill on (n + 1) cur pcur m = .ok m') :
    ∃ w cur1 m1, packSlots b d on m d.slots.toList cur (d.seed fill on) = .ok (cur1, w) ∧
      b.storeUnit m pcur d w = .ok m1 ∧ packUnits b d fill on n cur1 (pcur + d.pkb) m1 = .ok m' := by
  unfold packUnits at h
  split at h
  · cases h
  · split at h
    · cases h
    · exact ⟨_, _, _, ‹_›, ‹_›, h⟩

theorem inPacked_first {pcur x : Int} {n pkb : Nat} (h1 : pcur ≤ x) (h2 : x < pcur + pkb) :
    InPacked pcur (n + 1) pkb x := by
  unfold InPacked
  rw [Nat.add_mul, Nat.one_mul]
  omega

theorem inPacked_rest {pcur x : Int} {n pkb : Nat} (h : InPacked (pcur + pkb) n pkb x) :
    InPacked pcur (n + 1) pkb x := by
  unfold InPacked at h ⊢
  rw [Nat.add_mul, Nat.one_mul]
  omega

theorem packUnits_wrote {b : Bus} {d : Layout} {fill on : Bool} {n : Nat} {pcur : Int} {cur : Planes}
    {m m' : Memory} (h : packUnits b d fill on n cur pcur m = .ok m') : Wrote b (InPacked pcur n d.pkb) m m' := by
  induction n generalizing pcur cur m with
  | zero => cases h; exact Wrote.refl _ _ _
  | succ n ih =>
    obtain ⟨w, cur1, m1, _, h2, h3⟩ := packUnits_succ_ok h
    refine ((wrote_of_storeInt h2).mono ?_).trans ((ih h3).mono fun x hx => inPacked_rest hx)
    rintro x ⟨h4, h5⟩
    exact inPacked_first h4 h5

/-- Every unit holds the word composed from its elements, as they stood before the row (41_scanline.md R182), when
the packed bytes do not overlap the planes. -/
theorem packUnits_value {b : Bus} {d : Layout} {fill on : Bool} {n : Nat} {pcur : Int} {cur : Planes}
    {m m' : Memory} (h : packUnits b d fill on n cur pcur m = .ok m') (hw : Memory.wf m = true)
    (hpkb : 0 < d.pkb) (hsrc : ∀ x, UnitBytes d on n cur x → ¬ InPacked pcur n d.pkb x) (u : Nat) (hu : u < n) :
    ∃ (w : Nat) (curu cur' : Planes),
      (∀ c, Takes on c → curu.get c = cur.get c + (u * d.count c * d.eb : Nat)) ∧
      packSlots b d on m d.slots.toList curu (d.seed fill on) = .ok (cur', w) ∧
      m'.readBytes (pcur + (u * d.pkb : Nat)).toNat d.pkb = bytesOfNat d.tag d.pkb w := by
  induction n generalizing pcur cur m u with
  | zero => omega
  | succ n ih =>
    obtain ⟨w, cur1, m1, h1, h2, h3⟩ := packUnits_succ_ok h
    have hcur := fun k hk => packSlots_cursor h1 k hk
    have hw1 : Memory.wf m1 = true := (wrote_of_storeInt h2).wf hw
    have hck := check_of_storeInt h2
    have hp0 : 0 ≤ pcur := (good_of_check hck pcur (le_refl _) (by omega)).1
    cases u with
    | zero =>
      refine ⟨w, cur, cur1, fun c _ => by simp, h1, ?_⟩
      simp only [Nat.zero_mul, Nat.cast_zero, Int.add_zero]
      rw [(packUnits_wrote h3).readBytes_outside hw1 hp0 ?_]
      · exact readBytes_storeInt h2 hw
      · rintro x hx1 hx2 ⟨hx3, _⟩
        omega
    | succ u =>
      obtain ⟨wu, curu, cur', hcu, hps, hrd⟩ := ih h3 hw1
        (fun x hx hx' => by
          obtain ⟨c, ht, hx⟩ := hx
          exact hsrc x ⟨c, ht, inPlane_unit_rest (hcur c ht) hx⟩ (inPacked_rest hx'))
        u (by omega)
      refine ⟨wu, curu, cur', fun c hc => ?_, ?_, ?_⟩
      · rw [hcu c hc, hcur c hc]
        have : ((u + 1) * d.count c * d.eb : Nat)
            = countSlots c d.slots.toList * d.eb + u * d.count c * d.eb := by unfold Layout.count; ring
        rw [this]; push_cast; ring
      · refine packSlots_congr hps fun k hk => ?_
        obtain ⟨c, ht, hx⟩ := hk
        refine ((wrote_of_storeInt h2).outside hw k ?_).symm
        rintro ⟨h4, h5⟩
        refine hsrc k ⟨c, ht, ?_⟩ (inPacked_first h4 h5)
        unfold InPlane at hx ⊢
        rw [hcu c ht, hcur c ht] at hx
        have hle : (u + 1 + 1) * d.count c * d.eb ≤ (n + 1) * d.count c * d.eb :=
          Nat.mul_le_mul_right _ (Nat.mul_le_mul_right _ (by omega))
        have e3 : (u + 1 + 1) * d.count c * d.eb
            = countSlots c d.slots.toList * d.eb + u * d.count c * d.eb + countSlots c d.slots.toList * d.eb := by
          unfold Layout.count; ring
        rw [e3] at hle
        omega
      · have e2 : pcur + (d.pkb : Int) + ((u * d.pkb : Nat) : Int) = pcur + (((u + 1) * d.pkb : Nat) : Int) := by
          push_cast; ring
        rw [← e2]
        exact hrd

/-- The units of a row succeed when all bytes exist and are admitted and the cursors are aligned. -/
theorem packUnits_total {b : Bus} {d : Layout} {fill on : Bool} {n : Nat} {pcur : Int} {cur : Planes} (m : Memory)
    (hp : ∀ x, InPacked pcur n d.pkb x → b.good x) (hpal : b.alignedTo pcur (unitAlign d.pkb) = true)
    (hg : ∀ x, UnitBytes d on n cur x → b.good x)
    (hal : ∀ c, Takes on c → 0 < d.count c → b.alignedTo (cur.get c) d.eb = true) :
    ∃ m', packUnits b d fill on n cur pcur m = .ok m' := by
  induction n generalizing pcur cur m with
  | zero => exact ⟨_, rfl⟩
  | succ n ih =>
    have hck : b.check pcur d.pkb (unitAlign d.pkb) = .ok () :=
      check_of_good (fun x h1 h2 => hp x (inPacked_first h1 h2)) hpal
    obtain ⟨⟨cur1, w⟩, h2⟩ := packSlots_total (sl := d.slots.toList) (cur := cur) (on := on) (d := d) (b := b) m
      (d.seed fill on)
      (fun x hx => by
        obtain ⟨c, ht, hx⟩ := hx
        exact hg x ⟨c, ht, inPlane_unit_first hx⟩)
      (fun c hc h => hal c hc h)
    have hcur := fun k hk => packSlots_cursor h2 k hk
    obtain ⟨m', h3⟩ := ih (pcur := pcur + d.pkb) (cur := cur1)
      (m.writeBytes pcur.toNat (bytesOfNat d.tag d.pkb w))
      (fun x hx => hp x (inPacked_rest hx))
      (by
        obtain ⟨k, hk⟩ : ∃ k, (k * unitAlign d.pkb : Nat) = d.pkb := by
          unfold unitAlign
          split
          · exact ⟨1, by omega⟩
          · exact ⟨d.pkb, by omega⟩
        have h := alignedTo_add k hpal
        rwa [hk] at h)
      (fun x hx => by
        obtain ⟨c, ht, hx⟩ := hx
        exact hg x ⟨c, ht, inPlane_unit_rest (hcur c ht) hx⟩)
      (fun c hc h => by
        rw [hcur c hc]
        exact alignedTo_add _ (hal c hc h))
    refine ⟨m', ?_⟩
    unfold packUnits Bus.storeUnit
    simp only [h2]
    rw [storeInt_eq m _ _ hck]
    exact h3

end Sys2Proof.Machine
end

