-- ==== Sys2Proof/Laws/V210.lean ====
section
/-! SUPPORT. What the loops of the v210 codec do (42_v210.md): where they write, when they succeed, and the value of
every sample and every word they leave. -/

namespace Sys2Proof.Machine

/-! ### Sequences of stores -/

theorem storeSeq_cons_ok {b : Bus} {n : Nat} {o : ByteOrder} {a : Int} {v : Nat} {rest : List Nat} {m m' : Memory}
    (h : storeSeq b n o a (v :: rest) m = .ok m') :
    ∃ m1, b.storeInt m a n n o v = .ok m1 ∧ storeSeq b n o (a + n) rest m1 = .ok m' := by
  unfold storeSeq at h
  split at h
  · cases h
  · exact ⟨_, ‹_›, h⟩

theorem storeSeq_wrote {b : Bus} {n : Nat} {o : ByteOrder} {a : Int} {vs : List Nat} {m m' : Memory}
    (h : storeSeq b n o a vs m = .ok m') : Wrote b (InPacked a vs.length n) m m' := by
  induction vs generalizing a m with
  | nil => cases h; exact Wrote.refl _ _ _
  | cons v rest ih =>
    obtain ⟨m1, h1, h2⟩ := storeSeq_cons_ok h
    refine ((wrote_of_storeInt h1).mono ?_).trans ((ih h2).mono fun x hx => inPacked_rest hx)
    rintro x ⟨h3, h4⟩
    exact inPacked_first h3 h4

theorem storeSeq_value {b : Bus} {n : Nat} {o : ByteOrder} {a : Int} {vs : List Nat} {m m' : Memory}
    (h : storeSeq b n o a vs m = .ok m') (hw : Memory.wf m = true) (hn : 0 < n) (i : Nat) (hi : i < vs.length) :
    m'.readBytes (a + (i * n : Nat)).toNat n = bytesOfNat o n vs[i] := by
  induction vs generalizing a m i with
  | nil => simp at hi
  | cons v rest ih =>
    obtain ⟨m1, h1, h2⟩ := storeSeq_cons_ok h
    cases i with
    | zero =>
      have h0 : 0 ≤ a := (good_of_check (check_of_storeInt h1) a (le_refl _) (by omega)).1
      simp only [Nat.zero_mul, Nat.cast_zero, Int.add_zero, List.getElem_cons_zero]
      rw [(storeSeq_wrote h2).readBytes_outside ((wrote_of_storeInt h1).wf hw) h0 ?_]
      · exact readBytes_storeInt h1 hw
      · rintro x hx1 hx2 ⟨hx3, _⟩
        omega
    | succ i =>
      have := ih h2 ((wrote_of_storeInt h1).wf hw) i (by simpa using hi)
      simp only [List.getElem_cons_succ]
      rw [← this]
      congr 2
      push_cast
      ring

theorem storeSeq_total {b : Bus} {n : Nat} {o : ByteOrder} {a : Int} (vs : List Nat) (m : Memory)
    (hg : ∀ x, InPacked a vs.length n x → b.good x) (hal : b.alignedTo a n = true) :
    ∃ m', storeSeq b n o a vs m = .ok m' := by
  induction vs generalizing a m with
  | nil => exact ⟨_, rfl⟩
  | cons v rest ih =>
    have hck : b.check a n n = .ok () := check_of_good (fun x h1 h2 => hg x (inPacked_first h1 h2)) hal
    obtain ⟨m', h'⟩ := ih (a := a + n) (m.writeBytes a.toNat (bytesOfNat o n v))
      (fun x hx => hg x (inPacked_rest hx)) (by simpa using alignedTo_add 1 hal)
    refine ⟨m', ?_⟩
    unfold storeSeq
    rw [storeInt_eq m _ _ hck]
    exact h'

/-! ### One group -/

/-- The words of the group at `a`. -/
def wordsAt (m : Memory) (tag : ByteOrder) (a : Int) : GroupWords :=
  ⟨natOfBytes tag (m.readBytes a.toNat 4), natOfBytes tag (m.readBytes (a + 4).toNat 4),
   natOfBytes tag (m.readBytes (a + 8).toNat 4), natOfBytes tag (m.readBytes (a + 12).toNat 4)⟩

/-- The 16-bit element at `a`. -/
def sampleAt (m : Memory) (o : ByteOrder) (a : Int) : Nat := natOfBytes o (m.readBytes a.toNat 2)

/-- The samples of the group at the cursors. -/
def samplesAt (m : Memory) (o : ByteOrder) (cur : Planes) : GroupSamples :=
  ⟨sampleAt m o cur.y, sampleAt m o (cur.y + 2), sampleAt m o (cur.y + 4), sampleAt m o (cur.y + 6),
   sampleAt m o (cur.y + 8), sampleAt m o (cur.y + 10), sampleAt m o cur.u, sampleAt m o (cur.u + 2),
   sampleAt m o (cur.u + 4), sampleAt m o cur.v, sampleAt m o (cur.v + 2), sampleAt m o (cur.v + 4)⟩

theorem except_bind_ok {ε α β : Type} {x : Except ε α} {f : α → Except ε β} {r : β} (h : (x >>= f) = .ok r) :
    ∃ v, x = .ok v ∧ f v = .ok r := by
  cases x with
  | error e => cases h
  | ok v => exact ⟨v, rfl, h⟩

theorem except_bind_eq {ε α β : Type} {x : Except ε α} {v : α} (f : α → Except ε β) (h : x = .ok v) :
    (x >>= f) = f v := by rw [h]; rfl

/-- A loaded group is the words at its address, each of whose accesses passed. -/
theorem loadGroup_ok {b : Bus} {m : Memory} {a : Int} {tag : ByteOrder} {g : GroupWords}
    (h : loadGroup b m a tag = .ok g) : g = wordsAt m tag a ∧ 0 ≤ a := by
  unfold loadGroup at h
  obtain ⟨w0, h0, h⟩ := except_bind_ok h
  obtain ⟨w1, h1, h⟩ := except_bind_ok h
  obtain ⟨w2, h2, h⟩ := except_bind_ok h
  obtain ⟨w3, h3, h⟩ := except_bind_ok h
  cases h
  obtain ⟨c0, rfl⟩ := loadInt_ok h0
  obtain ⟨_, rfl⟩ := loadInt_ok h1
  obtain ⟨_, rfl⟩ := loadInt_ok h2
  obtain ⟨_, rfl⟩ := loadInt_ok h3
  exact ⟨rfl, (good_of_check c0 a (le_refl _) (by omega)).1⟩

theorem alignedTo_offset {b : Bus} {a : Int} {al : Nat} (k : Nat) (h : b.alignedTo a al = true) (c : Int)
    (hc : c = (k * al : Nat)) : b.alignedTo (a + c) al = true := by
  rw [hc]
  exact alignedTo_add k h

theorem loadGroup_eq {b : Bus} {m : Memory} {a : Int} {tag : ByteOrder}
    (hg : ∀ x, a ≤ x → x < a + 16 → b.good x) (hal : b.alignedTo a 4 = true) :
    loadGroup b m a tag = .ok (wordsAt m tag a) := by
  have c0 : b.check a 4 4 = .ok () := check_of_good (fun x h1 h2 => hg x (by omega) (by omega)) hal
  have c1 : b.check (a + 4) 4 4 = .ok () :=
    check_of_good (fun x h1 h2 => hg x (by omega) (by omega)) (alignedTo_offset 1 hal 4 (by norm_num))
  have c2 : b.check (a + 8) 4 4 = .ok () :=
    check_of_good (fun x h1 h2 => hg x (by omega) (by omega)) (alignedTo_offset 2 hal 8 (by norm_num))
  have c3 : b.check (a + 12) 4 4 = .ok () :=
    check_of_good (fun x h1 h2 => hg x (by omega) (by omega)) (alignedTo_offset 3 hal 12 (by norm_num))
  unfold loadGroup
  rw [except_bind_eq _ (loadInt_eq m tag c0), except_bind_eq _ (loadInt_eq m tag c1),
    except_bind_eq _ (loadInt_eq m tag c2), except_bind_eq _ (loadInt_eq m tag c3)]
  rfl

/-- Loaded samples are the elements at the cursors. -/
theorem loadSamples_ok {b : Bus} {m : Memory} {cur : Planes} {g : GroupSamples}
    (h : loadSamples b m cur = .ok g) : g = samplesAt m b.hostOrder cur := by
  unfold loadSamples at h
  obtain ⟨_, h1, h⟩ := except_bind_ok h
  obtain ⟨_, h2, h⟩ := except_bind_ok h
  obtain ⟨_, h3, h⟩ := except_bind_ok h
  obtain ⟨_, h4, h⟩ := except_bind_ok h
  obtain ⟨_, h5, h⟩ := except_bind_ok h
  obtain ⟨_, h6, h⟩ := except_bind_ok h
  obtain ⟨_, h7, h⟩ := except_bind_ok h
  obtain ⟨_, h8, h⟩ := except_bind_ok h
  obtain ⟨_, h9, h⟩ := except_bind_ok h
  obtain ⟨_, h10, h⟩ := except_bind_ok h
  obtain ⟨_, h11, h⟩ := except_bind_ok h
  obtain ⟨_, h12, h⟩ := except_bind_ok h
  cases h
  rw [(loadInt_ok h1).2, (loadInt_ok h2).2, (loadInt_ok h3).2, (loadInt_ok h4).2, (loadInt_ok h5).2,
    (loadInt_ok h6).2, (loadInt_ok h7).2, (loadInt_ok h8).2, (loadInt_ok h9).2, (loadInt_ok h10).2,
    (loadInt_ok h11).2, (loadInt_ok h12).2]
  rfl

/-- The planar bytes of `n` groups at the cursors: 12 of Y and 6 each of U and V per group (20_memory.md R71). -/
def GroupBytes (n : Nat) (cur : Planes) (x : Int) : Prop :=
  InPacked cur.y n 12 x ∨ InPacked cur.u n 6 x ∨ InPacked cur.v n 6 x

theorem loadSamples_eq {b : Bus} {m : Memory} {cur : Planes} (hg : ∀ x, GroupBytes 1 cur x → b.good x)
    (hy : b.alignedTo cur.y 2 = true) (hu : b.alignedTo cur.u 2 = true) (hv : b.alignedTo cur.v 2 = true) :
    loadSamples b m cur = .ok (samplesAt m b.hostOrder cur) := by
  have key : ∀ (a : Int) (k n : Nat), b.alignedTo a 2 = true → 2 * k + 2 ≤ n →
      (∀ x, InPacked a 1 n x → b.good x) → ∀ c : Int, c = ((k * 2 : Nat) : Int) →
      b.loadPlanar m (a + c) 2 = .ok (sampleAt m b.hostOrder (a + c)) := by
    intro a k n ha hk hgood c hc
    refine loadInt_eq m _ (check_of_good (fun x h1 h2 => hgood x ⟨?_, ?_⟩) (alignedTo_offset k ha c hc))
    · omega
    · omega
  have ky := fun k c (h : 2 * k + 2 ≤ 12) (hc : c = ((k * 2 : Nat) : Int)) =>
    key cur.y k 12 hy h (fun x hx => hg x (.inl hx)) c hc
  have ku := fun k c (h : 2 * k + 2 ≤ 6) (hc : c = ((k * 2 : Nat) : Int)) =>
    key cur.u k 6 hu h (fun x hx => hg x (.inr (.inl hx))) c hc
  have kv := fun k c (h : 2 * k + 2 ≤ 6) (hc : c = ((k * 2 : Nat) : Int)) =>
    key cur.v k 6 hv h (fun x hx => hg x (.inr (.inr hx))) c hc
  have ky0 := ky 0 0 (by omega) (by norm_num)
  have ku0 := ku 0 0 (by omega) (by norm_num)
  have kv0 := kv 0 0 (by omega) (by norm_num)
  rw [Int.add_zero] at ky0 ku0 kv0
  unfold loadSamples
  rw [except_bind_eq _ ky0, except_bind_eq _ (ky 1 2 (by omega) (by norm_num)),
    except_bind_eq _ (ky 2 4 (by omega) (by norm_num)), except_bind_eq _ (ky 3 6 (by omega) (by norm_num)),
    except_bind_eq _ (ky 4 8 (by omega) (by norm_num)), except_bind_eq _ (ky 5 10 (by omega) (by norm_num)),
    except_bind_eq _ ku0, except_bind_eq _ (ku 1 2 (by omega) (by norm_num)),
    except_bind_eq _ (ku 2 4 (by omega) (by norm_num)),
    except_bind_eq _ kv0, except_bind_eq _ (kv 1 2 (by omega) (by norm_num)),
    except_bind_eq _ (kv 2 4 (by omega) (by norm_num))]
  rfl

/-- Loaded samples depend on nothing but the planar bytes of the group. -/
theorem samplesAt_congr {m m' : Memory} {o : ByteOrder} {cur : Planes} (h0 : 0 ≤ cur.y) (h1 : 0 ≤ cur.u)
    (h2 : 0 ≤ cur.v) (he : ∀ k : Nat, GroupBytes 1 cur k → m'.read k = m.read k) :
    samplesAt m' o cur = samplesAt m o cur := by
  have key : ∀ (a : Int) (k n : Nat) (c : Int), 0 ≤ a → c = ((k * 2 : Nat) : Int) → 2 * k + 2 ≤ n →
      (∀ x : Nat, InPacked a 1 n x → m'.read x = m.read x) → sampleAt m' o (a + c) = sampleAt m o (a + c) := by
    intro a k n c ha hc hn hx
    unfold sampleAt
    congr 1
    apply readBytes_congr
    intro x h3 h4
    exact hx x ⟨by omega, by omega⟩
  have ky := fun k c hc hn => key cur.y k 12 c h0 hc hn (fun x hx => he x (.inl hx))
  have ku := fun k c hc hn => key cur.u k 6 c h1 hc hn (fun x hx => he x (.inr (.inl hx)))
  have kv := fun k c hc hn => key cur.v k 6 c h2 hc hn (fun x hx => he x (.inr (.inr hx)))
  have ky0 := ky 0 0 (by norm_num) (by omega)
  have ku0 := ku 0 0 (by norm_num) (by omega)
  have kv0 := kv 0 0 (by norm_num) (by omega)
  rw [Int.add_zero] at ky0 ku0 kv0
  unfold samplesAt
  rw [ky0, ky 1 2 (by norm_num) (by omega), ky 2 4 (by norm_num) (by omega), ky 3 6 (by norm_num) (by omega),
    ky 4 8 (by norm_num) (by omega), ky 5 10 (by norm_num) (by omega), ku0, ku 1 2 (by norm_num) (by omega),
    ku 2 4 (by norm_num) (by omega), kv0, kv 1 2 (by norm_num) (by omega), kv 2 4 (by norm_num) (by omega)]

theorem wordsAt_congr {m m' : Memory} {tag : ByteOrder} {a : Int} (h0 : 0 ≤ a)
    (he : ∀ k : Nat, a ≤ k → (k : Int) < a + 16 → m'.read k = m.read k) : wordsAt m' tag a = wordsAt m tag a := by
  have key : ∀ c : Int, 0 ≤ c → c ≤ 12 → m'.readBytes (a + c).toNat 4 = m.readBytes (a + c).toNat 4 := by
    intro c h1 h2
    apply readBytes_congr
    intro k h3 h4
    exact he k (by omega) (by omega)
  have k0 := key 0 (by omega) (by omega)
  rw [Int.add_zero] at k0
  unfold wordsAt
  rw [k0, key 4 (by omega) (by omega), key 8 (by omega) (by omega), key 12 (by omega) (by omega)]

theorem storeGroup_ok {b : Bus} {cur : Planes} {g : GroupSamples} {m m' : Memory}
    (h : storeGroup b cur g m = .ok m') :
    ∃ m1 m2, storeSeq b 2 b.hostOrder cur.y g.ys m = .ok m1 ∧ storeSeq b 2 b.hostOrder cur.u g.us m1 = .ok m2 ∧
      storeSeq b 2 b.hostOrder cur.v g.vs m2 = .ok m' := by
  unfold storeGroup at h
  split at h
  · cases h
  · split at h
    · cases h
    · exact ⟨_, _, ‹_›, ‹_›, h⟩

theorem inPacked_regroup {a x : Int} {n k n' k' : Nat} (h : InPacked a n k x) (e : n * k = n' * k') :
    InPacked a n' k' x := by unfold InPacked at h ⊢; rw [← e]; exact h

theorem storeGroup_wrote {b : Bus} {cur : Planes} {g : GroupSamples} {m m' : Memory}
    (h : storeGroup b cur g m = .ok m') : Wrote b (GroupBytes 1 cur) m m' := by
  obtain ⟨m1, m2, h1, h2, h3⟩ := storeGroup_ok h
  exact ((storeSeq_wrote h1).mono fun x hx => .inl (inPacked_regroup hx rfl)).trans
    (((storeSeq_wrote h2).mono fun x hx => .inr (.inl (inPacked_regroup hx rfl))).trans
      ((storeSeq_wrote h3).mono fun x hx => .inr (.inr (inPacked_regroup hx rfl))))

theorem storeGroup_total {b : Bus} {cur : Planes} (g : GroupSamples) (m : Memory)
    (hg : ∀ x, GroupBytes 1 cur x → b.good x) (hy : b.alignedTo cur.y 2 = true) (hu : b.alignedTo cur.u 2 = true)
    (hv : b.alignedTo cur.v 2 = true) : ∃ m', storeGroup b cur g m = .ok m' := by
  obtain ⟨m1, h1⟩ := storeSeq_total (o := b.hostOrder) g.ys m
    (fun x hx => hg x (.inl (inPacked_regroup hx rfl))) hy
  obtain ⟨m2, h2⟩ := storeSeq_total (o := b.hostOrder) g.us m1
    (fun x hx => hg x (.inr (.inl (inPacked_regroup hx rfl)))) hu
  obtain ⟨m3, h3⟩ := storeSeq_total (o := b.hostOrder) g.vs m2
    (fun x hx => hg x (.inr (.inr (inPacked_regroup hx rfl)))) hv
  exact ⟨m3, by unfold storeGroup; simp only [h1, h2, h3]⟩

/-- The samples of a plane of a group. -/
def GroupSamples.plane (g : GroupSamples) : Channel → List Nat
  | .y => g.ys
  | .u => g.us
  | .v => g.vs
  | .a => []

/-- The number of samples of a plane in a group. -/
def perGroup : Channel → Nat
  | .y => 6
  | .u => 3
  | .v => 3
  | .a => 0

@[simp] theorem length_plane (g : GroupSamples) (c : Channel) : (g.plane c).length = perGroup c := by
  cases c <;> rfl

/-- The plane bytes of `n` groups, by channel. -/
theorem groupBytes_iff (n : Nat) (cur : Planes) (x : Int) :
    GroupBytes n cur x ↔ ∃ c, InPacked (cur.get c) n (2 * perGroup c) x := by
  constructor
  · rintro (h | h | h)
    · exact ⟨.y, h⟩
    · exact ⟨.u, h⟩
    · exact ⟨.v, h⟩
  · rintro ⟨c, h⟩
    cases c with
    | y => exact .inl h
    | u => exact .inr (.inl h)
    | v => exact .inr (.inr h)
    | a =>
      obtain ⟨h1, h2⟩ := h
      simp only [perGroup, Nat.mul_zero, Nat.cast_zero] at h2
      omega

/-- Every element of a stored group holds its sample, when the three planes' bytes are apart. -/
theorem storeGroup_value {b : Bus} {cur : Planes} {g : GroupSamples} {m m' : Memory}
    (h : storeGroup b cur g m = .ok m') (hw : Memory.wf m = true)
    (hap : ∀ c c' x, c ≠ c' → InPacked (cur.get c) 1 (2 * perGroup c) x →
      ¬ InPacked (cur.get c') 1 (2 * perGroup c') x)
    (c : Channel) (i : Nat) (hi : i < (g.plane c).length) :
    m'.readBytes (cur.get c + (i * 2 : Nat)).toNat 2 = bytesOfNat b.hostOrder 2 (g.plane c)[i] ∧
      0 ≤ cur.get c + (i * 2 : Nat) := by
  obtain ⟨m1, m2, h1, h2, h3⟩ := storeGroup_ok h
  have hw1 := (storeSeq_wrote h1).wf hw
  have hw2 := (storeSeq_wrote h2).wf hw1
  have hnn : ∀ {a : Int} {vs : List Nat} {p p' : Memory}, storeSeq b 2 b.hostOrder a vs p = .ok p' →
      0 < vs.length → 0 ≤ a := by
    intro a vs p p' hs hp
    cases vs with
    | nil => simp at hp
    | cons v rest =>
      obtain ⟨_, hs1, _⟩ := storeSeq_cons_ok hs
      exact (good_of_check (check_of_storeInt hs1) a (le_refl _) (by omega)).1
  cases c with
  | y =>
    have h0 := hnn h1 (by simp [GroupSamples.ys])
    refine ⟨?_, by simp only [Planes.get]; omega⟩
    simp only [length_plane, perGroup] at hi
    have ha : 0 ≤ cur.y + ((i * 2 : Nat) : Int) := by omega
    rw [show cur.get .y = cur.y from rfl]
    rw [(storeSeq_wrote h3).readBytes_outside hw2 ha ?_, (storeSeq_wrote h2).readBytes_outside hw1 ha ?_]
    · exact storeSeq_value h1 hw (by omega) i hi
    · intro x hx1 hx2 hx
      refine hap .y .u x (by simp) ⟨?_, ?_⟩ (inPacked_regroup hx rfl)
      · simp only [Planes.get]; omega
      · simp only [Planes.get, perGroup]; omega
    · intro x hx1 hx2 hx
      refine hap .y .v x (by simp) ⟨?_, ?_⟩ (inPacked_regroup hx rfl)
      · simp only [Planes.get]; omega
      · simp only [Planes.get, perGroup]; omega
  | u =>
    have h0 := hnn h2 (by simp [GroupSamples.us])
    refine ⟨?_, by simp only [Planes.get]; omega⟩
    simp only [length_plane, perGroup] at hi
    have ha : 0 ≤ cur.u + ((i * 2 : Nat) : Int) := by omega
    rw [show cur.get .u = cur.u from rfl]
    rw [(storeSeq_wrote h3).readBytes_outside hw2 ha ?_]
    · exact storeSeq_value h2 hw1 (by omega) i hi
    · intro x hx1 hx2 hx
      refine hap .u .v x (by simp) ⟨?_, ?_⟩ (inPacked_regroup hx rfl)
      · simp only [Planes.get]; omega
      · simp only [Planes.get, perGroup]; omega
  | v =>
    have h0 := hnn h3 (by simp [GroupSamples.vs])
    exact ⟨storeSeq_value h3 hw2 (by omega) i hi, by simp only [Planes.get]; omega⟩
  | a => simp [GroupSamples.plane] at hi

/-! ### The groups of a row -/

/-- The cursors of group `g`. -/
def groupCursors (cur : Planes) (g : Nat) : Planes :=
  ⟨cur.y + (g * 12 : Nat), cur.u + (g * 6 : Nat), cur.v + (g * 6 : Nat), cur.a⟩

theorem nextGroup_get (cur : Planes) (c : Channel) :
    (nextGroup cur).get c = cur.get c + (2 * perGroup c : Nat) := by
  cases c <;> simp [nextGroup, Planes.get, perGroup]

theorem inPacked_next {cur : Planes} {c : Channel} {n : Nat} {x : Int}
    (h : InPacked ((nextGroup cur).get c) n (2 * perGroup c) x) :
    InPacked (cur.get c) (n + 1) (2 * perGroup c) x := by
  rw [nextGroup_get] at h
  exact inPacked_rest h

theorem inPacked_one {a x : Int} {n k : Nat} (h : InPacked a 1 k x) : InPacked a (n + 1) k x := by
  unfold InPacked at h ⊢
  rw [Nat.one_mul] at h
  rw [Nat.add_mul, Nat.one_mul]
  omega

theorem unpackGroups_succ_ok {b : Bus} {tag : ByteOrder} {n : Nat} {pcur : Int} {cur : Planes} {m m' : Memory}
    (h : unpackGroups b tag (n + 1) pcur cur m = .ok m') :
    ∃ m1, 0 ≤ pcur ∧ storeGroup b cur (groupUnpack (wordsAt m tag pcur)) m = .ok m1 ∧
      unpackGroups b tag n (pcur + 16) (nextGroup cur) m1 = .ok m' := by
  unfold unpackGroups at h
  split at h
  · cases h
  · rename_i g hg
    obtain ⟨rfl, h0⟩ := loadGroup_ok hg
    split at h
    · cases h
    · exact ⟨_, h0, ‹_›, h⟩

theorem unpackGroups_wrote {b : Bus} {tag : ByteOrder} {n : Nat} {pcur : Int} {cur : Planes} {m m' : Memory}
    (h : unpackGroups b tag n pcur cur m = .ok m') : Wrote b (GroupBytes n cur) m m' := by
  induction n generalizing pcur cur m with
  | zero => cases h; exact Wrote.refl _ _ _
  | succ n ih =>
    obtain ⟨m1, _, h1, h2⟩ := unpackGroups_succ_ok h
    refine ((storeGroup_wrote h1).mono fun x hx => ?_).trans ((ih h2).mono fun x hx => ?_)
    · rw [groupBytes_iff] at hx ⊢
      obtain ⟨c, hx⟩ := hx
      exact ⟨c, inPacked_one hx⟩
    · rw [groupBytes_iff] at hx ⊢
      obtain ⟨c, hx⟩ := hx
      exact ⟨c, inPacked_next hx⟩

/-- Every sample of every group holds its field of the group's words, as they stood before the row (42_v210.md
R204), when the planes do not overlap each other or the packed bytes. -/
theorem unpackGroups_value {b : Bus} {tag : ByteOrder} {n : Nat} {pcur : Int} {cur : Planes} {m m' : Memory}
    (h : unpackGroups b tag n pcur cur m = .ok m') (hw : Memory.wf m = true)
    (hap : ∀ c c' x, c ≠ c' → InPacked (cur.get c) n (2 * perGroup c) x →
      ¬ InPacked (cur.get c') n (2 * perGroup c') x)
    (hsrc : ∀ x, InPacked pcur n 16 x → ¬ GroupBytes n cur x)
    (g : Nat) (hg : g < n) (c : Channel) (i : Nat) (hi : i < perGroup c) :
    m'.readBytes (cur.get c + ((g * perGroup c + i) * 2 : Nat)).toNat 2
      = bytesOfNat b.hostOrder 2
          (((groupUnpack (wordsAt m tag (pcur + (g * 16 : Nat)))).plane c)[i]'(by simpa using hi)) := by
  induction n generalizing pcur cur m g with
  | zero => omega
  | succ n ih =>
    obtain ⟨m1, h0, h1, h2⟩ := unpackGroups_succ_ok h
    have hw1 := (storeGroup_wrote h1).wf hw
    cases g with
    | zero =>
      obtain ⟨hv, ha⟩ := storeGroup_value h1 hw
        (fun k k' x hne hx hx' => hap k k' x hne (inPacked_one hx) (inPacked_one hx')) c i (by simpa using hi)
      simp only [Nat.zero_mul, Nat.zero_add, Nat.cast_zero, Int.add_zero]
      rw [← hv]
      refine (unpackGroups_wrote h2).readBytes_outside hw1 ha fun x hx1 hx2 hx => ?_
      rw [groupBytes_iff] at hx
      obtain ⟨k, hk⟩ := hx
      have hx' : InPacked (cur.get c) 1 (2 * perGroup c) x := ⟨by omega, by omega⟩
      by_cases e : k = c
      · subst e
        have := hk.1
        rw [nextGroup_get] at this
        omega
      · exact hap c k x (fun e' => e e'.symm) (inPacked_one hx') (inPacked_next hk)
    | succ g =>
      have hv := ih h2 hw1
        (fun k k' x hne hx hx' => hap k k' x hne (inPacked_next hx) (inPacked_next hx'))
        (fun x hx hx' => hsrc x (inPacked_rest hx) (by
          rw [groupBytes_iff] at hx' ⊢
          obtain ⟨k, hk⟩ := hx'
          exact ⟨k, inPacked_next hk⟩))
        g (by omega)
      rw [nextGroup_get] at hv
      have e1 : cur.get c + (((g + 1) * perGroup c + i) * 2 : Nat)
          = cur.get c + (2 * perGroup c : Nat) + ((g * perGroup c + i) * 2 : Nat) := by push_cast; ring
      have e2 : pcur + 16 + ((g * 16 : Nat) : Int) = pcur + (((g + 1) * 16 : Nat) : Int) := by push_cast; ring
      have hkeep : wordsAt m1 tag (pcur + (((g + 1) * 16 : Nat) : Int))
          = wordsAt m tag (pcur + (((g + 1) * 16 : Nat) : Int)) := by
        refine wordsAt_congr (by omega) fun k hk1 hk2 => (storeGroup_wrote h1).outside hw k fun hx => ?_
        refine hsrc k ⟨by omega, by push_cast at hk2 ⊢; omega⟩ ?_
        rw [groupBytes_iff] at hx ⊢
        obtain ⟨c', hx⟩ := hx
        exact ⟨c', inPacked_one hx⟩
      rw [e1, hv]
      simp only [e2, hkeep]

theorem unpackGroups_total {b : Bus} {tag : ByteOrder} {n : Nat} {pcur : Int} {cur : Planes} (m : Memory)
    (hp : ∀ x, InPacked pcur n 16 x → b.good x) (hpal : b.alignedTo pcur 4 = true)
    (hg : ∀ x, GroupBytes n cur x → b.good x) (hy : b.alignedTo cur.y 2 = true) (hu : b.alignedTo cur.u 2 = true)
    (hv : b.alignedTo cur.v 2 = true) : ∃ m', unpackGroups b tag n pcur cur m = .ok m' := by
  induction n generalizing pcur cur m with
  | zero => exact ⟨_, rfl⟩
  | succ n ih =>
    have h1 := loadGroup_eq (m := m) (tag := tag)
      (fun x h1 h2 => hp x (inPacked_first h1 h2)) hpal
    obtain ⟨m1, h2⟩ := storeGroup_total (b := b) (cur := cur) (groupUnpack (wordsAt m tag pcur)) m
      (fun x hx => hg x (by
        rw [groupBytes_iff] at hx ⊢
        obtain ⟨c, hx⟩ := hx
        exact ⟨c, inPacked_one hx⟩)) hy hu hv
    obtain ⟨m', h3⟩ := ih (pcur := pcur + 16) (cur := nextGroup cur) m1
      (fun x hx => hp x (inPacked_rest hx)) (alignedTo_offset 4 hpal 16 (by norm_num))
      (fun x hx => hg x (by
        rw [groupBytes_iff] at hx ⊢
        obtain ⟨c, hx⟩ := hx
        exact ⟨c, inPacked_next hx⟩))
      (alignedTo_offset 6 hy 12 (by norm_num)) (alignedTo_offset 3 hu 6 (by norm_num))
      (alignedTo_offset 3 hv 6 (by norm_num))
    exact ⟨m', by unfold unpackGroups; simp only [h1, h2, h3]⟩

theorem packGroups_succ_ok {b : Bus} {tag : ByteOrder} {n : Nat} {pcur : Int} {cur : Planes} {m m' : Memory}
    (h : packGroups b tag (n + 1) cur pcur m = .ok m') :
    ∃ m1, loadSamples b m cur = .ok (samplesAt m b.hostOrder cur) ∧
      storeSeq b 4 tag pcur (groupPack (samplesAt m b.hostOrder cur)).list m = .ok m1 ∧
      packGroups b tag n (nextGroup cur) (pcur + 16) m1 = .ok m' := by
  unfold packGroups at h
  split at h
  · cases h
  · rename_i g hg
    obtain rfl := loadSamples_ok hg
    split at h
    · cases h
    · exact ⟨_, hg, ‹_›, h⟩

theorem packGroups_wrote {b : Bus} {tag : ByteOrder} {n : Nat} {pcur : Int} {cur : Planes} {m m' : Memory}
    (h : packGroups b tag n cur pcur m = .ok m') : Wrote b (InPacked pcur n 16) m m' := by
  induction n generalizing pcur cur m with
  | zero => cases h; exact Wrote.refl _ _ _
  | succ n ih =>
    obtain ⟨m1, _, h1, h2⟩ := packGroups_succ_ok h
    exact ((storeSeq_wrote h1).mono fun x hx => inPacked_one (inPacked_regroup hx rfl)).trans
      ((ih h2).mono fun x hx => inPacked_rest hx)

/-- The cursors of loaded samples are no negative addresses. -/
theorem loadSamples_nonneg {b : Bus} {m : Memory} {cur : Planes} {g : GroupSamples}
    (h : loadSamples b m cur = .ok g) : 0 ≤ cur.y ∧ 0 ≤ cur.u ∧ 0 ≤ cur.v := by
  have nn : ∀ {a : Int} {v : Nat}, b.loadPlanar m a 2 = .ok v → 0 ≤ a := fun hv =>
    (good_of_check (loadInt_ok hv).1 _ (le_refl _) (by omega)).1
  unfold loadSamples at h
  obtain ⟨_, h1, h⟩ := except_bind_ok h
  obtain ⟨_, _, h⟩ := except_bind_ok h
  obtain ⟨_, _, h⟩ := except_bind_ok h
  obtain ⟨_, _, h⟩ := except_bind_ok h
  obtain ⟨_, _, h⟩ := except_bind_ok h
  obtain ⟨_, _, h⟩ := except_bind_ok h
  obtain ⟨_, h7, h⟩ := except_bind_ok h
  obtain ⟨_, _, h⟩ := except_bind_ok h
  obtain ⟨_, _, h⟩ := except_bind_ok h
  obtain ⟨_, h10, _⟩ := except_bind_ok h
  exact ⟨nn h1, nn h7, nn h10⟩

/-- Every word of every group is composed from the group's samples, as they stood before the row (42_v210.md R205),
when the packed bytes do not overlap the planes. -/
theorem packGroups_value {b : Bus} {tag : ByteOrder} {n : Nat} {pcur : Int} {cur : Planes} {m m' : Memory}
    (h : packGroups b tag n cur pcur m = .ok m') (hw : Memory.wf m = true)
    (hsrc : ∀ x, GroupBytes n cur x → ¬ InPacked pcur n 16 x) (g : Nat) (hg : g < n) (i : Nat) (hi : i < 4) :
    m'.readBytes (pcur + ((g * 4 + i) * 4 : Nat)).toNat 4
      = bytesOfNat tag 4 ((groupPack (samplesAt m b.hostOrder (groupCursors cur g))).list[i]'(by
          simpa [GroupWords.list] using hi)) := by
  induction n generalizing pcur cur m g with
  | zero => omega
  | succ n ih =>
    obtain ⟨m1, hl, h1, h2⟩ := packGroups_succ_ok h
    obtain ⟨hy, hu, hv⟩ := loadSamples_nonneg hl
    have hw1 := (storeSeq_wrote h1).wf hw
    have hp0 : 0 ≤ pcur := by
      obtain ⟨_, hs, _⟩ := storeSeq_cons_ok (v := (groupPack (samplesAt m b.hostOrder cur)).w0)
        (rest := [(groupPack (samplesAt m b.hostOrder cur)).w1, (groupPack (samplesAt m b.hostOrder cur)).w2,
          (groupPack (samplesAt m b.hostOrder cur)).w3]) h1
      exact (good_of_check (check_of_storeInt hs) pcur (le_refl _) (by omega)).1
    cases g with
    | zero =>
      have hv := storeSeq_value h1 hw (by omega) i (by simpa [GroupWords.list] using hi)
      have hc : groupCursors cur 0 = cur := by simp [groupCursors]
      simp only [Nat.zero_mul, Nat.zero_add, hc]
      rw [← hv]
      refine (packGroups_wrote h2).readBytes_outside hw1 (by omega) fun x hx1 hx2 hx => ?_
      have := hx.1
      omega
    | succ g =>
      have hv' := ih h2 hw1
        (fun x hx hx' => hsrc x (by
          rw [groupBytes_iff] at hx ⊢
          obtain ⟨k, hk⟩ := hx
          exact ⟨k, inPacked_next hk⟩) (inPacked_rest hx'))
        g (by omega)
      have e1 : pcur + (((g + 1) * 4 + i) * 4 : Nat) = pcur + 16 + ((g * 4 + i) * 4 : Nat) := by push_cast; ring
      have e2 : groupCursors (nextGroup cur) g = groupCursors cur (g + 1) := by
        simp only [groupCursors, nextGroup]
        congr 1 <;> push_cast <;> ring
      have hkeep : samplesAt m1 b.hostOrder (groupCursors cur (g + 1))
          = samplesAt m b.hostOrder (groupCursors cur (g + 1)) := by
        refine samplesAt_congr (by simp only [groupCursors]; omega) (by simp only [groupCursors]; omega)
          (by simp only [groupCursors]; omega) fun k hk => (storeSeq_wrote h1).outside hw k fun hx => ?_
        refine hsrc k ?_ (inPacked_one (inPacked_regroup hx rfl))
        have hle : g + 1 + 1 ≤ n + 1 := by omega
        rcases hk with hk | hk | hk
        · refine .inl ⟨?_, ?_⟩
          · have := hk.1; simp only [groupCursors] at this; omega
          · have := hk.2; simp only [groupCursors] at this; omega
        · refine .inr (.inl ⟨?_, ?_⟩)
          · have := hk.1; simp only [groupCursors] at this; omega
          · have := hk.2; simp only [groupCursors] at this; omega
        · refine .inr (.inr ⟨?_, ?_⟩)
          · have := hk.1; simp only [groupCursors] at this; omega
          · have := hk.2; simp only [groupCursors] at this; omega
      rw [e1, hv']
      simp only [e2, hkeep]

theorem packGroups_total {b : Bus} {tag : ByteOrder} {n : Nat} {pcur : Int} {cur : Planes} (m : Memory)
    (hp : ∀ x, InPacked pcur n 16 x → b.good x) (hpal : b.alignedTo pcur 4 = true)
    (hg : ∀ x, GroupBytes n cur x → b.good x) (hy : b.alignedTo cur.y 2 = true) (hu : b.alignedTo cur.u 2 = true)
    (hv : b.alignedTo cur.v 2 = true) : ∃ m', packGroups b tag n cur pcur m = .ok m' := by
  induction n generalizing pcur cur m with
  | zero => exact ⟨_, rfl⟩
  | succ n ih =>
    have h1 := loadSamples_eq (m := m)
      (fun x hx => hg x (by
        rw [groupBytes_iff] at hx ⊢
        obtain ⟨c, hx⟩ := hx
        exact ⟨c, inPacked_one hx⟩)) hy hu hv
    obtain ⟨m1, h2⟩ := storeSeq_total (o := tag) (groupPack (samplesAt m b.hostOrder cur)).list m
      (fun x hx => hp x (inPacked_one (inPacked_regroup hx rfl))) hpal
    obtain ⟨m', h3⟩ := ih (pcur := pcur + 16) (cur := nextGroup cur) m1
      (fun x hx => hp x (inPacked_rest hx)) (alignedTo_offset 4 hpal 16 (by norm_num))
      (fun x hx => hg x (by
        rw [groupBytes_iff] at hx ⊢
        obtain ⟨c, hx⟩ := hx
        exact ⟨c, inPacked_next hx⟩))
      (alignedTo_offset 6 hy 12 (by norm_num)) (alignedTo_offset 3 hu 6 (by norm_num))
      (alignedTo_offset 3 hv 6 (by norm_num))
    exact ⟨m', by unfold packGroups; simp only [h1, h2, h3]⟩

end Sys2Proof.Machine
end

