-- ==== Sys2Proof/Laws/Rows.lean ====
section
/-! SUPPORT. What one row leaves (41_scanline.md R176, R182; 42_v210.md R204, R205): the bytes it writes, when it
succeeds, and the values it leaves, for a row without overlap. -/

namespace Sys2Proof.Machine

/-- The address lies in a region of the list. -/
def InRegions (l : List Region) (x : Int) : Prop := ∃ r ∈ l, r.has x = true

theorem extractField_eq (w sh dp : Nat) : extractField w sh dp = w / 2 ^ sh % 2 ^ dp := by
  unfold extractField mask
  rw [Nat.and_two_pow_sub_one_eq_mod, Nat.shiftRight_eq_div_pow]

/-- What `Layout.ok` gives about the widths (10_state.md R29). -/
theorem layout_widths {d : Layout} (h : d.ok = true) :
    0 < d.pkb ∧ 0 < d.eb ∧ 0 < d.ppp ∧ d.plw = 8 * d.eb ∧ d.pkw = 8 * d.pkb := by
  simp only [Layout.ok, Bool.and_eq_true, List.contains_eq_mem, List.mem_cons, List.not_mem_nil, or_false,
    decide_eq_true_eq] at h
  obtain ⟨⟨⟨⟨⟨⟨⟨⟨h1, h2⟩, h3⟩, _⟩, _⟩, _⟩, _⟩, _⟩, _⟩ := h
  unfold Layout.pkb Layout.eb
  refine ⟨?_, ?_, ?_, ?_, ?_⟩
  · rcases h2 with h | h | h | h | h | h <;> omega
  · rcases h1 with h | h | h | h <;> omega
  · omega
  · rcases h1 with h | h | h | h <;> omega
  · rcases h2 with h | h | h | h | h | h <;> omega

/-- A field of an accepted descriptor (10_state.md R30, R31 (c)). -/
theorem slot_fits {d : Layout} (h : d.ok = true) {k : Nat} (hk : k < 4) {c : Channel} {sh dp : Nat}
    (hs : d.slots[k] = .field c sh dp) : 1 ≤ dp ∧ dp ≤ d.plw ∧ sh + dp ≤ d.pkw := by
  simp only [Layout.ok, Bool.and_eq_true] at h
  have hall := List.all_eq_true.1 h.1.1.1.2 (Slot.field c sh dp) (by
    rw [← hs]; exact Vector.mem_toList_iff.2 (Vector.getElem_mem hk))
  simpa [Slot.fits, and_assoc] using hall

theorem slot_toList {d : Layout} {k : Nat} (hk : k < 4) : d.slots.toList[k]'(by simpa using hk) = d.slots[k] := by
  simp

/-- A channel that a slot names is used. -/
theorem count_pos {d : Layout} {k : Nat} (hk : k < 4) {c : Channel} {sh dp : Nat}
    (hs : d.slots[k] = .field c sh dp) : 0 < d.count c := by
  have := countSlots_take_lt d.slots.toList k (by simpa using hk) (by rw [slot_toList hk]; exact hs)
  unfold Layout.count
  omega

theorem cursors_get (d : Layout) (p : Planes) (left : Nat) (c : Channel) :
    (d.cursors p left).get c = p.get c + (d.elem c left * d.eb : Nat) := by
  cases c <;> rfl

/-- A used channel that takes part has a pointer, once the null checks have passed (41_scanline.md R173). -/
theorem active_of_takes {d : Layout} {packed : Int} {p : Planes} (hp : d.pointersOk packed p = true) {c : Channel}
    (ht : Takes (d.alphaOn p) c) (hu : 0 < d.count c) : d.active p c = true := by
  have hused : d.used c = true := by simp [Layout.used]; omega
  have hn : ∀ c', c' ∈ [Channel.y, .u, .v] → d.used c' = true → (p.get c' != 0) = true := by
    intro c' hm hu'
    simp only [Layout.pointersOk, Layout.needed, Bool.and_eq_true, List.all_eq_true] at hp
    exact hp.2 c' (List.mem_filter.2 ⟨hm, hu'⟩)
  unfold Layout.active
  rw [hused, Bool.true_and]
  cases c with
  | a =>
    have : d.alphaOn p = true := by
      by_contra h
      exact ht ⟨rfl, by simpa using h⟩
    simp only [Layout.alphaOn, Bool.and_eq_true] at this
    exact this.2
  | y => exact hn _ (by simp) hused
  | u => exact hn _ (by simp) hused
  | v => exact hn _ (by simp) hused

theorem takes_of_pointer {d : Layout} {p : Planes} {c : Channel} (hu : 0 < d.count c) (hn : p.get c ≠ 0) :
    Takes (d.alphaOn p) c := by
  rintro ⟨rfl, h⟩
  have : d.used .a = true := by simp [Layout.used]; omega
  simp [Layout.alphaOn, this] at h
  exact hn h

theorem mem_channel_all (c : Channel) : c ∈ Channel.all := by cases c <;> simp [Channel.all]

/-- The bytes the units' elements take are those of the row's planar regions (20_memory.md R69). -/
theorem unitBytes_inRegions {d : Layout} {packed : Int} {p : Planes} (hp : d.pointersOk packed p = true)
    {left right : Nat} {x : Int} (h : UnitBytes d (d.alphaOn p) (d.units left right) (d.cursors p left) x) :
    ∃ c, Takes (d.alphaOn p) c ∧ c ∈ Channel.all.filter (fun c => d.active p c) ∧
      (d.planeRegion p left right c).has x = true := by
  obtain ⟨c, ht, h1, h2⟩ := h
  have hc : 0 < d.count c := by
    by_contra hz
    have : d.count c = 0 := by omega
    simp [this] at h2
    omega
  refine ⟨c, ht, List.mem_filter.2 ⟨mem_channel_all c, active_of_takes hp ht hc⟩, ?_⟩
  rw [has_iff]
  exact ⟨h1, h2⟩

theorem inRegions_of_unitBytes {d : Layout} {packed : Int} {p : Planes} (hp : d.pointersOk packed p = true)
    {left right : Nat} {x : Int} (h : UnitBytes d (d.alphaOn p) (d.units left right) (d.cursors p left) x) :
    InRegions (d.planeRegions p left right) x := by
  obtain ⟨c, _, hm, hx⟩ := unitBytes_inRegions hp h
  exact ⟨_, List.mem_map.2 ⟨c, hm, rfl⟩, hx⟩

theorem channel_all_nodup : (Channel.all).Nodup := by decide

/-- Two planes of a row without overlap share no byte (20_memory.md R73). -/
theorem planes_apart {d : Layout} {packed : Int} {p : Planes} (hp : d.pointersOk packed p = true)
    {left right : Nat} (ha : allApart (d.planeRegions p left right) = true) (c c' : Channel) (x : Int)
    (ht : Takes (d.alphaOn p) c) (ht' : Takes (d.alphaOn p) c') (hne : c ≠ c')
    (h : InPlane (d.cursors p left) c (d.units left right * d.count c) d.eb x) :
    ¬ InPlane (d.cursors p left) c' (d.units left right * d.count c') d.eb x := by
  intro h'
  have act : ∀ k, Takes (d.alphaOn p) k → InPlane (d.cursors p left) k (d.units left right * d.count k) d.eb x →
      k ∈ Channel.all.filter (fun c => d.active p c) := by
    intro k hk hx
    have hc : 0 < d.count k := by
      by_contra hz
      have : d.count k = 0 := by omega
      unfold InPlane at hx
      simp [this] at hx
      omega
    exact List.mem_filter.2 ⟨mem_channel_all k, active_of_takes hp hk hc⟩
  refine apart_not_both (allApart_map (channel_all_nodup.filter _) ha (act c ht h) (act c' ht' h') hne)
    (x := x) ((has_iff _ _).2 h) ((has_iff _ _).2 h')

/-! ### Unpack, GENERIC -/

theorem unpackRow_wrote {d : Layout} {b : Bus} {packed : Int} {p : Planes} {left right : Nat} {m m' : Memory}
    (hp : d.pointersOk packed p = true) (h : d.unpackRow b packed p left right m = .ok m') :
    Wrote b (InRegions (d.planeRegions p left right)) m m' :=
  (unpackUnits_wrote h).mono fun _ hx => inRegions_of_unitBytes hp hx

theorem alignedTo_packedCursor {d : Layout} {b : Bus} {packed : Int} (left : Nat)
    (h : b.alignedTo packed (unitAlign d.pkb) = true) :
    b.alignedTo (d.packedCursor packed left) (unitAlign d.pkb) = true := by
  obtain ⟨k, hk⟩ : ∃ k, (k * unitAlign d.pkb : Nat) = left / d.ppp * d.pkb := by
    unfold unitAlign
    split
    · exact ⟨left / d.ppp, rfl⟩
    · exact ⟨left / d.ppp * d.pkb, by omega⟩
  have := alignedTo_add k h
  rwa [hk] at this

/-- The regions of a row of a GENERIC format lie in memory that can be accessed. -/
structure RowReady (d : Layout) (b : Bus) (packed : Int) (p : Planes) (left right : Nat) : Prop where
  pointers : d.pointersOk packed p = true
  packedReady : b.ready (d.packedRegion packed left right) = true
  planesReady : ∀ r ∈ d.planeRegions p left right, b.ready r = true
  aligned : left < right → d.alignedRow b packed p = true

theorem RowReady.unit {d : Layout} {b : Bus} {packed : Int} {p : Planes} {left right : Nat}
    (h : RowReady d b packed p left right) (x : Int)
    (hx : UnitBytes d (d.alphaOn p) (d.units left right) (d.cursors p left) x) : b.good x := by
  obtain ⟨r, hr, hx⟩ := inRegions_of_unitBytes h.pointers hx
  exact good_of_ready (h.planesReady r hr) hx

theorem RowReady.cursor {d : Layout} {b : Bus} {packed : Int} {p : Planes} {left right : Nat}
    (h : RowReady d b packed p left right) (hlr : left < right) (c : Channel) (ht : Takes (d.alphaOn p) c) (hc : 0 < d.count c) :
    b.alignedTo ((d.cursors p left).get c) d.eb = true := by
  rw [cursors_get]
  refine alignedTo_add _ ?_
  have hall := h.aligned hlr
  simp only [Layout.alignedRow, Bool.and_eq_true, List.all_eq_true] at hall
  have := hall.2 c (mem_channel_all c)
  rw [active_of_takes h.pointers ht hc] at this
  simpa using this

theorem RowReady.pcur {d : Layout} {b : Bus} {packed : Int} {p : Planes} {left right : Nat}
    (h : RowReady d b packed p left right) (hlr : left < right) :
    b.alignedTo (d.packedCursor packed left) (unitAlign d.pkb) = true := by
  have hall := h.aligned hlr
  simp only [Layout.alignedRow, Bool.and_eq_true] at hall
  exact alignedTo_packedCursor left hall.1

theorem units_empty {d : Layout} {left right : Nat} (h : ¬ left < right) : d.units left right = 0 := by
  unfold Layout.units
  rw [Nat.sub_eq_zero_of_le (by omega), Nat.zero_div]

theorem unpackRow_total {d : Layout} {b : Bus} {packed : Int} {p : Planes} {left right : Nat}
    (h : RowReady d b packed p left right) (m : Memory) :
    ∃ m', d.unpackRow b packed p left right m = .ok m' := by
  by_cases hlr : left < right
  · exact unpackUnits_total m (fun _ h1 h2 => good_of_ready h.packedReady ((has_iff _ _).2 ⟨h1, h2⟩)) (h.pcur hlr)
      h.unit (h.cursor hlr)
  · exact ⟨m, by unfold Layout.unpackRow; rw [units_empty hlr]; rfl⟩

theorem unpackRow_value {d : Layout} {b : Bus} {packed : Int} {p : Planes} {left right : Nat} {m m' : Memory}
    (hok : d.ok = true) (hw : Memory.wf m = true) (hp : d.pointersOk packed p = true)
    (ha : allApart (d.planeRegions p left right) = true)
    (hs : ∀ r ∈ d.planeRegions p left right, r.apart (d.packedRegion packed left right) = true)
    (h : d.unpackRow b packed p left right m = .ok m') : d.Unpacked b.hostOrder m m' packed p left right := by
  obtain ⟨hpkb, _, _, hplw, _⟩ := layout_widths hok
  intro u hu k c sh dp hk hn
  have hc := count_pos k.2 hk
  have hv := unpackUnits_value h hw hpkb (planes_apart hp ha)
    (fun _ h1 h2 hx => by
      obtain ⟨r, hr, hx⟩ := inRegions_of_unitBytes hp hx
      exact apart_not_both (hs r hr) hx ((has_iff _ _).2 ⟨h1, h2⟩))
    u hu k.1 (by simp) c sh dp (by rw [slot_toList k.2]; exact hk) (takes_of_pointer hc hn)
  have e1 : (d.cursors p left).get c + ((u * d.count c + countSlots c (d.slots.toList.take k.1)) * d.eb : Nat)
      = d.elemAddr p left u k.1 c := by
    rw [cursors_get]
    unfold Layout.elemAddr
    push_cast
    ring
  have e2 : d.packedCursor packed left + (u * d.pkb : Nat) = d.unitAddr packed left u := by
    unfold Layout.packedCursor Layout.unitAddr
    push_cast
    ring
  rw [e1, e2] at hv
  unfold planarValue Layout.unitValue
  rw [hv, natOfBytes_bytesOfNat, extractField_eq]
  refine Nat.mod_eq_of_lt (lt_of_lt_of_le (Nat.mod_lt _ (by positivity)) ?_)
  have hdp := (slot_fits hok k.2 hk).2.1
  calc 2 ^ dp ≤ 2 ^ d.plw := Nat.pow_le_pow_right (by omega) hdp
    _ = 256 ^ d.eb := by rw [hplw, Nat.pow_mul]

/-! ### Pack, GENERIC -/

theorem slotsApart_get {sl : List Slot} (h : slotsApart sl = true) {i j : Nat} (hi : i < sl.length)
    (hj : j < sl.length) (hij : i < j) : Slot.apart sl[i] sl[j] = true := by
  induction sl generalizing i j with
  | nil => simp at hi
  | cons s rest ih =>
    simp only [slotsApart, Bool.and_eq_true, List.all_eq_true] at h
    cases j with
    | zero => omega
    | succ j =>
      cases i with
      | zero => exact h.1 _ (List.getElem_mem _)
      | succ i => exact ih h.2 (by simpa using hi) (by simpa using hj) (by omega)

/-- A bit of the unit lies in at most one slot (10_state.md R30). -/
theorem slot_unique {d : Layout} (hok : d.ok = true) {i k : Nat} (hi : i < 4) (hk : k < 4) {c c' : Channel}
    {sh dp sh' dp' : Nat} (h1 : d.slots[i] = .field c sh dp) (h2 : d.slots[k] = .field c' sh' dp') {j : Nat}
    (hj : sh ≤ j ∧ j < sh + dp) (hj' : sh' ≤ j ∧ j < sh' + dp') : i = k := by
  have hap : slotsApart d.slots.toList = true := by
    simp only [Layout.ok, Bool.and_eq_true] at hok
    exact hok.1.1.2
  by_contra hne
  rcases Nat.lt_or_gt_of_ne hne with h | h
  · have := slotsApart_get hap (by simpa using hi) (by simpa using hk) h
    rw [slot_toList hi, slot_toList hk, h1, h2] at this
    simp only [Slot.apart, Bool.or_eq_true, decide_eq_true_eq] at this
    omega
  · have := slotsApart_get hap (by simpa using hk) (by simpa using hi) h
    rw [slot_toList hi, slot_toList hk, h1, h2] at this
    simp only [Slot.apart, Bool.or_eq_true, decide_eq_true_eq] at this
    omega

theorem testBit_mask_shift (dp sh j : Nat) : (mask dp <<< sh).testBit j = true ↔ sh ≤ j ∧ j < sh + dp := by
  unfold mask
  rw [Nat.testBit_shiftLeft, Nat.testBit_two_pow_sub_one]
  simp only [Bool.and_eq_true, decide_eq_true_eq, ge_iff_le]
  omega

/-- A bit of the alpha seed is a bit of an A slot (41_scanline.md R180). -/
theorem testBit_alphaSeed {sl : List Slot} {j : Nat} (h : (alphaSeed sl).testBit j = true) :
    ∃ (i : Nat) (hi : i < sl.length) (sh dp : Nat), sl[i] = .field .a sh dp ∧ sh ≤ j ∧ j < sh + dp := by
  induction sl with
  | nil => simp [alphaSeed] at h
  | cons s rest ih =>
    have later : (alphaSeed rest).testBit j = true → ∃ (i : Nat) (hi : i < (s :: rest).length) (sh dp : Nat),
        (s :: rest)[i] = .field .a sh dp ∧ sh ≤ j ∧ j < sh + dp := by
      intro h
      obtain ⟨i, hi, sh, dp, h1, h2⟩ := ih h
      exact ⟨i + 1, by simpa using hi, sh, dp, by simpa using h1, h2⟩
    cases s with
    | pad => exact later h
    | field c sh dp =>
      cases c with
      | a => exact ⟨0, by simp, sh, dp, rfl, (testBit_mask_shift dp sh j).1 h⟩
      | y => exact later h
      | u => exact later h
      | v => exact later h

/-- With one A slot, the seed is all ones in it (41_scanline.md R180). -/
theorem alphaSeed_eq {sl : List Slot} (h : countSlots .a sl ≤ 1) {i : Nat} (hi : i < sl.length) {sh dp : Nat}
    (hs : sl[i] = .field .a sh dp) : alphaSeed sl = mask dp <<< sh := by
  induction sl generalizing i with
  | nil => simp at hi
  | cons s rest ih =>
    cases i with
    | zero =>
      simp only [List.getElem_cons_zero] at hs
      subst hs
      rfl
    | succ i =>
      simp only [List.getElem_cons_succ] at hs
      have hi' : i < rest.length := by simpa using hi
      have h1 := countSlots_take_lt rest i hi' hs
      cases s with
      | pad =>
        rw [countSlots_pad] at h
        exact ih h hi' hs
      | field c sh' dp' =>
        rw [countSlots_field] at h
        cases c with
        | a => simp at h; omega
        | y => exact ih (by simpa using h) hi' hs
        | u => exact ih (by simpa using h) hi' hs
        | v => exact ih (by simpa using h) hi' hs

theorem count_alpha {d : Layout} (h : d.ok = true) : d.count .a ≤ 1 := by
  simp only [Layout.ok, Bool.and_eq_true, decide_eq_true_eq] at h
  exact h.2

theorem testBit_field (x sh dp t : Nat) :
    (x / 2 ^ sh % 2 ^ dp).testBit t = (decide (t < dp) && x.testBit (t + sh)) := by
  rw [Nat.testBit_mod_two_pow, Nat.testBit_div_two_pow]

/-- The bits of a packed word: those of the active slots' elements, and the alpha seed (41_scanline.md R180 to R182). -/
theorem packSlots_word {d : Layout} {b : Bus} {fill : Bool} {packed : Int} {p : Planes} {m : Memory}
    {cur cur' : Planes} {w : Nat} (hok : d.ok = true) (hp : d.pointersOk packed p = true)
    (h : packSlots b d (d.alphaOn p) m d.slots.toList cur (d.seed fill (d.alphaOn p)) = .ok (cur', w)) :
    (∀ (k : Fin 4) (c : Channel) (sh dp : Nat), d.slots[k] = .field c sh dp → w / 2 ^ sh % 2 ^ dp =
      if p.get c = 0 then (if fill then 2 ^ dp - 1 else 0)
      else natOfBytes b.hostOrder (m.readBytes
        (cur.get c + (countSlots c (d.slots.toList.take k) * d.eb : Nat)).toNat d.eb) % 2 ^ dp) ∧
    (∀ j, (∀ (k : Fin 4) (c : Channel) (sh dp : Nat), d.slots[k] = .field c sh dp → ¬(sh ≤ j ∧ j < sh + dp)) →
      w.testBit j = false) := by
  have hbit := fun j => testBit_packSlots h j
  have hseed : ∀ j, (d.seed fill (d.alphaOn p)).testBit j = true →
      fill = true ∧ d.alphaOn p = false ∧
      ∃ (i : Nat) (_ : i < 4) (sh dp : Nat), d.slots[i] = .field .a sh dp ∧ sh ≤ j ∧ j < sh + dp := by
    intro j hj
    unfold Layout.seed at hj
    split at hj
    · rename_i hc
      simp only [Bool.and_eq_true, Bool.not_eq_true'] at hc
      obtain ⟨i, hi, sh, dp, h1, h2⟩ := testBit_alphaSeed hj
      have hi4 : i < 4 := by simpa using hi
      exact ⟨hc.1, hc.2, i, hi4, sh, dp, by rw [← slot_toList hi4]; exact h1, h2⟩
    · simp at hj
  have hact : ∀ j, (∃ (i : Nat) (hi : i < d.slots.toList.length) (c : Channel) (sh dp : Nat),
      d.slots.toList[i] = .field c sh dp ∧ Takes (d.alphaOn p) c ∧ sh ≤ j ∧ j < sh + dp ∧
      (natOfBytes b.hostOrder (m.readBytes (cur.get c + (countSlots c (d.slots.toList.take i) * d.eb : Nat)).toNat
        d.eb)).testBit (j - sh) = true) ↔ ∃ (i : Nat) (_ : i < 4) (c : Channel) (sh dp : Nat),
      d.slots[i] = .field c sh dp ∧ Takes (d.alphaOn p) c ∧ sh ≤ j ∧ j < sh + dp ∧
      (natOfBytes b.hostOrder (m.readBytes (cur.get c + (countSlots c (d.slots.toList.take i) * d.eb : Nat)).toNat
        d.eb)).testBit (j - sh) = true := by
    intro j
    constructor
    · rintro ⟨i, hi, c, sh, dp, h1, h2⟩
      have hi4 : i < 4 := by simpa using hi
      exact ⟨i, hi4, c, sh, dp, by rw [← slot_toList hi4]; exact h1, h2⟩
    · rintro ⟨i, hi, c, sh, dp, h1, h2⟩
      exact ⟨i, by simpa using hi, c, sh, dp, by rw [slot_toList hi]; exact h1, h2⟩
  refine ⟨fun k c sh dp hk => ?_, fun j hj => ?_⟩
  · have hc := count_pos k.2 hk
    refine Nat.eq_of_testBit_eq fun t => ?_
    rw [testBit_field]
    by_cases ht : t < dp
    · simp only [ht, decide_true, Bool.true_and]
      have hj : sh ≤ t + sh ∧ t + sh < sh + dp := ⟨by omega, by omega⟩
      rw [Bool.eq_iff_iff, hbit, hact]
      split
      · rename_i hz
        have hnt : c = .a ∧ d.alphaOn p = false := by
          by_contra hn
          have := active_of_takes hp hn hc
          simp [Layout.active, hz] at this
        obtain ⟨rfl, hoff⟩ := hnt
        constructor
        · rintro (h1 | ⟨i, hi, c', sh', dp', h1, h2, h3, h4, _⟩)
          · obtain ⟨hf, _⟩ := hseed _ h1
            simp [hf, Nat.testBit_two_pow_sub_one, ht]
          · have := slot_unique hok hi k.2 h1 hk ⟨h3, h4⟩ hj
            subst this
            have e := h1.symm.trans hk
            cases e
            exact absurd ⟨rfl, hoff⟩ h2
        · intro h1
          left
          by_cases hf : fill = true
          · unfold Layout.seed
            rw [hf, hoff]
            simp only [Bool.not_false, Bool.and_true, if_true]
            rw [alphaSeed_eq (count_alpha hok) (i := k.1) (by simp) (by rw [slot_toList k.2]; exact hk),
              testBit_mask_shift]
            exact hj
          · simp [hf] at h1
      · rename_i hnz
        have htk := takes_of_pointer hc hnz
        rw [Nat.testBit_mod_two_pow]
        simp only [ht, decide_true, Bool.true_and]
        constructor
        · rintro (h1 | ⟨i, hi, c', sh', dp', h1, h2, h3, h4, h5⟩)
          · obtain ⟨_, hoff, i, hi, sh', dp', h2, h3⟩ := hseed _ h1
            have := slot_unique hok hi k.2 h2 hk h3 hj
            subst this
            have e := h2.symm.trans hk
            cases e
            exact absurd ⟨rfl, hoff⟩ htk
          · have := slot_unique hok hi k.2 h1 hk ⟨h3, h4⟩ hj
            subst this
            have e := h1.symm.trans hk
            cases e
            simpa using h5
        · intro h1
          exact .inr ⟨k.1, k.2, c, sh, dp, hk, htk, hj.1, hj.2, by simpa using h1⟩
    · simp only [ht, decide_false, Bool.false_and]
      symm
      split
      · split
        · simp [Nat.testBit_two_pow_sub_one, ht]
        · simp
      · simp [Nat.testBit_mod_two_pow, ht]
  · by_contra hne
    have h1 : w.testBit j = true := by simpa using hne
    rw [hbit, hact] at h1
    rcases h1 with h1 | ⟨i, hi, c, sh, dp, h1, _, h2, h3, _⟩
    · obtain ⟨_, _, i, hi, sh, dp, h2, h3⟩ := hseed _ h1
      exact hj ⟨i, hi⟩ _ _ _ h2 h3
    · exact hj ⟨i, hi⟩ _ _ _ h1 ⟨h2, h3⟩

theorem packRow_wrote {d : Layout} {b : Bus} {fill : Bool} {packed : Int} {p : Planes} {left right : Nat}
    {m m' : Memory} (h : d.packRow b fill p packed left right m = .ok m') :
    Wrote b (InRegions [d.packedRegion packed left right]) m m' :=
  (packUnits_wrote h).mono fun _ hx => ⟨d.packedRegion packed left right, by simp, (has_iff _ _).2 hx⟩

theorem packRow_total {d : Layout} {b : Bus} {packed : Int} {p : Planes} {left right : Nat}
    (h : RowReady d b packed p left right) (fill : Bool) (m : Memory) :
    ∃ m', d.packRow b fill p packed left right m = .ok m' := by
  by_cases hlr : left < right
  · exact packUnits_total m (fun _ hx => good_of_ready h.packedReady ((has_iff _ _).2 hx)) (h.pcur hlr) h.unit
      (h.cursor hlr)
  · exact ⟨m, by unfold Layout.packRow; rw [units_empty hlr]; rfl⟩

theorem packRow_value {d : Layout} {b : Bus} {fill : Bool} {packed : Int} {p : Planes} {left right : Nat}
    {m m' : Memory} (hok : d.ok = true) (hw : Memory.wf m = true) (hp : d.pointersOk packed p = true)
    (hs : ∀ r ∈ d.planeRegions p left right, (d.packedRegion packed left right).apart r = true)
    (h : d.packRow b fill p packed left right m = .ok m') :
    d.Packed b.hostOrder fill m m' packed p left right := by
  obtain ⟨hpkb, _, _, _, hpkw⟩ := layout_widths hok
  intro u hu
  obtain ⟨w, curu, cur', hcu, hps, hv⟩ := packUnits_value h hw hpkb
    (fun x hx hx' => by
      obtain ⟨r, hr, hx⟩ := inRegions_of_unitBytes hp hx
      exact apart_not_both (hs r hr) ((has_iff _ _).2 hx') hx) u hu
  have e2 : d.packedCursor packed left + (u * d.pkb : Nat) = d.unitAddr packed left u := by
    unfold Layout.packedCursor Layout.unitAddr
    push_cast
    ring
  rw [e2] at hv
  obtain ⟨hf, hz⟩ := packSlots_word hok hp hps
  have hval : d.unitValue m' (d.unitAddr packed left u) = w % 2 ^ d.pkw := by
    unfold Layout.unitValue
    rw [hv, natOfBytes_bytesOfNat, hpkw, Nat.pow_mul]
  refine ⟨fun k c sh dp hk => ?_, fun j hj => ?_⟩
  · rw [hval]
    have hfit := (slot_fits hok k.2 hk).2.2
    have : w % 2 ^ d.pkw / 2 ^ sh % 2 ^ dp = w / 2 ^ sh % 2 ^ dp := by
      refine Nat.eq_of_testBit_eq fun t => ?_
      rw [testBit_field, testBit_field, Nat.testBit_mod_two_pow]
      by_cases ht : t < dp
      · have : t + sh < d.pkw := by omega
        simp [this]
      · simp [ht]
    rw [this, hf k c sh dp hk]
    split
    · rfl
    · rename_i hnz
      have htk := takes_of_pointer (count_pos k.2 hk) hnz
      unfold planarValue Layout.elemAddr
      have e3 : curu.get c + (countSlots c (d.slots.toList.take k) * d.eb : Nat)
          = p.get c + ((d.elem c left + (u * d.count c + countSlots c (d.slots.toList.take k))) * d.eb : Nat) := by
        rw [hcu c htk, cursors_get]
        push_cast
        ring
      rw [e3]
  · rw [hval, Nat.testBit_mod_two_pow, hz j hj]
    simp

/-! ### v210 -/

/-- The regions of a v210 row lie in memory that can be accessed. -/
structure V210Ready (b : Bus) (packed : Int) (p : Planes) (left right : Nat) : Prop where
  packedReady : b.ready (v210PackedRegion packed left right) = true
  planesReady : ∀ r ∈ v210PlaneRegions p left right, b.ready r = true
  aligned : left < right → v210AlignedRow b packed p = true

theorem inRegions_v210 {p : Planes} {left right : Nat} {x : Int} :
    GroupBytes (v210Groups left right) (v210Cursors p left) x ↔ InRegions (v210PlaneRegions p left right) x := by
  have e12 : v210Groups left right * 12 = 12 * v210Groups left right := by ring
  have e6 : v210Groups left right * 6 = 6 * v210Groups left right := by ring
  unfold InRegions v210PlaneRegions GroupBytes InPacked
  simp only [List.mem_cons, List.not_mem_nil, or_false, exists_eq_or_imp, exists_eq_left, has_iff, e12, e6]

theorem inPacked_v210 {packed : Int} {left right : Nat} {x : Int} :
    InPacked (v210PackedCursor packed left) (v210Groups left right) 16 x
      ↔ (v210PackedRegion packed left right).has x = true := by
  have e16 : v210Groups left right * 16 = 16 * v210Groups left right := by ring
  rw [has_iff]
  unfold InPacked v210PackedRegion
  rw [e16]

theorem V210Ready.good {b : Bus} {packed : Int} {p : Planes} {left right : Nat}
    (h : V210Ready b packed p left right) (x : Int)
    (hx : GroupBytes (v210Groups left right) (v210Cursors p left) x) : b.good x := by
  obtain ⟨r, hr, hx⟩ := inRegions_v210.1 hx
  exact good_of_ready (h.planesReady r hr) hx

theorem V210Ready.cursors {b : Bus} {packed : Int} {p : Planes} {left right : Nat}
    (h : V210Ready b packed p left right) (hlr : left < right) :
    b.alignedTo (v210PackedCursor packed left) 4 = true ∧ b.alignedTo (v210Cursors p left).y 2 = true ∧
      b.alignedTo (v210Cursors p left).u 2 = true ∧ b.alignedTo (v210Cursors p left).v 2 = true := by
  have ha := h.aligned hlr
  simp only [v210AlignedRow, Bool.and_eq_true] at ha
  exact ⟨alignedTo_offset (left / 6 * 4) ha.1.1.1 _ (by push_cast; ring),
    alignedTo_offset left ha.1.1.2 _ (by push_cast; ring),
    alignedTo_offset (left / 2) ha.1.2 _ (by push_cast; ring),
    alignedTo_offset (left / 2) ha.2 _ (by push_cast; ring)⟩

theorem v210UnpackRow_wrote {tag : ByteOrder} {b : Bus} {packed : Int} {p : Planes} {left right : Nat}
    {m m' : Memory} (h : v210UnpackRow tag b packed p left right m = .ok m') :
    Wrote b (InRegions (v210PlaneRegions p left right)) m m' :=
  (unpackGroups_wrote h).mono fun _ hx => inRegions_v210.1 hx

theorem v210PackRow_wrote {tag : ByteOrder} {b : Bus} {packed : Int} {p : Planes} {left right : Nat}
    {m m' : Memory} (h : v210PackRow tag b p packed left right m = .ok m') :
    Wrote b (InRegions [v210PackedRegion packed left right]) m m' :=
  (packGroups_wrote h).mono fun _ hx => ⟨_, by simp, inPacked_v210.1 hx⟩

theorem groups_empty {left right : Nat} (h : ¬ left < right) : v210Groups left right = 0 := by
  unfold v210Groups
  rw [Nat.sub_eq_zero_of_le (by omega), Nat.zero_div]

theorem v210UnpackRow_total {tag : ByteOrder} {b : Bus} {packed : Int} {p : Planes} {left right : Nat}
    (h : V210Ready b packed p left right) (m : Memory) :
    ∃ m', v210UnpackRow tag b packed p left right m = .ok m' := by
  by_cases hlr : left < right
  · obtain ⟨h1, h2, h3, h4⟩ := h.cursors hlr
    exact unpackGroups_total m (fun _ hx => good_of_ready h.packedReady (inPacked_v210.1 hx)) h1 h.good h2 h3 h4
  · exact ⟨m, by unfold v210UnpackRow; rw [groups_empty hlr]; rfl⟩

theorem v210PackRow_total {tag : ByteOrder} {b : Bus} {packed : Int} {p : Planes} {left right : Nat}
    (h : V210Ready b packed p left right) (m : Memory) :
    ∃ m', v210PackRow tag b p packed left right m = .ok m' := by
  by_cases hlr : left < right
  · obtain ⟨h1, h2, h3, h4⟩ := h.cursors hlr
    exact packGroups_total m (fun _ hx => good_of_ready h.packedReady (inPacked_v210.1 hx)) h1 h.good h2 h3 h4
  · exact ⟨m, by unfold v210PackRow; rw [groups_empty hlr]; rfl⟩

theorem field10Low_eq (w : Nat) : field10Low w = w / 2 ^ 0 % 2 ^ 10 := by
  have := Nat.and_two_pow_sub_one_eq_mod w 10
  simpa [field10Low] using this

theorem field10Mid_eq (w : Nat) : field10Mid w = w / 2 ^ 10 % 2 ^ 10 := by
  have := Nat.and_two_pow_sub_one_eq_mod (w >>> 10) 10
  rw [Nat.shiftRight_eq_div_pow] at this
  simpa [field10Mid, Nat.shiftRight_eq_div_pow] using this

theorem field10High_eq (w : Nat) : field10High w = w / 2 ^ 20 % 2 ^ 10 := by
  have := Nat.and_two_pow_sub_one_eq_mod (w >>> 20) 10
  rw [Nat.shiftRight_eq_div_pow] at this
  simpa [field10High, Nat.shiftRight_eq_div_pow] using this

/-- The three fields of a composed word, and its top bits (42_v210.md R205). -/
theorem word10_fields (a b c : Nat) : word10 a b c = a % 2 ^ 10 + 2 ^ 10 * (b % 2 ^ 10) + 2 ^ 20 * (c % 2 ^ 10) := by
  have hm : ∀ x : Nat, x &&& 0x3FF = x % 2 ^ 10 := fun x => Nat.and_two_pow_sub_one_eq_mod x 10
  unfold word10
  rw [hm, hm, hm]
  have h1 : a % 2 ^ 10 < 2 ^ 10 := Nat.mod_lt _ (by norm_num)
  have h2 : b % 2 ^ 10 < 2 ^ 10 := Nat.mod_lt _ (by norm_num)
  rw [Nat.lor_comm (a % 2 ^ 10), ← Nat.shiftLeft_add_eq_or_of_lt h1]
  have h3 : (b % 2 ^ 10) <<< 10 + a % 2 ^ 10 < 2 ^ 20 := by
    rw [Nat.shiftLeft_eq]; norm_num at h1 h2 ⊢; omega
  rw [Nat.lor_comm, ← Nat.shiftLeft_add_eq_or_of_lt h3, Nat.shiftLeft_eq, Nat.shiftLeft_eq]
  ring

/-- Where a sample of the table lies, in a group's numbering (42_v210.md R201, R207). -/
theorem v210Elem_eq {p : Planes} {left g : Nat} {e : V210Field} (he : e ∈ v210Table) :
    e.sample < perGroup e.channel ∧ v210Elem p left g e.channel e.sample
      = (v210Cursors p left).get e.channel + ((g * perGroup e.channel + e.sample) * 2 : Nat) := by
  simp only [v210Table, List.mem_cons, List.not_mem_nil, or_false] at he
  rcases he with rfl | rfl | rfl | rfl | rfl | rfl | rfl | rfl | rfl | rfl | rfl | rfl <;>
    refine ⟨by decide, ?_⟩ <;> simp only [v210Elem, v210Cursors, Planes.get, perGroup] <;> push_cast <;> ring

theorem v210Word_addr (packed : Int) (left g i : Nat) :
    packed + ((left / 6 + g) * 16 + 4 * i : Nat) = v210PackedCursor packed left + (g * 16 : Nat) + (4 * i : Nat) := by
  unfold v210PackedCursor
  push_cast
  ring

theorem v210UnpackRow_value {tag : ByteOrder} {b : Bus} {packed : Int} {p : Planes} {left right : Nat}
    {m m' : Memory} (hw : Memory.wf m = true) (ha : allApart (v210PlaneRegions p left right) = true)
    (hs : ∀ r ∈ v210PlaneRegions p left right, r.apart (v210PackedRegion packed left right) = true)
    (h : v210UnpackRow tag b packed p left right m = .ok m') :
    V210Unpacked tag b.hostOrder m m' packed p left right := by
  intro g hg e he
  obtain ⟨hlt, haddr⟩ := v210Elem_eq (p := p) (left := left) (g := g) he
  have hv := unpackGroups_value h hw
    (fun c c' x hne h1 h2 => by
      have key : ∀ k, InPacked ((v210Cursors p left).get k) (v210Groups left right) (2 * perGroup k) x → k ≠ .a := by
        rintro k hk rfl
        simp [InPacked, perGroup] at hk
        omega
      simp only [allApart, v210PlaneRegions, List.all_cons, List.all_nil, Bool.and_eq_true, and_true] at ha
      obtain ⟨⟨hyu, hyv⟩, huv⟩ := ha
      have e12 : v210Groups left right * 12 = 12 * v210Groups left right := by ring
      have e6 : v210Groups left right * 6 = 6 * v210Groups left right := by ring
      have k1 := key c h1
      have k2 := key c' h2
      have hyu := fun x => apart_not_both (x := x) hyu
      have hyv := fun x => apart_not_both (x := x) hyv
      have huv := fun x => apart_not_both (x := x) huv
      simp only [has_iff] at hyu hyv huv
      unfold InPacked at h1 h2
      cases c <;> cases c' <;> simp only [Planes.get, perGroup, Nat.reduceMul, e12, e6] at h1 h2 <;>
        first
        | exact hne rfl
        | exact k1 rfl
        | exact k2 rfl
        | exact hyu x h1 h2
        | exact hyu x h2 h1
        | exact hyv x h1 h2
        | exact hyv x h2 h1
        | exact huv x h1 h2
        | exact huv x h2 h1)
    (fun x hx hx' => by
      obtain ⟨r, hr, hx'⟩ := inRegions_v210.1 hx'
      exact apart_not_both (hs r hr) hx' (inPacked_v210.1 hx))
    g hg e.channel e.sample hlt
  unfold planarValue
  rw [haddr, hv, natOfBytes_bytesOfNat]
  have hwd : ∀ i, v210Word tag m packed left g i
      = natOfBytes tag (m.readBytes (v210PackedCursor packed left + (g * 16 : Nat) + (4 * i : Nat)).toNat 4) := by
    intro i
    rw [← v210Word_addr]
    rfl
  have hbound : ∀ w k : Nat, w / 2 ^ k % 2 ^ 10 % 256 ^ 2 = w / 2 ^ k % 2 ^ 10 := by
    intro w k
    exact Nat.mod_eq_of_lt (lt_of_lt_of_le (Nat.mod_lt _ (by norm_num)) (by norm_num))
  simp only [v210Table, List.mem_cons, List.not_mem_nil, or_false] at he
  rcases he with rfl | rfl | rfl | rfl | rfl | rfl | rfl | rfl | rfl | rfl | rfl | rfl <;>
    simp only [GroupSamples.plane, GroupSamples.ys, GroupSamples.us, GroupSamples.vs, groupUnpack, wordsAt,
      List.getElem_cons_zero, List.getElem_cons_succ, field10Low_eq, field10Mid_eq, field10High_eq, hbound, hwd] <;>
    norm_num

theorem word10_lt (a b c : Nat) : word10 a b c < 2 ^ 30 := by
  rw [word10_fields]
  have h1 : a % 2 ^ 10 < 2 ^ 10 := Nat.mod_lt _ (by norm_num)
  have h2 : b % 2 ^ 10 < 2 ^ 10 := Nat.mod_lt _ (by norm_num)
  have h3 : c % 2 ^ 10 < 2 ^ 10 := Nat.mod_lt _ (by norm_num)
  norm_num at h1 h2 h3 ⊢
  omega

theorem word10_low (a b c : Nat) : word10 a b c / 2 ^ 0 % 2 ^ 10 = a % 2 ^ 10 := by
  rw [word10_fields]; norm_num; omega

theorem word10_mid (a b c : Nat) : word10 a b c / 2 ^ 10 % 2 ^ 10 = b % 2 ^ 10 := by
  rw [word10_fields]; norm_num; omega

theorem word10_high (a b c : Nat) : word10 a b c / 2 ^ 20 % 2 ^ 10 = c % 2 ^ 10 := by
  rw [word10_fields]; norm_num; omega

theorem v210PackRow_value {tag : ByteOrder} {b : Bus} {packed : Int} {p : Planes} {left right : Nat}
    {m m' : Memory} (hw : Memory.wf m = true)
    (hs : ∀ r ∈ v210PlaneRegions p left right, (v210PackedRegion packed left right).apart r = true)
    (h : v210PackRow tag b p packed left right m = .ok m') :
    V210Packed tag b.hostOrder m m' packed p left right := by
  intro g hg
  have hv := fun i hi => packGroups_value h hw
    (fun x hx hx' => by
      obtain ⟨r, hr, hx⟩ := inRegions_v210.1 hx
      exact apart_not_both (hs r hr) (inPacked_v210.1 hx') hx) g hg i hi
  have hwd : ∀ i (hi : i < 4), v210Word tag m' packed left g i
      = ((groupPack (samplesAt m b.hostOrder (groupCursors (v210Cursors p left) g))).list[i]'(by
          simpa [GroupWords.list] using hi)) % 256 ^ 4 := by
    intro i hi
    unfold v210Word
    have e : packed + ((left / 6 + g) * 16 + 4 * i : Nat)
        = v210PackedCursor packed left + ((g * 4 + i) * 4 : Nat) := by
      rw [v210Word_addr]; push_cast; ring
    rw [e, hv i hi, natOfBytes_bytesOfNat]
  have hb : ∀ a b c : Nat, word10 a b c % 256 ^ 4 = word10 a b c := fun a b c =>
    Nat.mod_eq_of_lt (lt_of_lt_of_le (word10_lt a b c) (by norm_num))
  have h0 := hwd 0 (by omega)
  have h1 := hwd 1 (by omega)
  have h2 := hwd 2 (by omega)
  have h3 := hwd 3 (by omega)
  simp only [GroupWords.list, groupPack, List.getElem_cons_zero, List.getElem_cons_succ, hb] at h0 h1 h2 h3
  refine ⟨fun e he => ?_, fun i hi => ?_⟩
  · have haddr := (v210Elem_eq (p := p) (left := left) (g := g) he).2
    unfold planarValue
    rw [haddr]
    simp only [v210Table, List.mem_cons, List.not_mem_nil, or_false] at he
    rcases he with rfl | rfl | rfl | rfl | rfl | rfl | rfl | rfl | rfl | rfl | rfl | rfl <;>
      simp only [h0, h1, h2, h3, word10_low, word10_mid, word10_high, samplesAt, sampleAt, groupCursors,
        Planes.get, perGroup] <;>
      congr 4 <;> push_cast <;> ring_nf
  · have : i = 0 ∨ i = 1 ∨ i = 2 ∨ i = 3 := by omega
    rcases this with rfl | rfl | rfl | rfl
    · rw [h0]; exact word10_lt _ _ _
    · rw [h1]; exact word10_lt _ _ _
    · rw [h2]; exact word10_lt _ _ _
    · rw [h3]; exact word10_lt _ _ _

end Sys2Proof.Machine
end

