-- ==== Sys2Proof/Laws/FrameRows.lean ====
section
/-! SUPPORT. What a row of either CLASS leaves, on which bytes that depends, and what the rows and the luma copy of a
frame leave together (44_frame.md). -/

namespace Sys2Proof.Machine

/-! ### Rows of either CLASS -/

/-- The regions of a row lie in memory that can be accessed, and its checks pass. -/
structure DescReady (desc : Descriptor) (b : Bus) (packed : Int) (p : Planes) (left right : Nat) : Prop where
  pointers : desc.pointersOk packed p = true
  packedReady : b.ready (desc.packedRegion packed left right) = true
  planesReady : ∀ r ∈ desc.planeRegions p left right, b.ready r = true
  aligned : left < right → desc.alignedRow b packed p = true

theorem DescReady.generic {d : Layout} {b : Bus} {packed : Int} {p : Planes} {left right : Nat}
    (h : DescReady (.generic d) b packed p left right) : RowReady d b packed p left right :=
  ⟨h.pointers, h.packedReady, h.planesReady, h.aligned⟩

theorem DescReady.v210 {tag : ByteOrder} {b : Bus} {packed : Int} {p : Planes} {left right : Nat}
    (h : DescReady (.v210 tag) b packed p left right) : V210Ready b packed p left right :=
  ⟨h.packedReady, h.planesReady, h.aligned⟩

section
variable {desc : Descriptor} {b : Bus} {packed : Int} {p : Planes} {left right : Nat} {fill : Bool} {m m' : Memory}

theorem descUnpack_wrote (hp : desc.pointersOk packed p = true)
    (h : desc.unpackRow b packed p left right m = .ok m') :
    Wrote b (InRegions (desc.planeRegions p left right)) m m' := by
  cases desc with
  | generic d => exact unpackRow_wrote hp h
  | v210 tag => exact v210UnpackRow_wrote h

theorem descPack_wrote (h : desc.packRow b fill p packed left right m = .ok m') :
    Wrote b (InRegions [desc.packedRegion packed left right]) m m' := by
  cases desc with
  | generic d => exact packRow_wrote h
  | v210 tag => exact v210PackRow_wrote h

theorem descUnpack_total (h : DescReady desc b packed p left right) (m : Memory) :
    ∃ m', desc.unpackRow b packed p left right m = .ok m' := by
  cases desc with
  | generic d => exact unpackRow_total h.generic m
  | v210 tag => exact v210UnpackRow_total h.v210 m

theorem descPack_total (h : DescReady desc b packed p left right) (fill : Bool) (m : Memory) :
    ∃ m', desc.packRow b fill p packed left right m = .ok m' := by
  cases desc with
  | generic d => exact packRow_total h.generic fill m
  | v210 tag => exact v210PackRow_total h.v210 m

theorem descUnpack_value (hok : desc.ok = true) (hw : Memory.wf m = true) (hp : desc.pointersOk packed p = true)
    (ha : allApart (desc.planeRegions p left right) = true)
    (hs : ∀ r ∈ desc.planeRegions p left right, r.apart (desc.packedRegion packed left right) = true)
    (h : desc.unpackRow b packed p left right m = .ok m') :
    desc.Unpacked b.hostOrder m m' packed p left right := by
  cases desc with
  | generic d => exact unpackRow_value hok hw hp ha hs h
  | v210 tag => exact v210UnpackRow_value hw ha hs h

theorem descPack_value (hok : desc.ok = true) (hw : Memory.wf m = true) (hp : desc.pointersOk packed p = true)
    (hs : ∀ r ∈ desc.planeRegions p left right, (desc.packedRegion packed left right).apart r = true)
    (h : desc.packRow b fill p packed left right m = .ok m') :
    desc.Packed b.hostOrder fill m m' packed p left right := by
  cases desc with
  | generic d => exact packRow_value hok hw hp hs h
  | v210 tag => exact v210PackRow_value hw hs h

end

/-! ### The bytes a row's result depends on -/

/-- Two memories agree on a region. -/
def Agree (r : Region) (m m' : Memory) : Prop := ∀ k : Nat, r.has k = true → m.read k = m'.read k

theorem readBytes_agree {b : Bus} {r : Region} {m m' : Memory} (hr : b.ready r = true) (h : Agree r m m') {a : Int}
    {n : Nat} (hn : 0 < n) (h1 : r.base ≤ a) (h2 : a + n ≤ r.base + r.len) :
    m.readBytes a.toNat n = m'.readBytes a.toNat n := by
  have h0 := (good_of_ready hr ((has_iff r a).2 ⟨h1, by omega⟩)).1
  refine readBytes_congr _ _ _ _ fun k hk1 hk2 => h k ((has_iff _ _).2 ⟨by omega, by omega⟩)

theorem unit_inside {d : Layout} {packed : Int} {left right u : Nat} (hu : u < d.units left right) :
    (d.packedRegion packed left right).base ≤ d.unitAddr packed left u ∧
    d.unitAddr packed left u + d.pkb ≤ (d.packedRegion packed left right).base
      + (d.packedRegion packed left right).len := by
  unfold Layout.packedRegion Layout.packedCursor Layout.unitAddr
  have h1 : (left / d.ppp + u) * d.pkb = left / d.ppp * d.pkb + u * d.pkb := by ring
  have h2 : (u + 1) * d.pkb ≤ d.units left right * d.pkb := Nat.mul_le_mul_right _ hu
  rw [Nat.add_mul, Nat.one_mul] at h2
  simp only [h1]
  push_cast at h2 ⊢
  constructor
  · have : (0 : Int) ≤ (u : Int) * d.pkb := by positivity
    omega
  · have : ((u * d.pkb + d.pkb : Nat) : Int) ≤ ((d.units left right * d.pkb : Nat) : Int) := by exact_mod_cast h2
    push_cast at this
    omega

theorem elem_inside {d : Layout} {p : Planes} {left right u : Nat} (hu : u < d.units left right) {k : Nat}
    (hk : k < 4) {c : Channel} {sh dp : Nat} (hs : d.slots[k] = .field c sh dp) :
    (d.planeRegion p left right c).base ≤ d.elemAddr p left u k c ∧
    d.elemAddr p left u k c + d.eb ≤ (d.planeRegion p left right c).base + (d.planeRegion p left right c).len := by
  unfold Layout.planeRegion Layout.elemAddr
  rw [cursors_get]
  have ht := countSlots_take_lt d.slots.toList k (by simpa using hk) (by rw [slot_toList hk]; exact hs)
  have h1 : u * d.count c + countSlots c (d.slots.toList.take k) + 1 ≤ d.units left right * d.count c := by
    have : (u + 1) * d.count c ≤ d.units left right * d.count c := Nat.mul_le_mul_right _ hu
    rw [Nat.add_mul, Nat.one_mul] at this
    unfold Layout.count at this ⊢
    omega
  have h2 := Nat.mul_le_mul_right d.eb h1
  rw [Nat.add_mul, Nat.one_mul] at h2
  rw [Nat.add_mul]
  generalize (u * d.count c + countSlots c (d.slots.toList.take k)) * d.eb = z at h2 ⊢
  push_cast at h2 ⊢
  have h3 : ((z + d.eb : Nat) : Int) ≤ ((d.units left right * d.count c * d.eb : Nat) : Int) := by exact_mod_cast h2
  push_cast at h3
  constructor <;> omega

theorem v210Word_inside {packed : Int} {left right g i : Nat} (hg : g < v210Groups left right) (hi : i < 4) :
    (v210PackedRegion packed left right).base ≤ packed + ((left / 6 + g) * 16 + 4 * i : Nat) ∧
    packed + ((left / 6 + g) * 16 + 4 * i : Nat) + (4 : Nat) ≤ (v210PackedRegion packed left right).base
      + (v210PackedRegion packed left right).len := by
  unfold v210PackedRegion v210PackedCursor
  push_cast
  constructor <;> omega

/-- A v210 sample's bytes lie in its plane's region. -/
theorem v210Elem_inside {p : Planes} {left right g : Nat} (hg : g < v210Groups left right) {e : V210Field}
    (he : e ∈ v210Table) : ∃ r ∈ v210PlaneRegions p left right, r.base ≤ v210Elem p left g e.channel e.sample ∧
      v210Elem p left g e.channel e.sample + (2 : Nat) ≤ r.base + r.len := by
  simp only [v210Table, List.mem_cons, List.not_mem_nil, or_false] at he
  rcases he with rfl | rfl | rfl | rfl | rfl | rfl | rfl | rfl | rfl | rfl | rfl | rfl <;>
    simp only [v210PlaneRegions, v210Elem, v210Cursors, List.mem_cons, List.not_mem_nil, or_false,
      exists_eq_or_imp, exists_eq_left] <;> push_cast <;>
    first
    | exact .inl ⟨by omega, by omega⟩
    | exact .inr (.inl ⟨by omega, by omega⟩)
    | exact .inr (.inr ⟨by omega, by omega⟩)

section
variable {desc : Descriptor} {b : Bus} {packed : Int} {p : Planes} {left right : Nat} {o : ByteOrder}
  {m m' m1 m1' : Memory}

theorem unpacked_congr (hok : desc.ok = true) (hr : DescReady desc b packed p left right)
    (hs : Agree (desc.packedRegion packed left right) m m1)
    (hd : ∀ r ∈ desc.planeRegions p left right, Agree r m' m1')
    (h : desc.Unpacked o m1 m1' packed p left right) : desc.Unpacked o m m' packed p left right := by
  cases desc with
  | generic d =>
    obtain ⟨hpkb, heb, _, _, _⟩ := layout_widths hok
    intro u hu k c sh dp hk hn
    have h1 := h u hu k c sh dp hk hn
    have hc := count_pos k.2 hk
    have hm : d.planeRegion p left right c ∈ d.planeRegions p left right :=
      List.mem_map.2 ⟨c, List.mem_filter.2 ⟨mem_channel_all c,
        active_of_takes hr.pointers (takes_of_pointer hc hn) hc⟩, rfl⟩
    have e1 := elem_inside (p := p) hu k.2 hk
    have e2 := unit_inside (packed := packed) hu
    unfold planarValue Layout.unitValue at h1 ⊢
    rw [readBytes_agree (hr.planesReady _ hm) (hd _ hm) heb e1.1 e1.2,
      readBytes_agree hr.packedReady hs hpkb e2.1 e2.2]
    exact h1
  | v210 tag =>
    intro g hg e he
    have h1 := h g hg e he
    obtain ⟨r, hrm, e1⟩ := v210Elem_inside (p := p) hg he
    have hw : e.word < 4 := by
      have : ∀ e ∈ v210Table, e.word < 4 := by decide
      exact this e he
    have e2 := v210Word_inside (packed := packed) hg hw
    unfold planarValue v210Word at h1 ⊢
    rw [readBytes_agree (hr.planesReady _ hrm) (hd _ hrm) (by norm_num) e1.1 e1.2,
      readBytes_agree hr.packedReady hs (by norm_num) e2.1 e2.2]
    exact h1

theorem packed_congr {fill : Bool} (hok : desc.ok = true) (hr : DescReady desc b packed p left right)
    (hd : ∀ r ∈ desc.planeRegions p left right, Agree r m m1)
    (hs : Agree (desc.packedRegion packed left right) m' m1')
    (h : desc.Packed o fill m1 m1' packed p left right) : desc.Packed o fill m m' packed p left right := by
  cases desc with
  | generic d =>
    obtain ⟨hpkb, heb, _, _, _⟩ := layout_widths hok
    intro u hu
    have e2 := unit_inside (packed := packed) hu
    have hv : d.unitValue m' (d.unitAddr packed left u) = d.unitValue m1' (d.unitAddr packed left u) := by
      unfold Layout.unitValue
      rw [readBytes_agree hr.packedReady hs hpkb e2.1 e2.2]
    refine ⟨fun k c sh dp hk => ?_, fun j hj => ?_⟩
    · have h1 := (h u hu).1 k c sh dp hk
      rw [hv, h1]
      split
      · rfl
      · rename_i hn
        have hc := count_pos k.2 hk
        have hm : d.planeRegion p left right c ∈ d.planeRegions p left right :=
          List.mem_map.2 ⟨c, List.mem_filter.2 ⟨mem_channel_all c,
            active_of_takes hr.pointers (takes_of_pointer hc hn) hc⟩, rfl⟩
        have e1 := elem_inside (p := p) hu k.2 hk
        unfold planarValue
        rw [readBytes_agree (hr.planesReady _ hm) (hd _ hm) heb e1.1 e1.2]
    · rw [hv]
      exact (h u hu).2 j hj
  | v210 tag =>
    intro g hg
    have hv : ∀ i, i < 4 → v210Word tag m' packed left g i = v210Word tag m1' packed left g i := by
      intro i hi
      have e2 := v210Word_inside (packed := packed) hg hi
      unfold v210Word
      rw [readBytes_agree hr.packedReady hs (by norm_num) e2.1 e2.2]
    refine ⟨fun e he => ?_, fun i hi => ?_⟩
    · have hw : e.word < 4 := by
        have : ∀ e ∈ v210Table, e.word < 4 := by decide
        exact this e he
      obtain ⟨r, hrm, e1⟩ := v210Elem_inside (p := p) hg he
      have h1 := (h g hg).1 e he
      rw [hv _ hw, h1]
      unfold planarValue
      rw [readBytes_agree (hr.planesReady _ hrm) (hd _ hrm) (by norm_num) e1.1 e1.2]
    · rw [hv i hi]
      exact (h g hg).2 i hi

end

/-! ### Rows in order -/

section
variable {row : Nat → Memory → Except FaultReason Memory} {b : Bus} {W : Nat → Int → Prop}

theorem frameRows_succ_ok {n y : Nat} {m m' : Memory} (h : frameRows row (n + 1) y m = .ok m') :
    ∃ m1, row y m = .ok m1 ∧ frameRows row n (y + 1) m1 = .ok m' := by
  unfold frameRows at h
  split at h
  · cases h
  · exact ⟨_, ‹_›, h⟩

theorem frameRows_wrote {N : Nat} (hrow : ∀ y < N, ∀ m m', row y m = .ok m' → Wrote b (W y) m m') {n y : Nat}
    {m m' : Memory} (hN : y + n ≤ N)
    (h : frameRows row n y m = .ok m') : Wrote b (fun x => ∃ k, y ≤ k ∧ k < y + n ∧ W k x) m m' := by
  induction n generalizing y m with
  | zero => cases h; exact Wrote.refl _ _ _
  | succ n ih =>
    obtain ⟨m1, h1, h2⟩ := frameRows_succ_ok h
    refine ((hrow _ (by omega) _ _ h1).mono fun x hx => ⟨y, le_refl _, by omega, hx⟩).trans
      ((ih (by omega) h2).mono ?_)
    rintro x ⟨k, hk1, hk2, hx⟩
    exact ⟨k, by omega, by omega, hx⟩

theorem frameRows_total {n y : Nat} (hrow : ∀ k, y ≤ k → k < y + n → ∀ m, ∃ m', row k m = .ok m') (m : Memory) :
    ∃ m', frameRows row n y m = .ok m' := by
  induction n generalizing y m with
  | zero => exact ⟨_, rfl⟩
  | succ n ih =>
    obtain ⟨m1, h1⟩ := hrow y (le_refl _) (by omega) m
    obtain ⟨m', h2⟩ := ih (y := y + 1) (fun k hk1 hk2 => hrow k (by omega) (by omega)) m1
    exact ⟨m', by simp only [frameRows, h1]; exact h2⟩

/-- A row among the rows of a frame: what ran before it and after it. -/
theorem frameRows_split {N : Nat} (hrow : ∀ y < N, ∀ m m', row y m = .ok m' → Wrote b (W y) m m') {n y : Nat}
    {m m' : Memory} (hN : y + n ≤ N)
    (h : frameRows row n y m = .ok m') {k : Nat} (hk1 : y ≤ k) (hk2 : k < y + n) :
    ∃ m1 m2, Wrote b (fun x => ∃ j, y ≤ j ∧ j < y + n ∧ j ≠ k ∧ W j x) m m1 ∧ row k m1 = .ok m2 ∧
      Wrote b (fun x => ∃ j, y ≤ j ∧ j < y + n ∧ j ≠ k ∧ W j x) m2 m' := by
  induction n generalizing y m with
  | zero => omega
  | succ n ih =>
    obtain ⟨m0, h1, h2⟩ := frameRows_succ_ok h
    by_cases e : k = y
    · subst e
      refine ⟨m, m0, Wrote.refl _ _ _, h1, (frameRows_wrote hrow (by omega) h2).mono ?_⟩
      rintro x ⟨j, hj1, hj2, hx⟩
      exact ⟨j, by omega, by omega, by omega, hx⟩
    · obtain ⟨m1, m2, w1, hr, w2⟩ := ih (by omega) h2 (by omega) (by omega)
      refine ⟨m1, m2, ((hrow _ (by omega) _ _ h1).mono ?_).trans (w1.mono ?_), hr, w2.mono ?_⟩
      · intro x hx
        exact ⟨y, le_refl _, by omega, fun e' => e e'.symm, hx⟩
      · rintro x ⟨j, hj1, hj2, hj3, hx⟩
        exact ⟨j, by omega, by omega, hj3, hx⟩
      · rintro x ⟨j, hj1, hj2, hj3, hx⟩
        exact ⟨j, by omega, by omega, hj3, hx⟩

end

/-! ### The luma copy -/

/-- One row of `CopyPlane`. -/
def copyRow (b : Bus) (l : LumaCopy) (y : Nat) (m : Memory) : Except FaultReason Memory :=
  match b.memRead m (l.src + y * l.srcStride) l.nbytes 1 with
  | .error r => .error r
  | .ok bs => b.memWrite m (l.dst + y * l.dstStride) bs 1

theorem copyRows_eq (b : Bus) (l : LumaCopy) (n y : Nat) (m : Memory) :
    copyRows b l n y m = frameRows (copyRow b l) n y m := by
  induction n generalizing y m with
  | zero => rfl
  | succ n ih =>
    unfold copyRows frameRows
    have e : copyRow b l y m = match b.memRead m (l.src + y * l.srcStride) l.nbytes 1 with
      | .error r => .error r
      | .ok bs => b.memWrite m (l.dst + y * l.dstStride) bs 1 := rfl
    rw [e]
    cases b.memRead m (l.src + y * l.srcStride) l.nbytes 1 with
    | error r => rfl
    | ok bs => simp only [ih]

theorem copyRow_ok {b : Bus} {l : LumaCopy} {y : Nat} {m m' : Memory} (h : copyRow b l y m = .ok m') :
    b.check (l.src + y * l.srcStride) l.nbytes 1 = .ok () ∧
    b.memWrite m (l.dst + y * l.dstStride) (m.readBytes (l.src + y * l.srcStride).toNat l.nbytes) 1 = .ok m' := by
  unfold copyRow at h
  split at h
  · cases h
  · rename_i bs hr
    obtain ⟨hc, rfl⟩ := memRead_ok hr
    exact ⟨hc, h⟩

theorem copyRow_wrote {b : Bus} {l : LumaCopy} (y : Nat) (m m' : Memory) (h : copyRow b l y m = .ok m') :
    Wrote b (InRegions [l.writeAt y]) m m' := by
  refine (wrote_of_memWrite (copyRow_ok h).2).mono fun x hx => ⟨l.writeAt y, by simp, (has_iff _ _).2 ?_⟩
  rwa [length_readBytes] at hx

theorem alignedTo_one (b : Bus) (a : Int) : b.alignedTo a 1 = true := by
  simp [Bus.alignedTo]

theorem copyRow_total {b : Bus} {l : LumaCopy} {y : Nat} (hr : b.ready (l.readAt y) = true)
    (hw : b.ready (l.writeAt y) = true) (m : Memory) : ∃ m', copyRow b l y m = .ok m' := by
  have h1 : b.check (l.src + y * l.srcStride) l.nbytes 1 = .ok () :=
    check_of_good (fun x h1 h2 => good_of_ready hr ((has_iff _ _).2 ⟨h1, h2⟩)) (alignedTo_one _ _)
  have h2 : b.check (l.dst + y * l.dstStride)
      (m.readBytes (l.src + y * l.srcStride).toNat l.nbytes).length 1 = .ok () := by
    rw [length_readBytes]
    exact check_of_good (fun x h1 h2 => good_of_ready hw ((has_iff _ _).2 ⟨h1, h2⟩)) (alignedTo_one _ _)
  exact ⟨_, by unfold copyRow; rw [memRead_eq m h1]; exact memWrite_eq m h2⟩

theorem copyRow_value {b : Bus} {l : LumaCopy} {y : Nat} {m m' : Memory} (hm : Memory.wf m = true)
    (h : copyRow b l y m = .ok m') {i : Nat} (hi : i < l.nbytes) :
    m'.read (l.dst + y * l.dstStride + i).toNat = m.read (l.src + y * l.srcStride + i).toNat := by
  obtain ⟨hc, hw⟩ := copyRow_ok h
  have h0 := (good_of_check hc _ (le_refl _) (by omega)).1
  obtain ⟨hc', rfl⟩ := memWrite_ok hw
  rw [length_readBytes] at hc'
  have h0' := (good_of_check hc' _ (le_refl _) (by omega)).1
  have e1 : (l.dst + y * l.dstStride + i).toNat = (l.dst + y * l.dstStride).toNat + i := by omega
  have e2 : (l.src + y * l.srcStride + i).toNat = (l.src + y * l.srcStride).toNat + i := by omega
  have hb := readBytes_writeBytes m (l.dst + y * l.dstStride).toNat
    (m.readBytes (l.src + y * l.srcStride).toNat l.nbytes) hm
  rw [length_readBytes] at hb
  have := congrArg (fun bs : List Byte => bs[i]?) hb
  rw [List.getElem?_eq_getElem (by simpa using hi), List.getElem?_eq_getElem (by simpa using hi),
    getElem_readBytes, getElem_readBytes] at this
  rw [e1, e2]
  exact Option.some.inj this

/-! ### A list of regions, row by row -/

theorem allApart_flatMap {n : Nat} {f : Nat → List Region} (h : allApart ((List.range n).flatMap f) = true) {i : Nat}
    (hi : i < n) : allApart (f i) = true ∧ ∀ j, j < n → j ≠ i → ∀ r ∈ f i, ∀ q ∈ f j, r.apart q = true := by
  induction n with
  | zero => omega
  | succ n ih =>
    rw [List.range_succ, List.flatMap_append, allApart_append] at h
    simp only [List.flatMap_cons, List.flatMap_nil, List.append_nil] at h
    obtain ⟨h1, h2, h3⟩ := h
    by_cases e : i = n
    · subst e
      refine ⟨h2, fun j hj hne r hr q hq => apart_symm (h3 q ?_ r hr)⟩
      exact List.mem_flatMap.2 ⟨j, List.mem_range.2 (by omega), hq⟩
    · obtain ⟨h4, h5⟩ := ih h1 (by omega)
      refine ⟨h4, fun j hj hne r hr q hq => ?_⟩
      by_cases ej : j = n
      · subst ej
        exact h3 r (List.mem_flatMap.2 ⟨i, List.mem_range.2 (by omega), hr⟩) q hq
      · exact h5 j (by omega) hne r hr q hq

theorem map_eq_flatMap (n : Nat) (f : Nat → Region) :
    (List.range n).map f = (List.range n).flatMap fun y => [f y] := by
  rw [List.map_eq_flatMap]

/-- Bytes none of which was written agree. -/
theorem Wrote.agree {b : Bus} {W : Int → Prop} {m m' : Memory} (h : Wrote b W m m') (hm : Memory.wf m = true)
    {r : Region} (hd : ∀ x : Int, r.has x = true → ¬ W x) : Agree r m m' :=
  fun k hk => (h.outside hm k (hd k hk)).symm

/-! ### The whole frame (44_frame.md R247) -/

/-- The rows of the plan and its luma copy lie in memory that can be accessed, and the rows' checks pass. -/
structure PlanReady (pl : FramePlan) (desc : Descriptor) (b : Bus) : Prop where
  rows : ∀ y < pl.rows, DescReady desc b (pl.packedRow y) (pl.planesRow y) 0 pl.width
  luma : ∀ l, pl.luma = some l → ∀ y < l.nrows, b.ready (l.readAt y) = true ∧ b.ready (l.writeAt y) = true

theorem copyLuma_ok {b : Bus} {l : Option LumaCopy} {m m' : Memory} (h : copyLuma b l m = .ok m') :
    Wrote b (InRegions ((l.map LumaCopy.writes).getD [])) m m' := by
  cases l with
  | none => cases h; exact Wrote.refl _ _ _
  | some l =>
    simp only [copyLuma, copyRows_eq] at h
    refine (frameRows_wrote (N := l.nrows) (fun y _ => copyRow_wrote y) (by omega) h).mono ?_
    rintro x ⟨k, _, hk, r, hr, hx⟩
    exact ⟨r, List.mem_map.2 ⟨k, List.mem_range.2 (by omega), (List.mem_singleton.1 hr).symm⟩, hx⟩

theorem copyLuma_total {b : Bus} {l : Option LumaCopy}
    (h : ∀ c, l = some c → ∀ y < c.nrows, b.ready (c.readAt y) = true ∧ b.ready (c.writeAt y) = true) (m : Memory) :
    ∃ m', copyLuma b l m = .ok m' := by
  cases l with
  | none => exact ⟨_, rfl⟩
  | some l =>
    simp only [copyLuma, copyRows_eq]
    exact frameRows_total (fun k _ hk m => copyRow_total (h l rfl k (by omega)).1 (h l rfl k (by omega)).2 m) m

/-- The luma copy leaves the source's bytes in the destination, when the copy's rows do not overlap. -/
theorem copyLuma_value {b : Bus} {l : LumaCopy} {m m' : Memory} (hm : Memory.wf m = true)
    (hready : ∀ y < l.nrows, b.ready (l.readAt y) = true ∧ b.ready (l.writeAt y) = true)
    (hw : allApart l.writes = true) (hr : ∀ w ∈ l.writes, ∀ r ∈ l.reads, w.apart r = true)
    (h : copyLuma b (some l) m = .ok m') {y : Nat} (hy : y < l.nrows) {i : Nat} (hi : i < l.nbytes) :
    m'.read (l.dst + y * l.dstStride + i).toNat = m.read (l.src + y * l.srcStride + i).toNat := by
  simp only [copyLuma, copyRows_eq] at h
  obtain ⟨m1, m2, w1, hrow, w2⟩ :=
    frameRows_split (N := l.nrows) (fun y _ => copyRow_wrote y) (by omega) h (Nat.zero_le y) (by omega)
  have hm1 := w1.wf hm
  have hm2 := (copyRow_wrote y m1 m2 hrow).wf hm1
  have mem : ∀ j, j < l.nrows → l.writeAt j ∈ l.writes ∧ l.readAt j ∈ l.reads := fun j hj =>
    ⟨List.mem_map.2 ⟨j, List.mem_range.2 hj, rfl⟩, List.mem_map.2 ⟨j, List.mem_range.2 hj, rfl⟩⟩
  have hin1 : (l.writeAt y).has (l.dst + y * l.dstStride + i) = true :=
    (has_iff _ _).2 ⟨by simp only [LumaCopy.writeAt]; omega, by simp only [LumaCopy.writeAt]; omega⟩
  have hin2 : (l.readAt y).has (l.src + y * l.srcStride + i) = true :=
    (has_iff _ _).2 ⟨by simp only [LumaCopy.readAt]; omega, by simp only [LumaCopy.readAt]; omega⟩
  have n1 := (good_of_ready (hready y hy).2 hin1).1
  have n2 := (good_of_ready (hready y hy).1 hin2).1
  have v := copyRow_value hm1 hrow hi
  rw [w2.outside hm2, v, w1.outside hm]
  · rintro ⟨j, _, hj, _, r, hr', hx⟩
    rw [List.mem_singleton] at hr'
    subst hr'
    have hz : ((l.src + y * l.srcStride + i).toNat : Int) = l.src + y * l.srcStride + i := by omega
    rw [hz] at hx
    exact apart_not_both (hr _ (mem j (by omega)).1 _ (mem y hy).2) hx hin2
  · rintro ⟨j, _, hj, hne, r, hr', hx⟩
    rw [List.mem_singleton] at hr'
    subst hr'
    have hz : ((l.dst + y * l.dstStride + i).toNat : Int) = l.dst + y * l.dstStride + i := by omega
    rw [hz] at hx
    unfold LumaCopy.writes at hw
    rw [map_eq_flatMap] at hw
    exact apart_not_both ((allApart_flatMap hw hy).2 j (by omega) hne (l.writeAt y) (by simp)
      (l.writeAt j) (by simp)) hin1 hx

section
variable {pl : FramePlan} {desc : Descriptor} {b : Bus} {m m' : Memory}

theorem run_ok {row : Nat → Memory → Except FaultReason Memory} (h : pl.run b row m = .ok m') :
    ∃ m1, copyLuma b pl.luma m = .ok m1 ∧ frameRows row pl.rows 0 m1 = .ok m' := by
  unfold FramePlan.run at h
  split at h
  · cases h
  · exact ⟨_, ‹_›, h⟩

theorem run_total {row : Nat → Memory → Except FaultReason Memory} (hl : ∀ m, ∃ m1, copyLuma b pl.luma m = .ok m1)
    (hr : ∀ y < pl.rows, ∀ m, ∃ m', row y m = .ok m') (m : Memory) : ∃ m', pl.run b row m = .ok m' := by
  obtain ⟨m1, h1⟩ := hl m
  obtain ⟨m', h2⟩ := frameRows_total (row := row) (n := pl.rows) (y := 0) (fun k _ hk => hr k (by omega)) m1
  exact ⟨m', by unfold FramePlan.run; rw [h1]; exact h2⟩

/-- All a frame's accesses leave, for the rows' own effect `Q` and writes `W`, when neither the copy nor another row
writes what a row reads or writes. -/
theorem run_rows {row : Nat → Memory → Except FaultReason Memory} {W : Nat → List Region}
    (hrow : ∀ y < pl.rows, ∀ m m', row y m = .ok m' → Wrote b (InRegions (W y)) m m') (hm : Memory.wf m = true)
    (h : pl.run b row m = .ok m') {k : Nat} (hk : k < pl.rows) :
    ∃ m1 m2, Wrote b (fun x => InRegions pl.lumaWrites x ∨ ∃ j, j < pl.rows ∧ j ≠ k ∧ InRegions (W j) x) m m1 ∧
      Memory.wf m1 = true ∧ Memory.wf m2 = true ∧ row k m1 = .ok m2 ∧
      Wrote b (fun x => ∃ j, j < pl.rows ∧ j ≠ k ∧ InRegions (W j) x) m2 m' := by
  obtain ⟨m0, h1, h2⟩ := run_ok h
  have w0 := copyLuma_ok h1
  obtain ⟨m1, m2, w1, hr, w2⟩ := frameRows_split hrow (by omega) h2 (Nat.zero_le k) (by omega)
  have hm1 := w1.wf (w0.wf hm)
  refine ⟨m1, m2, (w0.mono fun x hx => .inl hx).trans (w1.mono ?_), hm1, (hrow _ hk _ _ hr).wf hm1, hr, w2.mono ?_⟩
  · rintro x ⟨j, _, hj, hne, hx⟩
    exact .inr ⟨j, by omega, hne, hx⟩
  · rintro x ⟨j, _, hj, hne, hx⟩
    exact ⟨j, by omega, hne, hx⟩

theorem run_luma {row : Nat → Memory → Except FaultReason Memory} {W : Nat → List Region}
    (hrow : ∀ y < pl.rows, ∀ m m', row y m = .ok m' → Wrote b (InRegions (W y)) m m') (hm : Memory.wf m = true)
    (hready : ∀ l, pl.luma = some l → ∀ y < l.nrows, b.ready (l.readAt y) = true ∧ b.ready (l.writeAt y) = true)
    (hw : allApart pl.lumaWrites = true) (hr : ∀ w ∈ pl.lumaWrites, ∀ r ∈ pl.lumaReads, w.apart r = true)
    (hx : ∀ w ∈ pl.lumaWrites, ∀ j < pl.rows, ∀ q ∈ W j, w.apart q = true)
    (h : pl.run b row m = .ok m') : LumaCopied pl.luma m m' := by
  obtain ⟨m0, h1, h2⟩ := run_ok h
  intro l hl y hy i hi
  have e1 : pl.lumaWrites = l.writes := by unfold FramePlan.lumaWrites; rw [hl]; rfl
  have e2 : pl.lumaReads = l.reads := by unfold FramePlan.lumaReads; rw [hl]; rfl
  have w0 := copyLuma_ok h1
  rw [hl] at h1
  rw [e1, e2] at hr
  rw [e1] at hw
  have v := copyLuma_value hm (hready l hl) hw hr h1 hy hi
  have hin : (l.writeAt y).has (l.dst + y * l.dstStride + i) = true :=
    (has_iff _ _).2 ⟨by simp only [LumaCopy.writeAt]; omega, by simp only [LumaCopy.writeAt]; omega⟩
  have n1 := (good_of_ready (hready l hl y hy).2 hin).1
  rw [(frameRows_wrote hrow (by omega) h2).outside (w0.wf hm), v]
  rintro ⟨j, _, hj, r, hr', hx'⟩
  have hz : ((l.dst + y * l.dstStride + i).toNat : Int) = l.dst + y * l.dstStride + i := by omega
  rw [hz] at hx'
  exact apart_not_both (hx _ (e1 ▸ List.mem_map.2 ⟨y, List.mem_range.2 hy, rfl⟩) j (by omega) r hr') hin hx'

theorem run_wrote {row : Nat → Memory → Except FaultReason Memory} {W : Nat → List Region}
    (hrow : ∀ y < pl.rows, ∀ m m', row y m = .ok m' → Wrote b (InRegions (W y)) m m') (h : pl.run b row m = .ok m') :
    Wrote b (InRegions (pl.lumaWrites ++ (List.range pl.rows).flatMap W)) m m' := by
  obtain ⟨m0, h1, h2⟩ := run_ok h
  refine ((copyLuma_ok h1).mono ?_).trans ((frameRows_wrote hrow (by omega) h2).mono ?_)
  · rintro x ⟨r, hr, hx⟩
    exact ⟨r, List.mem_append_left _ hr, hx⟩
  · rintro x ⟨k, _, hk, r, hr, hx⟩
    exact ⟨r, List.mem_append_right _ (List.mem_flatMap.2 ⟨k, List.mem_range.2 (by omega), hr⟩), hx⟩

end

end Sys2Proof.Machine
end

