-- ==== Sys2Proof/Laws/State.lean ====
section
/-! SUPPORT. The small lemmas of the state record and its accessors: one per field per update. -/

namespace Sys2Proof.Machine

section PutReg
variable (s : State) (n : ArgName) (w : Word)
@[simp] theorem putReg_cfg : (s.putReg n w).cfg = s.cfg := rfl
@[simp] theorem putReg_admit : (s.putReg n w).admitSet = s.admitSet := rfl
@[simp] theorem putReg_mem : (s.putReg n w).mem = s.mem := rfl
@[simp] theorem putReg_regs : (s.putReg n w).regs = s.regs.put n w := rfl
@[simp] theorem putReg_status : (s.putReg n w).status = s.status := rfl
@[simp] theorem putReg_cache : (s.putReg n w).cache = s.cache := rfl
@[simp] theorem putReg_pending : (s.putReg n w).pending = s.pending := rfl
@[simp] theorem putReg_returned : (s.putReg n w).returned = s.returned := rfl
@[simp] theorem putReg_freeIx : (s.putReg n w).freeIx = s.freeIx := rfl
@[simp] theorem putReg_cacheAt (f : Fmt) (k : Key) : (s.putReg n w).cacheAt f k = s.cacheAt f k := rfl
@[simp] theorem putReg_bus : (s.putReg n w).bus = s.bus := rfl
end PutReg

section ResetBlock
variable (s : State)
@[simp] theorem resetBlock_cfg : s.resetBlock.cfg = s.cfg := rfl
@[simp] theorem resetBlock_admit : s.resetBlock.admitSet = s.admitSet := rfl
@[simp] theorem resetBlock_mem : s.resetBlock.mem = s.mem := rfl
@[simp] theorem resetBlock_regs : s.resetBlock.regs = ArgRegs.reset := rfl
@[simp] theorem resetBlock_status : s.resetBlock.status = .idle := rfl
@[simp] theorem resetBlock_cache : s.resetBlock.cache = Vector.replicate 150 .unresolved := rfl
@[simp] theorem resetBlock_pending : s.resetBlock.pending = s.pending := rfl
@[simp] theorem resetBlock_returned : s.resetBlock.returned = s.returned := rfl
@[simp] theorem resetBlock_freeIx : s.resetBlock.freeIx = s.freeIx := rfl
end ResetBlock

/-! ### Registers -/

/-- A written register holds the value. -/
@[simp] theorem get_put_same (g : ArgRegs) (n : ArgName) (w : Word) : (g.put n w).get n = .value w := by
  cases n <;> simp [ArgRegs.get, ArgRegs.put]

/-- Writing a register leaves every other alone. -/
theorem get_put_other (g : ArgRegs) {n k : ArgName} (w : Word) (h : k ≠ n) : (g.put n w).get k = g.get k := by
  cases n <;> cases k <;> simp_all [ArgRegs.get, ArgRegs.put]
  all_goals
    rw [Vector.getElem_set_ne]
    intro e
    exact h (Fin.ext e.symm)

/-- After reset every argument register is Unwritten. -/
@[simp] theorem get_reset (n : ArgName) : ArgRegs.reset.get n = .unwritten := by
  cases n <;> simp [ArgRegs.get, ArgRegs.reset]

/-- A register read succeeds exactly when the register holds the value. -/
theorem arg_ok_iff (s : State) (n : ArgName) (w : Word) : s.arg n = .ok w ↔ s.regs.get n = .value w := by
  unfold State.arg
  split <;> simp_all

/-! ### The dispatch cache -/

/-- `Resolve` changes the dispatch cache alone. -/
theorem resolve_eq (s : State) (f : Fmt) (k : Key) : s.resolve f k = { s with cache := (s.resolve f k).cache } := by
  unfold State.resolve
  split <;> rfl

section Resolve
variable (s : State) (f : Fmt) (k : Key)
@[simp] theorem resolve_cfg : (s.resolve f k).cfg = s.cfg := by rw [resolve_eq]
@[simp] theorem resolve_admit : (s.resolve f k).admitSet = s.admitSet := by rw [resolve_eq]
@[simp] theorem resolve_mem : (s.resolve f k).mem = s.mem := by rw [resolve_eq]
@[simp] theorem resolve_regs : (s.resolve f k).regs = s.regs := by rw [resolve_eq]
@[simp] theorem resolve_status : (s.resolve f k).status = s.status := by rw [resolve_eq]
@[simp] theorem resolve_pending : (s.resolve f k).pending = s.pending := by rw [resolve_eq]
@[simp] theorem resolve_returned : (s.resolve f k).returned = s.returned := by rw [resolve_eq]
@[simp] theorem resolve_freeIx : (s.resolve f k).freeIx = s.freeIx := by rw [resolve_eq]
@[simp] theorem resolve_bus : (s.resolve f k).bus = s.bus := by rw [resolve_eq]; rfl
end Resolve

/-- A format id that the registry names is below 50. -/
theorem registry_lt {f : Fmt} {r : RegistryEntry} (h : registry f = some r) : f.toNat < 50 := by
  unfold registry at h
  simp only at h
  repeat' split at h
  all_goals first | omega | cases h

theorem key_index_lt (k : Key) : Key.index k < 3 := by cases k <;> decide

theorem cacheIndex_lt {f : Fmt} {k : Key} (h : f.toNat < 50) : cacheIndex f k < 150 := by
  have := key_index_lt k
  unfold cacheIndex
  omega

/-- Two combinations share a place of the cache only if they are the same. -/
theorem cacheIndex_inj {f f' : Fmt} {k k' : Key} (h : cacheIndex f k = cacheIndex f' k') : f = f' ∧ k = k' := by
  have h1 := key_index_lt k
  have h2 := key_index_lt k'
  unfold cacheIndex at h
  have hf : f.toNat = f'.toNat := by omega
  have hk : Key.index k = Key.index k' := by omega
  exact ⟨BitVec.eq_of_toNat_eq hf, by revert hk; cases k <;> cases k' <;> simp [Key.index]⟩

/-- After `Resolve` the entry of the combination holds its handle. -/
theorem cacheAt_resolve_same (s : State) {f : Fmt} (k : Key) (h : f.toNat < 50) :
    (s.resolve f k).cacheAt f k = .resolved (s.handle f k) := by
  have hi : cacheIndex f k < 150 := cacheIndex_lt h
  cases he : s.cacheAt f k with
  | unresolved =>
    simp only [State.resolve, State.handle, he]
    simp [State.cacheAt, hi]
  | resolved b => simp [State.resolve, State.handle, he]

/-- `Resolve` leaves the entry of every other combination alone. -/
theorem cacheAt_resolve_other (s : State) {f f' : Fmt} {k k' : Key} (h : ¬(f' = f ∧ k' = k)) :
    (s.resolve f k).cacheAt f' k' = s.cacheAt f' k' := by
  unfold State.resolve
  split
  · have hne : cacheIndex f k ≠ cacheIndex f' k' := fun e => h ⟨(cacheIndex_inj e).1.symm, (cacheIndex_inj e).2.symm⟩
    simp [State.cacheAt, hne]
  · rfl

/-- A RESOLVED entry stays when another combination, or the same, is resolved (43_registry_dispatch.md R224). -/
theorem cacheAt_resolve_keeps (s : State) (f f' : Fmt) (k k' : Key) (b : Byte) (h : s.cacheAt f' k' = .resolved b) :
    (s.resolve f k).cacheAt f' k' = .resolved b := by
  by_cases e : f' = f ∧ k' = k
  · obtain ⟨rfl, rfl⟩ := e
    simp [State.resolve, h]
  · rw [cacheAt_resolve_other s e, h]

end Sys2Proof.Machine
end

