-- ==== Sys2Proof/Laws/Exec.lean ====
section
/-! SUPPORT. All a command can do, said once (10_state.md R24, R26; 60_exceptions.md R271, R272), and what a catalog
that passes its checks gives a command. -/

namespace Sys2Proof.Machine

/-! ### Catalog and registry -/

theorem entriesOk_get {cat : List Descriptor} {n i : Nat} (h : entriesOk n cat = true) {d : Descriptor}
    (hi : cat[i]? = some d) :
    d.ok = true ∧ ∃ r, registry (BitVec.ofNat 6 (n + i)) = some r ∧ r.cls = d.cls := by
  induction cat generalizing n i with
  | nil => simp at hi
  | cons e rest ih =>
    simp only [entriesOk, Bool.and_eq_true] at h
    cases i with
    | zero =>
      simp only [List.getElem?_cons_zero, Option.some.injEq] at hi
      subst hi
      refine ⟨h.1.1, ?_⟩
      have h2 := h.1.2
      rw [Option.any_eq_true] at h2
      obtain ⟨r, h3, h4⟩ := h2
      exact ⟨r, h3, by simpa using h4⟩
    | succ i =>
      have := ih h.2 (i := i) (by simpa using hi)
      rwa [Nat.add_assoc, Nat.add_comm 1 i] at this

/-- Every named format has a descriptor of its CLASS that passes its checks (10_state.md R28, R30 to R32). -/
theorem catalog_get {cat : List Descriptor} (h : catalogOk cat = true) {f : Fmt} {r : RegistryEntry}
    (hr : registry f = some r) : ∃ d, cat[f.toNat]? = some d ∧ d.ok = true ∧ r.cls = d.cls := by
  simp only [catalogOk, Bool.and_eq_true, beq_iff_eq] at h
  have hlt := registry_lt hr
  have hd : cat[f.toNat]? = some (cat[f.toNat]'(by omega)) := List.getElem?_eq_getElem (by omega)
  obtain ⟨h1, r', h2, h3⟩ := entriesOk_get h.2 hd
  rw [Nat.zero_add, BitVec.ofNat_toNat, BitVec.setWidth_eq, hr] at h2
  cases h2
  exact ⟨_, hd, h1, h3⟩

theorem descriptor_ok {cat : List Descriptor} (h : catalogOk cat = true) {i : Nat} {d : Descriptor}
    (hd : cat[i]? = some d) : d.ok = true := by
  simp only [catalogOk, Bool.and_eq_true] at h
  exact (entriesOk_get h.2 hd).1

theorem registry_of_get {cat : List Descriptor} (h : catalogOk cat = true) {f : Fmt} {d : Descriptor}
    (hd : cat[f.toNat]? = some d) : ∃ r, registry f = some r ∧ r.cls = d.cls := by
  simp only [catalogOk, Bool.and_eq_true] at h
  obtain ⟨_, r, h1, h2⟩ := entriesOk_get h.2 hd
  rw [Nat.zero_add, BitVec.ofNat_toNat, BitVec.setWidth_eq] at h1
  exact ⟨r, h1, h2⟩

theorem withFormat_cases {s : State} {f : Fmt} {k : RegistryEntry → Descriptor → Result} {t : State}
    (h : withFormat s f k = .next t) :
    t = { s with status := .faulted .badFormat } ∨
    ∃ r d, registry f = some r ∧ s.cfg.catalog[f.toNat]? = some d ∧ k r d = .next t := by
  unfold withFormat at h
  split at h
  · cases h; exact .inl rfl
  · split at h
    · cases h
    · exact .inr ⟨_, _, ‹_›, ‹_›, h⟩

theorem withFormat_eq {s : State} {f : Fmt} {k : RegistryEntry → Descriptor → Result} {r : RegistryEntry}
    {d : Descriptor} (hr : registry f = some r) (hd : s.cfg.catalog[f.toNat]? = some d) :
    withFormat s f k = k r d := by
  simp only [withFormat, hr, hd]

/-! ### The writes of a command -/

/-- The bits a command may resolve: a command resolves at most one entry, of its own format. -/
def Resolved (f : Fmt) (s s1 : State) : Prop := s1 = s ∨ ∃ k, s1 = s.resolve f k

/-- All a command can do when it answers a next state: fault before it resolves or after, fault at an access, write
BFX_OUT, or write memory inside the regions its footprint writes. -/
inductive Ends (i : Instr) (s : State) : State → Prop
  | fault (s1 : State) (r : FaultReason) (h : Resolved i.fmt s s1) : Ends i s { s1 with status := .faulted r }
  | access (s1 : State) (r : FaultReason) (h : Resolved i.fmt s s1) :
    Ends i s { s1 with status := .faulted r
                       mem := forgetRegions s.bus s.freeIx
                         ((commandFootprint i s).reads ++ (commandFootprint i s).writes) s.mem
                       freeIx := s.freeIx + 1 }
  | bfx (s1 : State) (w : Word) (h : Resolved i.fmt s s1) (hf : commandFootprint i s = ⟨[], []⟩) :
    Ends i s (s1.putReg .bfxOut w)
  | memory (s1 : State) (m : Memory) (h : Resolved i.fmt s s1)
    (hw : Wrote s.bus (InRegions (commandFootprint i s).writes) s.mem m) : Ends i s { s1 with mem := m }

theorem ends_of_transfer {i : Instr} {s t : State} {k : Key} {checks : Except FaultReason Unit} {f : Footprint}
    {accesses : Memory → Except FaultReason Memory} (hf : commandFootprint i s = f)
    (hw : checks = .ok () → ∀ m, accesses s.mem = .ok m → Wrote s.bus (InRegions f.writes) s.mem m)
    (h : runTransfer (s.resolve i.fmt k) checks f accesses = .next t) : Ends i s t := by
  have hr : Resolved i.fmt s (s.resolve i.fmt k) := .inr ⟨k, rfl⟩
  rcases runTransfer_cases h with ⟨r, _, rfl⟩ | ⟨_, _, rfl⟩ | ⟨_, _, r, _, rfl⟩ | ⟨hc, _, m, hm, rfl⟩
  · exact .fault _ _ hr
  · exact .fault _ _ hr
  · subst hf
    have := Ends.access (i := i) _ r hr
    simpa only [resolve_bus, resolve_freeIx, resolve_mem] using this
  · rw [resolve_mem] at hm
    exact .memory _ _ hr (hf ▸ hw hc m hm)

theorem lineChecks_ok {d : Layout} {o : LineOperands} (h : d.lineChecks o = .ok ()) :
    d.rangeCheck o.left o.right = .ok () ∧ d.pointersOk o.packed o.planes = true := by
  unfold Layout.lineChecks at h
  split at h
  · cases h
  · split at h
    · exact ⟨‹_›, ‹_›⟩
    · cases h

theorem v210LineChecks_ok {o : LineOperands} (h : v210LineChecks o = .ok ()) :
    v210RangeCheck o.left o.right = .ok () ∧ v210PointersOk o.packed o.planes = true := by
  unfold v210LineChecks at h
  split at h
  · cases h
  · split at h
    · exact ⟨‹_›, ‹_›⟩
    · cases h

theorem planChecks_ok {p : FramePlan} {desc : Descriptor} (h : p.checks desc = .ok ()) :
    desc.rangeCheck 0 p.width = .ok () ∧
    (∀ y < max p.rows 1, desc.pointersOk (p.packedRow y) (p.planesRow y) = true) ∧ lumaPointersOk p.luma = true := by
  unfold FramePlan.checks at h
  split at h
  · cases h
  · split at h
    · rename_i h1 h2
      rw [Bool.and_eq_true] at h2
      refine ⟨h1, fun y hy => ?_, h2.2⟩
      have := h2.1
      unfold FramePlan.rowPointersOk at this
      exact List.all_eq_true.1 this y (List.mem_range.2 hy)
    · cases h

/-- The checks of a generic line pass on an admitted range with its pointers. -/
theorem lineChecks_eq {d : Layout} {o : LineOperands} (h : d.admits o.left o.right = true)
    (hp : d.pointersOk o.packed o.planes = true) : d.lineChecks o = .ok () := by
  simp [Layout.admits] at h
  simp [Layout.lineChecks, Layout.rangeCheck, h, hp]

/-- The checks of a v210 line pass on an admitted range with its pointers. -/
theorem v210LineChecks_eq {o : LineOperands} (h : v210Admits o.left o.right = true)
    (hp : v210PointersOk o.packed o.planes = true) : v210LineChecks o = .ok () := by
  simp [v210Admits] at h
  simp [v210LineChecks, v210RangeCheck, h, hp]

/-- The checks of a frame pass on an admitted width with every row's pointers. -/
theorem planChecks_eq {p : FramePlan} {desc : Descriptor} (h : desc.admits 0 p.width = true)
    (hp : ∀ y < max p.rows 1, desc.pointersOk (p.packedRow y) (p.planesRow y) = true)
    (hl : lumaPointersOk p.luma = true) : p.checks desc = .ok () := by
  have h1 : desc.rangeCheck 0 p.width = .ok () := by
    cases desc <;> simp [Descriptor.admits, Layout.admits, v210Admits] at h <;>
      simp [Descriptor.rangeCheck, Layout.rangeCheck, v210RangeCheck, h]
  have h2 : p.rowPointersOk desc = true := by
    unfold FramePlan.rowPointersOk
    exact List.all_eq_true.2 fun y hy => hp y (List.mem_range.1 hy)
  simp [FramePlan.checks, h1, h2, hl]

theorem frameRow_wrote_unpack {p : FramePlan} {desc : Descriptor} {b : Bus} {m m' : Memory}
    (hc : p.checks desc = .ok ()) (h : p.unpack b desc m = .ok m') :
    Wrote b (InRegions (p.unpackFootprint desc).writes) m m' := by
  obtain ⟨_, hp, _⟩ := planChecks_ok hc
  refine (run_wrote (W := fun y => desc.planeRegions (p.planesRow y) 0 p.width)
    (fun y hy m m' h => descUnpack_wrote (hp y (by omega)) h) h).mono ?_
  rintro x ⟨r, hr, hx⟩
  exact ⟨r, hr, hx⟩

theorem frameRow_wrote_pack {p : FramePlan} {desc : Descriptor} {b : Bus} {fill : Bool} {m m' : Memory}
    (h : p.pack b fill desc m = .ok m') : Wrote b (InRegions (p.packFootprint desc).writes) m m' := by
  refine (run_wrote (W := fun y => [desc.packedRegion (p.packedRow y) 0 p.width])
    (fun y _ m m' h => descPack_wrote h) h).mono ?_
  rintro x ⟨r, hr, hx⟩
  refine ⟨r, ?_, hx⟩
  unfold FramePlan.packFootprint FramePlan.packedRegions
  rwa [map_eq_flatMap]

theorem ends_bfx {i : Instr} {s t : State} {f : Fmt} {slot : BitVec 2} {g : Layout → Nat → Nat → Nat → Nat}
    (hf : commandFootprint i s = ⟨[], []⟩) (h : bfxCommand s f slot g = .next t) : Ends i s t := by
  rcases withFormat_cases h with rfl | ⟨r, d, _, _, h⟩
  · exact .fault _ _ (.inl rfl)
  · split at h
    · cases h; exact .fault _ _ (.inl rfl)
    · split at h
      · cases h; exact .fault _ _ (.inl rfl)
      · split at h
        · cases h; exact .fault _ _ (.inl rfl)
        · cases h; exact .bfx _ _ (.inl rfl) hf

theorem ends_select {i : Instr} {s t : State} {k : Key} (hf : commandFootprint i s = ⟨[], []⟩)
    (h : selectCommand s i.fmt k = .next t) : Ends i s t := by
  unfold selectCommand at h
  split at h
  · cases h; exact .fault _ _ (.inl rfl)
  · cases h; exact .bfx _ _ (.inr ⟨k, rfl⟩) hf

/-- All a command can do (10_state.md R26). -/
theorem exec_ends {i : Instr} {s t : State} (h : exec i s = .next t) : Ends i s t := by
  cases i with
  | extract f slot => exact ends_bfx (f := f) (slot := slot) rfl (by unfold exec execExtract at h; exact h)
  | align f slot => exact ends_bfx (f := f) (slot := slot) rfl (by unfold exec execAlign at h; exact h)
  | selectU f => exact ends_select (i := .selectU f) rfl h
  | selectP f fill => exact ends_select (i := .selectP f fill) rfl h
  | unpackLine f =>
    rcases withFormat_cases h with rfl | ⟨r, desc, _, hd, h⟩
    · exact .fault _ _ (.inl rfl)
    · split at h
      · cases h
      · rename_i d
        split at h
        · cases h; exact .fault _ _ (.inl rfl)
        · rename_i o ho
          refine ends_of_transfer (i := .unpackLine f) ?_ (fun hc m hm => ?_) h
          · simp only [commandFootprint, commandFootprint.genericOf, commandFootprint.lineOf, hd, ho]
          · exact unpackRow_wrote (lineChecks_ok hc).2 hm
  | packLine f fill =>
    rcases withFormat_cases h with rfl | ⟨r, desc, _, hd, h⟩
    · exact .fault _ _ (.inl rfl)
    · split at h
      · cases h
      · rename_i d
        split at h
        · cases h; exact .fault _ _ (.inl rfl)
        · rename_i o ho
          refine ends_of_transfer (i := .packLine f fill) ?_ (fun hc m hm => ?_) h
          · simp only [commandFootprint, commandFootprint.genericOf, commandFootprint.lineOf, hd, ho]
          · exact packRow_wrote hm
  | unpackLineV210 f =>
    rcases withFormat_cases h with rfl | ⟨r, desc, _, hd, h⟩
    · exact .fault _ _ (.inl rfl)
    · split at h
      · cases h
      · split at h
        · cases h; exact .fault _ _ (.inl rfl)
        · rename_i o ho
          refine ends_of_transfer (i := .unpackLineV210 f) ?_ (fun hc m hm => ?_) h
          · simp only [commandFootprint, commandFootprint.lineOf, ho]
          · exact v210UnpackRow_wrote hm
  | packLineV210 f fill =>
    rcases withFormat_cases h with rfl | ⟨r, desc, _, hd, h⟩
    · exact .fault _ _ (.inl rfl)
    · split at h
      · cases h
      · split at h
        · cases h; exact .fault _ _ (.inl rfl)
        · rename_i o ho
          refine ends_of_transfer (i := .packLineV210 f fill) ?_ (fun hc m hm => ?_) h
          · simp only [commandFootprint, commandFootprint.lineOf, ho]
          · exact v210PackRow_wrote hm
  | unpackFrame f skip one =>
    rcases withFormat_cases h with rfl | ⟨r, desc, hr, hd, h⟩
    · exact .fault _ _ (.inl rfl)
    · split at h
      · cases h; exact .fault _ _ (.inl rfl)
      · rename_i o ho
        refine ends_of_transfer (i := .unpackFrame f skip one) ?_ (fun hc m hm => ?_) h
        · simp only [commandFootprint, commandFootprint.frameOf, hr, hd, ho]
        · exact frameRow_wrote_unpack hc hm
  | packFrame f skip fill =>
    rcases withFormat_cases h with rfl | ⟨r, desc, hr, hd, h⟩
    · exact .fault _ _ (.inl rfl)
    · split at h
      · cases h; exact .fault _ _ (.inl rfl)
      · rename_i o ho
        refine ends_of_transfer (i := .packFrame f skip fill) ?_ (fun hc m hm => ?_) h
        · simp only [commandFootprint, commandFootprint.frameOf, hr, hd, ho]
        · exact frameRow_wrote_pack hm

/-! ### A frame that runs to its end -/

theorem planReady {p : FramePlan} {desc : Descriptor} {b : Bus} {reads writes : List Region}
    (hp : ∀ y < max p.rows 1, desc.pointersOk (p.packedRow y) (p.planesRow y) = true)
    (hrdy : ∀ r, r ∈ reads ∨ r ∈ writes → b.ready r = true)
    (h1 : ∀ r, r ∈ p.packedRegions desc ∨ r ∈ p.planeRegions desc → r ∈ reads ∨ r ∈ writes)
    (h2 : ∀ r, r ∈ p.lumaReads ∨ r ∈ p.lumaWrites → r ∈ reads ∨ r ∈ writes)
    (hal : ∀ y < p.rows, 0 < p.width → desc.alignedRow b (p.packedRow y) (p.planesRow y) = true) : PlanReady p desc b := by
  refine ⟨fun y hy => ⟨hp y (by omega), ?_, fun r hr => ?_, hal y hy⟩, fun l hl y hy => ⟨?_, ?_⟩⟩
  · exact hrdy _ (h1 _ (.inl (List.mem_map.2 ⟨y, List.mem_range.2 hy, rfl⟩)))
  · exact hrdy _ (h1 _ (.inr (List.mem_flatMap.2 ⟨y, List.mem_range.2 hy, hr⟩)))
  · refine hrdy _ (h2 _ (.inl ?_))
    unfold FramePlan.lumaReads
    rw [hl]
    exact List.mem_map.2 ⟨y, List.mem_range.2 hy, rfl⟩
  · refine hrdy _ (h2 _ (.inr ?_))
    unfold FramePlan.lumaWrites
    rw [hl]
    exact List.mem_map.2 ⟨y, List.mem_range.2 hy, rfl⟩

section
variable {p : FramePlan} {desc : Descriptor} {b : Bus}

theorem unpackFootprint_writes (p : FramePlan) (desc : Descriptor) : (p.unpackFootprint desc).writes
    = p.lumaWrites ++ (List.range p.rows).flatMap fun y => desc.planeRegions (p.planesRow y) 0 p.width := rfl

theorem packFootprint_writes (p : FramePlan) (desc : Descriptor) : (p.packFootprint desc).writes
    = p.lumaWrites ++ (List.range p.rows).flatMap fun y => [desc.packedRegion (p.packedRow y) 0 p.width] := by
  unfold FramePlan.packFootprint FramePlan.packedRegions
  rw [map_eq_flatMap]

/-- The accesses of UNPACK_FRAME: they succeed, and leave the luma plane and every row's planes (44_frame.md R241). -/
theorem planUnpack_result {m : Memory} (hok : desc.ok = true) (hm : Memory.wf m = true)
    (hc : p.checks desc = .ok ()) (hno : (p.unpackFootprint desc).noOverlap = true)
    (hrdy : (p.unpackFootprint desc).ready b = true)
    (hal : ∀ y < p.rows, 0 < p.width → desc.alignedRow b (p.packedRow y) (p.planesRow y) = true) :
    ∃ m', p.unpack b desc m = .ok m' ∧ LumaCopied p.luma m m' ∧
      (∀ y < p.rows, desc.Unpacked b.hostOrder m m' (p.packedRow y) (p.planesRow y) 0 p.width) ∧
      UnwrittenBytesKept (p.unpackFootprint desc) m m' := by
  obtain ⟨_, hp, _⟩ := planChecks_ok hc
  rw [ready_iff] at hrdy
  rw [noOverlap_iff] at hno
  obtain ⟨hw, hwr⟩ := hno
  have hpr : PlanReady p desc b := planReady (reads := (p.unpackFootprint desc).reads)
    (writes := (p.unpackFootprint desc).writes) hp
    (fun r hr => hr.elim (hrdy.1 r) (hrdy.2 r))
    (fun r hr => hr.elim (fun h => .inl (List.mem_append_right _ h)) fun h => .inr (List.mem_append_right _ h))
    (fun r hr => hr.elim (fun h => .inl (List.mem_append_left _ h)) fun h => .inr (List.mem_append_left _ h)) hal
  obtain ⟨m', hrun⟩ := run_total (pl := p) (b := b)
    (row := fun y m => desc.unpackRow b (p.packedRow y) (p.planesRow y) 0 p.width m)
    (copyLuma_total hpr.luma) (fun y hy m => descUnpack_total (hpr.rows y hy) m) m
  have hwrote := frameRow_wrote_unpack (b := b) hc hrun
  refine ⟨m', hrun, ?_, ?_, hwrote.unwritten hm fun x hx => hx⟩
  · rw [unpackFootprint_writes, allApart_append] at hw
    refine run_luma (W := fun y => desc.planeRegions (p.planesRow y) 0 p.width)
      (fun y hy m m' h => descUnpack_wrote (hp y (by omega)) h) hm hpr.luma hw.1
      (fun w h1 r h2 => hwr w (List.mem_append_left _ h1) r (List.mem_append_left _ h2))
      (fun w h1 j hj q hq => hw.2.2 w h1 q (List.mem_flatMap.2 ⟨j, List.mem_range.2 hj, hq⟩)) hrun
  · intro y hy
    obtain ⟨m1, m2, w1, hm1, hm2, hrow, w2⟩ := run_rows (W := fun y => desc.planeRegions (p.planesRow y) 0 p.width)
      (fun y hy m m' h => descUnpack_wrote (hp y (by omega)) h) hm hrun hy
    rw [unpackFootprint_writes, allApart_append] at hw
    obtain ⟨hown, hother⟩ := allApart_flatMap hw.2.1 hy
    have hmem : ∀ j < p.rows, ∀ r ∈ desc.planeRegions (p.planesRow j) 0 p.width,
        r ∈ (p.unpackFootprint desc).writes := fun j hj r hr =>
      List.mem_append_right _ (List.mem_flatMap.2 ⟨j, List.mem_range.2 hj, hr⟩)
    have hsrc : desc.packedRegion (p.packedRow y) 0 p.width ∈ (p.unpackFootprint desc).reads :=
      List.mem_append_right _ (List.mem_map.2 ⟨y, List.mem_range.2 hy, rfl⟩)
    have hv := descUnpack_value hok hm1 (hp y (by omega)) hown (fun r hr => hwr r (hmem y hy r hr) _ hsrc) hrow
    refine unpacked_congr hok (hpr.rows y hy) (w1.agree hm ?_) (fun r hr => ?_) hv
    · rintro x hx (⟨r, hr, hx'⟩ | ⟨j, hj, _, r, hr, hx'⟩)
      · exact apart_not_both (hwr r (List.mem_append_left _ hr) _ hsrc) hx' hx
      · exact apart_not_both (hwr r (hmem j hj r hr) _ hsrc) hx' hx
    · intro k hk
      refine w2.outside hm2 k ?_
      rintro ⟨j, hj, hne, q, hq, hx'⟩
      exact apart_not_both (hother j hj hne r hr q hq) hk hx'

/-- The accesses of PACK_FRAME: they succeed, and leave the luma plane and every row's packed units (44_frame.md
R243). -/
theorem planPack_result {fill : Bool} {m : Memory} (hok : desc.ok = true) (hm : Memory.wf m = true)
    (hc : p.checks desc = .ok ()) (hno : (p.packFootprint desc).noOverlap = true)
    (hrdy : (p.packFootprint desc).ready b = true)
    (hal : ∀ y < p.rows, 0 < p.width → desc.alignedRow b (p.packedRow y) (p.planesRow y) = true) :
    ∃ m', p.pack b fill desc m = .ok m' ∧ LumaCopied p.luma m m' ∧
      (∀ y < p.rows, desc.Packed b.hostOrder fill m m' (p.packedRow y) (p.planesRow y) 0 p.width) ∧
      UnwrittenBytesKept (p.packFootprint desc) m m' := by
  obtain ⟨_, hp, _⟩ := planChecks_ok hc
  rw [ready_iff] at hrdy
  rw [noOverlap_iff] at hno
  obtain ⟨hw, hwr⟩ := hno
  have hpr : PlanReady p desc b := planReady (reads := (p.packFootprint desc).reads)
    (writes := (p.packFootprint desc).writes) hp
    (fun r hr => hr.elim (hrdy.1 r) (hrdy.2 r))
    (fun r hr => hr.elim (fun h => .inr (List.mem_append_right _ h)) fun h => .inl (List.mem_append_right _ h))
    (fun r hr => hr.elim (fun h => .inl (List.mem_append_left _ h)) fun h => .inr (List.mem_append_left _ h)) hal
  obtain ⟨m', hrun⟩ := run_total (pl := p) (b := b)
    (row := fun y m => desc.packRow b fill (p.planesRow y) (p.packedRow y) 0 p.width m)
    (copyLuma_total hpr.luma) (fun y hy m => descPack_total (hpr.rows y hy) fill m) m
  have hrow : ∀ y < p.rows, ∀ m m', desc.packRow b fill (p.planesRow y) (p.packedRow y) 0 p.width m = .ok m' →
      Wrote b (InRegions [desc.packedRegion (p.packedRow y) 0 p.width]) m m' := fun y _ m m' h => descPack_wrote h
  refine ⟨m', hrun, ?_, ?_, (frameRow_wrote_pack hrun).unwritten hm fun x hx => hx⟩
  · rw [packFootprint_writes, allApart_append] at hw
    refine run_luma hrow hm hpr.luma hw.1
      (fun w h1 r h2 => hwr w (List.mem_append_left _ h1) r (List.mem_append_left _ h2))
      (fun w h1 j hj q hq => hw.2.2 w h1 q (List.mem_flatMap.2 ⟨j, List.mem_range.2 hj, hq⟩)) hrun
  · intro y hy
    obtain ⟨m1, m2, w1, hm1, hm2, hr, w2⟩ := run_rows hrow hm hrun hy
    rw [packFootprint_writes, allApart_append] at hw
    obtain ⟨_, hother⟩ := allApart_flatMap hw.2.1 hy
    have hmem : ∀ j < p.rows, desc.packedRegion (p.packedRow j) 0 p.width ∈ (p.packFootprint desc).writes :=
      fun j hj => by
        rw [packFootprint_writes]
        exact List.mem_append_right _ (List.mem_flatMap.2 ⟨j, List.mem_range.2 hj, by simp⟩)
    have hsrc : ∀ r ∈ desc.planeRegions (p.planesRow y) 0 p.width, r ∈ (p.packFootprint desc).reads := fun r hr =>
      List.mem_append_right _ (List.mem_flatMap.2 ⟨y, List.mem_range.2 hy, hr⟩)
    have hv := descPack_value hok hm1 (hp y (by omega)) (fun r hr => hwr _ (hmem y hy) r (hsrc r hr)) hr
    refine packed_congr hok (hpr.rows y hy) (fun r hr => w1.agree hm ?_) ?_ hv
    · rintro x hx (⟨q, hq, hx'⟩ | ⟨j, hj, _, q, hq, hx'⟩)
      · exact apart_not_both (hwr q (List.mem_append_left _ hq) _ (hsrc r hr)) hx' hx
      · rw [List.mem_singleton] at hq
        subst hq
        exact apart_not_both (hwr _ (hmem j hj) _ (hsrc r hr)) hx' hx
    · intro k hk
      refine w2.outside hm2 k ?_
      rintro ⟨j, hj, hne, q, hq, hx'⟩
      exact apart_not_both (hother j hj hne _ (by simp) q hq) hk hx'

end

end Sys2Proof.Machine
end

