-- ==== Sys2Proof/Laws/Accesses.lean ====
section
/-! SUPPORT. The end of a run of accesses is decided by the list of them alone: it fails with the reason of the first
one that does not pass its checks, and else it succeeds (60_exceptions.md R272 step 8). -/

namespace Sys2Proof.Machine

/-- A run ends as its list of accesses says. -/
def Runs {α : Type} (b : Bus) (l : List Access) (x : Except FaultReason α) : Prop :=
  match b.firstFault l with
  | some r => x = .error r
  | none => ∃ a, x = .ok a

theorem firstFault_append (b : Bus) (l l' : List Access) :
    b.firstFault (l ++ l') = (b.firstFault l).or (b.firstFault l') := by
  induction l with
  | nil => rfl
  | cons x rest ih =>
    simp only [List.cons_append, Bus.firstFault]
    split
    · rfl
    · exact ih

namespace Runs
variable {α β : Type} {b : Bus}

theorem done (a : α) : Runs b [] (.ok a : Except FaultReason α) := ⟨a, rfl⟩

/-- One run after another. -/
theorem bind {l l' : List Access} {x : Except FaultReason α} {f : α → Except FaultReason β} (h : Runs b l x)
    (h' : ∀ a, x = .ok a → Runs b l' (f a)) : Runs b (l ++ l') (x >>= f) := by
  unfold Runs at h ⊢
  rw [firstFault_append]
  cases hl : b.firstFault l with
  | some r => rw [hl] at h; subst h; rfl
  | none =>
    rw [hl] at h
    obtain ⟨a, rfl⟩ := h
    exact h' a rfl

/-- A step that accesses nothing after a run. -/
theorem map {l : List Access} {x : Except FaultReason α} {f : α → β} (h : Runs b l x) :
    Runs b l (x >>= fun a => .ok (f a)) := by
  have := h.bind (l' := []) (f := fun a => Except.ok (f a)) fun a _ => done _
  rwa [List.append_nil] at this

theorem single (a : Int) (n al : Nat) : Runs b [⟨a, n, al⟩] (b.check a n al) := by
  unfold Runs Bus.firstFault
  cases h : b.check a n al with
  | error r => rfl
  | ok u => exact ⟨u, rfl⟩

theorem memRead (m : Memory) (a : Int) (n al : Nat) : Runs b [⟨a, n, al⟩] (b.memRead m a n al) := by
  have : b.memRead m a n al = b.check a n al >>= fun _ => .ok (m.readBytes a.toNat n) := by
    unfold Bus.memRead
    cases b.check a n al <;> rfl
  rw [this]
  exact (single a n al).map

theorem memWrite (m : Memory) (a : Int) (bs : List Byte) (al : Nat) :
    Runs b [⟨a, bs.length, al⟩] (b.memWrite m a bs al) := by
  have : b.memWrite m a bs al = b.check a bs.length al >>= fun _ => .ok (m.writeBytes a.toNat bs) := by
    unfold Bus.memWrite
    cases b.check a bs.length al <;> rfl
  rw [this]
  exact (single a _ al).map

theorem loadInt (m : Memory) (a : Int) (n al : Nat) (o : ByteOrder) :
    Runs b [⟨a, n, al⟩] (b.loadInt m a n al o) := by
  have : b.loadInt m a n al o = b.memRead m a n al >>= fun bs => .ok (natOfBytes o bs) := by
    unfold Bus.loadInt
    cases b.memRead m a n al <;> rfl
  rw [this]
  exact (memRead m a n al).map

theorem storeInt (m : Memory) (a : Int) (n al : Nat) (o : ByteOrder) (v : Nat) :
    Runs b [⟨a, n, al⟩] (b.storeInt m a n al o v) := by
  have := memWrite (b := b) m a (bytesOfNat o n v) al
  rwa [length_bytesOfNat] at this

end Runs

/-! ### GENERIC rows -/

/-- The cursors of a unit after the slots `pre`. -/
def CursorsAt (d : Layout) (p : Planes) (left u : Nat) (on : Bool) (pre : List Slot) (cur : Planes) : Prop :=
  ∀ c, Takes on c → cur.get c = p.get c + ((d.elem c left + (u * d.count c + countSlots c pre)) * d.eb : Nat)

theorem countSlots_append (c : Channel) (l l' : List Slot) :
    countSlots c (l ++ l') = countSlots c l + countSlots c l' := by
  induction l with
  | nil => simp [countSlots]
  | cons s rest ih => simp only [List.cons_append, countSlots, ih]; omega

section
variable {d : Layout} {b : Bus} {p cur : Planes} {left u : Nat} {on : Bool} {pre : List Slot}

/-- The accesses to the elements of the slots `sl`, the first of which is slot `n`. -/
def slotAccesses (d : Layout) (p : Planes) (left u : Nat) (sl : List Slot) (n : Nat) : List Access :=
  (sl.zipIdx n).filterMap fun s => match s.1 with
    | .pad => none
    | .field c _ _ => if p.get c = 0 then none else some ⟨d.elemAddr p left u s.2 c, d.eb, d.eb⟩

theorem cursorsAt_skip {s : Slot} (h : CursorsAt d p left u on pre cur)
    (hs : ∀ c sh dp, s = .field c sh dp → ¬ Takes on c) : CursorsAt d p left u on (pre ++ [s]) cur := by
  intro c hc
  rw [h c hc, countSlots_append]
  cases s with
  | pad => simp [countSlots, Slot.channel?]
  | field c' sh dp =>
    have hne : ¬ c = c' := fun e => hs c' sh dp rfl (e ▸ hc)
    rw [countSlots_field, if_neg hne]
    simp [countSlots]

theorem cursorsAt_take {c : Channel} {sh dp : Nat} (h : CursorsAt d p left u on pre cur) :
    CursorsAt d p left u on (pre ++ [.field c sh dp]) (cur.advance c d.eb) := by
  intro c' hc'
  rw [get_advance, h c' hc', countSlots_append, countSlots_field]
  by_cases e : c' = c
  · rw [if_pos e, if_pos e]
    simp only [countSlots]
    push_cast
    ring
  · rw [if_neg e, if_neg e]
    simp [countSlots]

theorem elemAddr_eq {c : Channel} {sl : List Slot} (hsl : d.slots.toList = pre ++ sl)
    (h : CursorsAt d p left u on pre cur) (hc : Takes on c) : d.elemAddr p left u pre.length c = cur.get c := by
  unfold Layout.elemAddr
  rw [h c hc, hsl, List.take_left]

/-- The stores of a unit's elements. -/
theorem unpackSlots_runs {w : Nat} {sl : List Slot} (hsl : d.slots.toList = pre ++ sl)
    (ht : ∀ c sh dp, Slot.field c sh dp ∈ sl → (p.get c = 0 ↔ ¬ Takes on c))
    (h : CursorsAt d p left u on pre cur) (m : Memory) :
    Runs b (slotAccesses d p left u sl pre.length) (unpackSlots b d on w sl cur m) ∧
    ∀ r, unpackSlots b d on w sl cur m = .ok r → CursorsAt d p left u on (pre ++ sl) r.1 := by
  induction sl generalizing pre cur m with
  | nil => exact ⟨Runs.done _, fun r hr => by cases hr; simpa using h⟩
  | cons s rest ih =>
    have hsl' : d.slots.toList = (pre ++ [s]) ++ rest := by simpa using hsl
    have ht' : ∀ c sh dp, Slot.field c sh dp ∈ rest → (p.get c = 0 ↔ ¬ Takes on c) :=
      fun c sh dp hm => ht c sh dp (List.mem_cons_of_mem _ hm)
    have next := fun cur h m => ih (pre := pre ++ [s]) (cur := cur) hsl' ht' h m
    simp only [List.length_append, List.length_singleton, List.append_assoc, List.singleton_append] at next
    cases s with
    | pad =>
      have := next cur (cursorsAt_skip h (by intro _ _ _ e; cases e)) m
      unfold slotAccesses at this ⊢
      simpa only [List.zipIdx_cons, List.filterMap_cons, unpackSlots] using this
    | field c sh dp =>
      have hz := ht c sh dp List.mem_cons_self
      by_cases hc : Takes on c
      · have hn : ¬ p.get c = 0 := fun e => hz.1 e hc
        have ha : slotAccesses d p left u (.field c sh dp :: rest) pre.length
            = ⟨cur.get c, d.eb, d.eb⟩ :: slotAccesses d p left u rest (pre.length + 1) := by
          unfold slotAccesses
          simp only [List.zipIdx_cons, List.filterMap_cons, if_neg hn, elemAddr_eq hsl h hc]
        have hu : unpackSlots b d on w (.field c sh dp :: rest) cur m
            = b.storePlanar m (cur.get c) d.eb (extractField w sh dp) >>= fun m' =>
              unpackSlots b d on w rest (cur.advance c d.eb) m' := by
          rw [unpackSlots, if_neg hc]
          cases b.storePlanar m (cur.get c) d.eb (extractField w sh dp) <;> rfl
        rw [ha, hu]
        refine ⟨(Runs.storeInt m _ _ _ _ _).bind (l := [_]) fun m' _ => (next _ (cursorsAt_take h) m').1, fun r hr => ?_⟩
        cases hm : b.storePlanar m (cur.get c) d.eb (extractField w sh dp) with
        | error e => rw [hm] at hr; cases hr
        | ok m' => rw [hm] at hr; exact (next _ (cursorsAt_take h) m').2 r hr
      · have hn : p.get c = 0 := hz.2 hc
        have := next cur (cursorsAt_skip h (by intro _ _ _ e; cases e; exact hc)) m
        have hc' : c = .a ∧ on = false := not_not.1 hc
        unfold slotAccesses at this ⊢
        simpa only [List.zipIdx_cons, List.filterMap_cons, if_pos hn, unpackSlots, if_pos hc'] using this

/-- The loads of a unit's elements. -/
theorem packSlots_runs {sl : List Slot} (hsl : d.slots.toList = pre ++ sl)
    (ht : ∀ c sh dp, Slot.field c sh dp ∈ sl → (p.get c = 0 ↔ ¬ Takes on c))
    (h : CursorsAt d p left u on pre cur) (m : Memory) (w : Nat) :
    Runs b (slotAccesses d p left u sl pre.length) (packSlots b d on m sl cur w) ∧
    ∀ r, packSlots b d on m sl cur w = .ok r → CursorsAt d p left u on (pre ++ sl) r.1 := by
  induction sl generalizing pre cur w with
  | nil => exact ⟨Runs.done _, fun r hr => by cases hr; simpa using h⟩
  | cons s rest ih =>
    have hsl' : d.slots.toList = (pre ++ [s]) ++ rest := by simpa using hsl
    have ht' : ∀ c sh dp, Slot.field c sh dp ∈ rest → (p.get c = 0 ↔ ¬ Takes on c) :=
      fun c sh dp hm => ht c sh dp (List.mem_cons_of_mem _ hm)
    have next := fun cur h w => ih (pre := pre ++ [s]) (cur := cur) hsl' ht' h w
    simp only [List.length_append, List.length_singleton, List.append_assoc, List.singleton_append] at next
    cases s with
    | pad =>
      have := next cur (cursorsAt_skip h (by intro _ _ _ e; cases e)) w
      unfold slotAccesses at this ⊢
      simpa only [List.zipIdx_cons, List.filterMap_cons, packSlots] using this
    | field c sh dp =>
      have hz := ht c sh dp List.mem_cons_self
      by_cases hc : Takes on c
      · have hn : ¬ p.get c = 0 := fun e => hz.1 e hc
        have ha : slotAccesses d p left u (.field c sh dp :: rest) pre.length
            = ⟨cur.get c, d.eb, d.eb⟩ :: slotAccesses d p left u rest (pre.length + 1) := by
          unfold slotAccesses
          simp only [List.zipIdx_cons, List.filterMap_cons, if_neg hn, elemAddr_eq hsl h hc]
        have hu : packSlots b d on m (.field c sh dp :: rest) cur w
            = b.loadPlanar m (cur.get c) d.eb >>= fun v =>
              packSlots b d on m rest (cur.advance c d.eb) (w ||| alignField v sh dp) := by
          rw [packSlots, if_neg hc]
          cases b.loadPlanar m (cur.get c) d.eb <;> rfl
        rw [ha, hu]
        refine ⟨(Runs.loadInt m _ _ _ _).bind (l := [_]) fun v _ => (next _ (cursorsAt_take h) _).1, fun r hr => ?_⟩
        cases hm : b.loadPlanar m (cur.get c) d.eb with
        | error e => rw [hm] at hr; cases hr
        | ok v => rw [hm] at hr; exact (next _ (cursorsAt_take h) _).2 r hr
      · have hn : p.get c = 0 := hz.2 hc
        have := next cur (cursorsAt_skip h (by intro _ _ _ e; cases e; exact hc)) w
        have hc' : c = .a ∧ on = false := not_not.1 hc
        unfold slotAccesses at this ⊢
        simpa only [List.zipIdx_cons, List.filterMap_cons, if_pos hn, packSlots, if_pos hc'] using this

theorem cursorsAt_next (h : CursorsAt d p left u on d.slots.toList cur) : CursorsAt d p left (u + 1) on [] cur := by
  intro c hc
  rw [h c hc]
  have : u * d.count c + countSlots c d.slots.toList = (u + 1) * d.count c + countSlots c [] := by
    simp only [countSlots, Layout.count]
    ring
  rw [this]

/-- Once the null checks have passed, a slot's channel has no pointer just when it is an absent alpha. -/
theorem absent_iff {packed : Int} (hp : d.pointersOk packed p = true) (c : Channel) (sh dp : Nat)
    (hm : Slot.field c sh dp ∈ d.slots.toList) : p.get c = 0 ↔ ¬ Takes (d.alphaOn p) c := by
  obtain ⟨k, hk, he⟩ := List.mem_iff_getElem.1 hm
  have hk4 : k < 4 := by simpa using hk
  have hc := count_pos hk4 (by rw [← slot_toList hk4]; exact he)
  refine ⟨fun h0 ht => ?_, fun ht => not_not.1 fun h0 => ht (takes_of_pointer hc h0)⟩
  have := active_of_takes hp ht hc
  simp [Layout.active, h0] at this

end

section
variable {d : Layout} {b : Bus} {packed : Int} {p : Planes} {left right : Nat}

theorem unitAddr_next (d : Layout) (packed : Int) (left u : Nat) :
    d.unitAddr packed left u + d.pkb = d.unitAddr packed left (u + 1) := by
  unfold Layout.unitAddr
  push_cast
  ring

theorem cursorsAt_start (on : Bool) : CursorsAt d p left 0 on [] (d.cursors p left) := by
  intro c _
  rw [cursors_get]
  simp [countSlots]

theorem unpackUnits_runs {on : Bool} (ht : ∀ c sh dp, Slot.field c sh dp ∈ d.slots.toList → (p.get c = 0 ↔ ¬ Takes on c))
    (n u : Nat) (cur : Planes) (h : CursorsAt d p left u on [] cur) (m : Memory) :
    Runs b ((List.range' u n).flatMap fun u => d.unitAccess packed left u :: d.elemAccesses p left u)
      (unpackUnits b d on n (d.unitAddr packed left u) cur m) := by
  induction n generalizing u cur m with
  | zero => exact Runs.done m
  | succ n ih =>
    have hu : unpackUnits b d on (n + 1) (d.unitAddr packed left u) cur m
        = b.loadUnit m (d.unitAddr packed left u) d >>= fun w => unpackSlots b d on w d.slots.toList cur m >>= fun r =>
          unpackUnits b d on n (d.unitAddr packed left u + d.pkb) r.1 r.2 := by
      rw [unpackUnits]
      cases b.loadUnit m (d.unitAddr packed left u) d with
      | error e => rfl
      | ok w =>
        change _ = unpackSlots b d on w d.slots.toList cur m >>= _
        simp only
        cases unpackSlots b d on w d.slots.toList cur m <;> rfl
    rw [hu, unitAddr_next, List.range'_succ, List.flatMap_cons]
    refine (Runs.loadInt m _ _ _ _).bind (l := [d.unitAccess packed left u]) fun w _ => ?_
    obtain ⟨h1, h2⟩ := unpackSlots_runs (b := b) (w := w) (pre := []) (sl := d.slots.toList) rfl ht h m
    exact h1.bind fun r hr => ih (u + 1) r.1 (cursorsAt_next (h2 r hr)) r.2

theorem packUnits_runs {fill on : Bool}
    (ht : ∀ c sh dp, Slot.field c sh dp ∈ d.slots.toList → (p.get c = 0 ↔ ¬ Takes on c))
    (n u : Nat) (cur : Planes) (h : CursorsAt d p left u on [] cur) (m : Memory) :
    Runs b ((List.range' u n).flatMap fun u => d.elemAccesses p left u ++ [d.unitAccess packed left u])
      (packUnits b d fill on n cur (d.unitAddr packed left u) m) := by
  induction n generalizing u cur m with
  | zero => exact Runs.done m
  | succ n ih =>
    have hu : packUnits b d fill on (n + 1) cur (d.unitAddr packed left u) m
        = packSlots b d on m d.slots.toList cur (d.seed fill on) >>= fun r =>
          b.storeUnit m (d.unitAddr packed left u) d r.2 >>= fun m' =>
          packUnits b d fill on n r.1 (d.unitAddr packed left u + d.pkb) m' := by
      rw [packUnits]
      cases packSlots b d on m d.slots.toList cur (d.seed fill on) with
      | error e => rfl
      | ok r =>
        change _ = b.storeUnit m (d.unitAddr packed left u) d r.2 >>= _
        simp only
        cases b.storeUnit m (d.unitAddr packed left u) d r.2 <;> rfl
    rw [hu, unitAddr_next, List.range'_succ, List.flatMap_cons, List.append_assoc]
    obtain ⟨h1, h2⟩ := packSlots_runs (b := b) (pre := []) (sl := d.slots.toList) rfl ht h m (d.seed fill on)
    exact h1.bind fun r hr => (Runs.storeInt m _ _ _ _ _).bind (l := [d.unitAccess packed left u]) fun m' _ =>
      ih (u + 1) r.1 (cursorsAt_next (h2 r hr)) m'

theorem packedCursor_eq (d : Layout) (packed : Int) (left : Nat) :
    d.packedCursor packed left = d.unitAddr packed left 0 := rfl

/-- UnpackRow ends as the list of its accesses says. -/
theorem unpackRow_runs (hp : d.pointersOk packed p = true) (m : Memory) :
    Runs b (d.unpackAccesses packed p left right) (d.unpackRow b packed p left right m) := by
  unfold Layout.unpackAccesses Layout.unpackRow
  rw [List.range_eq_range', packedCursor_eq]
  exact unpackUnits_runs (absent_iff hp) _ 0 _ (cursorsAt_start _) m

/-- PackRow ends as the list of its accesses says. -/
theorem packRow_runs {fill : Bool} (hp : d.pointersOk packed p = true) (m : Memory) :
    Runs b (d.packAccesses packed p left right) (d.packRow b fill p packed left right m) := by
  unfold Layout.packAccesses Layout.packRow
  rw [List.range_eq_range', packedCursor_eq]
  exact packUnits_runs (absent_iff hp) _ 0 _ (cursorsAt_start _) m

/-! ### v210 rows -/

theorem storeSeq_runs (n : Nat) (o : ByteOrder) (a : Int) (vs : List Nat) (m : Memory) :
    Runs b ((List.range vs.length).map fun i => ⟨a + (n * i : Nat), n, n⟩) (storeSeq b n o a vs m) := by
  induction vs generalizing a m with
  | nil => exact Runs.done m
  | cons v rest ih =>
    have hu : storeSeq b n o a (v :: rest) m = b.storeInt m a n n o v >>= storeSeq b n o (a + n) rest := by
      rw [storeSeq]
      cases b.storeInt m a n n o v <;> rfl
    rw [hu, List.length_cons, List.range_succ_eq_map, List.map_cons, List.map_map]
    have e : ((fun i => (⟨a + (n * i : Nat), n, n⟩ : Access)) ∘ Nat.succ)
        = fun i => (⟨a + n + (n * i : Nat), n, n⟩ : Access) := by
      funext i
      simp only [Function.comp, Access.mk.injEq, and_true, Nat.succ_eq_add_one]
      push_cast
      ring
    rw [e]
    have h1 := Runs.storeInt (b := b) m a n n o v
    rw [show a = a + (n * 0 : Nat) by simp] at h1
    refine Runs.bind (l := [_]) ?_ fun m' _ => ih (a + n) m'
    simpa using h1

/-- The cursors of group `g`. -/
def groupStart (p : Planes) (left g : Nat) : Planes :=
  ⟨v210Elem p left g .y 0, v210Elem p left g .u 0, v210Elem p left g .v 0, p.a⟩

theorem nextGroup_start (p : Planes) (left g : Nat) : nextGroup (groupStart p left g) = groupStart p left (g + 1) := by
  simp only [nextGroup, groupStart, v210Elem, Planes.mk.injEq, and_true]
  push_cast
  refine ⟨?_, ?_, ?_⟩ <;> ring

/-- Where group `g` starts. -/
def groupAddr (packed : Int) (left g : Nat) : Int := packed + ((left / 6 + g) * 16 : Nat)

theorem groupAddr_next (packed : Int) (left g : Nat) : groupAddr packed left g + 16 = groupAddr packed left (g + 1) := by
  unfold groupAddr
  push_cast
  ring

theorem wordAccesses_eq (packed : Int) (left g : Nat) : v210WordAccesses packed left g
    = (List.range 4).map fun i => ⟨groupAddr packed left g + (4 * i : Nat), 4, 4⟩ := by
  unfold v210WordAccesses groupAddr
  refine List.map_congr_left fun i _ => ?_
  simp only [Access.mk.injEq, and_true]
  push_cast
  ring

theorem sampleAccesses_eq (p : Planes) (left g : Nat) : v210SampleAccesses p left g
    = ((List.range 6).map fun k => ⟨(groupStart p left g).y + (2 * k : Nat), 2, 2⟩)
      ++ ((List.range 3).map fun k => ⟨(groupStart p left g).u + (2 * k : Nat), 2, 2⟩)
      ++ ((List.range 3).map fun k => ⟨(groupStart p left g).v + (2 * k : Nat), 2, 2⟩) := by
  unfold v210SampleAccesses groupStart v210Elem
  refine congrArg₂ _ (congrArg₂ _ ?_ ?_) ?_ <;> refine List.map_congr_left fun k _ => ?_ <;>
    simp only [Access.mk.injEq, and_true] <;> push_cast <;> ring

theorem loadGroup_runs (a : Int) (tag : ByteOrder) (m : Memory) :
    Runs b ((List.range 4).map fun i => ⟨a + (4 * i : Nat), 4, 4⟩) (loadGroup b m a tag) := by
  have h := fun a => Runs.loadInt (b := b) m a 4 4 tag
  have := (h a).bind fun w0 _ => (h (a + 4)).bind fun w1 _ => (h (a + 8)).bind fun w2 _ =>
    (h (a + 12)).map (f := fun w3 => GroupWords.mk w0 w1 w2 w3)
  have e : ((List.range 4).map fun i => (⟨a + (4 * i : Nat), 4, 4⟩ : Access))
      = [⟨a, 4, 4⟩] ++ ([⟨a + 4, 4, 4⟩] ++ ([⟨a + 8, 4, 4⟩] ++ [⟨a + 12, 4, 4⟩])) := by
    simp [List.range_succ]
  rw [e]
  exact this

theorem storeGroup_runs (cur : Planes) (g : GroupSamples) (m : Memory) :
    Runs b (((List.range 6).map fun k => ⟨cur.y + (2 * k : Nat), 2, 2⟩)
      ++ ((List.range 3).map fun k => ⟨cur.u + (2 * k : Nat), 2, 2⟩)
      ++ ((List.range 3).map fun k => ⟨cur.v + (2 * k : Nat), 2, 2⟩)) (storeGroup b cur g m) := by
  have hu : storeGroup b cur g m = storeSeq b 2 b.hostOrder cur.y g.ys m >>= fun m1 =>
      storeSeq b 2 b.hostOrder cur.u g.us m1 >>= fun m2 => storeSeq b 2 b.hostOrder cur.v g.vs m2 := by
    unfold storeGroup
    cases storeSeq b 2 b.hostOrder cur.y g.ys m with
    | error e => rfl
    | ok m1 =>
      change _ = storeSeq b 2 b.hostOrder cur.u g.us m1 >>= _
      simp only
      cases storeSeq b 2 b.hostOrder cur.u g.us m1 <;> rfl
  rw [hu, List.append_assoc]
  exact (storeSeq_runs 2 _ cur.y g.ys m).bind fun m1 _ => (storeSeq_runs 2 _ cur.u g.us m1).bind fun m2 _ =>
    storeSeq_runs 2 _ cur.v g.vs m2

theorem loadSamples_runs (cur : Planes) (m : Memory) :
    Runs b (((List.range 6).map fun k => ⟨cur.y + (2 * k : Nat), 2, 2⟩)
      ++ ((List.range 3).map fun k => ⟨cur.u + (2 * k : Nat), 2, 2⟩)
      ++ ((List.range 3).map fun k => ⟨cur.v + (2 * k : Nat), 2, 2⟩)) (loadSamples b m cur) := by
  have h := fun a => Runs.loadInt (b := b) m a 2 2 b.hostOrder
  have := (h cur.y).bind fun y0 _ => (h (cur.y + 2)).bind fun y1 _ => (h (cur.y + 4)).bind fun y2 _ =>
    (h (cur.y + 6)).bind fun y3 _ => (h (cur.y + 8)).bind fun y4 _ => (h (cur.y + 10)).bind fun y5 _ =>
    (h cur.u).bind fun u0 _ => (h (cur.u + 2)).bind fun u1 _ => (h (cur.u + 4)).bind fun u2 _ =>
    (h cur.v).bind fun v0 _ => (h (cur.v + 2)).bind fun v1 _ =>
    (h (cur.v + 4)).map (f := fun v2 => GroupSamples.mk y0 y1 y2 y3 y4 y5 u0 u1 u2 v0 v1 v2)
  refine Eq.mp (congrArg₂ _ ?_ rfl) this
  simp [List.range_succ]

theorem unpackGroups_runs (tag : ByteOrder) (n g : Nat) (m : Memory) :
    Runs b ((List.range' g n).flatMap fun g => v210WordAccesses packed left g ++ v210SampleAccesses p left g)
      (unpackGroups b tag n (groupAddr packed left g) (groupStart p left g) m) := by
  induction n generalizing g m with
  | zero => exact Runs.done m
  | succ n ih =>
    have hu : unpackGroups b tag (n + 1) (groupAddr packed left g) (groupStart p left g) m
        = loadGroup b m (groupAddr packed left g) tag >>= fun w =>
          storeGroup b (groupStart p left g) (groupUnpack w) m >>= fun m' =>
          unpackGroups b tag n (groupAddr packed left g + 16) (nextGroup (groupStart p left g)) m' := by
      rw [unpackGroups]
      cases loadGroup b m (groupAddr packed left g) tag with
      | error e => rfl
      | ok w =>
        change _ = storeGroup b (groupStart p left g) (groupUnpack w) m >>= _
        simp only
        cases storeGroup b (groupStart p left g) (groupUnpack w) m <;> rfl
    rw [hu, groupAddr_next, nextGroup_start, List.range'_succ, List.flatMap_cons, List.append_assoc, wordAccesses_eq,
      sampleAccesses_eq]
    exact (loadGroup_runs _ tag m).bind fun w _ => (storeGroup_runs _ _ m).bind fun m' _ => ih (g + 1) m'

theorem packGroups_runs (tag : ByteOrder) (n g : Nat) (m : Memory) :
    Runs b ((List.range' g n).flatMap fun g => v210SampleAccesses p left g ++ v210WordAccesses packed left g)
      (packGroups b tag n (groupStart p left g) (groupAddr packed left g) m) := by
  induction n generalizing g m with
  | zero => exact Runs.done m
  | succ n ih =>
    have hu : packGroups b tag (n + 1) (groupStart p left g) (groupAddr packed left g) m
        = loadSamples b m (groupStart p left g) >>= fun v =>
          storeSeq b 4 tag (groupAddr packed left g) (groupPack v).list m >>= fun m' =>
          packGroups b tag n (nextGroup (groupStart p left g)) (groupAddr packed left g + 16) m' := by
      rw [packGroups]
      cases loadSamples b m (groupStart p left g) with
      | error e => rfl
      | ok v =>
        change _ = storeSeq b 4 tag (groupAddr packed left g) (groupPack v).list m >>= _
        simp only
        cases storeSeq b 4 tag (groupAddr packed left g) (groupPack v).list m <;> rfl
    rw [hu, groupAddr_next, nextGroup_start, List.range'_succ, List.flatMap_cons, List.append_assoc, wordAccesses_eq,
      sampleAccesses_eq]
    exact (loadSamples_runs _ m).bind fun v _ => (storeSeq_runs 4 tag _ (groupPack v).list m).bind fun m' _ =>
      ih (g + 1) m'

theorem v210Cursors_eq (p : Planes) (left : Nat) : v210Cursors p left = groupStart p left 0 := by
  simp only [v210Cursors, groupStart, v210Elem, Nat.mul_zero, Nat.add_zero]

end

/-! ### Rows of either CLASS, and frames -/

section
variable {desc : Descriptor} {b : Bus} {packed : Int} {p : Planes} {left right : Nat}

/-- The unpack row function ends as the list of its accesses says. -/
theorem descUnpack_runs (hp : desc.pointersOk packed p = true) (m : Memory) :
    Runs b (desc.unpackAccesses packed p left right) (desc.unpackRow b packed p left right m) := by
  cases desc with
  | generic d => exact unpackRow_runs hp m
  | v210 tag =>
    unfold Descriptor.unpackAccesses Descriptor.unpackRow v210UnpackAccesses v210UnpackRow
    simp only
    rw [List.range_eq_range', v210Cursors_eq]
    exact unpackGroups_runs tag _ 0 m

/-- The pack row function ends as the list of its accesses says. -/
theorem descPack_runs {fill : Bool} (hp : desc.pointersOk packed p = true) (m : Memory) :
    Runs b (desc.packAccesses packed p left right) (desc.packRow b fill p packed left right m) := by
  cases desc with
  | generic d => exact packRow_runs hp m
  | v210 tag =>
    unfold Descriptor.packAccesses Descriptor.packRow v210PackAccesses v210PackRow
    simp only
    rw [List.range_eq_range', v210Cursors_eq]
    exact packGroups_runs tag _ 0 m

theorem frameRows_runs {row : Nat → Memory → Except FaultReason Memory} {l : Nat → List Access} (n y : Nat)
    (h : ∀ k, y ≤ k → k < y + n → ∀ m, Runs b (l k) (row k m)) (m : Memory) :
    Runs b ((List.range' y n).flatMap l) (frameRows row n y m) := by
  induction n generalizing y m with
  | zero => exact Runs.done m
  | succ n ih =>
    have hu : frameRows row (n + 1) y m = row y m >>= frameRows row n (y + 1) := by
      rw [frameRows]
      cases row y m <;> rfl
    rw [hu, List.range'_succ, List.flatMap_cons]
    exact (h y (le_refl _) (by omega) m).bind fun m' _ => ih (y + 1) (fun k h1 h2 => h k (by omega) (by omega)) m'

theorem copyLuma_runs (l : Option LumaCopy) (m : Memory) : Runs b (lumaAccesses l) (copyLuma b l m) := by
  cases l with
  | none => exact Runs.done m
  | some l =>
    unfold lumaAccesses copyLuma
    simp only
    rw [copyRows_eq, List.range_eq_range']
    refine frameRows_runs l.nrows 0 (fun k _ _ m => ?_) m
    have hu : copyRow b l k m = b.memRead m (l.src + k * l.srcStride) l.nbytes 1 >>= fun bs =>
        b.memWrite m (l.dst + k * l.dstStride) bs 1 := by
      unfold copyRow
      cases b.memRead m (l.src + k * l.srcStride) l.nbytes 1 <;> rfl
    rw [hu]
    refine (Runs.memRead m _ _ _).bind (l := [_]) fun bs hbs => ?_
    obtain ⟨_, rfl⟩ := memRead_ok hbs
    have := Runs.memWrite (b := b) m (l.dst + k * l.dstStride)
      (m.readBytes (l.src + k * l.srcStride).toNat l.nbytes) 1
    rwa [length_readBytes] at this

theorem planRun_runs {pl : FramePlan} {row : Nat → Memory → Except FaultReason Memory} {l : Nat → List Access}
    (h : ∀ k < pl.rows, ∀ m, Runs b (l k) (row k m)) (m : Memory) :
    Runs b (lumaAccesses pl.luma ++ (List.range pl.rows).flatMap l) (pl.run b row m) := by
  have hu : pl.run b row m = copyLuma b pl.luma m >>= frameRows row pl.rows 0 := by
    unfold FramePlan.run
    cases copyLuma b pl.luma m <;> rfl
  rw [hu, List.range_eq_range']
  exact (copyLuma_runs pl.luma m).bind fun m' _ => frameRows_runs pl.rows 0 (fun k _ hk => h k (by omega)) m'

/-- The accesses of UNPACK_FRAME end as their list says. -/
theorem planUnpack_runs {pl : FramePlan} (hc : pl.checks desc = .ok ()) (m : Memory) :
    Runs b (pl.unpackAccesses desc) (pl.unpack b desc m) :=
  planRun_runs (fun k hk => descUnpack_runs ((planChecks_ok hc).2.1 k (by omega))) m

/-- The accesses of PACK_FRAME end as their list says. -/
theorem planPack_runs {pl : FramePlan} {fill : Bool} (hc : pl.checks desc = .ok ()) (m : Memory) :
    Runs b (pl.packAccesses desc) (pl.pack b fill desc m) :=
  planRun_runs (fun k hk => descPack_runs ((planChecks_ok hc).2.1 k (by omega))) m

end

/-- The end of a transfer whose checks pass: the access fault of the first access that fails, or its memory. -/
theorem runTransfer_runs {s : State} {f : Footprint} {accesses : Memory → Except FaultReason Memory} {l : List Access}
    (hn : f.noOverlap = true) (h : Runs s.bus l (accesses s.mem)) :
    match s.bus.firstFault l with
    | some r => runTransfer s (.ok ()) f accesses = raiseAccessFault s f r
    | none => ∃ m, accesses s.mem = .ok m ∧ runTransfer s (.ok ()) f accesses = .next { s with mem := m } := by
  unfold Runs at h
  unfold runTransfer
  simp only [if_pos hn]
  cases hl : s.bus.firstFault l with
  | some r => rw [hl] at h; rw [h]
  | none =>
    rw [hl] at h
    obtain ⟨m, hm⟩ := h
    exact ⟨m, hm, by rw [hm]⟩

end Sys2Proof.Machine
end

