-- ==== Sys2Proof/Laws/Agree.lean ====
section
/-! SUPPORT. Two runs of the same accesses over two memories: they fault alike, whatever the memories hold, and over
memories that agree on the bytes read they leave the same bytes (20_memory.md R74, R75; 60_exceptions.md R270). -/

namespace Sys2Proof.Machine

/-- Two memories agree on the addresses of a set. -/
def AgreeOn (A : Int → Prop) (m m' : Memory) : Prop := ∀ k : Nat, A k → m.read k = m'.read k

/-- What two runs of one row of accesses have in common, when they read inside `R` and write all of `W`. -/
structure Twin (R W : Int → Prop) (F : Memory → Except FaultReason Memory) : Prop where
  error : ∀ (m m' : Memory) (r : FaultReason), F m = .error r → F m' = .error r
  wf : ∀ m n : Memory, Memory.wf m = true → F m = .ok n → Memory.wf n = true
  agree : ∀ (A : Int → Prop), (∀ x, R x → A x) → ∀ m m' n n' : Memory, Memory.wf m = true → Memory.wf m' = true →
    AgreeOn A m m' → F m = .ok n → F m' = .ok n' → AgreeOn (fun x => A x ∨ W x) n n'

namespace Twin

theorem mono {R R' W W' : Int → Prop} {F : Memory → Except FaultReason Memory} (h : Twin R W F)
    (hr : ∀ x, R x → R' x) (hw : ∀ x, W' x → W x) : Twin R' W' F :=
  ⟨h.error, h.wf, fun A hA m m' n n' w w' ha h1 h2 k hk =>
    h.agree A (fun x hx => hA x (hr x hx)) m m' n n' w w' ha h1 h2 k (hk.imp id (hw _))⟩

theorem skip : Twin (fun _ => False) (fun _ => False) Except.ok :=
  ⟨fun _ _ _ h => (by cases h), fun _ _ hw h => (by cases h; exact hw),
    fun _ _ _ _ _ _ _ _ ha h1 h2 k hk => (by cases h1; cases h2; exact ha k (hk.resolve_right id))⟩

/-- One run after another. -/
theorem seq {R1 W1 R2 W2 : Int → Prop} {F G : Memory → Except FaultReason Memory} (hF : Twin R1 W1 F)
    (hG : Twin R2 W2 G) : Twin (fun x => R1 x ∨ R2 x) (fun x => W1 x ∨ W2 x) fun m =>
      match F m with
      | .error r => .error r
      | .ok n => G n := by
  refine ⟨fun m m' r h => ?_, fun m n hw h => ?_, fun A hA m m' n n' hw hw' ha h1 h2 => ?_⟩
  · split at h
    · rename_i hm
      cases h
      simp only [hF.error m m' _ hm]
    · rename_i n hm
      split
      · rename_i hm'
        rw [hF.error m' m _ hm'] at hm
        cases hm
      · exact hG.error _ _ _ h
  · split at h
    · cases h
    · exact hG.wf _ _ (hF.wf _ _ hw ‹_›) h
  · split at h1
    · cases h1
    · rename_i k1 hk1
      split at h2
      · cases h2
      · rename_i k2 hk2
        have hmid := hF.agree A (fun x hx => hA x (.inl hx)) m m' k1 k2 hw hw' ha hk1 hk2
        have := hG.agree _ (fun x hx => .inl (hA x (.inr hx))) k1 k2 n n' (hF.wf _ _ hw hk1) (hF.wf _ _ hw' hk2)
          hmid h1 h2
        intro k hk
        refine this k ?_
        rcases hk with h | h | h
        · exact .inl (.inl h)
        · exact .inl (.inr h)
        · exact .inr h

end Twin

/-! ### Single accesses -/

theorem loadInt_error_all {b : Bus} {m m' : Memory} {a : Int} {n al : Nat} {o : ByteOrder} {r : FaultReason}
    (h : b.loadInt m a n al o = .error r) : b.loadInt m' a n al o = .error r := by
  have := loadInt_error h
  simp only [Bus.loadInt, Bus.memRead, this]

theorem loadInt_agree {b : Bus} {m m' : Memory} {a : Int} {n al : Nat} {o : ByteOrder} {v v' : Nat}
    {A : Int → Prop} (ha : AgreeOn A m m') (hA : ∀ x, a ≤ x → x < a + n → A x)
    (h : b.loadInt m a n al o = .ok v) (h' : b.loadInt m' a n al o = .ok v') : v = v' := by
  obtain ⟨hc, rfl⟩ := loadInt_ok h
  obtain ⟨_, rfl⟩ := loadInt_ok h'
  rcases Nat.eq_zero_or_pos n with rfl | hn
  · rfl
  · have h0 := (good_of_check hc a (le_refl a) (by omega)).1
    rw [readBytes_congr m m' a.toNat n fun k h1 h2 => ha k (hA k (by omega) (by omega))]

theorem memWrite_twin (b : Bus) (a : Int) (bs : List Byte) (al : Nat) :
    Twin (fun _ => False) (fun x => a ≤ x ∧ x < a + bs.length) fun m => b.memWrite m a bs al := by
  refine ⟨fun m m' r h => ?_, fun m n hw h => (wrote_of_memWrite h).wf hw, fun A _ m m' n n' hw hw' ha h1 h2 k hk => ?_⟩
  · have := memWrite_error h
    simp only [Bus.memWrite, this]
  · obtain ⟨hc, rfl⟩ := memWrite_ok h1
    obtain ⟨_, rfl⟩ := memWrite_ok h2
    rw [read_writeBytes _ _ _ _ hw, read_writeBytes _ _ _ _ hw']
    split
    · rfl
    · rename_i hn
      rcases hk with h | ⟨h1, h2⟩
      · exact ha k h
      · have h0 := (good_of_check hc a (le_refl a) (by omega)).1
        exact absurd ⟨by omega, by omega⟩ hn

theorem storeInt_twin (b : Bus) (a : Int) (n al : Nat) (o : ByteOrder) (v : Nat) :
    Twin (fun _ => False) (fun x => a ≤ x ∧ x < a + n) fun m => b.storeInt m a n al o v := by
  have := memWrite_twin b a (bytesOfNat o n v) al
  simpa [Bus.storeInt] using this

theorem storeInt_error_all {b : Bus} {m m' : Memory} {a : Int} {n al : Nat} {o : ByteOrder} {v v' : Nat}
    {r : FaultReason} (h : b.storeInt m a n al o v = .error r) : b.storeInt m' a n al o v' = .error r := by
  have := storeInt_error h
  unfold Bus.storeInt Bus.memWrite
  rw [show (bytesOfNat o n v').length = n by simp, this]

/-! ### Generic rows -/

theorem slotBytes_split {eb : Nat} {on : Bool} {c : Channel} {sh dp : Nat} {rest : List Slot} {cur : Planes} {x : Int}
    (h : SlotBytes eb on (.field c sh dp :: rest) cur x) :
    (Takes on c ∧ cur.get c ≤ x ∧ x < cur.get c + eb) ∨ (Takes on c ∧ SlotBytes eb on rest (cur.advance c eb) x) ∨
      (¬ Takes on c ∧ SlotBytes eb on rest cur x) := by
  obtain ⟨c', ht, hx⟩ := h
  unfold InPlane at hx
  rw [countSlots_field] at hx
  by_cases hc : Takes on c
  · by_cases hfirst : c' = c ∧ x < cur.get c + eb
    · obtain ⟨rfl, hlt⟩ := hfirst
      exact .inl ⟨hc, hx.1, hlt⟩
    · refine .inr (.inl ⟨hc, c', ht, ?_⟩)
      unfold InPlane
      rw [get_advance]
      by_cases e : c' = c
      · subst e
        have hge : ¬ x < cur.get c' + eb := fun hh => hfirst ⟨rfl, hh⟩
        rw [if_pos rfl, Nat.add_mul, Nat.one_mul] at hx
        rw [if_pos rfl]
        push_cast at hx ⊢
        constructor <;> omega
      · rw [if_neg e, Nat.zero_add] at hx
        rw [if_neg e]
        exact hx
  · refine .inr (.inr ⟨hc, c', ht, ?_⟩)
    have : c' ≠ c := fun e => hc (e ▸ ht)
    rw [if_neg this, Nat.zero_add] at hx
    exact hx

theorem unpackSlots_error_all {b : Bus} {d : Layout} {on : Bool} {w w' : Nat} {sl : List Slot} {cur : Planes}
    {m m' : Memory} {r : FaultReason} (h : unpackSlots b d on w sl cur m = .error r) :
    unpackSlots b d on w' sl cur m' = .error r := by
  induction sl generalizing cur m m' with
  | nil => cases h
  | cons s rest ih =>
    cases s with
    | pad => exact ih h
    | field c sh dp =>
      unfold unpackSlots at h ⊢
      split at h
      · rename_i hn
        rw [if_pos hn]
        exact ih h
      · rename_i hn
        rw [if_neg hn]
        split at h
        · rename_i he
          cases h
          unfold Bus.storePlanar at he ⊢
          rw [storeInt_error_all he]
        · split
          · rename_i he'
            unfold Bus.storePlanar at he'
            rename_i m1 hm1 _ _
            unfold Bus.storePlanar at hm1
            rw [storeInt_error_all he'] at hm1
            cases hm1
          · exact ih h

theorem unpackSlots_cursors {b : Bus} {d : Layout} {on : Bool} {w w' : Nat} {sl : List Slot} {cur c1 c2 : Planes}
    {m m' n n' : Memory} (h : unpackSlots b d on w sl cur m = .ok (c1, n))
    (h' : unpackSlots b d on w' sl cur m' = .ok (c2, n')) : c1 = c2 := by
  induction sl generalizing cur m m' with
  | nil => cases h; cases h'; rfl
  | cons s rest ih =>
    cases s with
    | pad => exact ih h h'
    | field c sh dp =>
      rcases unpackSlots_field_ok h with ⟨hn, h1⟩ | ⟨ht, _, _, h1⟩
      · rcases unpackSlots_field_ok h' with ⟨_, h2⟩ | ⟨ht, _⟩
        · exact ih h1 h2
        · exact absurd ht hn
      · rcases unpackSlots_field_ok h' with ⟨hn, _⟩ | ⟨_, _, _, h2⟩
        · exact absurd ht hn
        · exact ih h1 h2

theorem unpackSlots_agree {b : Bus} {d : Layout} {on : Bool} {w : Nat} {sl : List Slot} {cur c1 c2 : Planes}
    {m m' n n' : Memory} {A : Int → Prop} (hw : Memory.wf m = true) (hw' : Memory.wf m' = true) (ha : AgreeOn A m m')
    (h : unpackSlots b d on w sl cur m = .ok (c1, n)) (h' : unpackSlots b d on w sl cur m' = .ok (c2, n')) :
    AgreeOn (fun x => A x ∨ SlotBytes d.eb on sl cur x) n n' := by
  induction sl generalizing cur m m' A with
  | nil =>
    cases h; cases h'
    rintro k (hk | ⟨c, _, hx⟩)
    · exact ha k hk
    · unfold InPlane at hx
      simp only [countSlots, Nat.zero_mul, Nat.cast_zero] at hx
      omega
  | cons s rest ih =>
    cases s with
    | pad =>
      intro k hk
      refine ih hw hw' ha h h' k (hk.imp id ?_)
      rintro ⟨c, ht, hx⟩
      exact ⟨c, ht, by rwa [countSlots_pad] at hx⟩
    | field c sh dp =>
      rcases unpackSlots_field_ok h with ⟨hn, h1⟩ | ⟨ht, m1, hs1, h1⟩
      · rcases unpackSlots_field_ok h' with ⟨_, h2⟩ | ⟨ht, _⟩
        · intro k hk
          refine ih hw hw' ha h1 h2 k (hk.imp id fun hx => ?_)
          rcases slotBytes_split hx with ⟨ht, _⟩ | ⟨ht, _⟩ | ⟨_, hx⟩
          · exact absurd ht hn
          · exact absurd ht hn
          · exact hx
        · exact absurd ht hn
      · rcases unpackSlots_field_ok h' with ⟨hn, _⟩ | ⟨_, m2, hs2, h2⟩
        · exact absurd ht hn
        · have tw := storeInt_twin b (cur.get c) d.eb d.eb b.hostOrder (extractField w sh dp)
          have hmid := tw.agree A (fun _ h => h.elim) m m' m1 m2 hw hw' ha hs1 hs2
          intro k hk
          have := ih ((wrote_of_storeInt hs1).wf hw) ((wrote_of_storeInt hs2).wf hw') hmid h1 h2 k
          refine this ?_
          rcases hk with hk | hx
          · exact .inl (.inl hk)
          · rcases slotBytes_split hx with ⟨_, hx⟩ | ⟨_, hx⟩ | ⟨hn, _⟩
            · exact .inl (.inr hx)
            · exact .inr hx
            · exact absurd ht hn

theorem unitBytes_split {d : Layout} {on : Bool} {n : Nat} {cur cur1 : Planes} {x : Int}
    (hc : ∀ c, Takes on c → cur1.get c = cur.get c + (countSlots c d.slots.toList * d.eb : Nat))
    (h : UnitBytes d on (n + 1) cur x) : SlotBytes d.eb on d.slots.toList cur x ∨ UnitBytes d on n cur1 x := by
  obtain ⟨c, ht, hx⟩ := h
  unfold InPlane at hx
  have e : (n + 1) * d.count c * d.eb = n * d.count c * d.eb + countSlots c d.slots.toList * d.eb := by
    unfold Layout.count; ring
  rw [e] at hx
  by_cases hlt : x < cur.get c + (countSlots c d.slots.toList * d.eb : Nat)
  · exact .inl ⟨c, ht, hx.1, hlt⟩
  · refine .inr ⟨c, ht, ?_⟩
    unfold InPlane
    rw [hc c ht]
    push_cast at hx hlt ⊢
    constructor <;> omega

theorem unpackUnits_twin (b : Bus) (d : Layout) (on : Bool) (n : Nat) (pcur : Int) (cur : Planes) :
    Twin (InPacked pcur n d.pkb) (UnitBytes d on n cur) (unpackUnits b d on n pcur cur) := by
  refine ⟨fun m m' r h => ?_, fun m k hw h => (unpackUnits_wrote h).wf hw, ?_⟩
  · induction n generalizing pcur cur m m' with
    | zero => cases h
    | succ n ih =>
      unfold unpackUnits at h ⊢
      split at h
      · rename_i he
        cases h
        unfold Bus.loadUnit at he ⊢
        rw [loadInt_error_all he]
      · rename_i w hw1
        split
        · rename_i he'
          unfold Bus.loadUnit at he' hw1
          rw [loadInt_error_all he'] at hw1
          cases hw1
        · split at h
          · rename_i he
            cases h
            rw [unpackSlots_error_all he]
          · rename_i c1 m1 hs1
            split
            · rename_i he'
              rw [unpackSlots_error_all he'] at hs1
              cases hs1
            · rename_i c2 m2 hs2
              rw [← unpackSlots_cursors hs1 hs2]
              exact ih _ _ _ _ h
  · intro A hA m m' k k' hw hw' ha h1 h2
    induction n generalizing pcur cur m m' A with
    | zero =>
      cases h1; cases h2
      rintro x (hx | ⟨c, _, hx⟩)
      · exact ha x hx
      · unfold InPlane at hx
        simp only [Nat.zero_mul, Nat.cast_zero] at hx
        omega
    | succ n ih =>
      obtain ⟨w, c1, m1, hl1, hs1, hr1⟩ := unpackUnits_succ_ok h1
      obtain ⟨w', c2, m2, hl2, hs2, hr2⟩ := unpackUnits_succ_ok h2
      obtain rfl : w = w' := loadInt_agree ha (fun x h1 h2 => hA x (inPacked_first h1 h2)) hl1 hl2
      obtain rfl := unpackSlots_cursors hs1 hs2
      have hmid := unpackSlots_agree hw hw' ha hs1 hs2
      intro x hx
      refine ih _ _ _ (fun y hy => .inl (hA y (inPacked_rest hy))) m1 m2 ((unpackSlots_wrote hs1).wf hw)
        ((unpackSlots_wrote hs2).wf hw') hmid hr1 hr2 x ?_
      rcases hx with hx | hx
      · exact .inl (.inl hx)
      · rcases unitBytes_split (fun c hc => unpackSlots_cursor hs1 c hc) hx with hx | hx
        · exact .inl (.inr hx)
        · exact .inr hx

theorem packSlots_error_all {b : Bus} {d : Layout} {on : Bool} {w w' : Nat} {sl : List Slot} {cur : Planes}
    {m m' : Memory} {r : FaultReason} (h : packSlots b d on m sl cur w = .error r) :
    packSlots b d on m' sl cur w' = .error r := by
  induction sl generalizing cur w w' with
  | nil => cases h
  | cons s rest ih =>
    cases s with
    | pad => exact ih h
    | field c sh dp =>
      unfold packSlots at h ⊢
      split at h
      · rename_i hn
        rw [if_pos hn]
        exact ih h
      · rename_i hn
        rw [if_neg hn]
        split at h
        · rename_i he
          cases h
          unfold Bus.loadPlanar at he ⊢
          rw [loadInt_error_all he]
        · rename_i v hv
          split
          · rename_i he'
            unfold Bus.loadPlanar at he' hv
            rw [loadInt_error_all he'] at hv
            cases hv
          · exact ih h

theorem packSlots_cursors {b : Bus} {d : Layout} {on : Bool} {w w' : Nat} {sl : List Slot} {cur : Planes}
    {m m' : Memory} {c1 c2 : Planes} {v1 v2 : Nat} (h : packSlots b d on m sl cur w = .ok (c1, v1))
    (h' : packSlots b d on m' sl cur w' = .ok (c2, v2)) : c1 = c2 := by
  induction sl generalizing cur w w' with
  | nil => cases h; cases h'; rfl
  | cons s rest ih =>
    cases s with
    | pad => exact ih h h'
    | field c sh dp =>
      rcases packSlots_field_ok h with ⟨hn, h1⟩ | ⟨ht, _, _, h1⟩
      · rcases packSlots_field_ok h' with ⟨_, h2⟩ | ⟨ht, _⟩
        · exact ih h1 h2
        · exact absurd ht hn
      · rcases packSlots_field_ok h' with ⟨hn, _⟩ | ⟨_, _, _, h2⟩
        · exact absurd ht hn
        · exact ih h1 h2

theorem packUnits_twin (b : Bus) (d : Layout) (fill on : Bool) (n : Nat) (pcur : Int) (cur : Planes) :
    Twin (UnitBytes d on n cur) (InPacked pcur n d.pkb) (packUnits b d fill on n cur pcur) := by
  refine ⟨fun m m' r h => ?_, fun m k hw h => (packUnits_wrote h).wf hw, ?_⟩
  · induction n generalizing pcur cur m m' with
    | zero => cases h
    | succ n ih =>
      unfold packUnits at h ⊢
      split at h
      · rename_i he
        cases h
        rw [packSlots_error_all he]
      · rename_i c1 w hs1
        split
        · rename_i he'
          rw [packSlots_error_all he'] at hs1
          cases hs1
        · rename_i c2 w' hs2
          obtain rfl := packSlots_cursors hs1 hs2
          split at h
          · rename_i he
            cases h
            unfold Bus.storeUnit at he ⊢
            rw [storeInt_error_all he]
          · rename_i m1 hm1
            split
            · rename_i he'
              unfold Bus.storeUnit at he' hm1
              rw [storeInt_error_all he'] at hm1
              cases hm1
            · exact ih _ _ _ _ h
  · intro A hA m m' k k' hw hw' ha h1 h2
    induction n generalizing pcur cur m m' A with
    | zero =>
      cases h1; cases h2
      rintro x (hx | hx)
      · exact ha x hx
      · unfold InPacked at hx
        simp only [Nat.zero_mul, Nat.cast_zero] at hx
        omega
    | succ n ih =>
      obtain ⟨w, c1, m1, hs1, ht1, hr1⟩ := packUnits_succ_ok h1
      obtain ⟨w', c2, m2, hs2, ht2, hr2⟩ := packUnits_succ_ok h2
      have hfirst : ∀ x, SlotBytes d.eb on d.slots.toList cur x → UnitBytes d on (n + 1) cur x := by
        rintro x ⟨c, hc, hx⟩
        exact ⟨c, hc, inPlane_unit_first hx⟩
      have he := packSlots_congr (m' := m') hs1 fun x hx => (ha x (hA x (hfirst x hx))).symm
      rw [hs2] at he
      cases he
      have tw := storeInt_twin b pcur d.pkb (unitAlign d.pkb) d.tag w
      have hmid := tw.agree A (fun _ h => h.elim) m m' m1 m2 hw hw' ha ht1 ht2
      intro x hx
      refine ih _ _ _ ?_ m1 m2 ((wrote_of_storeInt ht1).wf hw) ((wrote_of_storeInt ht2).wf hw') hmid hr1 hr2 x ?_
      · rintro y ⟨c, hc, hy⟩
        exact .inl (hA y ⟨c, hc, inPlane_unit_rest (packSlots_cursor hs1 c hc) hy⟩)
      · rcases hx with hx | hx
        · exact .inl (.inl hx)
        · unfold InPacked at hx
          rw [Nat.add_mul, Nat.one_mul] at hx
          by_cases hlt : (x : Int) < pcur + d.pkb
          · exact .inl (.inr ⟨hx.1, hlt⟩)
          · refine .inr ⟨?_, ?_⟩ <;> omega

/-! ### v210 rows -/

theorem bind_error_all {α β : Type} {x x' : Except FaultReason α} {f f' : α → Except FaultReason β} {r : FaultReason}
    (hx : ∀ r, x = .error r → x' = .error r) (hx' : ∀ r, x' = .error r → x = .error r)
    (hf : ∀ v v' r, f v = .error r → f' v' = .error r) (h : (x >>= f) = .error r) : (x' >>= f') = .error r := by
  cases x with
  | error e =>
    rw [hx e rfl]
    exact h
  | ok v =>
    cases x' with
    | error e => cases hx' e rfl
    | ok v' => exact hf v v' r h

theorem loadGroup_error_all {b : Bus} {m m' : Memory} {a : Int} {tag : ByteOrder} {r : FaultReason}
    (h : loadGroup b m a tag = .error r) : loadGroup b m' a tag = .error r := by
  unfold loadGroup at h ⊢
  refine bind_error_all (fun _ => loadInt_error_all) (fun _ => loadInt_error_all) (fun _ _ _ h => ?_) h
  refine bind_error_all (fun _ => loadInt_error_all) (fun _ => loadInt_error_all) (fun _ _ _ h => ?_) h
  refine bind_error_all (fun _ => loadInt_error_all) (fun _ => loadInt_error_all) (fun _ _ _ h => ?_) h
  refine bind_error_all (fun _ => loadInt_error_all) (fun _ => loadInt_error_all) (fun _ _ _ h => ?_) h
  cases h

theorem loadSamples_error_all {b : Bus} {m m' : Memory} {cur : Planes} {r : FaultReason}
    (h : loadSamples b m cur = .error r) : loadSamples b m' cur = .error r := by
  unfold loadSamples at h ⊢
  refine bind_error_all (fun _ => loadInt_error_all) (fun _ => loadInt_error_all) (fun _ _ _ h => ?_) h
  refine bind_error_all (fun _ => loadInt_error_all) (fun _ => loadInt_error_all) (fun _ _ _ h => ?_) h
  refine bind_error_all (fun _ => loadInt_error_all) (fun _ => loadInt_error_all) (fun _ _ _ h => ?_) h
  refine bind_error_all (fun _ => loadInt_error_all) (fun _ => loadInt_error_all) (fun _ _ _ h => ?_) h
  refine bind_error_all (fun _ => loadInt_error_all) (fun _ => loadInt_error_all) (fun _ _ _ h => ?_) h
  refine bind_error_all (fun _ => loadInt_error_all) (fun _ => loadInt_error_all) (fun _ _ _ h => ?_) h
  refine bind_error_all (fun _ => loadInt_error_all) (fun _ => loadInt_error_all) (fun _ _ _ h => ?_) h
  refine bind_error_all (fun _ => loadInt_error_all) (fun _ => loadInt_error_all) (fun _ _ _ h => ?_) h
  refine bind_error_all (fun _ => loadInt_error_all) (fun _ => loadInt_error_all) (fun _ _ _ h => ?_) h
  refine bind_error_all (fun _ => loadInt_error_all) (fun _ => loadInt_error_all) (fun _ _ _ h => ?_) h
  refine bind_error_all (fun _ => loadInt_error_all) (fun _ => loadInt_error_all) (fun _ _ _ h => ?_) h
  refine bind_error_all (fun _ => loadInt_error_all) (fun _ => loadInt_error_all) (fun _ _ _ h => ?_) h
  cases h

theorem storeSeq_error_all {b : Bus} {n : Nat} {o : ByteOrder} {a : Int} {vs vs' : List Nat} {m m' : Memory}
    {r : FaultReason} (hl : vs'.length = vs.length) (h : storeSeq b n o a vs m = .error r) :
    storeSeq b n o a vs' m' = .error r := by
  induction vs generalizing a vs' m m' with
  | nil => cases h
  | cons v rest ih =>
    obtain ⟨v', rest', rfl⟩ : ∃ v' rest', vs' = v' :: rest' := List.exists_cons_of_length_pos (by rw [hl]; simp)
    unfold storeSeq at h ⊢
    split at h
    · rename_i he
      cases h
      rw [storeInt_error_all he]
    · rename_i m1 hm1
      split
      · rename_i he'
        rw [storeInt_error_all he'] at hm1
        cases hm1
      · exact ih (by simpa using hl) h

theorem storeSeq_twin (b : Bus) (n : Nat) (o : ByteOrder) (a : Int) (vs : List Nat) :
    Twin (fun _ => False) (InPacked a vs.length n) (storeSeq b n o a vs) := by
  induction vs generalizing a with
  | nil =>
    refine Twin.skip.mono (fun _ h => h) fun x hx => ?_
    unfold InPacked at hx
    simp only [List.length_nil, Nat.zero_mul, Nat.cast_zero] at hx
    omega
  | cons v rest ih =>
    refine ((storeInt_twin b a n n o v).seq (ih (a + n))).mono (fun _ h => h.elim id id) fun x hx => ?_
    unfold InPacked at hx ⊢
    rw [List.length_cons, Nat.add_mul, Nat.one_mul] at hx
    by_cases hlt : x < a + n
    · exact .inl ⟨hx.1, hlt⟩
    · refine .inr ⟨?_, ?_⟩ <;> omega

theorem storeGroup_error_all {b : Bus} {cur : Planes} {g g' : GroupSamples} {m m' : Memory} {r : FaultReason}
    (h : storeGroup b cur g m = .error r) : storeGroup b cur g' m' = .error r := by
  unfold storeGroup at h ⊢
  split at h
  · rename_i he
    cases h
    rw [storeSeq_error_all (vs' := g'.ys) (vs := g.ys) rfl he]
  · rename_i m1 hm1
    split
    · rename_i he'
      rw [storeSeq_error_all (vs' := g.ys) (vs := g'.ys) rfl he'] at hm1
      cases hm1
    · split at h
      · rename_i he
        cases h
        rw [storeSeq_error_all (vs' := g'.us) (vs := g.us) rfl he]
      · rename_i m2 hm2
        split
        · rename_i he'
          rw [storeSeq_error_all (vs' := g.us) (vs := g'.us) rfl he'] at hm2
          cases hm2
        · exact storeSeq_error_all (vs' := g'.vs) (vs := g.vs) rfl h

theorem storeGroup_twin (b : Bus) (cur : Planes) (g : GroupSamples) :
    Twin (fun _ => False) (GroupBytes 1 cur) (storeGroup b cur g) := by
  refine ((storeSeq_twin b 2 b.hostOrder cur.y g.ys).seq ((storeSeq_twin b 2 b.hostOrder cur.u g.us).seq
    (storeSeq_twin b 2 b.hostOrder cur.v g.vs))).mono (fun _ h => h.elim id fun h => h.elim id id) fun x hx => ?_
  rcases hx with hx | hx | hx
  · exact .inl (inPacked_regroup hx rfl)
  · exact .inr (.inl (inPacked_regroup hx rfl))
  · exact .inr (.inr (inPacked_regroup hx rfl))

theorem groupBytes_split {n : Nat} {cur : Planes} {x : Int} (h : GroupBytes (n + 1) cur x) :
    GroupBytes 1 cur x ∨ GroupBytes n (nextGroup cur) x := by
  rw [groupBytes_iff] at h
  rw [groupBytes_iff, groupBytes_iff]
  obtain ⟨c, h1, h2⟩ := h
  rw [Nat.add_mul, Nat.one_mul] at h2
  by_cases hlt : x < cur.get c + (2 * perGroup c : Nat)
  · exact .inl ⟨c, h1, by rwa [Nat.one_mul]⟩
  · refine .inr ⟨c, ?_⟩
    unfold InPacked
    rw [nextGroup_get]
    constructor <;> omega

theorem unpackGroups_twin (b : Bus) (tag : ByteOrder) (n : Nat) (pcur : Int) (cur : Planes) :
    Twin (InPacked pcur n 16) (GroupBytes n cur) (unpackGroups b tag n pcur cur) := by
  refine ⟨fun m m' r h => ?_, fun m k hw h => (unpackGroups_wrote h).wf hw, ?_⟩
  · induction n generalizing pcur cur m m' with
    | zero => cases h
    | succ n ih =>
      unfold unpackGroups at h ⊢
      split at h
      · rename_i he
        cases h
        rw [loadGroup_error_all he]
      · rename_i g hg
        split
        · rename_i he'
          rw [loadGroup_error_all he'] at hg
          cases hg
        · split at h
          · rename_i he
            cases h
            rw [storeGroup_error_all he]
          · rename_i m1 hm1
            split
            · rename_i he'
              rw [storeGroup_error_all he'] at hm1
              cases hm1
            · exact ih _ _ _ _ h
  · intro A hA m m' k k' hw hw' ha h1 h2
    induction n generalizing pcur cur m m' A with
    | zero =>
      cases h1; cases h2
      rintro x (hx | hx)
      · exact ha x hx
      · rw [groupBytes_iff] at hx
        obtain ⟨c, hx1, hx2⟩ := hx
        simp only [Nat.zero_mul, Nat.cast_zero] at hx2
        omega
    | succ n ih =>
      obtain ⟨m1, h0, hs1, hr1⟩ := unpackGroups_succ_ok h1
      obtain ⟨m2, _, hs2, hr2⟩ := unpackGroups_succ_ok h2
      have he : wordsAt m' tag pcur = wordsAt m tag pcur :=
        wordsAt_congr h0 fun x hx1 hx2 => (ha x (hA x (inPacked_first hx1 hx2))).symm
      rw [he] at hs2
      have hmid := (storeGroup_twin b cur _).agree A (fun _ h => h.elim) m m' m1 m2 hw hw' ha hs1 hs2
      intro x hx
      refine ih _ _ _ (fun y hy => .inl (hA y (inPacked_rest hy))) m1 m2 ((storeGroup_wrote hs1).wf hw)
        ((storeGroup_wrote hs2).wf hw') hmid hr1 hr2 x ?_
      rcases hx with hx | hx
      · exact .inl (.inl hx)
      · rcases groupBytes_split hx with hx | hx
        · exact .inl (.inr hx)
        · exact .inr hx

theorem packGroups_twin (b : Bus) (tag : ByteOrder) (n : Nat) (pcur : Int) (cur : Planes) :
    Twin (GroupBytes n cur) (InPacked pcur n 16) (packGroups b tag n cur pcur) := by
  refine ⟨fun m m' r h => ?_, fun m k hw h => (packGroups_wrote h).wf hw, ?_⟩
  · induction n generalizing pcur cur m m' with
    | zero => cases h
    | succ n ih =>
      unfold packGroups at h ⊢
      split at h
      · rename_i he
        cases h
        rw [loadSamples_error_all he]
      · rename_i g hg
        split
        · rename_i he'
          rw [loadSamples_error_all he'] at hg
          cases hg
        · rename_i g' hg'
          split at h
          · rename_i he
            cases h
            rw [storeSeq_error_all (vs' := (groupPack g').list) (vs := (groupPack g).list) rfl he]
          · rename_i m1 hm1
            split
            · rename_i he'
              rw [storeSeq_error_all (vs' := (groupPack g).list) (vs := (groupPack g').list) rfl he'] at hm1
              cases hm1
            · exact ih _ _ _ _ h
  · intro A hA m m' k k' hw hw' ha h1 h2
    induction n generalizing pcur cur m m' A with
    | zero =>
      cases h1; cases h2
      rintro x (hx | hx)
      · exact ha x hx
      · unfold InPacked at hx
        simp only [Nat.zero_mul, Nat.cast_zero] at hx
        omega
    | succ n ih =>
      obtain ⟨m1, hl, hs1, hr1⟩ := packGroups_succ_ok h1
      obtain ⟨m2, _, hs2, hr2⟩ := packGroups_succ_ok h2
      obtain ⟨n1, n2, n3⟩ := loadSamples_nonneg hl
      have he : samplesAt m' b.hostOrder cur = samplesAt m b.hostOrder cur :=
        samplesAt_congr n1 n2 n3 fun x hx => (ha x (hA x (by
          rw [groupBytes_iff] at hx ⊢
          obtain ⟨c, hx⟩ := hx
          exact ⟨c, inPacked_one hx⟩))).symm
      rw [he] at hs2
      have hmid := (storeSeq_twin b 4 tag pcur _).agree A (fun _ h => h.elim) m m' m1 m2 hw hw' ha hs1 hs2
      intro x hx
      refine ih _ _ _ ?_ m1 m2 ((storeSeq_wrote hs1).wf hw) ((storeSeq_wrote hs2).wf hw') hmid hr1 hr2 x ?_
      · intro y hy
        rw [groupBytes_iff] at hy
        obtain ⟨c, hy⟩ := hy
        exact .inl (hA y ((groupBytes_iff _ _ _).2 ⟨c, inPacked_next hy⟩))
      · rcases hx with hx | hx
        · exact .inl (.inl hx)
        · unfold InPacked at hx
          rw [Nat.add_mul, Nat.one_mul] at hx
          by_cases hlt : (x : Int) < pcur + 16
          · refine .inl (.inr ⟨hx.1, ?_⟩)
            simp only [GroupWords.list, List.length_cons, List.length_nil]
            push_cast
            omega
          · refine .inr ⟨?_, ?_⟩ <;> push_cast at hx ⊢ <;> omega

/-! ### Rows of either class -/

theorem unpackRow_twin {d : Layout} {b : Bus} {packed : Int} {p : Planes} {left right : Nat} :
    Twin (InRegions [d.packedRegion packed left right]) (InRegions (d.planeRegions p left right))
      (d.unpackRow b packed p left right) := by
  refine (unpackUnits_twin b d (d.alphaOn p) (d.units left right) (d.packedCursor packed left)
    (d.cursors p left)).mono (fun x hx => ⟨_, List.mem_singleton.2 rfl, (has_iff _ _).2 hx⟩) ?_
  rintro x ⟨r, hr, hx⟩
  obtain ⟨c, hc, rfl⟩ := List.mem_map.1 hr
  have hact := (List.mem_filter.1 hc).2
  refine ⟨c, ?_, (has_iff _ _).1 hx⟩
  rintro ⟨rfl, hoff⟩
  unfold Layout.active at hact
  unfold Layout.alphaOn at hoff
  rw [show p.get .a = p.a from rfl, hoff] at hact
  cases hact

theorem packRow_twin {d : Layout} {b : Bus} {fill : Bool} {packed : Int} {p : Planes} {left right : Nat}
    (hp : d.pointersOk packed p = true) :
    Twin (InRegions (d.planeRegions p left right)) (InRegions [d.packedRegion packed left right])
      (d.packRow b fill p packed left right) := by
  refine (packUnits_twin b d fill (d.alphaOn p) (d.units left right) (d.packedCursor packed left)
    (d.cursors p left)).mono (fun x hx => inRegions_of_unitBytes hp hx) ?_
  rintro x ⟨r, hr, hx⟩
  rw [List.mem_singleton.1 hr] at hx
  exact (has_iff _ _).1 hx

theorem groupBytes_iff_regions (p : Planes) (left right : Nat) (x : Int) :
    GroupBytes (v210Groups left right) (v210Cursors p left) x ↔ InRegions (v210PlaneRegions p left right) x := by
  unfold GroupBytes InPacked InRegions v210PlaneRegions
  simp only [List.mem_cons, List.not_mem_nil, or_false, exists_eq_or_imp, exists_eq_left, has_iff]
  rw [Nat.mul_comm _ 12, Nat.mul_comm _ 6]

theorem packed_iff_region (packed : Int) (left right : Nat) (x : Int) :
    InPacked (v210PackedCursor packed left) (v210Groups left right) 16 x
      ↔ InRegions [v210PackedRegion packed left right] x := by
  unfold InPacked InRegions v210PackedRegion
  simp only [List.mem_singleton, exists_eq_left, has_iff]
  rw [Nat.mul_comm _ 16]

theorem descUnpack_twin {desc : Descriptor} {b : Bus} {packed : Int} {p : Planes} {left right : Nat} :
    Twin (InRegions [desc.packedRegion packed left right]) (InRegions (desc.planeRegions p left right))
      (desc.unpackRow b packed p left right) := by
  cases desc with
  | generic d => exact unpackRow_twin
  | v210 tag =>
    exact (unpackGroups_twin b tag _ _ _).mono (fun x hx => (packed_iff_region _ _ _ x).1 hx)
      fun x hx => (groupBytes_iff_regions _ _ _ x).2 hx

theorem descPack_twin {desc : Descriptor} {b : Bus} {fill : Bool} {packed : Int} {p : Planes} {left right : Nat}
    (hp : desc.pointersOk packed p = true) :
    Twin (InRegions (desc.planeRegions p left right)) (InRegions [desc.packedRegion packed left right])
      (desc.packRow b fill p packed left right) := by
  cases desc with
  | generic d => exact packRow_twin hp
  | v210 tag =>
    exact (packGroups_twin b tag _ _ _).mono (fun x hx => (groupBytes_iff_regions _ _ _ x).1 hx)
      fun x hx => (packed_iff_region _ _ _ x).2 hx

/-! ### Frames -/

theorem frameRows_twin {row : Nat → Memory → Except FaultReason Memory} {R W : Nat → Int → Prop} {n y : Nat}
    (h : ∀ k, y ≤ k → k < y + n → Twin (R k) (W k) (row k)) :
    Twin (fun x => ∃ k, y ≤ k ∧ k < y + n ∧ R k x) (fun x => ∃ k, y ≤ k ∧ k < y + n ∧ W k x)
      (frameRows row n y) := by
  induction n generalizing y with
  | zero => exact Twin.skip.mono (fun _ h => h.elim) fun x ⟨k, h1, h2, _⟩ => by omega
  | succ n ih =>
    refine ((h y (le_refl _) (by omega)).seq (ih (y := y + 1) fun k h1 h2 => h k (by omega) (by omega))).mono ?_ ?_
    · rintro x (hx | ⟨k, h1, h2, hx⟩)
      · exact ⟨y, le_refl _, by omega, hx⟩
      · exact ⟨k, by omega, by omega, hx⟩
    · rintro x ⟨k, h1, h2, hx⟩
      by_cases e : k = y
      · exact .inl (e ▸ hx)
      · exact .inr ⟨k, by omega, by omega, hx⟩

theorem copyRow_twin (b : Bus) (l : LumaCopy) (y : Nat) :
    Twin (InRegions [l.readAt y]) (InRegions [l.writeAt y]) (copyRow b l y) := by
  refine ⟨fun m m' r h => ?_, fun m n hw h => (copyRow_wrote y m n h).wf hw, fun A hA m m' n n' hw hw' ha h1 h2 => ?_⟩
  · unfold copyRow at h ⊢
    unfold Bus.memRead at h ⊢
    split at h
    · rename_i he
      cases h
      split at he
      · rename_i hc
        cases he
        rfl
      · cases he
    · rename_i bs hbs
      split at hbs
      · cases hbs
      · rename_i hc
        cases hbs
        have := memWrite_error h
        unfold Bus.memWrite
        simp only [length_readBytes] at this ⊢
        rw [this]
  · obtain ⟨hc, h1⟩ := copyRow_ok h1
    obtain ⟨_, h2⟩ := copyRow_ok h2
    have he : m'.readBytes (l.src + y * l.srcStride).toNat l.nbytes
        = m.readBytes (l.src + y * l.srcStride).toNat l.nbytes := by
      rcases Nat.eq_zero_or_pos l.nbytes with h0 | hn
      · rw [h0]; rfl
      · have h0 := (good_of_check hc _ (le_refl _) (by omega)).1
        refine readBytes_congr _ _ _ _ fun k hk1 hk2 => (ha k (hA k ⟨_, List.mem_singleton.2 rfl, ?_⟩)).symm
        refine (has_iff _ _).2 ⟨?_, ?_⟩ <;> simp only [LumaCopy.readAt] <;> omega
    rw [he] at h2
    have := (memWrite_twin b _ _ 1).agree A (fun _ h => h.elim) m m' n n' hw hw' ha h1 h2
    intro k hk
    refine this k (hk.imp id ?_)
    rintro ⟨r, hr, hx⟩
    rw [List.mem_singleton.1 hr] at hx
    rw [length_readBytes]
    exact (has_iff _ _).1 hx

theorem copyLuma_twin (b : Bus) (l : Option LumaCopy) :
    Twin (InRegions ((l.map LumaCopy.reads).getD [])) (InRegions ((l.map LumaCopy.writes).getD [])) (copyLuma b l) := by
  cases l with
  | none => exact Twin.skip.mono (fun _ h => h.elim) fun x ⟨r, hr, _⟩ => by cases hr
  | some l =>
    have e : copyLuma b (some l) = frameRows (copyRow b l) l.nrows 0 := funext fun m => copyRows_eq b l l.nrows 0 m
    rw [e]
    refine (frameRows_twin fun k _ _ => copyRow_twin b l k).mono ?_ ?_
    · rintro x ⟨k, _, hk, r, hr, hx⟩
      rw [List.mem_singleton.1 hr] at hx
      exact ⟨_, List.mem_map.2 ⟨k, List.mem_range.2 (by omega), rfl⟩, hx⟩
    · rintro x ⟨r, hr, hx⟩
      obtain ⟨k, hk, rfl⟩ := List.mem_map.1 hr
      exact ⟨k, Nat.zero_le _, by have := List.mem_range.1 hk; omega, _, List.mem_singleton.2 rfl, hx⟩

theorem inRegions_append {l l' : List Region} {x : Int} :
    InRegions (l ++ l') x ↔ InRegions l x ∨ InRegions l' x := by
  unfold InRegions
  simp only [List.mem_append, or_and_right, exists_or]

theorem inRegions_flatMap {n : Nat} {g : Nat → List Region} {x : Int} :
    InRegions ((List.range n).flatMap g) x ↔ ∃ k, 0 ≤ k ∧ k < 0 + n ∧ InRegions (g k) x := by
  unfold InRegions
  simp only [List.mem_flatMap, List.mem_range]
  constructor
  · rintro ⟨r, ⟨k, hk, hr⟩, hx⟩
    exact ⟨k, Nat.zero_le _, by omega, r, hr, hx⟩
  · rintro ⟨k, _, hk, r, hr, hx⟩
    exact ⟨r, ⟨k, by omega, hr⟩, hx⟩

theorem planUnpack_twin {p : FramePlan} {desc : Descriptor} {b : Bus} :
    Twin (InRegions (p.unpackFootprint desc).reads) (InRegions (p.unpackFootprint desc).writes) (p.unpack b desc) := by
  refine ((copyLuma_twin b p.luma).seq (frameRows_twin (n := p.rows) (y := 0)
    (R := fun y => InRegions [desc.packedRegion (p.packedRow y) 0 p.width])
    (W := fun y => InRegions (desc.planeRegions (p.planesRow y) 0 p.width))
    fun k _ _ => descUnpack_twin)).mono ?_ ?_
  · rintro x hx
    unfold FramePlan.unpackFootprint FramePlan.packedRegions
    rw [map_eq_flatMap, inRegions_append, inRegions_flatMap]
    exact hx
  · rintro x hx
    unfold FramePlan.unpackFootprint FramePlan.planeRegions at hx
    rw [inRegions_append, inRegions_flatMap] at hx
    exact hx

theorem planPack_twin {p : FramePlan} {desc : Descriptor} {b : Bus} {fill : Bool} (hc : p.checks desc = .ok ()) :
    Twin (InRegions (p.packFootprint desc).reads) (InRegions (p.packFootprint desc).writes) (p.pack b fill desc) := by
  obtain ⟨_, hp, _⟩ := planChecks_ok hc
  refine ((copyLuma_twin b p.luma).seq (frameRows_twin (n := p.rows) (y := 0)
    (R := fun y => InRegions (desc.planeRegions (p.planesRow y) 0 p.width))
    (W := fun y => InRegions [desc.packedRegion (p.packedRow y) 0 p.width])
    fun k _ hk => descPack_twin (hp k (by omega)))).mono ?_ ?_
  · rintro x hx
    unfold FramePlan.packFootprint FramePlan.planeRegions
    rw [inRegions_append, inRegions_flatMap]
    exact hx
  · rintro x hx
    unfold FramePlan.packFootprint FramePlan.packedRegions at hx
    rw [map_eq_flatMap, inRegions_append, inRegions_flatMap] at hx
    exact hx

/-! ### Commands -/

/-- What a command is, apart from the memory it runs over: a fault, a refusal, a write of BFX_OUT, or a transfer with
a footprint. -/
inductive Shape (i : Instr) (s : State) : Prop
  | fault (r : FaultReason) (h : ∀ m, exec i { s with mem := m } = .next { s with mem := m, status := .faulted r })
  | refused (q : Refusal) (h : ∀ m, exec i { s with mem := m } = .refused q)
  | bfx (s1 : State) (w : Word) (hr : Resolved i.fmt s s1) (hf : commandFootprint i s = ⟨[], []⟩)
    (h : ∀ m, exec i { s with mem := m } = .next ({ s1 with mem := m }.putReg .bfxOut w))
  | transfer (k : Key) (checks : Except FaultReason Unit) (f : Footprint) (acc : Memory → Except FaultReason Memory)
    (hf : commandFootprint i s = f)
    (ht : checks = .ok () → Twin (InRegions f.reads) (InRegions f.writes) acc)
    (h : ∀ m, exec i { s with mem := m } = runTransfer { s.resolve i.fmt k with mem := m } checks f acc)

theorem resolve_withMem (s : State) (f : Fmt) (k : Key) (m : Memory) :
    ({ s with mem := m } : State).resolve f k = { s.resolve f k with mem := m } := by
  unfold State.resolve State.cacheAt
  simp only
  split <;> rfl

theorem shape_withFormat {i : Instr} {s : State} {f : Fmt} (k : Memory → RegistryEntry → Descriptor → Result)
    (hk : ∀ r d, registry f = some r → s.cfg.catalog[f.toNat]? = some d →
      (∀ m, exec i { s with mem := m } = k m r d) → Shape i s)
    (h : ∀ m, exec i { s with mem := m } = withFormat { s with mem := m } f (k m)) : Shape i s := by
  cases hr : registry f with
  | none => exact .fault .badFormat fun m => by rw [h m]; simp only [withFormat, hr, raiseFault]
  | some r =>
    cases hd : s.cfg.catalog[f.toNat]? with
    | none => exact .refused .badCatalog fun m => by rw [h m]; simp only [withFormat, hr, hd]
    | some d => exact hk r d hr hd fun m => by rw [h m]; simp only [withFormat, hr, hd]

theorem shape_bfx {i : Instr} {s : State} {f : Fmt} {slot : BitVec 2} {g : Layout → Nat → Nat → Nat → Nat}
    (hf : commandFootprint i s = ⟨[], []⟩)
    (h : ∀ m, exec i { s with mem := m } = bfxCommand { s with mem := m } f slot g) : Shape i s := by
  refine shape_withFormat (fun m _ d => match d with
    | .v210 _ => raiseFault { s with mem := m } .formatOp
    | .generic d =>
      match d.slots[slot.toNat] with
      | .pad => raiseFault { s with mem := m } .padSlot
      | .field _ sh dp =>
        match ({ s with mem := m } : State).arg .bfxIn with
        | .error r => raiseFault { s with mem := m } r
        | .ok w => .next (({ s with mem := m } : State).putReg .bfxOut (BitVec.ofNat 64 (g d sh dp w.toNat))))
    (fun r d _ _ h => ?_) h
  cases d with
  | v210 tag => exact .fault .formatOp h
  | generic d =>
    simp only at h
    split at h
    · exact .fault .padSlot h
    · cases ha : s.regs.get .bfxIn with
      | unwritten => exact .fault .unwritten fun m => by rw [h m]; simp only [State.arg, ha, raiseFault]
      | value w => exact .bfx s _ (.inl rfl) hf fun m => by rw [h m]; simp only [State.arg, ha]; rfl

theorem shape_line {i : Instr} {s : State} {r0 : Except FaultReason LineOperands} {k : Key}
    {checks : LineOperands → Except FaultReason Unit} {f : LineOperands → Footprint}
    {acc : LineOperands → Memory → Except FaultReason Memory}
    (hf : ∀ o, r0 = .ok o → commandFootprint i s = f o)
    (ht : ∀ o, checks o = .ok () → Twin (InRegions (f o).reads) (InRegions (f o).writes) (acc o))
    (he : ∀ r, r0 = .error r → ∀ m, exec i { s with mem := m } = raiseFault { s with mem := m } r)
    (h : ∀ o, r0 = .ok o → ∀ m, exec i { s with mem := m } =
      runTransfer (({ s with mem := m } : State).resolve i.fmt k) (checks o) (f o) (acc o)) : Shape i s := by
  cases r0 with
  | error r => exact .fault r (he r rfl)
  | ok o => exact .transfer k _ _ _ (hf o rfl) (ht o) fun m => by rw [h o rfl m]; simp only [resolve_withMem]

/-- Every command has a shape: memory decides nothing of it but what its accesses read and leave. -/
theorem exec_shape (i : Instr) (s : State) : Shape i s := by
  cases i with
  | extract f slot =>
    exact shape_bfx (f := f) (slot := slot)
      (g := fun d sh dp word => extractField (word % 2 ^ d.pkw) sh dp) rfl fun m => rfl
  | align f slot =>
    exact shape_bfx (f := f) (slot := slot)
      (g := fun _ sh dp v => alignField v sh dp) rfl fun m => rfl
  | selectU f =>
    cases hr : registry f with
    | none => exact .fault .badFormat fun m => by simp only [exec, execSelectU, selectCommand, hr, raiseFault]
    | some r =>
      refine .bfx (s.resolve f .unpack) (BitVec.zeroExtend 64 (s.handle f .unpack)) (.inr ⟨_, rfl⟩) rfl fun m => ?_
      simp only [exec, execSelectU, selectCommand, hr, resolve_withMem]
      rfl
  | selectP f fill =>
    cases hr : registry f with
    | none => exact .fault .badFormat fun m => by simp only [exec, execSelectP, selectCommand, hr, raiseFault]
    | some r =>
      refine .bfx (s.resolve f (packKey fill)) (BitVec.zeroExtend 64 (s.handle f (packKey fill))) (.inr ⟨_, rfl⟩) rfl
        fun m => ?_
      simp only [exec, execSelectP, selectCommand, hr, resolve_withMem]
      rfl
  | unpackLine f =>
    refine shape_withFormat (f := f) (fun m _ d => match d with
      | .v210 _ => .refused .illFormed
      | .generic d =>
        match s.unpackLineOperands with
        | .error r => raiseFault { s with mem := m } r
        | .ok o =>
          runTransfer (({ s with mem := m } : State).resolve f .unpack) (d.lineChecks o) (d.unpackFootprint o)
          (d.unpackRow s.bus o.packed o.planes o.left o.right))
      (fun r d _ hd h => ?_) fun m => rfl
    cases d with
    | v210 tag => exact .refused .illFormed h
    | generic d =>
      exact shape_line (r0 := s.unpackLineOperands) (k := .unpack) (checks := d.lineChecks) (f := d.unpackFootprint)
        (acc := fun o => d.unpackRow s.bus o.packed o.planes o.left o.right)
        (fun o ho => by
          simp only [commandFootprint, commandFootprint.genericOf, commandFootprint.lineOf, hd, ho])
        (fun o _ => unpackRow_twin)
        (fun e he m => by rw [h m]; simp only [he]) fun o ho m => by rw [h m]; simp only [ho]; rfl
  | packLine f fill =>
    refine shape_withFormat (f := f) (fun m _ d => match d with
      | .v210 _ => .refused .illFormed
      | .generic d =>
        match s.packLineOperands with
        | .error r => raiseFault { s with mem := m } r
        | .ok o =>
          runTransfer (({ s with mem := m } : State).resolve f (packKey fill)) (d.lineChecks o) (d.packFootprint o)
          (d.packRow s.bus fill o.planes o.packed o.left o.right))
      (fun r d _ hd h => ?_) fun m => rfl
    cases d with
    | v210 tag => exact .refused .illFormed h
    | generic d =>
      exact shape_line (r0 := s.packLineOperands) (k := packKey fill) (checks := d.lineChecks) (f := d.packFootprint)
        (acc := fun o => d.packRow s.bus fill o.planes o.packed o.left o.right)
        (fun o ho => by
          simp only [commandFootprint, commandFootprint.genericOf, commandFootprint.lineOf, hd, ho])
        (fun o hc => packRow_twin (lineChecks_ok hc).2)
        (fun e he m => by rw [h m]; simp only [he]) fun o ho m => by rw [h m]; simp only [ho]; rfl
  | unpackLineV210 f =>
    refine shape_withFormat (f := f) (fun m _ d => match d with
      | .generic _ => .refused .illFormed
      | .v210 tag =>
        match s.unpackLineOperands with
        | .error r => raiseFault { s with mem := m } r
        | .ok o =>
          runTransfer (({ s with mem := m } : State).resolve f .unpack) (v210LineChecks o) (v210UnpackFootprint o)
          (v210UnpackRow tag s.bus o.packed o.planes o.left o.right))
      (fun r d _ hd h => ?_) fun m => rfl
    cases d with
    | generic d => exact .refused .illFormed h
    | v210 tag =>
      exact shape_line (r0 := s.unpackLineOperands) (k := .unpack) (checks := v210LineChecks) (f := v210UnpackFootprint)
        (acc := fun o => v210UnpackRow tag s.bus o.packed o.planes o.left o.right)
        (fun o ho => by
          simp only [commandFootprint, commandFootprint.lineOf, ho])
        (fun o _ => descUnpack_twin (desc := .v210 tag))
        (fun e he m => by rw [h m]; simp only [he]) fun o ho m => by rw [h m]; simp only [ho]; rfl
  | packLineV210 f fill =>
    refine shape_withFormat (f := f) (fun m _ d => match d with
      | .generic _ => .refused .illFormed
      | .v210 tag =>
        match s.packLineOperands with
        | .error r => raiseFault { s with mem := m } r
        | .ok o =>
          runTransfer (({ s with mem := m } : State).resolve f (packKey fill)) (v210LineChecks o) (v210PackFootprint o)
          (v210PackRow tag s.bus o.planes o.packed o.left o.right))
      (fun r d _ hd h => ?_) fun m => rfl
    cases d with
    | generic d => exact .refused .illFormed h
    | v210 tag =>
      exact shape_line (r0 := s.packLineOperands) (k := packKey fill) (checks := v210LineChecks) (f := v210PackFootprint)
        (acc := fun o => v210PackRow tag s.bus o.planes o.packed o.left o.right)
        (fun o ho => by
          simp only [commandFootprint, commandFootprint.lineOf, ho])
        (fun o hc => descPack_twin (desc := .v210 tag) (fill := fill) (v210LineChecks_ok hc).2)
        (fun e he m => by rw [h m]; simp only [he]) fun o ho m => by rw [h m]; simp only [ho]; rfl
  | unpackFrame f skip one =>
    refine shape_withFormat (f := f) (fun m r d => match s.frameOperands with
      | .error e => raiseFault { s with mem := m } e
      | .ok o =>
        runTransfer (({ s with mem := m } : State).resolve f .unpack) ((unpackPlan r skip o).checks d)
        ((unpackPlan r skip o).unpackFootprint d) ((unpackPlan r skip o).unpack s.bus d))
      (fun r d hr hd h => ?_) fun m => rfl
    cases ho : s.frameOperands with
    | error e =>
      exact .fault e fun m => by
        rw [h m, ho]
        rfl
    | ok o =>
      refine .transfer .unpack ((unpackPlan r skip o).checks d) ((unpackPlan r skip o).unpackFootprint d)
        ((unpackPlan r skip o).unpack s.bus d) ?_ (fun _ => planUnpack_twin) fun m => ?_
      · simp only [commandFootprint, commandFootprint.frameOf, hr, hd, ho]
      · rw [h m, ho, ← resolve_withMem]
        rfl
  | packFrame f skip fill =>
    refine shape_withFormat (f := f) (fun m r d => match s.frameOperands with
      | .error e => raiseFault { s with mem := m } e
      | .ok o =>
        runTransfer (({ s with mem := m } : State).resolve f (packKey fill)) ((packPlan r skip o).checks d)
        ((packPlan r skip o).packFootprint d) ((packPlan r skip o).pack s.bus fill d))
      (fun r d hr hd h => ?_) fun m => rfl
    cases ho : s.frameOperands with
    | error e =>
      exact .fault e fun m => by
        rw [h m, ho]
        rfl
    | ok o =>
      refine .transfer (packKey fill) ((packPlan r skip o).checks d) ((packPlan r skip o).packFootprint d)
        ((packPlan r skip o).pack s.bus fill d) ?_ planPack_twin fun m => ?_
      · simp only [commandFootprint, commandFootprint.frameOf, hr, hd, ho]
      · rw [h m, ho, ← resolve_withMem]
        rfl

/-! ### Memory made unspecified -/

/-- Memories that agree on a set agree on it after the same bytes became unspecified. -/
theorem forgetRegions_agree {A : Int → Prop} (b : Bus) (ix : Nat) (l : List Region) {m m' : Memory}
    (hw : Memory.wf m = true) (hw' : Memory.wf m' = true) (ha : AgreeOn A m m') :
    AgreeOn A (forgetRegions b ix l m) (forgetRegions b ix l m') := by
  have one : ∀ (n : Nat) (base : Int) (m m' : Memory), Memory.wf m = true → Memory.wf m' = true → AgreeOn A m m' →
      AgreeOn A (forgetRegion b ix base n m) (forgetRegion b ix base n m') := by
    intro n
    induction n with
    | zero => intro base m m' _ _ ha; exact ha
    | succ n ih =>
      intro base m m' hw hw' ha
      unfold forgetRegion
      simp only
      split
      · refine ih _ _ _ (wf_write _ _ _ hw) (wf_write _ _ _ hw') fun k hk => ?_
        rw [read_write _ _ _ _ hw, read_write _ _ _ _ hw', ha k hk]
      · exact ih _ _ _ hw hw' ha
  induction l generalizing m m' with
  | nil => exact ha
  | cons r rest ih =>
    exact ih ((forgetRegion_wrote b ix r.base r.len m).wf hw) ((forgetRegion_wrote b ix r.base r.len m').wf hw')
      (one _ _ _ _ hw hw' ha)

end Sys2Proof.Machine
end

