-- ==== Sys2Proof/Laws/Operands.lean ====
section
/-! SUPPORT. What the operand reads of a command give (10_state.md R22, R39). -/

namespace Sys2Proof.Machine

theorem argPtr_eq {s : State} {n : ArgName} {w : Word} (h : s.regs.get n = .value w)
    (hw : w.toNat < 2 ^ s.cfg.addrW) : s.argPtr n = .ok (w.toNat : Int) := by
  simp [State.argPtr, State.arg, h, hw]

theorem argDim_eq {s : State} {n : ArgName} {w : Word} (h : s.regs.get n = .value w) (hw : w.toNat < 2 ^ 32) :
    s.argDim n = .ok w.toNat := by
  simp only [State.argDim, State.arg, h, if_pos hw]

theorem argStride_eq {s : State} {n : ArgName} {w : Word} (h : s.regs.get n = .value w) :
    s.argStride n = .ok w.toInt := by
  simp [State.argStride, State.arg, h]

/-- UNPACK_LINE reads the words its registers hold. -/
theorem unpackLineOperands_eq {s : State} {w : LineWords} (h : unpackLineHeld s w = true)
    (hf : w.fit s.cfg.addrW = true) : s.unpackLineOperands = .ok w.operands := by
  simp only [unpackLineHeld, Bool.and_eq_true, beq_iff_eq] at h
  simp only [LineWords.fit, List.all_cons, List.all_nil, Bool.and_eq_true, decide_eq_true_eq, and_true] at hf
  obtain ⟨⟨⟨⟨⟨⟨h1, h2⟩, h3⟩, h4⟩, h5⟩, h6⟩, h7⟩ := h
  obtain ⟨⟨⟨f1, f2, f3, f4, f5⟩, f6⟩, f7⟩ := hf
  unfold State.unpackLineOperands
  rw [argPtr_eq h1 f1, argPtr_eq h2 f2, argPtr_eq h3 f3, argPtr_eq h4 f4, argPtr_eq h5 f5, argDim_eq h6 f6,
    argDim_eq h7 f7]
  rfl

/-- PACK_LINE reads the words its registers hold. -/
theorem packLineOperands_eq {s : State} {w : LineWords} (h : packLineHeld s w = true)
    (hf : w.fit s.cfg.addrW = true) : s.packLineOperands = .ok w.operands := by
  simp only [packLineHeld, Bool.and_eq_true, beq_iff_eq] at h
  simp only [LineWords.fit, List.all_cons, List.all_nil, Bool.and_eq_true, decide_eq_true_eq, and_true] at hf
  obtain ⟨⟨⟨⟨⟨⟨h1, h2⟩, h3⟩, h4⟩, h5⟩, h6⟩, h7⟩ := h
  obtain ⟨⟨⟨f1, f2, f3, f4, f5⟩, f6⟩, f7⟩ := hf
  unfold State.packLineOperands
  rw [argPtr_eq h2 f2, argPtr_eq h3 f3, argPtr_eq h4 f4, argPtr_eq h5 f5, argPtr_eq h1 f1, argDim_eq h6 f6,
    argDim_eq h7 f7]
  rfl

theorem planeOperands_eq {s : State} {p : Fin 4} {w : PlaneWords} (h : planeHeld s p w = true)
    (h1 : w.src.toNat < 2 ^ s.cfg.addrW) (h2 : w.dst.toNat < 2 ^ s.cfg.addrW) :
    s.planeOperands p = .ok ⟨w.src.toNat, w.srcStride.toInt, w.dst.toNat, w.dstStride.toInt⟩ := by
  simp only [planeHeld, Bool.and_eq_true, beq_iff_eq] at h
  obtain ⟨⟨⟨g1, g2⟩, g3⟩, g4⟩ := h
  unfold State.planeOperands
  rw [argPtr_eq g1 h1, argStride_eq g2, argPtr_eq g3 h2, argStride_eq g4]
  rfl

/-- The frame commands read the words their registers hold. -/
theorem frameOperands_eq {s : State} {w : FrameWords} (h : frameHeld s w = true)
    (hf : w.fit s.cfg.addrW = true) : s.frameOperands = .ok w.operands := by
  simp only [frameHeld, Bool.and_eq_true, beq_iff_eq] at h
  simp only [FrameWords.fit, List.all_cons, List.all_nil, Bool.and_eq_true, decide_eq_true_eq, and_true] at hf
  obtain ⟨⟨⟨⟨⟨h1, h2⟩, h3⟩, h4⟩, h5⟩, h6⟩ := h
  obtain ⟨⟨⟨f0, f1, f2, f3⟩, f4⟩, f5⟩ := hf
  unfold State.frameOperands
  rw [argDim_eq h1 f4, argDim_eq h2 f5, planeOperands_eq h3 f0.1 f0.2, planeOperands_eq h4 f1.1 f1.2,
    planeOperands_eq h5 f2.1 f2.2, planeOperands_eq h6 f3.1 f3.2]
  rfl

end Sys2Proof.Machine
end

