-- ==== Sys2Proof/Laws/PerInstr.lean ====
section
/-! SUPPORT. What holds of every command as syntax, one lemma per constructor (30_encoding.md R90 to R94). -/

namespace Sys2Proof.Laws

/-- The encoding of a command sets no reserved bit, has its format in FMT, and has an OP of 30_encoding.md R92. -/
def Fields.Statement (i : Instr) : Prop :=
  CmdWord.reservedSet (encode i) = false ∧ CmdWord.fmt (encode i) = i.fmt ∧
    CmdWord.op (encode i) ≠ 0 ∧ CmdWord.op (encode i) ≤ 7

theorem Fields.extract (fmt : Fmt) (slot : BitVec 2) : Fields.Statement (.extract fmt slot) := by
  revert fmt slot; unfold Fields.Statement; decide

theorem Fields.align (fmt : Fmt) (slot : BitVec 2) : Fields.Statement (.align fmt slot) := by
  revert fmt slot; unfold Fields.Statement; decide

theorem Fields.unpackLineV210 (fmt : Fmt) : Fields.Statement (.unpackLineV210 fmt) := by
  revert fmt; unfold Fields.Statement; decide

theorem Fields.unpackLine (fmt : Fmt) : Fields.Statement (.unpackLine fmt) := by
  revert fmt; unfold Fields.Statement; decide

theorem Fields.packLineV210 (fmt : Fmt) (fill : Bool) : Fields.Statement (.packLineV210 fmt fill) := by
  revert fmt fill; unfold Fields.Statement; decide

theorem Fields.packLine (fmt : Fmt) (fill : Bool) : Fields.Statement (.packLine fmt fill) := by
  revert fmt fill; unfold Fields.Statement; decide

theorem Fields.unpackFrame (fmt : Fmt) (skip alphaOne : Bool) : Fields.Statement (.unpackFrame fmt skip alphaOne) := by
  revert fmt skip alphaOne; unfold Fields.Statement; decide

theorem Fields.packFrame (fmt : Fmt) (skip fill : Bool) : Fields.Statement (.packFrame fmt skip fill) := by
  revert fmt skip fill; unfold Fields.Statement; decide

theorem Fields.selectU (fmt : Fmt) : Fields.Statement (.selectU fmt) := by
  revert fmt; unfold Fields.Statement; decide

theorem Fields.selectP (fmt : Fmt) (fill : Bool) : Fields.Statement (.selectP fmt fill) := by
  revert fmt fill; unfold Fields.Statement; decide

end Sys2Proof.Laws
end

