-- ==== Sys2Proof/Tests/Slice0.lean ====
section
/-! SUPPORT. Tests: ill-formed terms refused, words decoded, the catalog's masks, one step of each command, and a
witness of the hypotheses of every statement. Expected values are those of spec/95_test_vectors.md (named with each
test) or of the table a test cites. -/

namespace Sys2Proof.Tests
open Machine

/-! ### Helpers -/

/-- A memory with these bytes. -/
def memOf (l : List (Nat × List Byte)) : Memory := l.foldl (fun m p => m.writeBytes p.1 p.2) []

/-- Right after reset, with the first 2^16 bytes in the launch memory and these bytes in it. -/
def fresh (l : List (Nat × List Byte)) : State := { State.reset with admitSet := [⟨0, 0x10000⟩], mem := memOf l }

/-- A state whose line registers hold these words, for UNPACK_LINE. -/
def unpackState (w : LineWords) (l : List (Nat × List Byte)) : State :=
  { fresh l with regs := { ArgRegs.reset with
      left := .value w.left, right := .value w.right, src := #v[.value w.packed, .unwritten, .unwritten, .unwritten]
      dst := #v[.value w.y, .value w.u, .value w.v, .value w.a] } }

/-- A state whose line registers hold these words, for PACK_LINE. -/
def packState (w : LineWords) (l : List (Nat × List Byte)) : State :=
  { fresh l with regs := { ArgRegs.reset with
      left := .value w.left, right := .value w.right, dst := #v[.value w.packed, .unwritten, .unwritten, .unwritten]
      src := #v[.value w.y, .value w.u, .value w.v, .value w.a] } }

/-- A state whose frame registers hold these words. -/
def frameState (w : FrameWords) (l : List (Nat × List Byte)) : State :=
  { fresh l with regs := { ArgRegs.reset with
      width := .value w.width, height := .value w.height
      src := #v[.value w.p0.src, .value w.p1.src, .value w.p2.src, .value w.p3.src]
      srcStride := #v[.value w.p0.srcStride, .value w.p1.srcStride, .value w.p2.srcStride, .value w.p3.srcStride]
      dst := #v[.value w.p0.dst, .value w.p1.dst, .value w.p2.dst, .value w.p3.dst]
      dstStride := #v[.value w.p0.dstStride, .value w.p1.dstStride, .value w.p2.dstStride, .value w.p3.dstStride] } }

/-- A state with BFX_IN written. -/
def bfxState (w : Word) : State := { State.reset with regs := { ArgRegs.reset with bfxIn := .value w } }

/-- A state with this host action next. -/
def withHost (s : State) (l : List HostAction) : State := { s with pending := l }

/-- What a test looks at in a next state. -/
def after {α : Type} (f : State → α) : Result → Option α
  | .next t => some (f t)
  | .fault _ => none
  | .refused _ => none

/-- The bytes at an address of a next state, with its status. -/
def bytesAt (a n : Nat) : Result → Option (Status × List Byte) := after fun t => (t.status, t.mem.readBytes a n)

/-- The status of a next state. -/
def statusOf : Result → Option Status := after State.status

/-- The fault of a stop. -/
def faultOf : Result → Option Fault
  | .next _ => none
  | .fault f => some f
  | .refused _ => none

theorem next_of_after {α : Type} {f : State → α} {r : Result} {x : α} (h : after f r = some x) :
    ∃ t, r = .next t ∧ f t = x := by
  cases r with
  | next t => exact ⟨t, rfl, Option.some.inj h⟩
  | fault _ => exact absurd h (by simp [after])
  | refused _ => exact absurd h (by simp [after])

/-! ### Well-formedness: each check refuses an ill-formed term -/

theorem test_wf_format : (Instr.extract 50 0).wellFormed = false := by decide
theorem test_wf_generic_on_v210 : (Instr.unpackLine 35).wellFormed = false ∧ (Instr.packLine 34 true).wellFormed = false := by
  decide
theorem test_wf_v210_on_generic : (Instr.unpackLineV210 36).wellFormed = false ∧
    (Instr.packLineV210 33 false).wellFormed = false := by decide
theorem test_wf_good : (Instr.packFrame 49 true true).wellFormed = true ∧ (Instr.unpackLineV210 34).wellFormed = true := by
  decide

/-! ### Decoding: words written bit by bit from 30_encoding.md R91 (31:18 zero, 17 ALPHA_SET_ONE, 16 SKIP, 15:14 zero,
13:8 FMT, 7 zero, 6 SEL_PACK, 5:4 SLOT, 3:0 OP) -/

theorem test_dec_extract : decodeTableWord 32 0b00000000000000_0_0_00_010101_0_0_11_0001 = some (.extract 21 3) := by decide
theorem test_dec_align : decodeTableWord 32 0b00000000000000_0_0_00_011101_0_0_00_0010 = some (.align 29 0) := by decide
theorem test_dec_unpackLineV210 :
    decodeTableWord 32 0b00000000000000_0_0_00_100011_0_0_00_0011 = some (.unpackLineV210 35) := by decide
theorem test_dec_unpackLine : decodeTableWord 32 0b00000000000000_0_0_00_100100_0_0_00_0011 = some (.unpackLine 36) := by
  decide
theorem test_dec_packLineV210 :
    decodeTableWord 32 0b00000000000000_1_0_00_100010_0_0_00_0100 = some (.packLineV210 34 true) := by decide
theorem test_dec_packLine : decodeTableWord 32 0b00000000000000_1_0_00_000010_0_0_00_0100 = some (.packLine 2 true) := by
  decide
theorem test_dec_unpackFrame :
    decodeTableWord 32 0b00000000000000_1_0_00_100111_0_0_00_0101 = some (.unpackFrame 39 false true) := by decide
theorem test_dec_packFrame :
    decodeTableWord 32 0b00000000000000_0_1_00_101000_0_0_00_0110 = some (.packFrame 40 true false) := by decide
theorem test_dec_selectU : decodeTableWord 32 0b00000000000000_0_0_00_100011_0_0_00_0111 = some (.selectU 35) := by decide
theorem test_dec_selectP : decodeTableWord 32 0b00000000000000_1_0_00_000010_0_1_00_0111 = some (.selectP 2 true) := by
  decide

/-- The ILLEGAL_CMD rows of 95_test_vectors.md 2.1. -/
theorem test_dec_illegal : ([0x0, 0x8, 0xF, 0x100000001, 0x81, 0x4001, 0x40003, 0x41, 0x10001, 0x10003, 0x13, 0x20003,
    0x16, 0x20007, 0x10047, 0x3281] : List Word).all (fun v => decodeCmd v == .error .illegalCmd) = true := by decide
/-- The BAD_FORMAT rows of 95_test_vectors.md 2.1. -/
theorem test_dec_badFormat : decodeCmd 0x3201 = .error .badFormat ∧ decodeCmd 0x3F03 = .error .badFormat := by decide

/-! ### The catalog: COMP_MASK, SHIFT_MASK, DEPTH_MASK of 30_encoding.md R112 to R117, one member of each pair -/

/-- The masks of some ids. -/
def masksOf (l : List Nat) : List (Option (Nat × Nat × Nat)) := l.map fun n => defaultCatalog[n]?.bind Descriptor.masks

theorem test_masks_rgb8 : masksOf [0, 3, 4] = [some (0xFF000102, 0x00100800, 0x00080808),
    some (0x03000102, 0x18100800, 0x08080808), some (0x00010203, 0x18100800, 0x08080808)] := by decide
theorem test_masks_rgb16 : masksOf [7, 8, 11, 12, 15, 16, 19] = [some (0xFF000102, 0x00201000, 0x00101010),
    some (0x03000102, 0x30201000, 0x10101010), some (0x00010203, 0x30201000, 0x10101010),
    some (0x03020100, 0x30201000, 0x10101010), some (0x02010003, 0x30201000, 0x10101010),
    some (0xFF020100, 0x00201000, 0x00101010), some (0xFF000102, 0x00140A00, 0x000A0A0A)] := by decide
theorem test_masks_yuv : masksOf [20, 23, 24, 26, 27, 28, 31, 32, 37] = [some (0x03020001, 0x1E140A00, 0x020A0A0A),
    some (0x03020001, 0x34241404, 0x0C0C0C0C), some (0x03020001, 0x30201000, 0x10101010),
    some (0x02000100, 0x18100800, 0x08080808), some (0x00020001, 0x18100800, 0x08080808),
    some (0x02000100, 0x36261606, 0x0A0A0A0A), some (0x02000100, 0x34241404, 0x0C0C0C0C),
    some (0x02000100, 0x30201000, 0x10101010), some (0x00020001, 0x30201000, 0x10101010)] := by decide
theorem test_masks_nv : masksOf [38, 41, 42, 45, 46, 49, 34] = [some (0xFFFF0201, 0x00000800, 0x00000808),
    some (0xFFFF0201, 0x00001606, 0x00000A0A), some (0xFFFF0201, 0x00001404, 0x00000C0C),
    some (0xFFFF0201, 0x00001000, 0x00001010), some (0xFFFF0201, 0x00001606, 0x00000A0A),
    some (0xFFFF0201, 0x00001000, 0x00001010), none] := by decide

/-! ### One step of each command -/

/-- A step that launches a command word. -/
def run (v : Nat) (s : State) : Result := step (s.withFetchWord 32 v)

/-- BFX_OUT of a next state. -/
def bfxOut : Result → Option Reg := after fun t => t.regs.bfxOut

/-- W9: EXTRACT y410_le, slot 3. -/
theorem test_extract_alpha : bfxOut (run 0x1531 (bfxState 0xC0000000)) = some (.value 0x3) := by decide
/-- 2.2: bits above PKW are ignored. -/
theorem test_extract_above_pkw : bfxOut (run 0x21 (bfxState 0xFFA0B0C0)) = some (.value 0xA0) := by decide
/-- W9: ALIGN y210_le, slot 0; bit 10 is dropped. -/
theorem test_align_truncates : bfxOut (run 0x1D02 (bfxState 0x7FF)) = some (.value 0xFFC0) := by decide
/-- 2.2: ALIGN y210_le, slot 3 reaches bit 63. -/
theorem test_align_top : bfxOut (run 0x1D32 (bfxState 0x3FF)) = some (.value 0xFFC0000000000000) := by decide

/-- The registers of S1: yuy2 over [2,4). -/
def wordsS1 : LineWords := ⟨0x1000, 0x2000, 0x3000, 0x4000, 0, 2, 4⟩
/-- The state of S1. -/
def stateS1 : State := unpackState wordsS1
  [(0x1000, [0x10, 0x80, 0x11, 0x90, 0x20, 0x81, 0x21, 0x91]), (0x2000, [0xEE, 0xEE, 0xEE, 0xEE]),
   (0x3000, [0xEE, 0xEE]), (0x4000, [0xEE, 0xEE])]

/-- S1: pre-advance by left and left >> 1, and sentinels. -/
theorem test_unpackLine_yuy2 : bytesAt 0x2000 4 (run 0x1A03 stateS1) = some (.idle, [0xEE, 0xEE, 0x20, 0x21]) ∧
    bytesAt 0x3000 2 (run 0x1A03 stateS1) = some (.idle, [0xEE, 0x81]) ∧
    bytesAt 0x4000 2 (run 0x1A03 stateS1) = some (.idle, [0xEE, 0x91]) := by decide
/-- S5: rgb48_be. -/
theorem test_unpackLine_rgb48_be :
    let r := run 0x603 (unpackState ⟨0x10, 0x20, 0x22, 0x24, 0, 0, 1⟩ [(0x10, [0x12, 0x34, 0x56, 0x78, 0x9A, 0xBC])])
    bytesAt 0x20 6 r = some (.idle, [0x34, 0x12, 0x78, 0x56, 0xBC, 0x9A]) := by decide

/-- S2: PACK_LINE y210_le. -/
theorem test_packLine_y210_le :
    let r := run 0x1D04 (packState ⟨0x100, 0x10, 0x20, 0x30, 0, 0, 2⟩
      [(0x10, [0xFF, 0x03, 0x01, 0x00]), (0x20, [0x00, 0x02]), (0x30, [0x55, 0x01])])
    bytesAt 0x100 8 r = some (.idle, [0xC0, 0xFF, 0x00, 0x80, 0x40, 0x00, 0x40, 0x55]) := by decide
/-- P3: the fill policy of argb32_be, off and on, and an alpha source. -/
theorem test_packLine_fill :
    let s (a : Word) := packState ⟨0x100, 0x10, 0x11, 0x12, a, 0, 1⟩ [(0x10, [0x01, 0x02, 0x03, 0x7F])]
    bytesAt 0x100 4 (run 0x204 (s 0)) = some (.idle, [0x00, 0x01, 0x02, 0x03]) ∧
    bytesAt 0x100 4 (run 0x20204 (s 0)) = some (.idle, [0xFF, 0x01, 0x02, 0x03]) ∧
    bytesAt 0x100 4 (run 0x20204 (s 0x13)) = some (.idle, [0x7F, 0x01, 0x02, 0x03]) := by decide

/-- The group of V1 in v210_le. -/
def groupV1 : List Byte := [0x00, 0x01, 0x01, 0x30, 0x00, 0x02, 0xC2, 0x3A, 0x01, 0x03, 0xC3, 0x30, 0x02, 0x03, 0x83, 0x10]
/-- The luma samples of V1. -/
def lumaV1 : List Byte := [0x40, 0x00, 0x00, 0x02, 0xAC, 0x03, 0xC0, 0x00, 0x02, 0x03, 0x08, 0x01]
/-- The U samples of V1. -/
def uV1 : List Byte := [0x00, 0x01, 0x80, 0x00, 0x0C, 0x03]
/-- The V samples of V1. -/
def vV1 : List Byte := [0x00, 0x03, 0x01, 0x03, 0xC0, 0x00]
/-- The registers of a v210 line over [6,12), plane 3 null. -/
def wordsV5 : LineWords := ⟨0x100, 0x200, 0x300, 0x400, 0, 6, 12⟩
/-- The registers of a v210 line over [0,6), plane 3 null. -/
def wordsV1 : LineWords := ⟨0x100, 0x200, 0x300, 0x400, 0, 0, 6⟩

/-- V5 and V10: the second group, by the cursors of R207. -/
theorem test_unpackLineV210_second :
    let r := run 0x2303 (unpackState wordsV5 [(0x110, groupV1), (0x200, [0xEE, 0xEE])])
    bytesAt 0x200 2 r = some (.idle, [0xEE, 0xEE]) ∧ bytesAt 0x20C 12 r = some (.idle, lumaV1) ∧
    bytesAt 0x306 6 r = some (.idle, uV1) ∧ bytesAt 0x406 6 r = some (.idle, vV1) := by decide
/-- V2: v210_be writes each word the other way round. -/
theorem test_packLineV210_be :
    let r := run 0x2204 (packState wordsV1 [(0x200, lumaV1), (0x300, uV1), (0x400, vV1)])
    bytesAt 0x100 16 r = some (.idle, [0x30, 0x01, 0x01, 0x00, 0x3A, 0xC2, 0x02, 0x00, 0x30, 0xC3, 0x03, 0x01, 0x10, 0x83,
      0x03, 0x02]) := by decide
/-- V4: sample bits 15:10 are dropped; V6: the fill policy changes nothing. -/
theorem test_packLineV210_truncates :
    let s := packState wordsV1 [(0x200, [0xFF, 0xFF])]
    bytesAt 0x100 5 (run 0x2304 s) = some (.idle, [0x00, 0xFC, 0x0F, 0x00, 0x00]) ∧
    bytesAt 0x100 5 (run 0x22304 s) = some (.idle, [0x00, 0xFC, 0x0F, 0x00, 0x00]) := by decide

/-- A machine whose ACCEL_TABLE has the handle 7 for (v210_le, UNPACK). -/
def accelState : State := { State.reset with cfg := { Config.default with accel := [⟨35, .unpack, 7⟩] } }
/-- G4: SELECT.U gives the handle of ACCEL_TABLE. -/
theorem test_selectU_handle : bfxOut (run 0x2307 accelState) = some (.value 7) ∧
    after (fun t => t.cacheAt 35 .unpack) (run 0x2307 accelState) = some (.resolved 7) := by decide +kernel
/-- G2: SELECT.P argb32_be, fill 1. -/
theorem test_selectP_entry : bfxOut (run 0x20247 State.reset) = some (.value 0) ∧
    after (fun t => (t.cacheAt 2 .packFill1, t.cacheAt 2 .packFill0)) (run 0x20247 State.reset)
      = some (.resolved 0, .unresolved) := by decide +kernel

/-- The registers of F3: nv12_le of 4 by 3 pixels. -/
def wordsF3 : FrameWords :=
  ⟨4, 3, ⟨0x100, 4, 0x200, 4⟩, ⟨0x140, 4, 0x300, 2⟩, ⟨0, 0, 0x400, 2⟩, ⟨0, 0, 0, 0⟩⟩
/-- The state of F3. -/
def stateF3 : State := frameState wordsF3
  [(0x100, [0x10, 0x11, 0x12, 0x13, 0x14, 0x15, 0x16, 0x17, 0x18, 0x19, 0x1A, 0x1B]), (0x140, [0xA0, 0xB0, 0xA1, 0xB1])]
/-- F3: three luma rows and one chroma row. -/
theorem test_unpackFrame_nv12 : bytesAt 0x200 12 (run 0x2705 stateF3)
      = some (.idle, [0x10, 0x11, 0x12, 0x13, 0x14, 0x15, 0x16, 0x17, 0x18, 0x19, 0x1A, 0x1B]) ∧
    bytesAt 0x300 4 (run 0x2705 stateF3) = some (.idle, [0xA0, 0xA1, 0x00, 0x00]) ∧
    bytesAt 0x400 4 (run 0x2705 stateF3) = some (.idle, [0xB0, 0xB1, 0x00, 0x00]) := by decide
/-- F4: a negative stride walks the image upward. -/
theorem test_unpackFrame_negative_stride :
    let r := run 0x5 (frameState ⟨1, 2, ⟨0x103, 0xFFFFFFFFFFFFFFFD, 0x200, 1⟩, ⟨0, 0, 0x300, 1⟩, ⟨0, 0, 0x400, 1⟩,
      ⟨0, 0, 0, 0⟩⟩ [(0x100, [1, 2, 3, 4, 5, 6])])
    bytesAt 0x200 2 r = some (.idle, [4, 1]) ∧ bytesAt 0x300 2 r = some (.idle, [5, 2]) ∧
    bytesAt 0x400 2 r = some (.idle, [6, 3]) := by decide

/-- The registers of F2: p010_be of 2 by 2 pixels. -/
def wordsF2 : FrameWords :=
  ⟨2, 2, ⟨0x1000, 4, 0x2000, 4⟩, ⟨0x1100, 2, 0x2100, 4⟩, ⟨0x1200, 2, 0, 0⟩, ⟨0, 0, 0, 0⟩⟩
/-- The state of F2 (P4). -/
def stateF2 : State := frameState wordsF2
  [(0x1000, [0x00, 0x40, 0x00, 0x80, 0x00, 0xC0, 0x01, 0x00]), (0x1100, [0x55, 0x01]), (0x1200, [0xAA, 0x02])]
/-- F2a, scenario C. -/
theorem test_packFrame_p010 :
    bytesAt 0x2000 8 (run 0x2806 stateF2) = some (.idle, [0x00, 0x40, 0x00, 0x80, 0x00, 0xC0, 0x01, 0x00]) ∧
    bytesAt 0x2100 4 (run 0x2806 stateF2) = some (.idle, [0xAA, 0x80, 0x55, 0x40]) := by decide
/-- F2b: with SKIP_UNPACKED_PLANES the luma destination stays. -/
theorem test_packFrame_skip :
    bytesAt 0x2000 8 (run 0x12806 stateF2) = some (.idle, [0, 0, 0, 0, 0, 0, 0, 0]) ∧
    bytesAt 0x2100 4 (run 0x12806 stateF2) = some (.idle, [0xAA, 0x80, 0x55, 0x40]) := by decide

/-! ### Faults (95_test_vectors.md 2.2 to 2.6) -/

/-- FORMAT_OP comes before the register read, PAD_SLOT too, and an Unwritten BFX_IN is UNWRITTEN. -/
theorem test_bfx_faults : statusOf (run 0x2301 State.reset) = some (.faulted .formatOp) ∧
    statusOf (run 0x31 State.reset) = some (.faulted .padSlot) ∧
    statusOf (run 0x1501 State.reset) = some (.faulted .unwritten) := by decide

/-- The scanline faults of 2.3: a range, a null pointer, an overlap, an access outside ADMIT, past 2^64, misaligned. -/
theorem test_line_faults :
    statusOf (run 0x1A03 (unpackState ⟨0x10, 0x20, 0x30, 0x40, 0, 1, 3⟩ [])) = some (.faulted .range) ∧
    statusOf (run 0x3 (unpackState ⟨0, 0x20, 0x30, 0x40, 0, 0, 1⟩ [])) = some (.faulted .nullPtr) ∧
    statusOf (run 0x3 (unpackState ⟨0x10, 0x20, 0x20, 0x40, 0, 0, 1⟩ [])) = some (.faulted .overlap) ∧
    statusOf (run 0x3 (unpackState ⟨0xFFFE, 0x20, 0x30, 0x40, 0, 0, 1⟩ [])) = some (.faulted .buffer) ∧
    statusOf (run 0x3 (unpackState ⟨0xFFFFFFFFFFFFFFFE, 0x20, 0x30, 0x40, 0, 0, 1⟩ [])) = some (.faulted .addrWrap) ∧
    statusOf (run 0x1D03 { unpackState ⟨0x1001, 0x20, 0x30, 0x40, 0, 0, 2⟩ [] with
      cfg := { Config.default with alignCheck := true } }) = some (.faulted .misaligned) := by decide

/-- F7, F8, F9, F11, F12. -/
theorem test_frame_faults :
    let w (width height : Word) (dst stride : Word) : FrameWords :=
      ⟨width, height, ⟨0x100, 0x10, dst, stride⟩, ⟨0x180, 0x10, 0x300, 0x10⟩, ⟨0, 0, 0x400, 0x10⟩, ⟨0, 0, 0, 0⟩⟩
    statusOf (run 0x1A05 (frameState (w 3 1 0x200 0x10) [])) = some (.faulted .range) ∧
    statusOf (run 0x2305 (frameState (w 4 1 0x200 0x10) [])) = some (.faulted .v210Range) ∧
    statusOf (run 0x5 (frameState (w 1 2 0x200 0) [])) = some (.faulted .overlap) ∧
    statusOf (run 0x2705 (frameState (w 2 2 0 0x10) [])) = some (.faulted .nullPtr) ∧
    statusOf (run 0x12705 (frameState (w 2 2 0 0x10) [])) = some .idle := by decide

/-- P6: a CMD write while Faulted is stuck, and the reset that follows it is taken. -/
theorem test_stuck :
    let s (l : List HostAction) : State := { State.reset with status := .faulted .unwritten, pending := l }
    faultOf (step (s [.regWrite 0 8 0x3])) = some .stuck ∧
    statusOf (step (s [.regWrite 0 8 0x3, .reset])) = some .idle := by decide

/-! ### Witnesses: for each statement with hypotheses, concrete values that meet all of them, a value for each clause -/

theorem catalog_ok : catalogOk defaultCatalog = true := by decide

/-- The descriptor of yuy2 (30_encoding.md R116). -/
def yuy2 : Layout := ⟨8, 32, .little, 2, 1, #v[fy 0 8, fu 8 8, fy 16 8, fv 24 8]⟩
/-- The descriptor of argb32_be (30_encoding.md R112). -/
def argb32 : Layout := ⟨8, 32, .big, 1, 0, #v[fv 0 8, fu 8 8, fy 16 8, fa 24 8]⟩
/-- The descriptor of nv12_le (30_encoding.md R117). -/
def nv12 : Layout := ⟨8, 16, .little, 2, 1, #v[fu 0 8, fv 8 8, .pad, .pad]⟩

theorem catalog_yuy2 : defaultCatalog[(26 : Fmt).toNat]? = some (.generic yuy2) := by decide
theorem catalog_argb32 : defaultCatalog[(2 : Fmt).toNat]? = some (.generic argb32) := by decide
theorem catalog_nv12 : defaultCatalog[(39 : Fmt).toNat]? = some (.generic nv12) := by decide
theorem catalog_v210_le : defaultCatalog[(35 : Fmt).toNat]? = some (.v210 .little) := by decide

theorem not_illegal {v : Word} (h1 : cmdOp v ≠ 0 ∧ cmdOp v < 8)
    (h2 : ∀ i : Fin 64, (i.val = 7 ∨ i.val = 14 ∨ i.val = 15 ∨ 18 ≤ i.val) → v.getLsbD i.val = false)
    (h3 : ¬ mustBeZeroSet v) : ¬ IllegalCmd v := by
  rintro (h | h | ⟨i, hi, hb⟩ | h)
  · exact h1.1 h
  · omega
  · by_cases hlt : i < 64
    · rw [h2 ⟨i, hlt⟩ hi] at hb; cases hb
    · rw [BitVec.getLsbD_of_ge _ _ (by omega)] at hb; cases hb
  · exact h3 h

theorem wit_DecodeOfEncode : ([.extract 0 3, .align 49 0, .unpackLineV210 34, .unpackLine 33, .packLineV210 35 true,
    .packLine 36 true, .unpackFrame 49 true true, .packFrame 0 true false, .selectU 35, .selectP 49 true] : List Instr).all
    Instr.wellFormed = true := by decide
theorem wit_EncodeOfDecode : decodeCmd 0x32806 = .ok (.packFrame 40 true true) := by decide

/-- Each clause of R96: OP 0, 8 and 15; the lowest and highest bit of each reserved field; must-be-zero fields. -/
theorem wit_IllegalWordsFault_words : ∀ v ∈ ([0x0, 0x8, 0xF, 0x81, 0x4001, 0x8001, 0x40001, 0x80000001, 0x100000001,
    0x8000000000000001, 0x41, 0x10002, 0x13, 0x10004, 0x25, 0x46, 0x20007] : List Word), IllegalCmd v := by
  intro v hv
  simp only [List.mem_cons, List.not_mem_nil, or_false] at hv
  rcases hv with rfl | rfl | rfl | rfl | rfl | rfl | rfl | rfl | rfl | rfl | rfl | rfl | rfl | rfl | rfl | rfl | rfl
  · exact .inl (by decide)
  · exact .inr (.inl (by decide))
  · exact .inr (.inl (by decide))
  · exact .inr (.inr (.inl ⟨7, by decide, by decide⟩))
  · exact .inr (.inr (.inl ⟨14, by decide, by decide⟩))
  · exact .inr (.inr (.inl ⟨15, by decide, by decide⟩))
  · exact .inr (.inr (.inl ⟨18, by decide, by decide⟩))
  · exact .inr (.inr (.inl ⟨31, by decide, by decide⟩))
  · exact .inr (.inr (.inl ⟨32, by decide, by decide⟩))
  · exact .inr (.inr (.inl ⟨63, by decide, by decide⟩))
  all_goals exact .inr (.inr (.inr (by unfold mustBeZeroSet; decide)))
theorem wit_IllegalWordsFault : cmdWriteNext (withHost State.reset [.regWrite 0 8 0x8]) 0x8 [] ∧
    (withHost State.reset [.regWrite 0 8 0x8]).status = .idle ∧ IllegalCmd 0x8 :=
  ⟨⟨catalog_ok, rfl⟩, rfl, .inr (.inl (by decide))⟩
theorem wit_UnnamedFormatsFault : ∀ v ∈ ([0x3201, 0x3F07] : List Word),
    cmdWriteNext (withHost State.reset [.regWrite 0 8 v]) v [] ∧
    (withHost State.reset [.regWrite 0 8 v]).status = .idle ∧ ¬ IllegalCmd v ∧ 50 ≤ cmdFmt v := by
  intro v hv
  refine ⟨⟨catalog_ok, rfl⟩, rfl, ?_⟩
  simp only [List.mem_cons, List.not_mem_nil, or_false] at hv
  rcases hv with rfl | rfl
  all_goals exact ⟨not_illegal (by decide) (by decide) (by unfold mustBeZeroSet; decide), by decide⟩
theorem wit_StepRunsDecodedCommand : cmdWriteNext (withHost (bfxState 1) [.regWrite 0 8 0x1531]) 0x1531 [] ∧
    (withHost (bfxState 1) [.regWrite 0 8 0x1531]).status = .idle ∧ decodeCmd 0x1531 = .ok (.extract 21 3) :=
  ⟨⟨catalog_ok, rfl⟩, rfl, by decide⟩
theorem wit_AcceptedDescriptors : catalogOk defaultCatalog = true ∧ defaultCatalog[2]? = some (.generic argb32) ∧
    argb32.slots[(0 : Fin 4)] = .field .v 0 8 ∧ argb32.slots[(3 : Fin 4)] = .field .a 24 8 ∧
    defaultCatalog[26]? = some (.generic yuy2) ∧ 0 < yuy2.count .u ∧ 0 < yuy2.count .y :=
  ⟨catalog_ok, by decide, by decide, by decide, by decide, by decide, by decide⟩
theorem wit_ResetAction : catalogOk (withHost stateS1 [.reset]).cfg.catalog = true ∧
    (withHost stateS1 [.reset]).pending = .reset :: [] := ⟨catalog_ok, rfl⟩

/-- A machine in Faulted(UNWRITTEN). -/
def faultedState (l : List HostAction) : State := withHost { State.reset with status := .faulted .unwritten } l

theorem wit_StuckUntilReset :
    (cmdWriteNext (faultedState [.regWrite 0 8 0]) 0 [] ∧ (faultedState [.regWrite 0 8 0]).status = .faulted .unwritten ∧
      ∀ rest', ([] : List HostAction) ≠ .reset :: rest') ∧
    cmdWriteNext (faultedState [.regWrite 0 8 7, .reset]) 7 [.reset] ∧
    (faultedState [.regWrite 0 8 7, .reset]).status = .faulted .unwritten :=
  ⟨⟨⟨catalog_ok, rfl⟩, rfl, fun _ h => by cases h⟩, ⟨catalog_ok, rfl⟩, rfl⟩
theorem wit_OnlyResetLeavesFaulted :
    ((faultedState [.memRead 0]).status = .faulted .unwritten ∧ ∃ t, step (faultedState [.memRead 0]) = .next t) ∧
    ∃ t, step (faultedState [.reset]) = .next t :=
  ⟨⟨rfl, (next_of_after (f := State.status) (x := .faulted .unwritten) (by decide)).imp fun _ h => h.1⟩,
    (next_of_after (f := State.status) (x := .idle) (by decide)).imp fun _ h => h.1⟩

/-- A machine with one RESOLVED entry, (v210_le, UNPACK), and a listed byte of memory. -/
def resolvedState (l : List HostAction) : State :=
  withHost { accelState with cache := accelState.cache.set 105 (.resolved 7), mem := [(0xFFFFFFFFFFFFFFFF, 1)] } l
theorem resolved_entry (l : List HostAction) : (resolvedState l).cacheAt 35 .unpack = .resolved 7 := by
  simp [State.cacheAt, resolvedState, withHost, accelState, State.reset, cacheIndex, Key.index]
theorem wit_StepKeepsInv : (resolvedState [.memWrite 5 9]).Inv ∧ ∃ t, step (resolvedState [.memWrite 5 9]) = .next t := by
  refine ⟨⟨by decide, ?_, ?_⟩, (next_of_after (f := State.status) (x := .idle) (by decide)).imp fun _ h => h.1⟩
  · intro c hc
    rw [show (resolvedState [.memWrite 5 9]).mem = [(0xFFFFFFFFFFFFFFFF, 1)] from rfl, List.mem_singleton] at hc
    subst hc; decide
  · intro f k h hh
    by_cases hfk : cacheIndex f k = 105
    · obtain ⟨rfl, rfl⟩ := cacheIndex_inj (f' := 35) (k' := .unpack) hfk
      rw [resolved_entry] at hh; cases hh; decide
    · simp only [State.cacheAt, resolvedState, withHost, accelState, State.reset, Vector.getElem?_set] at hh
      rw [if_neg (fun h => hfk h.symm)] at hh
      simp only [Vector.getElem?_replicate] at hh
      split at hh
      · rename_i e he
        split at he
        · cases he; cases hh
        · cases he
      · cases hh
theorem wit_ResolvedEntriesStay :
    ((∃ t, step (resolvedState [.memRead 5]) = .next t) ∧ (resolvedState [.memRead 5]).cacheAt 35 .unpack = .resolved 7) ∧
    (∃ t, step (resolvedState [.reset]) = .next t) ∧ (resolvedState [.reset]).cacheAt 35 .unpack = .resolved 7 :=
  ⟨⟨(next_of_after (f := State.status) (x := .idle) (by decide)).imp fun _ h => h.1, resolved_entry _⟩,
    (next_of_after (f := State.status) (x := .idle) (by decide)).imp fun _ h => h.1, resolved_entry _⟩
theorem wit_ParametersNeverChange : (∃ t, step State.reset = .next t) ∧
    catalogOk { Config.default with catalog := [.v210 .big] }.catalog = false :=
  ⟨(next_of_after (f := State.status) (x := .idle) (by decide)).imp fun _ h => h.1, by decide⟩

theorem wit_HostRegisterAccess : regAt 0x008 = some (.arg .bfxIn) ∧ regAt 0x0B8 = some (.arg (.dstStride 3)) ∧
    (withHost (bfxState 5) [.regWrite 0x0B8 8 1]).pending = .regWrite 0x0B8 8 1 :: [] ∧
    (withHost (bfxState 5) [.regRead 0x008 8]).pending = .regRead 0x008 8 :: [] ∧
    (bfxState 5).regs.get .bfxIn = .value 5 ∧ (bfxState 5).regs.get (.dstStride 3) = .unwritten ∧
    (bfxState 5).status = .idle ∧ (faultedState []).regs.get (.dstStride 3) = .unwritten ∧
    (faultedState []).status = .faulted .unwritten ∧ catalogOk (faultedState []).cfg.catalog = true :=
  ⟨by decide, by decide, rfl, rfl, by decide, by decide, rfl, by decide, rfl, catalog_ok⟩
theorem wit_HostRefusals : (8 ≠ 8 ∨ 0x01C % 8 ≠ 0) ∧ (4 ≠ 8 ∨ 0x018 % 8 ≠ 0) ∧ regAt 0x038 = none ∧ regAt 0x0C0 = none ∧
    (withHost State.reset [.regWrite 0x010 8 3]).pending = .regWrite 0x010 8 3 :: [] ∧
    (withHost State.reset [.regRead 0x000 8]).pending = .regRead 0x000 8 :: [] ∧
    catalogOk State.reset.cfg.catalog = true :=
  ⟨by decide, by decide, by decide, by decide, rfl, rfl, catalog_ok⟩
theorem wit_HostMemoryAccess : Memory.wf stateS1.mem = true ∧ 2 ^ 64 - 1 < 2 ^ stateS1.cfg.addrW ∧
    0 < 2 ^ stateS1.cfg.addrW ∧ catalogOk stateS1.cfg.catalog = true ∧
    (withHost stateS1 [.memWrite (2 ^ 64 - 1) 7, .memRead 0]).pending = .memWrite (2 ^ 64 - 1) 7 :: .memRead 0 :: [] :=
  ⟨by decide, by decide, by decide, catalog_ok, rfl⟩
/-- The first address that does not exist, written and read. -/
theorem wit_HostMemoryAccess_outside : 2 ^ stateS1.cfg.addrW ≤ 2 ^ 64 ∧
    (withHost stateS1 [.memWrite (2 ^ 64) 7]).pending = .memWrite (2 ^ 64) 7 :: [] ∧
    (withHost stateS1 [.memRead (2 ^ 64)]).pending = .memRead (2 ^ 64) :: [] ∧ catalogOk stateS1.cfg.catalog = true :=
  ⟨by decide, rfl, rfl, catalog_ok⟩

theorem wit_CommandsAnswer : catalogOk State.reset.cfg.catalog = true ∧ (Instr.unpackLine 26).wellFormed = true :=
  ⟨catalog_ok, by decide⟩
theorem next_S1 : ∃ t, exec (.unpackLine 26) stateS1 = .next t ∧ t.status = .idle := next_of_after (by decide)
theorem wit_CommandsKeepRegisters : ∃ t, exec (.unpackLine 26) stateS1 = .next t := next_S1.imp fun _ h => h.1
theorem wit_RegisterCommandsUseNoMemory : (∃ f k, Instr.extract 21 3 = .extract f k) ∧
    (∃ t, exec (.extract 21 3) (bfxState 1) = .next t) ∧ ∃ t, exec (.selectU 49) State.reset = .next t :=
  ⟨⟨_, _, rfl⟩, (next_of_after (f := State.status) (x := .idle) (by decide)).imp fun _ h => h.1,
    (next_of_after (f := State.status) (x := .idle) (by decide)).imp fun _ h => h.1⟩
theorem wit_FootprintBoundsAccess : Memory.wf stateS1.mem = true ∧ Memory.wf (stateS1.mem.write 0x1000 5) = true ∧
    (∀ a : Nat, (commandFootprint (.unpackLine 26) stateS1).has a = true →
      (stateS1.mem.write 0x1000 5).read a = stateS1.mem.read a) ∧
    (∃ t, exec (.unpackLine 26) stateS1 = .next t) ∧
    ∃ t', exec (.unpackLine 26) { stateS1 with mem := stateS1.mem.write 0x1000 5 } = .next t' := by
  refine ⟨by decide, by decide, ?_, next_S1.imp fun _ h => h.1,
    (next_of_after (f := State.status) (x := .idle) (by decide)).imp fun _ h => h.1⟩
  intro a ha
  have h0 : (commandFootprint (.unpackLine 26) stateS1).has (0x1000 : Nat) = false := by decide
  rw [read_write _ _ _ _ (by decide), if_neg]
  rintro rfl
  rw [h0] at ha; cases ha
theorem wit_CompletedAccessesAreAdmitted : catalogOk stateS1.cfg.catalog = true ∧ Memory.wf stateS1.mem = true ∧
    stateS1.status = .idle ∧ (∃ t, exec (.unpackLine 26) stateS1 = .next t ∧ t.status = .idle) ∧
    (commandFootprint (.unpackLine 26) stateS1).reads ≠ [] ∧ (commandFootprint (.unpackLine 26) stateS1).has 0x1004 = true :=
  ⟨catalog_ok, by decide, rfl, next_S1, by decide, by decide⟩

/-- The state of S1 with a packed pointer at the end of the launch memory. -/
def stateBuffer : State := unpackState ⟨0xFFFE, 0x20, 0x30, 0x40, 0, 0, 2⟩ [(0x20, [1, 2])]
theorem wit_FaultEntry : Memory.wf stateBuffer.mem = true ∧ stateBuffer.status = .idle ∧
    (∃ t, exec (.unpackLine 26) stateBuffer = .next t ∧ t.status = .faulted .buffer) ∧
    ∃ t, exec (.unpackLine 26) State.reset = .next t ∧ t.status = .faulted .unwritten :=
  ⟨by decide, rfl, next_of_after (by decide), next_of_after (by decide)⟩
theorem wit_FaultsRaisedBy : catalogOk stateBuffer.cfg.catalog = true ∧ stateBuffer.status = .idle ∧
    (∃ t, exec (.unpackLine 26) stateBuffer = .next t ∧ t.status = .faulted .buffer) ∧
    ∃ t, exec (.unpackLineV210 35) (unpackState ⟨1, 2, 3, 4, 0, 0, 3⟩ []) = .next t ∧ t.status = .faulted .v210Range :=
  ⟨catalog_ok, rfl, next_of_after (by decide), next_of_after (by decide)⟩
/-- RIGHT, the last register UNPACK_LINE reads, of 33 bits; SRC0, the first, Unwritten; SRC0 beyond ADDR_W = 32. -/
theorem wit_OperandFaults :
    let s := unpackState ⟨0x10, 0x20, 0x30, 0x40, 0, 0, 0x100000000⟩ []
    let s32 : State := { unpackState ⟨0x100000000, 0x20, 0x30, 0x40, 0, 0, 2⟩ [] with
      cfg := { Config.default with addrW := 32 } }
    catalogOk s.cfg.catalog = true ∧ (Instr.unpackLine 26).wellFormed = true ∧ namesSlot s (.unpackLine 26) = true ∧
    registersRead (.unpackLine 26) = [.src 0, .dst 0, .dst 1, .dst 2, .dst 3, .left] ++ .right :: [] ∧
    (∀ k ∈ [ArgName.src 0, .dst 0, .dst 1, .dst 2, .dst 3, .left], operandFault s k = none) ∧
    operandFault s .right = some .range ∧ operandFault State.reset (.src 0) = some .unwritten ∧
    operandFault s32 (.src 0) = some .addrWrap ∧
    registersRead (.unpackLine 26) = [] ++ .src 0 :: [.dst 0, .dst 1, .dst 2, .dst 3, .left, .right] :=
  ⟨catalog_ok, by decide, by decide, rfl, by decide, by decide, by decide, by decide, rfl⟩
theorem wit_HandlesNeverMatter : ∃ t, exec (.unpackLineV210 35) (unpackState wordsV1 [(0x100, groupV1)]) = .next t :=
  (next_of_after (f := State.status) (x := .idle) (by decide)).imp fun _ h => h.1
theorem wit_DataNeverDecidesAFault : (∃ t, exec (.extract 21 3) (bfxState 1) = .next t) ∧
    (bfxState 1).regs.get .bfxIn = .value 1 :=
  ⟨(next_of_after (f := State.status) (x := .idle) (by decide)).imp fun _ h => h.1, by decide⟩
theorem wit_RunningTwice : catalogOk stateF3.cfg.catalog = true ∧ Memory.wf stateF3.mem = true ∧ stateF3.status = .idle ∧
    ∃ t, exec (.unpackFrame 39 false false) stateF3 = .next t ∧ t.status = .idle :=
  ⟨catalog_ok, by decide, rfl, next_of_after (by decide)⟩
/-- An empty range at 12 and frames of no width and of no height. -/
theorem wit_EmptyCommandsTouchNothing :
    let w : LineWords := ⟨0x10, 0x20, 0x30, 0x40, 0, 12, 12⟩
    let f (width height : Word) : State :=
      frameState ⟨width, height, ⟨0x10, 1, 0x20, 1⟩, ⟨0, 0, 0x30, 1⟩, ⟨0, 0, 0x40, 1⟩, ⟨0, 0, 0, 0⟩⟩ []
    (unpackState w []).unpackLineOperands = .ok w.operands ∧ w.operands.left = w.operands.right ∧
    (packState w []).packLineOperands = .ok w.operands ∧
    (∃ t, exec (.unpackLine 26) (unpackState w []) = .next t) ∧ (∃ t, exec (.unpackLineV210 35) (unpackState w []) = .next t) ∧
    (∃ t, exec (.packLine 26 true) (packState w []) = .next t) ∧
    (∃ t, exec (.packLineV210 35 true) (packState w []) = .next t) ∧
    (∃ o, (f 0 5).frameOperands = .ok o ∧ o.width = 0) ∧ (∃ o, (f 5 0).frameOperands = .ok o ∧ o.height = 0) ∧
    (∃ t, exec (.unpackFrame 0 false false) (f 0 5) = .next t) ∧ ∃ t, exec (.packFrame 0 false false) (f 5 0) = .next t := by
  refine ⟨rfl, rfl, rfl, ?_, ?_, ?_, ?_, ⟨_, rfl, rfl⟩, ⟨_, rfl, rfl⟩, ?_, ?_⟩
  · exact (next_of_after (f := State.status) (x := .idle) (by decide)).imp fun _ h => h.1
  · exact (next_of_after (f := State.status) (x := .idle) (by decide)).imp fun _ h => h.1
  · exact (next_of_after (f := State.status) (x := .idle) (by decide)).imp fun _ h => h.1
  · exact (next_of_after (f := State.status) (x := .idle) (by decide)).imp fun _ h => h.1
  · exact (next_of_after (f := State.status) (x := .idle) (by decide)).imp fun _ h => h.1
  · exact (next_of_after (f := State.status) (x := .faulted .nullPtr) (by decide)).imp fun _ h => h.1

theorem wit_ByteOrders : (0x010203 : Nat) < 2 ^ (8 * 3) ∧ (255 : Nat) < 2 ^ (8 * 1) := by decide
theorem wit_LineFootprints : argb32.ok = true ∧ yuy2.ok = true ∧ yuy2.admits 2 4 = true ∧ yuy2.admits 0 0 = true ∧
    v210Admits 6 12 = true ∧ v210Admits 0 0 = true := by decide
/-- A bus of 4 KiB with ALIGN_CHECK and the first 256 bytes admitted. -/
def smallBus : Bus := ⟨12, .little, true, [⟨0, 0x100⟩]⟩
/-- Past the top, below 0, misaligned, outside ADMIT by one byte, the last admitted word; and UNPACK_LINE on a buffer one
unit too short. -/
theorem wit_AccessFaults :
    smallBus.inSpace 0xFFD 4 = false ∧ smallBus.inSpace (-1) 4 = false ∧ smallBus.alignedTo 0x0FD 4 = false ∧
    smallBus.inSpace 0xFFC 4 = true ∧ admitsAll smallBus.admitSet 0xFD 4 = false ∧ admitsAll smallBus.admitSet 0xFC 4 = true ∧
    catalogOk stateBuffer.cfg.catalog = true ∧ stateBuffer.cfg.catalog[(26 : Fmt).toNat]? = some (.generic yuy2) ∧
    Memory.wf stateBuffer.mem = true ∧ unpackLineHeld stateBuffer ⟨0xFFFE, 0x20, 0x30, 0x40, 0, 0, 2⟩ = true ∧
    (⟨0xFFFE, 0x20, 0x30, 0x40, 0, 0, 2⟩ : LineWords).fit stateBuffer.cfg.addrW = true ∧ yuy2.admits 0 2 = true ∧
    yuy2.pointersOk 0xFFFE ⟨0x20, 0x30, 0x40, 0⟩ = true ∧
    (yuy2.unpackFootprint ⟨0xFFFE, ⟨0x20, 0x30, 0x40, 0⟩, 0, 2⟩).noOverlap = true ∧
    stateBuffer.bus.inSpace 0xFFFE 4 = true ∧ stateBuffer.bus.alignedTo 0xFFFE 4 = true ∧
    admitsAll stateBuffer.bus.admitSet 0xFFFE 4 = false := by
  refine ⟨by decide, by decide, by decide, by decide, by decide, by decide, catalog_ok, catalog_yuy2, by decide,
    by decide, by decide, by decide, by decide, by decide, by decide, by decide, by decide⟩

theorem wit_BitfieldLaws : argb32.ok = true ∧ argb32.slots[(0 : Fin 4)] = .field .v 0 8 ∧
    argb32.slots[(3 : Fin 4)] = .field .a 24 8 ∧ (0 : Fin 4) ≠ 3 := by decide
theorem wit_BitfieldLaws_padded : nv12.ok = true ∧ ∀ b : Nat, (0xFFFF : Nat).testBit b = true →
    ∃ (i : Fin 4) (c : Channel) (sh dp : Nat), nv12.slots[i] = .field c sh dp ∧ sh ≤ b ∧ b < sh + dp := by
  refine ⟨by decide, fun b hb => ?_⟩
  have hlt : b < 16 := by
    by_contra h
    rw [Nat.testBit_lt_two_pow (Nat.lt_of_lt_of_le (by decide : (0xFFFF : Nat) < 2 ^ 16)
      (Nat.pow_le_pow_right (by decide) (by omega)))] at hb
    cases hb
  by_cases h8 : b < 8
  · exact ⟨0, .u, 0, 8, by decide, by omega, by omega⟩
  · exact ⟨1, .v, 8, 8, by decide, by omega, by omega⟩
theorem wit_ContributionsAdd : nv12.ok = true ∧ nv12.slots[(0 : Fin 4)] = .field .u 0 8 ∧
    nv12.slots[(1 : Fin 4)] = .field .v 8 8 ∧ (0 : Fin 4) ≠ 1 := by decide
theorem wit_ExtractResult : catalogOk (bfxState 0xFFFFFFFFFFFFFFFF).cfg.catalog = true ∧
    (bfxState 0xFFFFFFFFFFFFFFFF).cfg.catalog[(2 : Fmt).toNat]? = some (.generic argb32) ∧
    argb32.slots[(3 : BitVec 2).toNat] = .field .a 24 8 ∧
    (bfxState 0xFFFFFFFFFFFFFFFF).regs.get .bfxIn = .value 0xFFFFFFFFFFFFFFFF :=
  ⟨catalog_ok, catalog_argb32, by decide, by decide⟩
theorem wit_AlignResult : catalogOk (bfxState 0).cfg.catalog = true ∧
    (bfxState 0).cfg.catalog[(26 : Fmt).toNat]? = some (.generic yuy2) ∧
    yuy2.slots[(0 : BitVec 2).toNat] = .field .y 0 8 ∧ (bfxState 0).regs.get .bfxIn = .value 0 :=
  ⟨catalog_ok, catalog_yuy2, by decide, by decide⟩
theorem wit_BitfieldFaults : catalogOk State.reset.cfg.catalog = true ∧ ((34 : Fmt) = 34 ∨ (34 : Fmt) = 35) ∧
    State.reset.cfg.catalog[(39 : Fmt).toNat]? = some (.generic nv12) ∧ nv12.slots[(2 : BitVec 2).toNat] = .pad :=
  ⟨catalog_ok, .inl rfl, catalog_nv12, by decide⟩

/-- The hypotheses of a line statement on yuy2 over [2,4). -/
theorem wit_UnpackLineResult : catalogOk stateS1.cfg.catalog = true ∧
    stateS1.cfg.catalog[(26 : Fmt).toNat]? = some (.generic yuy2) ∧ Memory.wf stateS1.mem = true ∧
    unpackLineHeld stateS1 wordsS1 = true ∧ wordsS1.fit stateS1.cfg.addrW = true ∧
    yuy2.admits wordsS1.left.toNat wordsS1.right.toNat = true ∧
    yuy2.pointersOk wordsS1.operands.packed wordsS1.operands.planes = true ∧
    (yuy2.unpackFootprint wordsS1.operands).noOverlap = true ∧
    (yuy2.unpackFootprint wordsS1.operands).ready stateS1.bus = true ∧
    (wordsS1.left.toNat < wordsS1.right.toNat →
      yuy2.alignedRow stateS1.bus wordsS1.operands.packed wordsS1.operands.planes = true) :=
  ⟨catalog_ok, catalog_yuy2, by decide, by decide, by decide, by decide, by decide, by decide, by decide, by decide⟩

/-- A pack of argb32_be over [0,1) without an alpha source. -/
def wordsP3 : LineWords := ⟨0x100, 0x10, 0x11, 0x12, 0, 0, 1⟩
/-- Its state. -/
def stateP3 : State := packState wordsP3 [(0x10, [1, 2, 3])]
theorem wit_PackLineResult : catalogOk stateP3.cfg.catalog = true ∧
    stateP3.cfg.catalog[(2 : Fmt).toNat]? = some (.generic argb32) ∧ Memory.wf stateP3.mem = true ∧
    packLineHeld stateP3 wordsP3 = true ∧ wordsP3.fit stateP3.cfg.addrW = true ∧
    argb32.admits wordsP3.left.toNat wordsP3.right.toNat = true ∧
    argb32.pointersOk wordsP3.operands.packed wordsP3.operands.planes = true ∧
    (argb32.packFootprint wordsP3.operands).noOverlap = true ∧
    (argb32.packFootprint wordsP3.operands).ready stateP3.bus = true ∧
    (wordsP3.left.toNat < wordsP3.right.toNat →
      argb32.alignedRow stateP3.bus wordsP3.operands.packed wordsP3.operands.planes = true) :=
  ⟨catalog_ok, catalog_argb32, by decide, by decide, by decide, by decide, by decide, by decide, by decide, by decide⟩

theorem held_unpack (w : LineWords) (l : List (Nat × List Byte)) : unpackLineHeld (unpackState w l) w = true := by
  simp [unpackLineHeld, unpackState, ArgRegs.get]
theorem held_frame (w : FrameWords) (l : List (Nat × List Byte)) : frameHeld (frameState w l) w = true := by
  simp [frameHeld, planeHeld, frameState, ArgRegs.get]
theorem held_pack (w : LineWords) (l : List (Nat × List Byte)) : packLineHeld (packState w l) w = true := by
  simp [packLineHeld, packState, ArgRegs.get]

/-- Ranges at each side of R172 for PPP 2 and PPP 1: an odd end, a reversed range, an empty one, the whole one. -/
theorem wit_GenericRange :
    let w (l r : Word) : LineWords := ⟨0x1000, 0x2000, 0x3000, 0x4000, 0, l, r⟩
    catalogOk State.reset.cfg.catalog = true ∧ State.reset.cfg.catalog[(26 : Fmt).toNat]? = some (.generic yuy2) ∧
    argb32.ppp = 1 ∧ (∀ l r : Word, unpackLineHeld (unpackState (w l r) []) (w l r) = true ∧
      packLineHeld (packState (w l r) []) (w l r) = true ∧
      (unpackState (w l r) []).status = .idle ∧ (packState (w l r) []).status = .idle) ∧
    (∀ v : FrameWords, frameHeld (frameState v []) v = true ∧ (frameState v []).status = .idle) ∧
    (⟨3, 2, ⟨1, 0, 1, 0⟩, ⟨1, 0, 1, 0⟩, ⟨1, 0, 1, 0⟩, ⟨1, 0, 1, 0⟩⟩ : FrameWords).fit 64 = true ∧
    (w 0 3).fit 64 = true ∧ (w 4 2).fit 64 = true ∧ (w 0 0).fit 64 = true ∧ (w 0 0xFFFFFFFE).fit 64 = true ∧
    yuy2.admits 0 3 = false ∧ yuy2.admits 4 2 = false ∧ yuy2.admits 0 0 = true ∧ yuy2.admits 0 0xFFFFFFFE = true ∧
    (∃ t, exec (.unpackLine 26) (unpackState (w 0 0) []) = .next t) ∧
    ∃ t, exec (.packLine 26 true) (packState (w 0 2) []) = .next t := by
  refine ⟨catalog_ok, catalog_yuy2, rfl, fun l r => ⟨held_unpack _ _, held_pack _ _, rfl, rfl⟩,
    fun v => ⟨held_frame v _, rfl⟩, by decide, by decide, by decide,
    by decide, by decide, by decide, by decide, by decide, by decide, ?_, ?_⟩
  all_goals exact (next_of_after (f := State.status) (x := .idle) (by decide)).imp fun _ h => h.1

/-- Null pointers, one per clause, on an empty range: packed, Y, U and V; and for v210. -/
theorem wit_NullPointers : ∀ w ∈ ([⟨0, 2, 3, 4, 5, 6, 6⟩, ⟨1, 0, 3, 4, 5, 6, 6⟩, ⟨1, 2, 0, 4, 5, 6, 6⟩,
    ⟨1, 2, 3, 0, 5, 0, 6⟩] : List LineWords),
    w.fit 64 = true ∧ unpackLineHeld (unpackState w []) w = true ∧ packLineHeld (packState w []) w = true ∧
    yuy2.admits w.left.toNat w.right.toNat = true ∧ v210Admits w.left.toNat w.right.toNat = true ∧
    (w.packed = 0 ∨ (0 < yuy2.count .y ∧ w.y = 0) ∨ (0 < yuy2.count .u ∧ w.u = 0) ∨ (0 < yuy2.count .v ∧ w.v = 0)) := by
  decide
/-- A plane on the packed bytes; one byte before them is no overlap. -/
theorem wit_LineOverlap :
    let w : LineWords := ⟨0x10, 0x13, 0x30, 0x40, 0, 0, 6⟩
    w.fit 64 = true ∧ unpackLineHeld (unpackState w []) w = true ∧ packLineHeld (packState w []) w = true ∧
    yuy2.admits w.left.toNat w.right.toNat = true ∧ v210Admits w.left.toNat w.right.toNat = true ∧
    yuy2.pointersOk w.operands.packed w.operands.planes = true ∧
    (yuy2.unpackFootprint w.operands).noOverlap = false ∧ (yuy2.packFootprint w.operands).noOverlap = false ∧
    (v210UnpackFootprint w.operands).noOverlap = false ∧ (v210PackFootprint w.operands).noOverlap = false ∧
    (v210UnpackFootprint ⟨0x20, ⟨0x14, 0x30, 0x40, 0⟩, 0, 6⟩).noOverlap = true := by decide
/-- With ALIGN_CHECK true. -/
def aligned (s : State) : State := { s with cfg := { Config.default with alignCheck := true } }
theorem wit_CompletedRowsAreAligned :
    (∃ t, exec (.unpackLine 26) (aligned stateS1) = .next t ∧ t.status = .idle) ∧
    (∃ t, exec (.packLine 2 true) (aligned stateP3) = .next t ∧ t.status = .idle) ∧
    (∃ t, exec (.unpackLineV210 35) (aligned (unpackState wordsV1 [])) = .next t ∧ t.status = .idle) ∧
    (∃ t, exec (.packLineV210 35 true) (aligned (packState wordsV1 [])) = .next t ∧ t.status = .idle) ∧
    unpackLineHeld (aligned stateS1) wordsS1 = true ∧ packLineHeld (aligned stateP3) wordsP3 = true ∧
    unpackLineHeld (aligned (unpackState wordsV1 [])) wordsV1 = true ∧
    packLineHeld (aligned (packState wordsV1 [])) wordsV1 = true ∧
    wordsS1.left.toNat < wordsS1.right.toNat ∧ wordsS1.fit 64 = true ∧ wordsP3.fit 64 = true ∧ wordsV1.fit 64 = true :=
  ⟨next_of_after (by decide), next_of_after (by decide), next_of_after (by decide), next_of_after (by decide),
    by decide, by decide, by decide, by decide, by decide, by decide, by decide, by decide⟩

/-- The result of a row function. -/
def rowDone (r : Except FaultReason Memory) : Bool :=
  match r with
  | .ok _ => true
  | .error _ => false
theorem of_rowDone {r : Except FaultReason Memory} (h : rowDone r = true) : ∃ m, r = .ok m := by
  cases r with
  | ok m => exact ⟨m, rfl⟩
  | error _ => cases h
theorem wit_GenericRoundTrip :
    let p : Planes := ⟨0x20, 0x30, 0x40, 0x50⟩
    let q : Planes := ⟨0x60, 0x70, 0x80, 0⟩
    argb32.ok = true ∧ Memory.wf stateP3.mem = true ∧ argb32.admits 0 2 = true ∧ argb32.pointersOk 0x100 p = true ∧
    argb32.pointersOk 0x200 p = true ∧ argb32.pointersOk 0x100 q = true ∧
    (∀ o ∈ [(⟨0x100, p, 0, 2⟩ : LineOperands), ⟨0x200, p, 0, 2⟩, ⟨0x100, q, 0, 2⟩],
      (argb32.unpackFootprint o).noOverlap = true ∧ (argb32.packFootprint o).noOverlap = true) ∧
    (∃ m1, argb32.packRow stateP3.bus true p 0x100 0 2 stateP3.mem = .ok m1) ∧
    (∃ m2, argb32.unpackRow stateP3.bus 0x100 q 0 2 stateP3.mem = .ok m2) ∧
    (∃ m1, argb32.unpackRow stateP3.bus 0x100 p 0 2 stateP3.mem = .ok m1) ∧
    ∃ m2, argb32.packRow stateP3.bus true p 0x200 0 2 stateP3.mem = .ok m2 :=
  ⟨by decide, by decide, by decide, by decide, by decide, by decide, by decide, of_rowDone (by decide),
    of_rowDone (by decide), of_rowDone (by decide), of_rowDone (by decide)⟩
theorem wit_SubRanges :
    let p : Planes := ⟨0x20, 0x30, 0x40, 0⟩
    yuy2.ok = true ∧ Memory.wf stateS1.mem = true ∧ yuy2.admits 2 4 = true ∧ yuy2.admits 0 6 = true ∧ 4 ≤ 6 ∧
    yuy2.pointersOk 0x1000 p = true ∧ (yuy2.unpackFootprint ⟨0x1000, p, 0, 6⟩).noOverlap = true ∧
    (∃ m1, yuy2.unpackRow stateS1.bus 0x1000 p 2 4 stateS1.mem = .ok m1) ∧
    (∃ m2, yuy2.unpackRow stateS1.bus 0x1000 p 0 6 stateS1.mem = .ok m2) ∧
    (∃ m1, yuy2.packRow stateS1.bus true p 0x1000 2 4 stateS1.mem = .ok m1) ∧
    ∃ m2, yuy2.packRow stateS1.bus true p 0x1000 0 6 stateS1.mem = .ok m2 :=
  ⟨by decide, by decide, by decide, by decide, by decide, by decide, by decide, of_rowDone (by decide),
    of_rowDone (by decide), of_rowDone (by decide), of_rowDone (by decide)⟩
theorem wit_ByteOrderDuality :
    let p : Planes := ⟨0x20, 0x30, 0x40, 0⟩
    let m := memOf [(0x1000, [1, 2, 3, 4, 5, 6, 7, 8])]
    let n := memOf [(0x1000, [4, 3, 2, 1, 8, 7, 6, 5])]
    yuy2.ok = true ∧ Memory.wf m = true ∧ Memory.wf n = true ∧ yuy2.tag = .little ∧ yuy2.admits 0 4 = true ∧
    yuy2.pointersOk 0x1000 p = true ∧ (yuy2.unpackFootprint ⟨0x1000, p, 0, 4⟩).noOverlap = true ∧
    (∀ u < yuy2.units 0 4, n.readBytes (yuy2.unitAddr 0x1000 0 u).toNat yuy2.pkb
      = (m.readBytes (yuy2.unitAddr 0x1000 0 u).toNat yuy2.pkb).reverse) ∧
    (∃ m', yuy2.unpackRow stateS1.bus 0x1000 p 0 4 m = .ok m') ∧
    ∃ n', ({ yuy2 with tag := .big } : Layout).unpackRow stateS1.bus 0x1000 p 0 4 n = .ok n' :=
  ⟨by decide, by decide, by decide, by decide, by decide, by decide, by decide, by decide, of_rowDone (by decide),
    of_rowDone (by decide)⟩
/-- One group of v210 and the same with each word's bytes reversed. -/
theorem wit_ByteOrderDuality_v210 :
    let p : Planes := ⟨0x20, 0x30, 0x40, 0⟩
    let m := memOf [(0x1000, [1, 2, 3, 4, 5, 6, 7, 8, 9, 10, 11, 12, 13, 14, 15, 16])]
    let n := memOf [(0x1000, [4, 3, 2, 1, 8, 7, 6, 5, 12, 11, 10, 9, 16, 15, 14, 13])]
    Memory.wf m = true ∧ Memory.wf n = true ∧ v210Admits 0 6 = true ∧ v210PointersOk 0x1000 p = true ∧
    (v210UnpackFootprint ⟨0x1000, p, 0, 6⟩).noOverlap = true ∧
    (∀ g < v210Groups 0 6, ∀ i < 4,
      n.readBytes ((0x1000 : Int) + ((0 / 6 + g) * 16 + 4 * i : Nat)).toNat 4
        = (m.readBytes ((0x1000 : Int) + ((0 / 6 + g) * 16 + 4 * i : Nat)).toNat 4).reverse) ∧
    (∃ m', v210UnpackRow .little stateS1.bus 0x1000 p 0 6 m = .ok m') ∧
    ∃ n', v210UnpackRow .big stateS1.bus 0x1000 p 0 6 n = .ok n' :=
  ⟨by decide, by decide, by decide, by decide, by decide, by decide, of_rowDone (by decide), of_rowDone (by decide)⟩

theorem wit_UnpackLineV210Result :
    let s := unpackState wordsV5 []
    catalogOk s.cfg.catalog = true ∧ s.cfg.catalog[(35 : Fmt).toNat]? = some (.v210 .little) ∧ Memory.wf s.mem = true ∧
    unpackLineHeld s wordsV5 = true ∧ wordsV5.fit s.cfg.addrW = true ∧
    v210Admits wordsV5.left.toNat wordsV5.right.toNat = true ∧ wordsV5.packed ≠ 0 ∧ wordsV5.y ≠ 0 ∧ wordsV5.u ≠ 0 ∧
    wordsV5.v ≠ 0 ∧ (v210UnpackFootprint wordsV5.operands).noOverlap = true ∧
    (v210UnpackFootprint wordsV5.operands).ready s.bus = true ∧
    (wordsV5.left.toNat < wordsV5.right.toNat →
      v210AlignedRow s.bus wordsV5.operands.packed wordsV5.operands.planes = true) :=
  ⟨catalog_ok, catalog_v210_le, by decide, by decide, by decide, by decide, by decide, by decide, by decide, by decide,
    by decide, by decide, by decide⟩
theorem wit_PackLineV210Result :
    let s := packState wordsV5 []
    catalogOk s.cfg.catalog = true ∧ s.cfg.catalog[(35 : Fmt).toNat]? = some (.v210 .little) ∧ Memory.wf s.mem = true ∧
    packLineHeld s wordsV5 = true ∧ wordsV5.fit s.cfg.addrW = true ∧
    v210Admits wordsV5.left.toNat wordsV5.right.toNat = true ∧ wordsV5.packed ≠ 0 ∧ wordsV5.y ≠ 0 ∧ wordsV5.u ≠ 0 ∧
    wordsV5.v ≠ 0 ∧ (v210PackFootprint wordsV5.operands).noOverlap = true ∧
    (v210PackFootprint wordsV5.operands).ready s.bus = true ∧
    (wordsV5.left.toNat < wordsV5.right.toNat →
      v210AlignedRow s.bus wordsV5.operands.packed wordsV5.operands.planes = true) :=
  ⟨catalog_ok, catalog_v210_le, by decide, by decide, by decide, by decide, by decide, by decide, by decide, by decide,
    by decide, by decide, by decide⟩
/-- Ranges at each side of R203: a right that is no multiple of 6, a left that is none, a reversed one, an empty one. -/
theorem wit_V210Range :
    let w (l r : Word) : LineWords := ⟨0x1000, 0x2000, 0x3000, 0x4000, 0, l, r⟩
    catalogOk State.reset.cfg.catalog = true ∧ State.reset.cfg.catalog[(35 : Fmt).toNat]? = some (.v210 .little) ∧
    (∀ l r : Word, unpackLineHeld (unpackState (w l r) []) (w l r) = true ∧
      packLineHeld (packState (w l r) []) (w l r) = true ∧
      (unpackState (w l r) []).status = .idle ∧ (packState (w l r) []).status = .idle) ∧
    (∀ v : FrameWords, frameHeld (frameState v []) v = true ∧ (frameState v []).status = .idle) ∧
    (⟨3, 2, ⟨1, 0, 1, 0⟩, ⟨1, 0, 1, 0⟩, ⟨1, 0, 1, 0⟩, ⟨1, 0, 1, 0⟩⟩ : FrameWords).fit 64 = true ∧
    (w 0 3).fit 64 = true ∧ (w 3 6).fit 64 = true ∧ (w 12 6).fit 64 = true ∧ (w 6 6).fit 64 = true ∧
    v210Admits 0 3 = false ∧ v210Admits 3 6 = false ∧ v210Admits 12 6 = false ∧ v210Admits 6 6 = true ∧
    (∃ t, exec (.unpackLineV210 35) (unpackState (w 6 6) []) = .next t) ∧
    ∃ t, exec (.packLineV210 35 true) (packState (w 6 6) []) = .next t := by
  refine ⟨catalog_ok, catalog_v210_le, fun l r => ⟨held_unpack _ _, held_pack _ _, rfl, rfl⟩,
    fun v => ⟨held_frame v _, rfl⟩, by decide, by decide, by decide,
    by decide, by decide, by decide, by decide, by decide, by decide, ?_, ?_⟩
  all_goals exact (next_of_after (f := State.status) (x := .idle) (by decide)).imp fun _ h => h.1
theorem wit_V210RoundTrip :
    let g : GroupSamples := ⟨0, 1, 0x3FF, 3, 4, 5, 6, 0x3FF, 8, 9, 10, 0x3FF⟩
    ∀ x ∈ g.ys ++ g.us ++ g.vs, x < 2 ^ 10 := by decide

theorem wit_ResolveMemoizes : (49 : Fmt).toNat < 50 ∧ (resolvedState []).cacheAt 35 .unpack = .resolved 7 ∧
    (resolvedState []).cacheAt 35 .packFill0 = .unresolved ∧ ¬((35 : Fmt) = 35 ∧ Key.packFill0 = .unpack) := by
  refine ⟨by decide, resolved_entry _, ?_, by decide⟩
  simp [State.cacheAt, resolvedState, withHost, accelState, State.reset, cacheIndex, Key.index]
theorem wit_SelectResult : (0 : Fmt).toNat < 50 ∧ (49 : Fmt).toNat < 50 ∧ (resolvedState [.memWrite 5 9]).Inv :=
  ⟨by decide, by decide, wit_StepKeepsInv.1⟩

theorem wit_FramePlanes : registry 39 = some ⟨.generic, true, 1, 1⟩ ∧ registry 26 = some ⟨.generic, false, 0, 0⟩ := by
  decide
theorem wit_UnpackFrameResult :
    let p := unpackPlan ⟨.generic, true, 1, 1⟩ false wordsF3.operands
    catalogOk stateF3.cfg.catalog = true ∧ registry 39 = some ⟨.generic, true, 1, 1⟩ ∧
    stateF3.cfg.catalog[(39 : Fmt).toNat]? = some (.generic nv12) ∧ Memory.wf stateF3.mem = true ∧
    frameHeld stateF3 wordsF3 = true ∧ wordsF3.fit stateF3.cfg.addrW = true ∧
    (Descriptor.generic nv12).admits 0 wordsF3.width.toNat = true ∧
    (∀ y < max p.rows 1, (Descriptor.generic nv12).pointersOk (p.packedRow y) (p.planesRow y) = true) ∧
    lumaPointersOk p.luma = true ∧ (p.unpackFootprint (.generic nv12)).noOverlap = true ∧
    (p.unpackFootprint (.generic nv12)).ready stateF3.bus = true ∧
    ∀ y < p.rows, 0 < wordsF3.width.toNat →
      (Descriptor.generic nv12).alignedRow stateF3.bus (p.packedRow y) (p.planesRow y) = true :=
  ⟨catalog_ok, by decide, catalog_nv12, by decide, by decide, by decide, by decide, by decide, by decide, by decide,
    by decide, by decide⟩
/-- A frame of v210_le, 6 by 2 pixels, packed; no luma copy. -/
def wordsV : FrameWords :=
  ⟨6, 2, ⟨0x200, 12, 0x100, 16⟩, ⟨0x300, 6, 0, 0⟩, ⟨0x400, 6, 0, 0⟩, ⟨0, 0, 0, 0⟩⟩
theorem wit_PackFrameResult :
    let p := packPlan ⟨.v210, false, 0, 0⟩ true wordsV.operands
    let s := frameState wordsV []
    catalogOk s.cfg.catalog = true ∧ registry 35 = some ⟨.v210, false, 0, 0⟩ ∧
    s.cfg.catalog[(35 : Fmt).toNat]? = some (.v210 .little) ∧ Memory.wf s.mem = true ∧
    frameHeld s wordsV = true ∧ wordsV.fit s.cfg.addrW = true ∧
    (Descriptor.v210 .little).admits 0 wordsV.width.toNat = true ∧
    (∀ y < max p.rows 1, (Descriptor.v210 .little).pointersOk (p.packedRow y) (p.planesRow y) = true) ∧
    lumaPointersOk p.luma = true ∧ (p.packFootprint (.v210 .little)).noOverlap = true ∧
    (p.packFootprint (.v210 .little)).ready s.bus = true ∧
    ∀ y < p.rows, 0 < wordsV.width.toNat →
      (Descriptor.v210 .little).alignedRow s.bus (p.packedRow y) (p.planesRow y) = true :=
  ⟨catalog_ok, by decide, catalog_v210_le, by decide, by decide, by decide, by decide, by decide, by decide, by decide,
    by decide, by decide⟩
/-- An odd width, a null luma pointer, no rows with a null plane, and rows that write the same bytes. -/
theorem wit_FrameChecks :
    let r : RegistryEntry := ⟨.generic, true, 1, 1⟩
    let g := Descriptor.generic nv12
    let w (width height dst stride : Word) : FrameWords :=
      ⟨width, height, ⟨0x100, 0x10, dst, stride⟩, ⟨0x180, 0x10, 0x300, 0x10⟩, ⟨0, 0, 0x400, 0x10⟩, ⟨0, 0, 0, 0⟩⟩
    let p (v : FrameWords) := unpackPlan r false v.operands
    registry 39 = some r ∧ State.reset.cfg.catalog[(39 : Fmt).toNat]? = some g ∧
    (∀ v ∈ [w 3 2 0x200 0x10, w 2 2 0 0x10, w 2 0 0 0x10, w 2 4 0x200 0],
      frameHeld (frameState v []) v = true ∧ v.fit 64 = true) ∧
    g.admits 0 3 = false ∧ g.admits 0 2 = true ∧ lumaPointersOk (p (w 2 2 0 0x10)).luma = false ∧
    (p (w 2 0 0 0x10)).rows = 0 ∧ lumaPointersOk (p (w 2 0 0 0x10)).luma = false ∧
    (∀ y < max (p (w 2 4 0x200 0)).rows 1,
      g.pointersOk ((p (w 2 4 0x200 0)).packedRow y) ((p (w 2 4 0x200 0)).planesRow y) = true) ∧
    lumaPointersOk (p (w 2 4 0x200 0)).luma = true ∧ ((p (w 2 4 0x200 0)).unpackFootprint g).noOverlap = false :=
  ⟨by decide, catalog_nv12, by decide, by decide, by decide, by decide, by decide, by decide, by decide, by decide,
    by decide⟩

/-- A packed row pointer that is null at row 0 (SRC1 = 0), one that is null at row 1 by its stride, and a luma row that is
(SRC0 = 0x10, stride -0x10): rows of nv12, 2 by 4 pixels. -/
theorem wit_FrameChecks_rows :
    let r : RegistryEntry := ⟨.generic, true, 1, 1⟩
    let g := Descriptor.generic nv12
    let back : Word := 0xFFFFFFFFFFFFFFF0
    let w (src0 stride0 src1 stride1 : Word) : FrameWords :=
      ⟨2, 4, ⟨src0, stride0, 0x200, 0x10⟩, ⟨src1, stride1, 0x300, 0x10⟩, ⟨0, 0, 0x400, 0x10⟩, ⟨0, 0, 0, 0⟩⟩
    let p (v : FrameWords) := unpackPlan r false v.operands
    let row (v : FrameWords) (y : Nat) := g.pointersOk ((p v).packedRow y) ((p v).planesRow y)
    (∀ v ∈ [w 0x100 0x10 0 0x10, w 0x100 0x10 0x10 back, w 0x10 back 0x180 0x10],
      frameHeld (frameState v []) v = true ∧ v.fit 64 = true) ∧
    row (w 0x100 0x10 0 0x10) 0 = false ∧ row (w 0x100 0x10 0x10 back) 0 = true ∧ row (w 0x100 0x10 0x10 back) 1 = false ∧
    lumaPointersOk (p (w 0x10 back 0x180 0x10)).luma = false ∧ row (w 0x10 back 0x180 0x10) 1 = true ∧
    ∀ v ∈ [w 0x100 0x10 0 0x10, w 0x100 0x10 0x10 back, w 0x10 back 0x180 0x10],
      statusOf (exec (.unpackFrame 39 false false) (frameState v [])) = some (.faulted .nullPtr) := by
  decide

/-- ALIGN_CHECK, no launch memory. -/
def strict (s : State) : State := { aligned s with admitSet := [] }
/-- Empty ranges at odd pointers. -/
def wordsE : LineWords := ⟨0x11, 0x21, 0x31, 0x41, 0, 12, 12⟩
/-- A frame of nv12 at odd pointers. -/
def wordsEF (width height : Word) : FrameWords :=
  ⟨width, height, ⟨0x11, 1, 0x21, 1⟩, ⟨0x31, 1, 0x41, 1⟩, ⟨0x51, 1, 0x61, 1⟩, ⟨0, 0, 0, 0⟩⟩
/-- An empty range and frames of no width and of no height complete, whatever ADMIT and ALIGN_CHECK say. -/
theorem wit_EmptyCommandsTouchNothing_completes :
    unpackLineHeld (strict (unpackState wordsE [])) wordsE = true ∧ packLineHeld (strict (packState wordsE [])) wordsE = true ∧
    wordsE.fit 64 = true ∧ wordsE.left = wordsE.right ∧ yuy2.admits 12 12 = true ∧ v210Admits 12 12 = true ∧
    yuy2.pointersOk wordsE.operands.packed wordsE.operands.planes = true ∧
    frameHeld (strict (frameState (wordsEF 0 5) [])) (wordsEF 0 5) = true ∧ (wordsEF 0 5).fit 64 = true ∧
    frameHeld (strict (frameState (wordsEF 6 0) [])) (wordsEF 6 0) = true ∧ (wordsEF 6 0).fit 64 = true ∧
    (∀ i ∈ ([.unpackLine 26, .unpackLineV210 35] : List Instr),
      statusOf (exec i (strict (unpackState wordsE []))) = some .idle) ∧
    (∀ i ∈ ([.packLine 26 true, .packLineV210 35 true] : List Instr),
      statusOf (exec i (strict (packState wordsE []))) = some .idle) ∧
    ∀ i ∈ ([.unpackFrame 39 false true, .packFrame 39 false true] : List Instr), ∀ w ∈ [wordsEF 0 5, wordsEF 6 0],
      statusOf (exec i (strict (frameState w []))) = some .idle := by
  decide
/-- The pointers of an empty range need no alignment, and its footprint is ready. -/
theorem wit_LineResults_empty :
    yuy2.alignedRow (strict State.reset).bus wordsE.operands.packed wordsE.operands.planes = false ∧
    v210AlignedRow (strict State.reset).bus wordsE.operands.packed wordsE.operands.planes = false ∧
    (yuy2.unpackFootprint wordsE.operands).noOverlap = true ∧
    (yuy2.unpackFootprint wordsE.operands).ready (strict State.reset).bus = true ∧
    (v210PackFootprint wordsE.operands).noOverlap = true ∧
    (v210PackFootprint wordsE.operands).ready (strict State.reset).bus = true ∧
    ¬ wordsE.left.toNat < wordsE.right.toNat := by decide

/-- The first access that fails, in each form: the second unit of an unpack, the first element of a pack, a v210 word, a
v210 sample, and a luma row of a frame; and a list of which all pass. -/
theorem wit_AccessFaults_commands :
    let p : Planes := ⟨0x20, 0x30, 0x40, 0⟩
    let luma := (unpackPlan ⟨.generic, true, 1, 1⟩ false wordsF3.operands)
    smallBus.firstFault (yuy2.unpackAccesses 0xFC p 0 4) = some .buffer ∧
    smallBus.firstFault (yuy2.packAccesses 0x80 ⟨0x1000, 0x30, 0x40, 0⟩ 0 2) = some .addrWrap ∧
    smallBus.firstFault (v210UnpackAccesses 0x82 p 0 6) = some .misaligned ∧
    smallBus.firstFault (v210PackAccesses 0x80 ⟨0x20, 0x31, 0x40, 0⟩ 0 6) = some .misaligned ∧
    smallBus.firstFault (luma.unpackAccesses (.generic nv12)) = some .buffer ∧
    stateF3.bus.firstFault (luma.unpackAccesses (.generic nv12)) = none ∧
    statusOf (exec (.unpackFrame 39 false false) { stateF3 with admitSet := [⟨0, 0x1FF⟩] }) = some (.faulted .buffer) ∧
    statusOf (exec (.packLine 26 true) { packState ⟨0x80, 0x20, 0x30, 0x40, 0, 0, 2⟩ [] with admitSet := [⟨0x80, 4⟩] })
      = some (.faulted .buffer) := by
  decide

end Sys2Proof.Tests
end

section
/-! SUPPORT. What the checks of a catalog give beside the widths and the slots (10_state.md R31 (a), (b)), and the proof
that every descriptor of an accepted catalog meets R30 and R31. -/

namespace Sys2Proof.Machine

/-- The subsampled channels are U and V of a format with SS > 0 (10_state.md R35). -/
theorem sub_iff (d : Layout) (c : Channel) : d.sub c = true ↔ (c = .u ∨ c = .v) ∧ 0 < d.ss := by
  cases c <;> simp [Layout.sub, Nat.pos_iff_ne_zero]

theorem ppp_mod_two_pow_ss {d : Layout} (h : d.ok = true) : d.ppp % 2 ^ d.ss = 0 := by
  simp only [Layout.ok, Bool.and_eq_true, beq_iff_eq] at h
  obtain ⟨⟨⟨⟨⟨_, hppp⟩, _⟩, _⟩, _⟩, _⟩ := h
  exact hppp

theorem countOk_of_ok {d : Layout} (h : d.ok = true) (c : Channel) : d.countOk c = true := by
  simp only [Layout.ok, Bool.and_eq_true] at h
  obtain ⟨⟨_, hcounts⟩, _⟩ := h
  exact List.all_eq_true.1 hcounts c (mem_channel_all c)

/-- A channel that a slot names has a slot for each of its elements in a unit (10_state.md R31 (b)). -/
theorem count_eq_of_pos {d : Layout} (h : d.ok = true) {c : Channel} (hc : 0 < d.count c) :
    d.count c = if (c = .u ∨ c = .v) ∧ 0 < d.ss then d.ppp / 2 ^ d.ss else d.ppp := by
  have hcount := countOk_of_ok h c
  simp only [Layout.countOk, Bool.or_eq_true, beq_iff_eq, Nat.shiftRight_eq_div_pow, sub_iff] at hcount
  exact hcount.resolve_left (Nat.pos_iff_ne_zero.1 hc)

/-- Settles O7: a catalog's checks include each descriptor's, and the slots of a checked descriptor fit the unit
(`slot_fits`) and share no bit (`slot_unique`). -/
theorem acceptedDescriptors : Obligations.AcceptedDescriptors := by
  intro cat n d hcat hget
  have hok : d.ok = true := descriptor_ok hcat hget
  refine ⟨fun i c sh dp hi => ?_, ppp_mod_two_pow_ss hok, fun c hc => count_eq_of_pos hok hc, count_alpha hok⟩
  obtain ⟨hpos, hplw, hpkw⟩ := slot_fits hok i.2 hi
  refine ⟨hpkw, hpos, hplw, fun j c' sh' dp' hj hne b ⟨hbi, hbj⟩ => hne (Fin.ext ?_)⟩
  exact slot_unique hok i.2 j.2 hi hj hbi hbj

end Sys2Proof.Machine
end

section
/-! SUPPORT. The frame of a command over the registers and the host's side (10_state.md R24): what every ending keeps, and
that the memory commands keep the whole register file. -/

namespace Sys2Proof.Machine

/-! ### What every command keeps -/

/-- The parameters, ADMIT and the host's side of two states are the same. -/
def SameSurroundings (s t : State) : Prop :=
  t.cfg = s.cfg ∧ t.admitSet = s.admitSet ∧ t.pending = s.pending ∧ t.returned = s.returned

theorem Resolved.regs {f : Fmt} {s s1 : State} (h : Resolved f s s1) : s1.regs = s.regs := by
  rcases h with rfl | ⟨k, rfl⟩
  · rfl
  · exact resolve_regs s f k

theorem Resolved.sameSurroundings {f : Fmt} {s s1 : State} (h : Resolved f s s1) : SameSurroundings s s1 := by
  rcases h with rfl | ⟨k, rfl⟩
  · exact ⟨rfl, rfl, rfl, rfl⟩
  · exact ⟨resolve_cfg s f k, resolve_admit s f k, resolve_pending s f k, resolve_returned s f k⟩

/-- However a command ends, every argument register but BFX_OUT keeps the host's value. -/
theorem Ends.get_regs {i : Instr} {s t : State} (h : Ends i s t) {n : ArgName} (hn : n ≠ .bfxOut) :
    t.regs.get n = s.regs.get n := by
  cases h with
  | fault s1 r hs => exact congrArg (·.get n) hs.regs
  | access s1 r hs => exact congrArg (·.get n) hs.regs
  | bfx s1 w hs =>
    calc (s1.regs.put .bfxOut w).get n = s1.regs.get n := get_put_other _ w hn
      _ = s.regs.get n := by rw [hs.regs]
  | memory s1 m hs => exact congrArg (·.get n) hs.regs

theorem Ends.sameSurroundings {i : Instr} {s t : State} (h : Ends i s t) : SameSurroundings s t := by
  cases h with
  | fault s1 r hs => exact hs.sameSurroundings
  | access s1 r hs => exact hs.sameSurroundings
  | bfx s1 w hs => exact hs.sameSurroundings
  | memory s1 m hs => exact hs.sameSurroundings

/-! ### The memory commands keep every register -/

/-- A result that, if it is a next state, has the registers of `s`, BFX_OUT among them. -/
def KeepsRegs (s : State) (res : Result) : Prop := ∀ t, res = .next t → t.regs = s.regs

theorem keepsRegs_refused (s : State) (r : Refusal) : KeepsRegs s (.refused r) := nofun

theorem keepsRegs_raiseFault (s : State) (r : FaultReason) : KeepsRegs s (raiseFault s r) := by
  rintro t ⟨⟩
  rfl

theorem keepsRegs_runTransfer (s : State) (fmt : Fmt) (k : Key) (checks : Except FaultReason Unit) (f : Footprint)
    (accesses : Memory → Except FaultReason Memory) :
    KeepsRegs s (runTransfer (s.resolve fmt k) checks f accesses) := by
  intro t h
  rcases runTransfer_cases h with ⟨r, _, rfl⟩ | ⟨_, _, rfl⟩ | ⟨_, _, r, _, rfl⟩ | ⟨_, _, m, _, rfl⟩
  all_goals exact resolve_regs s fmt k

theorem keepsRegs_withFormat {s : State} {fmt : Fmt} {k : RegistryEntry → Descriptor → Result}
    (hk : ∀ r d, KeepsRegs s (k r d)) : KeepsRegs s (withFormat s fmt k) := by
  intro t h
  rcases withFormat_cases h with rfl | ⟨r, d, _, _, h⟩
  · rfl
  · exact hk r d t h

/-- A command that is no EXTRACT, ALIGN or SELECT leaves the register file as it is. -/
theorem exec_keepsRegs {i : Instr} (s : State) (hextract : ∀ f k, i ≠ .extract f k) (halign : ∀ f k, i ≠ .align f k)
    (hselectU : ∀ f, i ≠ .selectU f) (hselectP : ∀ f b, i ≠ .selectP f b) : KeepsRegs s (exec i s) := by
  cases i with
  | extract f k => exact absurd rfl (hextract f k)
  | align f k => exact absurd rfl (halign f k)
  | selectU f => exact absurd rfl (hselectU f)
  | selectP f fill => exact absurd rfl (hselectP f fill)
  | unpackLine | unpackLineV210 | packLine | packLineV210 =>
    refine keepsRegs_withFormat fun _ _ => ?_
    split
    · exact keepsRegs_refused s _
    · split
      · exact keepsRegs_raiseFault s _
      · exact keepsRegs_runTransfer s _ _ _ _ _
  | unpackFrame | packFrame =>
    refine keepsRegs_withFormat fun _ _ => ?_
    split
    · exact keepsRegs_raiseFault s _
    · exact keepsRegs_runTransfer s _ _ _ _ _

/-- Settles O22: every ending of a command keeps the registers but BFX_OUT and the surroundings, and no ending of a memory
command writes a register at all. -/
theorem commandsKeepRegisters : Obligations.CommandsKeepRegisters := by
  intro i s t h
  have hends : Ends i s t := exec_ends h
  exact ⟨fun n hn => hends.get_regs hn,
    fun hextract halign hselectU hselectP => exec_keepsRegs s hextract halign hselectU hselectP t h,
    hends.sameSurroundings⟩

end Sys2Proof.Machine
end

section
/-! SUPPORT. What the decoder answers, in terms of the bits of the 64-bit CMD value (30_encoding.md R91 to R97), and
what a step does that launches a CMD write. -/

namespace Sys2Proof.Machine

/-! ### The fields of a CMD write (10_state.md R25, 30_encoding.md R91) -/

theorem ne_zero_iff_exists_getLsbD {n : Nat} (x : BitVec n) : x ≠ 0#n ↔ ∃ i, x.getLsbD i = true := by
  refine ⟨fun hne => ?_, ?_⟩
  · by_contra hall
    refine hne (BitVec.eq_of_getLsbD_eq fun i _ => ?_)
    rw [BitVec.getLsbD_zero]
    exact Bool.eq_false_iff.2 fun hi => hall ⟨i, hi⟩
  · rintro ⟨i, hi⟩ rfl
    simp at hi

theorem getLsbD_commandWord (v : Word) {i : Nat} (hi : i < 32) :
    (v.extractLsb' 0 32).getLsbD i = v.getLsbD i := by
  simp [hi]

theorem op_commandWord (v : Word) : (CmdWord.op (v.extractLsb' 0 32)).toNat = cmdOp v := by
  simp only [CmdWord.op, cmdOp, BitVec.extractLsb'_toNat, Nat.shiftRight_zero]
  omega

theorem fmt_commandWord (v : Word) : (CmdWord.fmt (v.extractLsb' 0 32)).toNat = cmdFmt v := by
  simp only [CmdWord.fmt, cmdFmt, BitVec.extractLsb'_toNat, Nat.shiftRight_eq_div_pow]
  omega

theorem slot_commandWord_ne_zero (v : Word) :
    CmdWord.slot (v.extractLsb' 0 32) ≠ 0 ↔ v.getLsbD 4 = true ∨ v.getLsbD 5 = true := by
  have hbit (i : Nat) : (CmdWord.slot (v.extractLsb' 0 32)).getLsbD i = (decide (i < 2) && v.getLsbD (4 + i)) := by
    simp [CmdWord.slot, BitVec.getLsbD_extractLsb']
  refine (ne_zero_iff_exists_getLsbD _).trans ?_
  simp only [hbit, Bool.and_eq_true, decide_eq_true_eq]
  refine ⟨?_, ?_⟩
  · rintro ⟨i, hlt, hi⟩
    obtain rfl | rfl : i = 0 ∨ i = 1 := by omega
    · exact .inl hi
    · exact .inr hi
  · rintro (h | h)
    · exact ⟨0, by decide, h⟩
    · exact ⟨1, by decide, h⟩

/-- The ones of the decoder's mask are the reserved bits 31:18, 15:14 and 7 (30_encoding.md R93). -/
theorem reservedMask_getLsbD {i : Nat} (hi : i < 32) :
    (0xFFFCC080#32).getLsbD i = true ↔ i = 7 ∨ i = 14 ∨ i = 15 ∨ 18 ≤ i :=
  (by decide : ∀ i < 32, (0xFFFCC080#32).getLsbD i = true ↔ i = 7 ∨ i = 14 ∨ i = 15 ∨ 18 ≤ i) i hi

theorem reservedSet_commandWord (v : Word) : CmdWord.reservedSet (v.extractLsb' 0 32) = true ↔
    ∃ i < 32, (i = 7 ∨ i = 14 ∨ i = 15 ∨ 18 ≤ i) ∧ v.getLsbD i = true := by
  simp only [CmdWord.reservedSet, bne_iff_ne, ne_zero_iff_exists_getLsbD, BitVec.getLsbD_and, Bool.and_eq_true]
  refine exists_congr fun i => ⟨fun ⟨hv, hmask⟩ => ?_, fun ⟨hi, hres, hv⟩ => ?_⟩
  · have hi : i < 32 := BitVec.lt_of_getLsbD hv
    exact ⟨hi, (reservedMask_getLsbD hi).1 hmask, getLsbD_commandWord v hi ▸ hv⟩
  · exact ⟨(getLsbD_commandWord v hi).trans hv, (reservedMask_getLsbD hi).2 hres⟩

theorem upperHalf_ne_zero (v : Word) : v.extractLsb' 32 32 ≠ 0#32 ↔ ∃ i, 32 ≤ i ∧ v.getLsbD i = true := by
  simp only [ne_zero_iff_exists_getLsbD, BitVec.getLsbD_extractLsb', Bool.and_eq_true, decide_eq_true_eq]
  refine ⟨fun ⟨i, _, hv⟩ => ⟨32 + i, by omega, hv⟩, fun ⟨i, hi, hv⟩ => ⟨i - 32, ?_, ?_⟩⟩
  · have : i < 64 := BitVec.lt_of_getLsbD hv
    omega
  · rwa [Nat.add_sub_cancel' hi]

/-- The bits that must be zero in every CMD write: those of 63:32, and the reserved bits of the command word. -/
theorem reservedBit_iff (v : Word) :
    (∃ i, (i = 7 ∨ i = 14 ∨ i = 15 ∨ 18 ≤ i) ∧ v.getLsbD i = true) ↔
      v.extractLsb' 32 32 ≠ 0#32 ∨ CmdWord.reservedSet (v.extractLsb' 0 32) = true := by
  rw [upperHalf_ne_zero, reservedSet_commandWord]
  refine ⟨fun ⟨i, hi, hv⟩ => ?_, ?_⟩
  · rcases Nat.lt_or_ge i 32 with hlt | hge
    · exact .inr ⟨i, hlt, hi, hv⟩
    · exact .inl ⟨i, hge, hv⟩
  · rintro (⟨i, hge, hv⟩ | ⟨i, _, hi, hv⟩)
    · exact ⟨i, by omega, hv⟩
    · exact ⟨i, hi, hv⟩

/-! ### The answers of the decoder (30_encoding.md R95) -/

/-- What a must-be-zero check before a form says of an answer of no form. -/
theorem guarded_eq_none_iff (p : Prop) [Decidable p] (form : Option Instr) :
    (if p then none else form) = none ↔ p ∨ form = none := by
  by_cases hp : p <;> simp [hp]

/-- The decoder finds no form for the word: OP is reserved, or a must-be-zero field of its OP is set. -/
theorem formOf_eq_none_iff (v : Word) :
    formOf (v.extractLsb' 0 32) = none ↔ cmdOp v = 0 ∨ 8 ≤ cmdOp v ∨ mustBeZeroSet v := by
  simp only [formOf, mustBeZeroSet, CmdWord.selPack, CmdWord.skip, CmdWord.alphaOne,
    getLsbD_commandWord v (by decide : 6 < 32), getLsbD_commandWord v (by decide : 16 < 32),
    getLsbD_commandWord v (by decide : 17 < 32), op_commandWord, ← slot_commandWord_ne_zero]
  split
  case h_1 hop | h_2 hop | h_3 hop | h_4 hop | h_5 hop | h_6 hop =>
    simp only [guarded_eq_none_iff, hop, Bool.or_eq_true, bne_iff_ne, reduceCtorEq, or_false]
    simp [or_assoc]
  case h_7 hop =>
    -- SEL_PACK and ALPHA_SET_ONE decide what the form is once SLOT and SKIP are zero
    rw [guarded_eq_none_iff]
    cases v.getLsbD 6 <;> cases v.getLsbD 17 <;> simp [hop]
  case h_8 h1 h2 h3 h4 h5 h6 h7 =>
    simp only [imp_false] at h1 h2 h3 h4 h5 h6 h7
    have hreserved : cmdOp v = 0 ∨ 8 ≤ cmdOp v := by omega
    simp only [true_iff]
    exact hreserved.imp_right .inl

/-- The illegal CMD writes of 30_encoding.md R96 are those that fail one of the decoder's checks before FMT's. -/
theorem illegalCmd_iff (v : Word) : IllegalCmd v ↔
    (v.extractLsb' 32 32 ≠ 0#32 ∨ CmdWord.reservedSet (v.extractLsb' 0 32) = true) ∨
      formOf (v.extractLsb' 0 32) = none := by
  rw [← reservedBit_iff, formOf_eq_none_iff, or_left_comm]
  exact or_congr_right or_left_comm

theorem decodeCmd_of_illegal {v : Word} (h : IllegalCmd v) : decodeCmd v = .error .illegalCmd := by
  unfold decodeCmd decode
  rcases (illegalCmd_iff v).1 h with (hupper | hreserved) | hform
  · simp [hupper]
  · simp [hreserved]
  · simp [hform]

/-- A CMD write that is not illegal has a form, and then FMT alone decides whether it decodes. -/
theorem decodeCmd_of_legal {v : Word} (h : ¬ IllegalCmd v) : ∃ i, formOf (v.extractLsb' 0 32) = some i ∧
    decodeCmd v = if i.formatNamed then .ok i else .error .badFormat := by
  simp only [illegalCmd_iff, not_or, ne_eq, not_not] at h
  obtain ⟨⟨hupper, hreserved⟩, hform⟩ := h
  obtain ⟨i, hi⟩ := Option.ne_none_iff_exists'.1 hform
  exact ⟨i, hi, by simp [decodeCmd, decode, hupper, hreserved, hi]⟩

/-- The decoder answers ILLEGAL_CMD exactly for the illegal CMD writes of 30_encoding.md R96. -/
theorem decodeCmd_illegal_iff (v : Word) : decodeCmd v = .error .illegalCmd ↔ IllegalCmd v := by
  refine ⟨fun herr => ?_, decodeCmd_of_illegal⟩
  by_contra hlegal
  obtain ⟨i, _, hdec⟩ := decodeCmd_of_legal hlegal
  rw [hdec] at herr
  split at herr <;> cases herr

theorem formOf_fmt {w : CmdWord} {i : Instr} (h : formOf w = some i) : i.fmt = CmdWord.fmt w := by
  simp only [formOf] at h
  repeat' split at h
  all_goals cases h <;> rfl

/-- FMT names no format exactly from 50 on (30_encoding.md R97). -/
theorem registry_eq_none_iff (f : Fmt) : registry f = none ↔ 50 ≤ f.toNat := by
  simp only [registry, ite_eq_iff, reduceCtorEq, and_false, and_true, false_or]
  omega

theorem formatNamed_iff (i : Instr) : i.formatNamed = true ↔ i.fmt.toNat < 50 := by
  rw [Instr.formatNamed, Option.isSome_iff_ne_none, ne_eq, registry_eq_none_iff, Nat.not_le]

/-- A legal CMD write whose FMT is 50 to 63 decodes to BAD_FORMAT (30_encoding.md R97). -/
theorem decodeCmd_badFormat {v : Word} (hlegal : ¬ IllegalCmd v) (hfmt : 50 ≤ cmdFmt v) :
    decodeCmd v = .error .badFormat := by
  obtain ⟨i, hform, hdec⟩ := decodeCmd_of_legal hlegal
  have hunnamed : ¬ i.formatNamed = true := by
    rw [formatNamed_iff, formOf_fmt hform, fmt_commandWord]
    omega
  rw [hdec, if_neg hunnamed]

/-! ### The launch of a CMD write (10_state.md R26) -/

/-- The step of a CMD write launches it, in the state whose host action it has left. -/
theorem step_cmdWrite {s : State} {v : Word} {rest : List HostAction} (h : cmdWriteNext s v rest) :
    step s = launch v { s with pending := rest } := by
  obtain ⟨hcat, hpending⟩ := h
  simp [step, runPending, hcat, hpending, hostMove, hostRegWrite, regTarget, regAt, registerMap]

/-- A CMD write that does not decode raises its decode fault and changes nothing else. -/
theorem step_decodeError {s : State} {v : Word} {rest : List HostAction} {e : DecodeError} (h : cmdWriteNext s v rest)
    (hidle : s.status = .idle) (he : decodeCmd v = .error e) :
    step s = .next { s with pending := rest, status := .faulted (reasonOfDecode e) } := by
  rw [step_cmdWrite h]
  simp [launch, hidle, he, raiseFault]

/-- Settles O4: the decoder's checks before FMT's are the clauses of R96 bit by bit (`illegalCmd_iff`), and the launch
of a word that does not decode changes the status alone (`step_decodeError`). -/
theorem illegalWordsFault : Obligations.IllegalWordsFault := by
  refine ⟨decodeCmd_illegal_iff, fun s v rest hnext hidle hillegal => ?_⟩
  exact step_decodeError hnext hidle ((decodeCmd_illegal_iff v).2 hillegal)

/-- Settles O5: the registry ends at id 49, and a legal word with a greater FMT decodes to BAD_FORMAT. -/
theorem unnamedFormatsFault : Obligations.UnnamedFormatsFault := by
  refine ⟨registry_eq_none_iff, fun s v rest hnext hidle hlegal hfmt => ?_⟩
  exact step_decodeError hnext hidle (decodeCmd_badFormat hlegal hfmt)

end Sys2Proof.Machine
end

section
/-! SUPPORT. The ROMs of the default parameters, read against the tables of 30_encoding.md R105 and R112 to R119. -/

namespace Sys2Proof.Machine

/-! ### The checks of a table, as computations -/

/-- Both members of a pair are there and differ in TAG alone (30_encoding.md R101, R119). -/
def pairMatches : Option Descriptor → Option Descriptor → Bool
  | some (.generic d), some (.generic e) => d.tag == .big && e == { d with tag := .little }
  | some (.v210 t), some (.v210 u) => t == .big && u == .little
  | _, _ => false

/-- The entry for id `n` is the GENERIC descriptor the row prints (30_encoding.md R103, R104, R112 to R117). -/
def CatalogRow.prints (row : CatalogRow) (n : Nat) : Option Descriptor → Bool
  | some (.generic d) =>
    d.plw == row.plw && d.pkw == row.pkw && d.ppp == row.ppp && d.ss == row.ss &&
      (Descriptor.generic d).masks == some (row.comp, row.shift, row.depth) &&
      (!(n == 26 || n == 27) || d.tag == .little)
  | _ => false

theorem pairMatches_cases {x y : Option Descriptor} (h : pairMatches x y = true) :
    (∃ d e, x = some (.generic d) ∧ y = some (.generic e) ∧ d.tag = .big ∧ e = { d with tag := .little }) ∨
    (x = some (.v210 .big) ∧ y = some (.v210 .little)) := by
  unfold pairMatches at h
  split at h
  case h_1 d e =>
    simp only [Bool.and_eq_true, beq_iff_eq] at h
    exact .inl ⟨d, e, rfl, rfl, h⟩
  case h_2 t u =>
    simp only [Bool.and_eq_true, beq_iff_eq] at h
    obtain ⟨rfl, rfl⟩ := h
    exact .inr ⟨rfl, rfl⟩
  case h_3 => cases h

theorem CatalogRow.prints_cases {row : CatalogRow} {n : Nat} {x : Option Descriptor} (h : row.prints n x = true) :
    ∃ d, x = some (.generic d) ∧ d.plw = row.plw ∧ d.pkw = row.pkw ∧ d.ppp = row.ppp ∧ d.ss = row.ss ∧
      (Descriptor.generic d).masks = some (row.comp, row.shift, row.depth) ∧ (n = 26 ∨ n = 27 → d.tag = .little) := by
  unfold CatalogRow.prints at h
  split at h
  case h_1 d =>
    simp only [Bool.and_eq_true, Bool.or_eq_true, Bool.not_eq_true', Bool.or_eq_false_iff, beq_iff_eq,
      beq_eq_false_iff_ne] at h
    obtain ⟨⟨⟨⟨⟨hplw, hpkw⟩, hppp⟩, hss⟩, hmasks⟩, htag⟩ := h
    exact ⟨d, rfl, hplw, hpkw, hppp, hss, hmasks, fun hn => htag.resolve_left (by omega)⟩
  case h_2 => cases h

/-! ### The default catalog -/

theorem defaultCatalog_ok : catalogOk defaultCatalog = true := by decide

/-- The pairs are those of R101: all ids but 26 and 27, which are one format each. -/
theorem defaultCatalog_pairs :
    ∀ n < 25, n ≠ 13 → pairMatches defaultCatalog[2 * n]? defaultCatalog[2 * n + 1]? = true := by decide

theorem defaultCatalog_rows : ∀ row ∈ catalogRows444 ++ catalogRows422, ∀ n ∈ row.ids,
    row.prints n defaultCatalog[n]? = true := by decide

theorem catalogRows_cover :
    ∀ n < 50, n = 34 ∨ n = 35 ∨ ∃ row ∈ catalogRows444 ++ catalogRows422, n ∈ row.ids := by decide

/-! ### The registry ROM (30_encoding.md R105) -/

theorem registry_table (f : Fmt) :
    ((f.toNat ≤ 33 ∨ f.toNat = 36 ∨ f.toNat = 37) → registry f = some ⟨.generic, false, 0, 0⟩) ∧
    ((f.toNat = 34 ∨ f.toNat = 35) → registry f = some ⟨.v210, false, 0, 0⟩) ∧
    ((f.toNat = 38 ∨ f.toNat = 39) → registry f = some ⟨.generic, true, 1, 1⟩) ∧
    (40 ≤ f.toNat → f.toNat ≤ 45 → registry f = some ⟨.generic, true, 1, 2⟩) ∧
    (46 ≤ f.toNat → f.toNat ≤ 49 → registry f = some ⟨.generic, true, 0, 2⟩) := by
  refine ⟨fun h => ?_, fun _ => ?_, fun _ => ?_, fun _ _ => ?_, fun _ _ => ?_⟩
  · rcases h with h | h | h <;> simp [registry, h]
  all_goals simp (disch := omega) only [registry, if_pos, if_neg]

/-- Settles O8: the catalog's finite tables are checked entry by entry (`defaultCatalog_pairs`, `defaultCatalog_rows`),
and the registry by its ranges of ids for every FMT (`registry_table`). -/
theorem romTables : Obligations.RomTables := by
  refine ⟨defaultCatalog_ok, fun n hn hne => ?_, fun row hrow n hid => ?_, catalogRows_cover, registry_table⟩
  · rcases pairMatches_cases (defaultCatalog_pairs n hn hne) with ⟨d, e, hbe, hle, h⟩ | ⟨hbe, hle⟩
    · rw [hbe, hle]
      exact h
    · rw [hbe, hle]
      exact ⟨rfl, rfl⟩
  · obtain ⟨d, hget, h⟩ := CatalogRow.prints_cases (defaultCatalog_rows row hrow n hid)
    rw [hget]
    exact h

end Sys2Proof.Machine
end

section
/-! SUPPORT. The range checks of the line and frame commands (41_scanline.md R172, 44_frame.md R247): what a command
comes to once its registers are read, and that its row function's range fault has no other cause. -/

namespace Sys2Proof.Machine

/-! ### A command whose registers hold operands that fit (10_state.md R22, R39) -/

section
variable {s : State} {fmt : Fmt} {fill skip one : Bool}

theorem exec_unpackLine_eq {d : Layout} {w : LineWords} (hcat : catalogOk s.cfg.catalog = true)
    (hd : s.cfg.catalog[fmt.toNat]? = some (.generic d)) (hw : unpackLineHeld s w = true)
    (hfit : w.fit s.cfg.addrW = true) :
    exec (.unpackLine fmt) s = runTransfer (s.resolve fmt .unpack) (d.lineChecks w.operands)
      (d.unpackFootprint w.operands)
      (d.unpackRow s.bus w.operands.packed w.operands.planes w.operands.left w.operands.right) := by
  obtain ⟨r, hr, _⟩ := registry_of_get hcat hd
  simp only [exec, execUnpackLine, withFormat_eq hr hd, unpackLineOperands_eq hw hfit]

theorem exec_packLine_eq {d : Layout} {w : LineWords} (hcat : catalogOk s.cfg.catalog = true)
    (hd : s.cfg.catalog[fmt.toNat]? = some (.generic d)) (hw : packLineHeld s w = true)
    (hfit : w.fit s.cfg.addrW = true) :
    exec (.packLine fmt fill) s = runTransfer (s.resolve fmt (packKey fill)) (d.lineChecks w.operands)
      (d.packFootprint w.operands)
      (d.packRow s.bus fill w.operands.planes w.operands.packed w.operands.left w.operands.right) := by
  obtain ⟨r, hr, _⟩ := registry_of_get hcat hd
  simp only [exec, execPackLine, withFormat_eq hr hd, packLineOperands_eq hw hfit]

theorem exec_unpackFrame_eq {r : RegistryEntry} {desc : Descriptor} {w : FrameWords} (hr : registry fmt = some r)
    (hd : s.cfg.catalog[fmt.toNat]? = some desc) (hw : frameHeld s w = true) (hfit : w.fit s.cfg.addrW = true) :
    exec (.unpackFrame fmt skip one) s = runTransfer (s.resolve fmt .unpack) ((unpackPlan r skip w.operands).checks desc)
      ((unpackPlan r skip w.operands).unpackFootprint desc) ((unpackPlan r skip w.operands).unpack s.bus desc) := by
  simp only [exec, execUnpackFrame, withFormat_eq hr hd, frameOperands_eq hw hfit]

theorem exec_packFrame_eq {r : RegistryEntry} {desc : Descriptor} {w : FrameWords} (hr : registry fmt = some r)
    (hd : s.cfg.catalog[fmt.toNat]? = some desc) (hw : frameHeld s w = true) (hfit : w.fit s.cfg.addrW = true) :
    exec (.packFrame fmt skip fill) s = runTransfer (s.resolve fmt (packKey fill))
      ((packPlan r skip w.operands).checks desc) ((packPlan r skip w.operands).packFootprint desc)
      ((packPlan r skip w.operands).pack s.bus fill desc) := by
  simp only [exec, execPackFrame, withFormat_eq hr hd, frameOperands_eq hw hfit]

end

/-! ### Which ranges fail the checks before the first access -/

theorem admits_iff (d : Layout) (left right : Nat) :
    d.admits left right = true ↔ left ≤ right ∧ left % d.ppp = 0 ∧ right % d.ppp = 0 := by
  simp [Layout.admits, and_assoc]

theorem v210Admits_iff (left right : Nat) :
    v210Admits left right = true ↔ left ≤ right ∧ left % 6 = 0 ∧ right % 6 = 0 := by
  simp [v210Admits, and_assoc]

/-- The row function's range check, for either CLASS. -/
theorem rangeCheck_eq (desc : Descriptor) (left right : Nat) :
    desc.rangeCheck left right = if desc.admits left right = true then .ok () else .error desc.rangeFault := by
  cases desc with
  | generic d => simp only [Descriptor.rangeCheck, Layout.rangeCheck, Descriptor.admits, admits_iff, Descriptor.rangeFault]
  | v210 tag =>
    simp only [Descriptor.rangeCheck, v210RangeCheck, Descriptor.admits, v210Admits_iff, Descriptor.rangeFault]

theorem rangeFault_ne_nullPtr (desc : Descriptor) : desc.rangeFault ≠ .nullPtr := by
  cases desc <;> simp [Descriptor.rangeFault]

/-- A generic line fails its checks with RANGE for no other cause than its range. -/
theorem lineChecks_range_iff (d : Layout) (o : LineOperands) :
    d.lineChecks o = .error .range ↔ ¬ d.admits o.left o.right = true := by
  have hrange : d.rangeCheck o.left o.right = _ := rangeCheck_eq (.generic d) o.left o.right
  by_cases h : d.admits o.left o.right = true
  · cases hptr : d.pointersOk o.packed o.planes <;> simp [Layout.lineChecks, hrange, Descriptor.admits, h, hptr]
  · simp [Layout.lineChecks, hrange, Descriptor.admits, Descriptor.rangeFault, h]

/-- A frame fails its checks with its row function's range fault for no other cause than its width. -/
theorem planChecks_range_iff (p : FramePlan) (desc : Descriptor) :
    p.checks desc = .error desc.rangeFault ↔ ¬ desc.admits 0 p.width = true := by
  by_cases h : desc.admits 0 p.width = true
  · cases hptr : p.rowPointersOk desc && lumaPointersOk p.luma <;>
      simp [FramePlan.checks, rangeCheck_eq, h, hptr, (rangeFault_ne_nullPtr desc).symm]
  · simp [FramePlan.checks, rangeCheck_eq, h]

/-! ### No access raises a range fault -/

theorem firstFault_reason {b : Bus} {l : List Access} {r : FaultReason} (h : b.firstFault l = some r) :
    r = .addrWrap ∨ r = .misaligned ∨ r = .buffer := by
  induction l with
  | nil => cases h
  | cons x rest ih =>
    rw [Bus.firstFault] at h
    split at h
    case h_1 r' hcheck =>
      cases h
      rcases check_error hcheck with ⟨h, _⟩ | ⟨h, _⟩ | ⟨h, _⟩
      · exact .inl h
      · exact .inr (.inl h)
      · exact .inr (.inr h)
    case h_2 => exact ih h

theorem Runs.error_reason {α : Type} {b : Bus} {l : List Access} {x : Except FaultReason α} {r : FaultReason}
    (h : Runs b l x) (hx : x = .error r) : r = .addrWrap ∨ r = .misaligned ∨ r = .buffer := by
  subst hx
  unfold Runs at h
  split at h
  case h_1 r' hfault =>
    cases h
    exact firstFault_reason hfault
  case h_2 =>
    obtain ⟨_, ha⟩ := h
    cases ha

theorem Runs.ne_rangeFault {α : Type} {b : Bus} {l : List Access} {x : Except FaultReason α} (h : Runs b l x)
    (desc : Descriptor) : x ≠ .error desc.rangeFault := by
  intro hx
  have hreason := h.error_reason hx
  cases desc <;> simp [Descriptor.rangeFault] at hreason

/-! ### A command raises its row function's range fault exactly on a range that is not admitted -/

/-- The result faults with `r` and changes nothing else of `s` unless `ok` holds, and if it does it never has that fault. -/
def RaisesUnless (r : FaultReason) (s : State) (ok : Prop) (res : Result) : Prop :=
  (¬ ok → res = .next { s with status := .faulted r }) ∧ (ok → ∀ t, res = .next t → t.status ≠ .faulted r)

/-- A memory command whose checks raise the range fault exactly on a range that is not admitted, and whose accesses, which
run only after them, go as a list of accesses says. -/
theorem runTransfer_raisesUnless {s : State} {desc : Descriptor} {ok : Prop} {checks : Except FaultReason Unit}
    {f : Footprint} {accesses : Memory → Except FaultReason Memory} {b : Bus} {l : List Access} (hidle : s.status = .idle)
    (hchecks : checks = .error desc.rangeFault ↔ ¬ ok) (hruns : checks = .ok () → Runs b l (accesses s.mem)) :
    RaisesUnless desc.rangeFault s ok (runTransfer s checks f accesses) := by
  refine ⟨fun hbad => ?_, fun hok t h hrange => ?_⟩
  · rw [hchecks.2 hbad]
    rfl
  · rcases runTransfer_cases h with ⟨r, hr, rfl⟩ | ⟨_, _, rfl⟩ | ⟨hpass, _, r, hr, rfl⟩ | ⟨_, _, m, _, rfl⟩
    · cases hrange
      exact hchecks.1 hr hok
    · cases desc <;> cases hrange
    · cases hrange
      exact (hruns hpass).ne_rangeFault desc hr
    · cases hidle.symm.trans hrange

section
variable {s : State} {fmt : Fmt} {fill skip one : Bool}

theorem unpackLine_raisesUnless {d : Layout} {w : LineWords} (hcat : catalogOk s.cfg.catalog = true)
    (hd : s.cfg.catalog[fmt.toNat]? = some (.generic d)) (hidle : s.status = .idle) (hw : unpackLineHeld s w = true)
    (hfit : w.fit s.cfg.addrW = true) :
    RaisesUnless .range (s.resolve fmt .unpack) (d.admits w.left.toNat w.right.toNat = true)
      (exec (.unpackLine fmt) s) := by
  rw [exec_unpackLine_eq hcat hd hw hfit]
  exact runTransfer_raisesUnless (desc := .generic d) ((resolve_status s fmt .unpack).trans hidle)
    (lineChecks_range_iff d w.operands) fun hpass => unpackRow_runs (lineChecks_ok hpass).2 _

theorem packLine_raisesUnless {d : Layout} {w : LineWords} (hcat : catalogOk s.cfg.catalog = true)
    (hd : s.cfg.catalog[fmt.toNat]? = some (.generic d)) (hidle : s.status = .idle) (hw : packLineHeld s w = true)
    (hfit : w.fit s.cfg.addrW = true) :
    RaisesUnless .range (s.resolve fmt (packKey fill)) (d.admits w.left.toNat w.right.toNat = true)
      (exec (.packLine fmt fill) s) := by
  rw [exec_packLine_eq hcat hd hw hfit]
  exact runTransfer_raisesUnless (desc := .generic d) ((resolve_status s fmt _).trans hidle)
    (lineChecks_range_iff d w.operands) fun hpass => packRow_runs (lineChecks_ok hpass).2 _

theorem unpackFrame_raisesUnless {desc : Descriptor} {w : FrameWords} (hcat : catalogOk s.cfg.catalog = true)
    (hd : s.cfg.catalog[fmt.toNat]? = some desc) (hidle : s.status = .idle) (hw : frameHeld s w = true)
    (hfit : w.fit s.cfg.addrW = true) :
    RaisesUnless desc.rangeFault (s.resolve fmt .unpack) (desc.admits 0 w.width.toNat = true)
      (exec (.unpackFrame fmt skip one) s) := by
  obtain ⟨r, hr, _⟩ := registry_of_get hcat hd
  rw [exec_unpackFrame_eq hr hd hw hfit]
  exact runTransfer_raisesUnless ((resolve_status s fmt .unpack).trans hidle) (planChecks_range_iff _ desc)
    fun hpass => planUnpack_runs hpass _

theorem packFrame_raisesUnless {desc : Descriptor} {w : FrameWords} (hcat : catalogOk s.cfg.catalog = true)
    (hd : s.cfg.catalog[fmt.toNat]? = some desc) (hidle : s.status = .idle) (hw : frameHeld s w = true)
    (hfit : w.fit s.cfg.addrW = true) :
    RaisesUnless desc.rangeFault (s.resolve fmt (packKey fill)) (desc.admits 0 w.width.toNat = true)
      (exec (.packFrame fmt skip fill) s) := by
  obtain ⟨r, hr, _⟩ := registry_of_get hcat hd
  rw [exec_packFrame_eq hr hd hw hfit]
  exact runTransfer_raisesUnless ((resolve_status s fmt _).trans hidle) (planChecks_range_iff _ desc)
    fun hpass => planPack_runs hpass _

end

/-- Settles O44: each command comes to a transfer whose checks raise RANGE exactly on a range that is not admitted, and
whose accesses have only faults of an access check (`runTransfer_raisesUnless`). -/
theorem genericRange : Obligations.GenericRange := by
  intro s fmt fill skip d hcat hd hidle
  simp only [← admits_iff]
  refine ⟨fun hppp left right hle => ?_, fun w hfit => ⟨fun hw => ?_, fun hw => ?_⟩, fun w hfit hw => ⟨?_, ?_⟩⟩
  · rw [admits_iff, hppp]
    exact ⟨hle, Nat.mod_one left, Nat.mod_one right⟩
  · exact unpackLine_raisesUnless hcat hd hidle hw hfit
  · exact packLine_raisesUnless hcat hd hidle hw hfit
  · exact unpackFrame_raisesUnless hcat hd hidle hw hfit
  · exact packFrame_raisesUnless hcat hd hidle hw hfit

end Sys2Proof.Machine
end

section
/-! SUPPORT. The range check of the v210 line commands (42_v210.md R203): V210_RANGE has no other cause than
the range. -/

namespace Sys2Proof.Machine

/-! ### A v210 line command whose registers hold operands that fit (10_state.md R22, R39) -/

section
variable {s : State} {fmt : Fmt} {fill : Bool} {tag : ByteOrder} {w : LineWords}

theorem exec_unpackLineV210_eq (hcat : catalogOk s.cfg.catalog = true)
    (hd : s.cfg.catalog[fmt.toNat]? = some (.v210 tag)) (hw : unpackLineHeld s w = true)
    (hfit : w.fit s.cfg.addrW = true) :
    exec (.unpackLineV210 fmt) s = runTransfer (s.resolve fmt .unpack) (v210LineChecks w.operands)
      (v210UnpackFootprint w.operands)
      (v210UnpackRow tag s.bus w.operands.packed w.operands.planes w.operands.left w.operands.right) := by
  obtain ⟨r, hr, _⟩ := registry_of_get hcat hd
  simp only [exec, execUnpackLineV210, withFormat_eq hr hd, unpackLineOperands_eq hw hfit]

theorem exec_packLineV210_eq (hcat : catalogOk s.cfg.catalog = true)
    (hd : s.cfg.catalog[fmt.toNat]? = some (.v210 tag)) (hw : packLineHeld s w = true)
    (hfit : w.fit s.cfg.addrW = true) :
    exec (.packLineV210 fmt fill) s = runTransfer (s.resolve fmt (packKey fill)) (v210LineChecks w.operands)
      (v210PackFootprint w.operands)
      (v210PackRow tag s.bus w.operands.planes w.operands.packed w.operands.left w.operands.right) := by
  obtain ⟨r, hr, _⟩ := registry_of_get hcat hd
  simp only [exec, execPackLineV210, withFormat_eq hr hd, packLineOperands_eq hw hfit]

/-! ### V210_RANGE exactly on a range that is not admitted -/

theorem RaisesUnless.congr {r : FaultReason} {ok ok' : Prop} {res : Result} (h : RaisesUnless r s ok res)
    (hok : ok ↔ ok') : RaisesUnless r s ok' res :=
  propext hok ▸ h

/-- A v210 line fails its checks with V210_RANGE for no other cause than its range: its null checks come after and raise
NULL_PTR. -/
theorem v210LineChecks_range_iff (o : LineOperands) :
    v210LineChecks o = .error .v210Range ↔ ¬ v210Admits o.left o.right = true := by
  by_cases h : v210Admits o.left o.right = true
  · have hrange : v210RangeCheck o.left o.right = .ok () := if_pos ((v210Admits_iff _ _).1 h)
    cases hptr : v210PointersOk o.packed o.planes <;> simp [v210LineChecks, hrange, h, hptr]
  · have hrange : v210RangeCheck o.left o.right = .error .v210Range := if_neg (mt (v210Admits_iff _ _).2 h)
    simp [v210LineChecks, hrange, h]

theorem unpackLineV210_raisesUnless (hcat : catalogOk s.cfg.catalog = true)
    (hd : s.cfg.catalog[fmt.toNat]? = some (.v210 tag)) (hidle : s.status = .idle) (hw : unpackLineHeld s w = true)
    (hfit : w.fit s.cfg.addrW = true) :
    RaisesUnless .v210Range (s.resolve fmt .unpack) (v210Admits w.left.toNat w.right.toNat = true)
      (exec (.unpackLineV210 fmt) s) := by
  rw [exec_unpackLineV210_eq hcat hd hw hfit]
  exact runTransfer_raisesUnless (desc := .v210 tag) ((resolve_status s fmt .unpack).trans hidle)
    (v210LineChecks_range_iff w.operands) fun hpass => descUnpack_runs (desc := .v210 tag) (v210LineChecks_ok hpass).2 _

theorem packLineV210_raisesUnless (hcat : catalogOk s.cfg.catalog = true)
    (hd : s.cfg.catalog[fmt.toNat]? = some (.v210 tag)) (hidle : s.status = .idle) (hw : packLineHeld s w = true)
    (hfit : w.fit s.cfg.addrW = true) :
    RaisesUnless .v210Range (s.resolve fmt (packKey fill)) (v210Admits w.left.toNat w.right.toNat = true)
      (exec (.packLineV210 fmt fill) s) := by
  rw [exec_packLineV210_eq hcat hd hw hfit]
  exact runTransfer_raisesUnless (desc := .v210 tag) ((resolve_status s fmt _).trans hidle)
    (v210LineChecks_range_iff w.operands) fun hpass =>
      descPack_runs (desc := .v210 tag) (fill := fill) (v210LineChecks_ok hpass).2 _

end

/-- Settles O53: each command comes to a transfer whose checks raise V210_RANGE exactly on a range that is not admitted,
and whose accesses have only faults of an access check (`runTransfer_raisesUnless`). The frame commands are those of
either CLASS, at the v210 descriptor. -/
theorem v210Range : Obligations.V210Range := by
  intro s fmt fill skip tag hcat hd hidle
  refine ⟨fun w hfit => ⟨fun hw => ?_, fun hw => ?_⟩, fun w hfit hw => ⟨?_, ?_⟩⟩
  · exact (unpackLineV210_raisesUnless hcat hd hidle hw hfit).congr (v210Admits_iff _ _)
  · exact (packLineV210_raisesUnless hcat hd hidle hw hfit).congr (v210Admits_iff _ _)
  · exact (unpackFrame_raisesUnless hcat hd hidle hw hfit).congr (v210Admits_iff _ _)
  · exact (packFrame_raisesUnless hcat hd hidle hw hfit).congr (v210Admits_iff _ _)

end Sys2Proof.Machine
end

section
/-! SUPPORT. The plan of a frame command by the NV bit of its format (44_frame.md R242, R246, R250), and the flags that
do not reach it (30_encoding.md R93). -/

namespace Sys2Proof.Machine

/-! ### The plan of a packed format and of an NV format -/

section
variable {r : RegistryEntry} {skip : Bool} {o : FrameOperands}

theorem lumaOf_of_not_nv (h : r.nv = false) : lumaOf r skip o = none := by
  simp [lumaOf, h]

theorem lumaOf_of_nv (h : r.nv = true) :
    lumaOf r skip o = if skip then none
      else some ⟨o.src.y, o.srcStride.y, o.dst.y, o.dstStride.y, o.width * r.lumaB, o.height⟩ := by
  cases skip <;> simp [lumaOf, h]

theorem frameRowCount_of_not_nv (h : r.nv = false) (height : Nat) : frameRowCount r height = height := by
  simp [frameRowCount, h]

theorem frameRowCount_of_nv (h : r.nv = true) (height : Nat) : frameRowCount r height = height / 2 ^ r.ssv := by
  simp [frameRowCount, h, Nat.shiftRight_eq_div_pow]

theorem unpackPlan_of_not_nv (h : r.nv = false) :
    unpackPlan r skip o = ⟨o.src.y, o.srcStride.y, o.dst, o.dstStride, o.height, o.width, none⟩ := by
  simp [unpackPlan, chromaPlanes, frameRowCount_of_not_nv h, lumaOf_of_not_nv h, h]

theorem packPlan_of_not_nv (h : r.nv = false) :
    packPlan r skip o = ⟨o.dst.y, o.dstStride.y, o.src, o.srcStride, o.height, o.width, none⟩ := by
  simp [packPlan, chromaPlanes, frameRowCount_of_not_nv h, lumaOf_of_not_nv h, h]

theorem unpackPlan_of_nv (h : r.nv = true) :
    unpackPlan r skip o = ⟨o.src.u, o.srcStride.u, ⟨0, o.dst.u, o.dst.v, 0⟩, o.dstStride, o.height / 2 ^ r.ssv,
      o.width, lumaOf r skip o⟩ := by
  simp [unpackPlan, chromaPlanes, frameRowCount_of_nv h, h]

theorem packPlan_of_nv (h : r.nv = true) :
    packPlan r skip o = ⟨o.dst.u, o.dstStride.u, ⟨0, o.src.u, o.src.v, 0⟩, o.srcStride, o.height / 2 ^ r.ssv,
      o.width, lumaOf r skip o⟩ := by
  simp [packPlan, chromaPlanes, frameRowCount_of_nv h, h]

end

/-- Row `y` of a channel's plane (44_frame.md R244). -/
theorem planesRow_get (p : FramePlan) (y : Nat) (c : Channel) :
    (p.planesRow y).get c = planeRow (p.planes.get c) (p.planeStrides.get c) y := by
  cases c <;> rfl

/-! ### The flags without effect -/

section
variable {s : State} {fmt : Fmt}

/-- A command's continuation matters at its own registry entry alone. -/
theorem withFormat_congr {k k' : RegistryEntry → Descriptor → Result} {r : RegistryEntry} (hr : registry fmt = some r)
    (hk : ∀ d, k r d = k' r d) : withFormat s fmt k = withFormat s fmt k' := by
  simp only [withFormat, hr, hk]

theorem exec_unpackFrame_alphaOne (skip one one' : Bool) :
    exec (.unpackFrame fmt skip one) s = exec (.unpackFrame fmt skip one') s := rfl

variable {r : RegistryEntry} (hr : registry fmt = some r) (h : r.nv = false)
include hr h

theorem exec_unpackFrame_skip_of_not_nv (skip skip' one : Bool) :
    exec (.unpackFrame fmt skip one) s = exec (.unpackFrame fmt skip' one) s :=
  withFormat_congr hr fun _ => by simp only [unpackPlan_of_not_nv h]

theorem exec_packFrame_skip_of_not_nv (skip skip' fill : Bool) :
    exec (.packFrame fmt skip fill) s = exec (.packFrame fmt skip' fill) s :=
  withFormat_congr hr fun _ => by simp only [packPlan_of_not_nv h]

end

/-- Settles O57: the plans by the NV bit, the row pointers plane by plane, and SKIP_UNPACKED_PLANES only where a plan
has no luma copy to leave out. -/
theorem framePlanes : Obligations.FramePlanes := by
  refine ⟨fun r skip o => ⟨fun h => ?_, fun h => ?_, fun p y c => ⟨rfl, planesRow_get p y c⟩⟩,
    fun s fmt skip skip' one one' fill r hr => ⟨exec_unpackFrame_alphaOne skip one one', fun h => ⟨?_, ?_⟩⟩⟩
  · exact ⟨unpackPlan_of_not_nv h, packPlan_of_not_nv h⟩
  · simp only [← lumaOf_of_nv h]
    exact ⟨unpackPlan_of_nv h, packPlan_of_nv h⟩
  · exact (exec_unpackFrame_alphaOne skip one one').trans (exec_unpackFrame_skip_of_not_nv hr h skip skip' one')
  · exact exec_packFrame_skip_of_not_nv hr h skip skip' fill

end Sys2Proof.Machine
end

section
/-! SUPPORT. The command word by its fields (30_encoding.md R91), and that the decoder and the encoder are inverse to each
other on the commands that some CMD value decodes to (30_encoding.md R90 to R97). -/

namespace Sys2Proof.Machine

/-! ### The fields of a packed command word (30_encoding.md R91) -/

section
variable (one skip : Bool) (fmt : Fmt) (sel : Bool) (slot : BitVec 2) (op : BitVec 4)

/-- The command word bit by bit (30_encoding.md R91). -/
theorem getLsbD_packFields (i : Nat) : (packFields one skip fmt sel slot op).getLsbD i =
    if i < 4 then op.getLsbD i else if i < 6 then slot.getLsbD (i - 4) else if i < 7 then sel
    else if i < 8 then false else if i < 14 then fmt.getLsbD (i - 8) else if i < 16 then false
    else if i < 17 then skip else if i < 18 then one else false := by
  change BitVec.getLsbD (w := 14 + 1 + 1 + 2 + 6 + 1 + 1 + 2 + 4)
    (0#14 ++ BitVec.ofBool one ++ BitVec.ofBool skip ++ 0#2 ++ fmt ++ 0#1 ++ BitVec.ofBool sel ++ slot ++ op) i = _
  simp only [BitVec.getLsbD_append, BitVec.getLsbD_ofBool, BitVec.getLsbD_zero, Nat.sub_sub, ← Bool.if_false_right]
  grind (splits := 20) only

@[simp] theorem op_packFields : CmdWord.op (packFields one skip fmt sel slot op) = op := by
  refine BitVec.eq_of_getLsbD_eq fun i hi => ?_
  simp [CmdWord.op, getLsbD_packFields, hi]

@[simp] theorem slot_packFields : CmdWord.slot (packFields one skip fmt sel slot op) = slot := by
  refine BitVec.eq_of_getLsbD_eq fun i hi => ?_
  simp [CmdWord.slot, getLsbD_packFields, hi, show 4 + i < 6 by omega]

@[simp] theorem fmt_packFields : CmdWord.fmt (packFields one skip fmt sel slot op) = fmt := by
  refine BitVec.eq_of_getLsbD_eq fun i hi => ?_
  simp [CmdWord.fmt, getLsbD_packFields, hi, show 8 + i < 14 by omega, show ¬ 8 + i < 4 by omega,
    show ¬ 8 + i < 6 by omega, show ¬ 8 + i < 7 by omega]

@[simp] theorem selPack_packFields : CmdWord.selPack (packFields one skip fmt sel slot op) = sel :=
  getLsbD_packFields one skip fmt sel slot op 6

@[simp] theorem skip_packFields : CmdWord.skip (packFields one skip fmt sel slot op) = skip :=
  getLsbD_packFields one skip fmt sel slot op 16

@[simp] theorem alphaOne_packFields : CmdWord.alphaOne (packFields one skip fmt sel slot op) = one :=
  getLsbD_packFields one skip fmt sel slot op 17

end

/-- The bits of a command word that the decoder's mask keeps are the reserved ones (30_encoding.md R95). -/
theorem reservedSet_eq_false_iff (w : CmdWord) :
    CmdWord.reservedSet w = false ↔ ∀ i, (i = 7 ∨ i = 14 ∨ i = 15 ∨ 18 ≤ i) → w.getLsbD i = false := by
  simp only [CmdWord.reservedSet, bne_eq_false_iff_eq]
  refine ⟨fun h i hi => ?_, fun h => BitVec.eq_of_getLsbD_eq fun i hi => ?_⟩
  · rcases Nat.lt_or_ge i 32 with hlt | hge
    · have hbit : (w &&& 0xFFFCC080#32).getLsbD i = false := by rw [h, BitVec.getLsbD_zero]
      rwa [BitVec.getLsbD_and, (reservedMask_getLsbD hlt).2 hi, Bool.and_true] at hbit
    · exact BitVec.getLsbD_of_ge w i hge
  · rw [BitVec.getLsbD_and, BitVec.getLsbD_zero, Bool.and_eq_false_iff, or_iff_not_imp_right, Bool.not_eq_false,
      reservedMask_getLsbD hi]
    exact h i

/-- A command word with no reserved bit is the word of its fields. -/
theorem packFields_fields {w : CmdWord} (h : CmdWord.reservedSet w = false) :
    packFields (CmdWord.alphaOne w) (CmdWord.skip w) (CmdWord.fmt w) (CmdWord.selPack w) (CmdWord.slot w)
      (CmdWord.op w) = w := by
  rw [reservedSet_eq_false_iff] at h
  refine BitVec.eq_of_getLsbD_eq fun i hi => ?_
  rw [getLsbD_packFields]
  simp only [CmdWord.op, CmdWord.slot, CmdWord.fmt, CmdWord.selPack, CmdWord.skip, CmdWord.alphaOne,
    BitVec.getLsbD_extractLsb']
  grind

theorem reservedSet_encode (i : Instr) : CmdWord.reservedSet (encode i) = false := by
  cases i with
  | extract f slot => exact (Laws.Fields.extract f slot).1
  | align f slot => exact (Laws.Fields.align f slot).1
  | unpackLineV210 f => exact (Laws.Fields.unpackLineV210 f).1
  | unpackLine f => exact (Laws.Fields.unpackLine f).1
  | packLineV210 f fill => exact (Laws.Fields.packLineV210 f fill).1
  | packLine f fill => exact (Laws.Fields.packLine f fill).1
  | unpackFrame f skip one => exact (Laws.Fields.unpackFrame f skip one).1
  | packFrame f skip fill => exact (Laws.Fields.packFrame f skip fill).1
  | selectU f => exact (Laws.Fields.selectU f).1
  | selectP f fill => exact (Laws.Fields.selectP f fill).1

/-! ### The form of an encoded command -/

theorem formOf_encode {i : Instr} (h : i.wellFormed = true) : formOf (encode i) = some i := by
  obtain ⟨_, hfit⟩ := Bool.and_eq_true_iff.1 h
  cases i <;>
    simp_all [formOf, encode, Instr.formFits]

/-- The form the decoder finds fits the CLASS of its format (30_encoding.md R95). -/
theorem formFits_formOf {w : CmdWord} {i : Instr} (h : formOf w = some i) : i.formFits = true := by
  simp only [formOf] at h
  repeat' split at h
  all_goals cases h <;> simp_all [Instr.formFits]

/-- A command word with no reserved bit is the encoding of its form. -/
theorem encode_formOf {w : CmdWord} {i : Instr} (hres : CmdWord.reservedSet w = false) (h : formOf w = some i) :
    encode i = w := by
  refine Eq.trans ?_ (packFields_fields hres)
  simp only [formOf] at h
  split at h
  case h_1 hop | h_2 hop | h_3 hop | h_4 hop | h_5 hop | h_6 hop | h_7 hop =>
    rw [BitVec.toNat_eq_nat] at hop
    repeat' split at h
    all_goals cases h <;> simp_all [encode]
  case h_8 => cases h

/-! ### The 64-bit CMD value (10_state.md R25) -/

theorem getLsbD_encodeCmd (i : Instr) (j : Nat) :
    (encodeCmd i).getLsbD j = if j < 32 then (encode i).getLsbD j else false :=
  (BitVec.getLsbD_append (x := 0#32) (y := encode i)).trans (by simp only [BitVec.getLsbD_zero])

theorem upper_encodeCmd (i : Instr) : (encodeCmd i).extractLsb' 32 32 = 0#32 :=
  BitVec.eq_of_getLsbD_eq fun j hj => by simp [getLsbD_encodeCmd, hj]

theorem lower_encodeCmd (i : Instr) : (encodeCmd i).extractLsb' 0 32 = encode i :=
  BitVec.eq_of_getLsbD_eq fun j hj => by simp [getLsbD_encodeCmd, hj]

theorem zero_append_lower {v : Word} (h : v.extractLsb' 32 32 = 0#32) : 0#32 ++ v.extractLsb' 0 32 = v := by
  rw [← h]
  refine BitVec.eq_of_getLsbD_eq fun j hj => (BitVec.getLsbD_append (x := v.extractLsb' 32 32)).trans ?_
  simp only [BitVec.getLsbD_extractLsb']
  grind

/-- A CMD value decodes to a command that is the form of its word, if no check on the way fails (30_encoding.md R95). -/
theorem decodeCmd_eq_ok_iff (v : Word) (i : Instr) : decodeCmd v = .ok i ↔
    v.extractLsb' 32 32 = 0#32 ∧ CmdWord.reservedSet (v.extractLsb' 0 32) = false ∧
      formOf (v.extractLsb' 0 32) = some i ∧ i.formatNamed = true := by
  unfold decodeCmd decode
  refine ⟨fun h => ?_, fun ⟨hupper, hreserved, hform, hnamed⟩ => by simp [hupper, hreserved, hform, hnamed]⟩
  split at h
  case isTrue => cases h
  case isFalse hupper =>
    repeat' split at h
    all_goals cases h
    exact ⟨by simpa using hupper, Bool.eq_false_iff.2 ‹_›, ‹_›, ‹_›⟩

/-- Settles O1: the fields of the encoding are the command's operands (`formOf_encode`), and it sets no bit that the
decoder refuses. -/
theorem decodeOfEncode : Obligations.DecodeOfEncode := by
  intro i h
  obtain ⟨hnamed, _⟩ := Bool.and_eq_true_iff.1 h
  rw [decodeCmd_eq_ok_iff, lower_encodeCmd]
  exact ⟨upper_encodeCmd i, reservedSet_encode i, formOf_encode h, hnamed⟩

/-- Settles O2: a word with no reserved bit is put together from its fields (`packFields_fields`), of which its form
has all that are not zero. -/
theorem encodeOfDecode : Obligations.EncodeOfDecode := by
  intro v i h
  obtain ⟨hupper, hreserved, hform, hnamed⟩ := (decodeCmd_eq_ok_iff v i).1 h
  refine ⟨Bool.and_eq_true_iff.2 ⟨hnamed, formFits_formOf hform⟩, ?_⟩
  rw [encodeCmd, encode_formOf hreserved hform, zero_append_lower hupper]

end Sys2Proof.Machine
end

section
/-! SUPPORT. Every byte of a row's and of a frame's footprint is a byte of one of its accesses (20_memory.md R69 to R71,
R82), so that a run which passes all of them touches existing and admitted bytes alone. -/

namespace Sys2Proof.Machine

/-! ### The accesses of a run that completes -/

/-- A byte of one of the accesses of a list. -/
def Covered (l : List Access) (x : Int) : Prop := ∃ a ∈ l, a.addr ≤ x ∧ x < a.addr + a.len

theorem firstFault_eq_none_iff (b : Bus) (l : List Access) :
    b.firstFault l = none ↔ ∀ a ∈ l, b.check a.addr a.len a.align = .ok () := by
  induction l with
  | nil => simp [Bus.firstFault]
  | cons a rest ih =>
    rw [Bus.firstFault, List.forall_mem_cons, ← ih]
    cases h : b.check a.addr a.len a.align <;> simp

theorem Runs.check_of_ok {α : Type} {b : Bus} {l : List Access} {x : Except FaultReason α} {v : α} (h : Runs b l x)
    (hx : x = .ok v) {a : Access} (ha : a ∈ l) : b.check a.addr a.len a.align = .ok () := by
  refine (firstFault_eq_none_iff b l).1 ?_ a ha
  unfold Runs at h
  split at h
  case h_1 => cases h.symm.trans hx
  case h_2 hnone => exact hnone

theorem Runs.good_of_ok {α : Type} {b : Bus} {l : List Access} {x : Except FaultReason α} {v : α} (h : Runs b l x)
    (hx : x = .ok v) {y : Int} (hy : Covered l y) : b.good y := by
  obtain ⟨a, ha, h1, h2⟩ := hy
  exact good_of_check (h.check_of_ok hx ha) y h1 h2

theorem Covered.flatMap {n y : Nat} {f : Nat → List Access} {x : Int} (hy : y < n) (h : Covered (f y) x) :
    Covered ((List.range n).flatMap f) x := by
  obtain ⟨a, ha, hx⟩ := h
  exact ⟨a, List.mem_flatMap.2 ⟨y, List.mem_range.2 hy, ha⟩, hx⟩

theorem Covered.mono {l l' : List Access} {x : Int} (h : Covered l x) (hs : ∀ a ∈ l, a ∈ l') : Covered l' x := by
  obtain ⟨a, ha, hx⟩ := h
  exact ⟨a, hs a ha, hx⟩

/-- A byte of `n` consecutive elements of `k` bytes is in one of them. -/
theorem exists_element {base x : Int} {n k : Nat} (h1 : base ≤ x) (h2 : x < base + (n * k : Nat)) :
    ∃ q < n, base + (q * k : Nat) ≤ x ∧ x < base + (q * k : Nat) + (k : Nat) := by
  obtain ⟨j, rfl⟩ := Int.le.dest h1
  have hj : j < n * k := by omega
  have hk : 0 < k := Nat.pos_of_ne_zero fun h0 => by simp [h0] at hj
  refine ⟨j / k, (Nat.div_lt_iff_lt_mul hk).2 hj, ?_, ?_⟩
  · have := Nat.div_mul_le_self j k
    omega
  · have := Nat.lt_div_mul_add hk (a := j)
    omega

/-! ### GENERIC rows -/

/-- The slots of a channel, counted in order. -/
theorem exists_slot {c : Channel} {j : Nat} (sl : List Slot) (hj : j < countSlots c sl) :
    ∃ (k : Nat) (hk : k < sl.length) (sh dp : Nat), sl[k] = .field c sh dp ∧ countSlots c (sl.take k) = j := by
  induction sl generalizing j with
  | nil => exact absurd hj (Nat.not_lt_zero j)
  | cons s rest ih =>
    by_cases hfirst : j = 0 ∧ ∃ sh dp, s = .field c sh dp
    · obtain ⟨rfl, sh, dp, rfl⟩ := hfirst
      exact ⟨0, Nat.succ_pos _, sh, dp, rfl, rfl⟩
    · have hstep : ∃ i, i < countSlots c rest ∧ ∀ l, countSlots c l = i → countSlots c (s :: l) = j := by
        cases s with
        | pad => exact ⟨j, countSlots_pad c rest ▸ hj, fun l hl => by rw [countSlots_pad, hl]⟩
        | field c' sh dp =>
          rw [countSlots_field] at hj
          by_cases hc : c = c'
          · have hpos : j ≠ 0 := fun h0 => hfirst ⟨h0, sh, dp, hc ▸ rfl⟩
            rw [if_pos hc] at hj
            exact ⟨j - 1, by omega, fun l hl => by rw [countSlots_field, if_pos hc, hl]; omega⟩
          · rw [if_neg hc] at hj
            exact ⟨j, by omega, fun l hl => by rw [countSlots_field, if_neg hc, hl]; omega⟩
      obtain ⟨i, hi, hcount⟩ := hstep
      obtain ⟨k, hk, sh, dp, hs, htake⟩ := ih hi
      exact ⟨k + 1, Nat.succ_lt_succ hk, sh, dp, hs, hcount _ htake⟩

theorem elemAccess_mem {d : Layout} {p : Planes} {left u : Nat} {k : Nat} (hk : k < d.slots.toList.length)
    {c : Channel} {sh dp : Nat} (hs : d.slots.toList[k] = .field c sh dp) (hp : p.get c ≠ 0) :
    (⟨d.elemAddr p left u k c, d.eb, d.eb⟩ : Access) ∈ d.elemAccesses p left u := by
  refine List.mem_filterMap.2 ⟨(.field c sh dp, k), ?_, by simp [hp]⟩
  rw [← hs]
  exact List.mem_zipIdx_iff_getElem?.2 (List.getElem?_eq_getElem hk)

theorem covered_packedRegion {d : Layout} {packed : Int} {left right : Nat} {x : Int}
    (h : (d.packedRegion packed left right).has x = true) :
    ∃ u < d.units left right, Covered [d.unitAccess packed left u] x := by
  obtain ⟨h1, h2⟩ := (has_iff _ _).1 h
  obtain ⟨u, hu, h1, h2⟩ := exists_element h1 h2
  refine ⟨u, hu, _, List.mem_singleton.2 rfl, ?_⟩
  simp only [Layout.packedRegion, Layout.packedCursor, Layout.unitAccess, Layout.unitAddr, Nat.add_mul] at h1 h2 ⊢
  omega

theorem covered_planeRegions {d : Layout} {p : Planes} {left right : Nat} {x : Int}
    (h : InRegions (d.planeRegions p left right) x) :
    ∃ u < d.units left right, Covered (d.elemAccesses p left u) x := by
  obtain ⟨r, hr, hx⟩ := h
  obtain ⟨c, hc, rfl⟩ := List.mem_map.1 hr
  have hp : p.get c ≠ 0 := by
    have := (List.mem_filter.1 hc).2
    simp only [Layout.active, Bool.and_eq_true, bne_iff_ne] at this
    exact this.2
  obtain ⟨h1, h2⟩ := (has_iff _ _).1 hx
  obtain ⟨q, hq, h1, h2⟩ := exists_element h1 h2
  have hcount : 0 < d.count c := Nat.pos_of_ne_zero fun h0 => by simp [h0] at hq
  obtain ⟨k, hk, sh, dp, hs, htake⟩ := exists_slot d.slots.toList (c := c) (j := q % d.count c) (Nat.mod_lt q hcount)
  refine ⟨q / d.count c, (Nat.div_lt_iff_lt_mul hcount).2 hq, _, elemAccess_mem hk hs hp, ?_⟩
  have hdiv : q / d.count c * d.count c + q % d.count c = q := Nat.div_add_mod' q _
  simp only [Layout.planeRegion, cursors_get, Layout.elemAddr, htake, hdiv, Nat.add_mul] at h1 h2 ⊢
  omega

/-! ### v210 rows -/

theorem covered_v210PackedRegion {packed : Int} {left right : Nat} {x : Int}
    (h : (v210PackedRegion packed left right).has x = true) :
    ∃ g < v210Groups left right, Covered (v210WordAccesses packed left g) x := by
  obtain ⟨h1, h2⟩ := (has_iff _ _).1 h
  simp only [v210PackedRegion, v210PackedCursor, Nat.mul_comm 16] at h1 h2
  obtain ⟨g, hg, h1, h2⟩ := exists_element h1 h2
  obtain ⟨i, hi, h1, h2⟩ := exists_element (n := 4) (k := 4) h1 (by omega)
  refine ⟨g, hg, _, List.mem_map.2 ⟨i, List.mem_range.2 hi, rfl⟩, ?_⟩
  simp only
  omega

theorem sampleAccess_mem (p : Planes) (left g : Nat) {c : Channel} {k : Nat} (hk : k < perGroup c) :
    (⟨v210Elem p left g c k, 2, 2⟩ : Access) ∈ v210SampleAccesses p left g := by
  simp only [v210SampleAccesses, List.mem_append, List.mem_map, List.mem_range]
  cases c with
  | y => exact .inl (.inl ⟨k, hk, rfl⟩)
  | u => exact .inl (.inr ⟨k, hk, rfl⟩)
  | v => exact .inr ⟨k, hk, rfl⟩
  | a => exact absurd hk (Nat.not_lt_zero k)

theorem v210Elem_cursors (p : Planes) (left g : Nat) {c : Channel} {k : Nat} (hk : k < perGroup c) :
    v210Elem p left g c k = (v210Cursors p left).get c + (g * (perGroup c * 2) : Nat) + (k * 2 : Nat) := by
  cases c with
  | y | u | v =>
    simp only [v210Elem, v210Cursors, Planes.get, perGroup]
    omega
  | a => exact absurd hk (Nat.not_lt_zero k)

theorem covered_v210PlaneRegions {p : Planes} {left right : Nat} {x : Int}
    (h : InRegions (v210PlaneRegions p left right) x) :
    ∃ g < v210Groups left right, Covered (v210SampleAccesses p left g) x := by
  rw [← groupBytes_iff_regions, groupBytes_iff] at h
  obtain ⟨c, h1, h2⟩ := h
  rw [Nat.mul_comm 2] at h2
  obtain ⟨g, hg, h1, h2⟩ := exists_element h1 h2
  obtain ⟨k, hk, h1, h2⟩ := exists_element h1 h2
  refine ⟨g, hg, _, sampleAccess_mem p left g hk, ?_⟩
  rw [v210Elem_cursors p left g hk]
  exact ⟨h1, h2⟩

/-! ### Rows of either CLASS -/

section
variable {desc : Descriptor} {packed : Int} {p : Planes} {left right : Nat} {x : Int}

theorem covered_unpackAccesses
    (h : InRegions [desc.packedRegion packed left right] x ∨ InRegions (desc.planeRegions p left right) x) :
    Covered (desc.unpackAccesses packed p left right) x := by
  simp only [InRegions, List.mem_singleton, exists_eq_left] at h
  cases desc with
  | generic d =>
    rcases h with h | h
    · obtain ⟨u, hu, hx⟩ := covered_packedRegion h
      exact .flatMap hu (hx.mono fun a ha => List.mem_cons.2 (.inl (List.mem_singleton.1 ha)))
    · obtain ⟨u, hu, hx⟩ := covered_planeRegions h
      exact .flatMap hu (hx.mono fun a ha => List.mem_cons_of_mem _ ha)
  | v210 tag =>
    rcases h with h | h
    · obtain ⟨g, hg, hx⟩ := covered_v210PackedRegion h
      exact .flatMap hg (hx.mono fun a ha => List.mem_append_left _ ha)
    · obtain ⟨g, hg, hx⟩ := covered_v210PlaneRegions h
      exact .flatMap hg (hx.mono fun a ha => List.mem_append_right _ ha)

theorem covered_packAccesses
    (h : InRegions [desc.packedRegion packed left right] x ∨ InRegions (desc.planeRegions p left right) x) :
    Covered (desc.packAccesses packed p left right) x := by
  simp only [InRegions, List.mem_singleton, exists_eq_left] at h
  cases desc with
  | generic d =>
    rcases h with h | h
    · obtain ⟨u, hu, hx⟩ := covered_packedRegion h
      exact .flatMap hu (hx.mono fun a ha => List.mem_append_right _ ha)
    · obtain ⟨u, hu, hx⟩ := covered_planeRegions h
      exact .flatMap hu (hx.mono fun a ha => List.mem_append_left _ ha)
  | v210 tag =>
    rcases h with h | h
    · obtain ⟨g, hg, hx⟩ := covered_v210PackedRegion h
      exact .flatMap hg (hx.mono fun a ha => List.mem_append_right _ ha)
    · obtain ⟨g, hg, hx⟩ := covered_v210PlaneRegions h
      exact .flatMap hg (hx.mono fun a ha => List.mem_append_left _ ha)

end

/-! ### Frames -/

theorem covered_luma {l : Option LumaCopy} {x : Int}
    (h : InRegions ((l.map LumaCopy.reads).getD []) x ∨ InRegions ((l.map LumaCopy.writes).getD []) x) :
    Covered (lumaAccesses l) x := by
  cases l with
  | none => simp [InRegions] at h
  | some l =>
    rcases h with ⟨r, hr, hx⟩ | ⟨r, hr, hx⟩
    all_goals
      obtain ⟨y, hy, rfl⟩ := List.mem_map.1 hr
      refine .flatMap (List.mem_range.1 hy) ?_
    · exact ⟨_, List.mem_cons_self .., (has_iff _ _).1 hx⟩
    · exact ⟨_, List.mem_cons_of_mem _ (List.mem_cons_self ..), (has_iff _ _).1 hx⟩

/-- The bytes of a frame's footprint, read or written, lie in the luma copy or in a row. -/
theorem covered_frame {pl : FramePlan} {desc : Descriptor} {row : Nat → List Access} {x : Int}
    (hrow : ∀ y, InRegions [desc.packedRegion (pl.packedRow y) 0 pl.width] x ∨
      InRegions (desc.planeRegions (pl.planesRow y) 0 pl.width) x → Covered (row y) x)
    (h : (InRegions pl.lumaReads x ∨ InRegions pl.lumaWrites x) ∨
      InRegions (pl.packedRegions desc) x ∨ InRegions (pl.planeRegions desc) x) :
    Covered (lumaAccesses pl.luma ++ (List.range pl.rows).flatMap row) x := by
  rcases h with h | h
  · exact (covered_luma h).mono fun a ha => List.mem_append_left _ ha
  · have hy : ∃ y < pl.rows, Covered (row y) x := by
      rcases h with h | h
      · rw [FramePlan.packedRegions, map_eq_flatMap, inRegions_flatMap] at h
        obtain ⟨y, _, hy, hx⟩ := h
        exact ⟨y, by omega, hrow y (.inl hx)⟩
      · rw [FramePlan.planeRegions, inRegions_flatMap] at h
        obtain ⟨y, _, hy, hx⟩ := h
        exact ⟨y, by omega, hrow y (.inr hx)⟩
    obtain ⟨y, hy, hx⟩ := hy
    exact (Covered.flatMap hy hx).mono fun a ha => List.mem_append_right _ ha

theorem covered_unpackFrame {pl : FramePlan} {desc : Descriptor} {x : Int}
    (h : InRegions ((pl.unpackFootprint desc).reads ++ (pl.unpackFootprint desc).writes) x) :
    Covered (pl.unpackAccesses desc) x := by
  refine covered_frame (fun y => covered_unpackAccesses) ?_
  simp only [FramePlan.unpackFootprint, inRegions_append] at h
  tauto

theorem covered_packFrame {pl : FramePlan} {desc : Descriptor} {x : Int}
    (h : InRegions ((pl.packFootprint desc).reads ++ (pl.packFootprint desc).writes) x) :
    Covered (pl.packAccesses desc) x := by
  refine covered_frame (fun y => covered_packAccesses) ?_
  simp only [FramePlan.packFootprint, inRegions_append] at h
  tauto

end Sys2Proof.Machine
end

section
/-! SUPPORT. What a command comes to once its format is looked up and its registers are read (60_exceptions.md R272 steps 3
and 4): one task, the same over any host memory and dispatch cache, and all that is known of the transfer of a memory
command. -/

namespace Sys2Proof.Machine

/-! ### Transfers -/

/-- What `runTransfer` does for a memory command, with the accesses it makes in reference order. -/
structure Transfer where
  key : Key
  checks : Except FaultReason Unit
  footprint : Footprint
  accesses : List Access
  run : Memory → Except FaultReason Memory

/-- The checks of a row before its footprint's, for either CLASS (60_exceptions.md R272 steps 5 and 6). -/
def rowChecks (desc : Descriptor) (o : LineOperands) : Except FaultReason Unit :=
  match desc.rangeCheck o.left o.right with
  | .error r => .error r
  | .ok () => if desc.pointersOk o.packed o.planes then .ok () else .error .nullPtr

/-- UNPACK_LINE (41_scanline.md R176, 42_v210.md R204). -/
def unpackLineTransfer (desc : Descriptor) (b : Bus) (o : LineOperands) : Transfer :=
  { key := .unpack, checks := rowChecks desc o
    footprint := ⟨[desc.packedRegion o.packed o.left o.right], desc.planeRegions o.planes o.left o.right⟩
    accesses := desc.unpackAccesses o.packed o.planes o.left o.right
    run := desc.unpackRow b o.packed o.planes o.left o.right }

/-- PACK_LINE (41_scanline.md R182, 42_v210.md R205). -/
def packLineTransfer (desc : Descriptor) (b : Bus) (fill : Bool) (o : LineOperands) : Transfer :=
  { key := packKey fill, checks := rowChecks desc o
    footprint := ⟨desc.planeRegions o.planes o.left o.right, [desc.packedRegion o.packed o.left o.right]⟩
    accesses := desc.packAccesses o.packed o.planes o.left o.right
    run := desc.packRow b fill o.planes o.packed o.left o.right }

/-- UNPACK_FRAME (44_frame.md R241). -/
def unpackFrameTransfer (desc : Descriptor) (b : Bus) (p : FramePlan) : Transfer :=
  { key := .unpack, checks := p.checks desc, footprint := p.unpackFootprint desc, accesses := p.unpackAccesses desc
    run := p.unpack b desc }

/-- PACK_FRAME (44_frame.md R243). -/
def packFrameTransfer (desc : Descriptor) (b : Bus) (fill : Bool) (p : FramePlan) : Transfer :=
  { key := packKey fill, checks := p.checks desc, footprint := p.packFootprint desc, accesses := p.packAccesses desc
    run := p.pack b fill desc }

/-- All that is known of a memory command's transfer: what its checks raise, which access ends it, what it depends on,
what it writes, and that its accesses cover its footprint. -/
structure Transfer.Sound (x : Transfer) (desc : Descriptor) (b : Bus) : Prop where
  checkFault : ∀ r, x.checks = .error r → r = desc.rangeFault ∨ r = .nullPtr
  runs : x.checks = .ok () → ∀ m, Runs b x.accesses (x.run m)
  twin : x.checks = .ok () → Twin (InRegions x.footprint.reads) (InRegions x.footprint.writes) x.run
  wrote : x.checks = .ok () → ∀ m m', x.run m = .ok m' → Wrote b (InRegions x.footprint.writes) m m'
  covered : ∀ y, InRegions (x.footprint.reads ++ x.footprint.writes) y → Covered x.accesses y

theorem rowChecks_eq (desc : Descriptor) (o : LineOperands) : rowChecks desc o =
    if desc.admits o.left o.right = true then
      (if desc.pointersOk o.packed o.planes = true then .ok () else .error .nullPtr)
    else .error desc.rangeFault := by
  unfold rowChecks
  rw [rangeCheck_eq]
  by_cases h : desc.admits o.left o.right = true <;> simp [h]

theorem rowChecks_ok {desc : Descriptor} {o : LineOperands} (h : rowChecks desc o = .ok ()) :
    desc.admits o.left o.right = true ∧ desc.pointersOk o.packed o.planes = true := by
  rw [rowChecks_eq] at h
  split at h
  · split at h
    · exact ⟨‹_›, ‹_›⟩
    · cases h
  · cases h

theorem rowChecks_error {desc : Descriptor} {o : LineOperands} {r : FaultReason} (h : rowChecks desc o = .error r) :
    r = desc.rangeFault ∨ r = .nullPtr := by
  rw [rowChecks_eq] at h
  split at h
  · split at h
    · cases h
    · cases h; exact .inr rfl
  · cases h; exact .inl rfl

theorem planChecks_error {p : FramePlan} {desc : Descriptor} {r : FaultReason} (h : p.checks desc = .error r) :
    r = desc.rangeFault ∨ r = .nullPtr := by
  unfold FramePlan.checks at h
  rw [rangeCheck_eq] at h
  split at h
  case h_1 hrange =>
    split at hrange
    · cases hrange
    · cases hrange; cases h; exact .inl rfl
  case h_2 =>
    split at h
    · cases h
    · cases h; exact .inr rfl

theorem unpackLineTransfer_sound (desc : Descriptor) (b : Bus) (o : LineOperands) :
    (unpackLineTransfer desc b o).Sound desc b where
  checkFault _ h := rowChecks_error h
  runs h m := descUnpack_runs (rowChecks_ok h).2 m
  twin _ := descUnpack_twin
  wrote h _ _ hm := descUnpack_wrote (rowChecks_ok h).2 hm
  covered _ hy := covered_unpackAccesses (inRegions_append.1 hy)

theorem packLineTransfer_sound (desc : Descriptor) (b : Bus) (fill : Bool) (o : LineOperands) :
    (packLineTransfer desc b fill o).Sound desc b where
  checkFault _ h := rowChecks_error h
  runs h m := descPack_runs (rowChecks_ok h).2 m
  twin h := descPack_twin (rowChecks_ok h).2
  wrote _ _ _ hm := descPack_wrote hm
  covered _ hy := covered_packAccesses (inRegions_append.1 hy).symm

theorem unpackFrameTransfer_sound (desc : Descriptor) (b : Bus) (p : FramePlan) :
    (unpackFrameTransfer desc b p).Sound desc b where
  checkFault _ h := planChecks_error h
  runs h m := planUnpack_runs h m
  twin _ := planUnpack_twin
  wrote h _ _ hm := frameRow_wrote_unpack h hm
  covered _ hy := covered_unpackFrame hy

theorem packFrameTransfer_sound (desc : Descriptor) (b : Bus) (fill : Bool) (p : FramePlan) :
    (packFrameTransfer desc b fill p).Sound desc b where
  checkFault _ h := planChecks_error h
  runs h m := planPack_runs h m
  twin h := planPack_twin h
  wrote _ _ _ hm := frameRow_wrote_pack hm
  covered _ hy := covered_packFrame hy

/-- A transfer in a state: `runTransfer` after the cache entry is resolved. -/
def Transfer.exec (x : Transfer) (f : Fmt) (s : State) : Result :=
  runTransfer (s.resolve f x.key) x.checks x.footprint x.run

/-! ### Tasks -/

/-- What a command comes to: a fault before the cache is resolved, a refusal, a result for BFX_OUT, a SELECT, or a
transfer. -/
inductive Task where
  | fault (r : FaultReason)
  | refused (q : Refusal)
  | output (w : Word)
  | select (k : Key)
  | transfer (x : Transfer)

/-- A task carried out in a state. -/
def Task.run (f : Fmt) (s : State) : Task → Result
  | .fault r => raiseFault s r
  | .refused q => .refused q
  | .output w => .next (s.putReg .bfxOut w)
  | .select k => .next ((s.resolve f k).putReg .bfxOut (BitVec.zeroExtend 64 (s.handle f k)))
  | .transfer x => x.exec f s

/-- The look-up of a format (`withFormat`) as a task. -/
def formatTask (s : State) (f : Fmt) (k : RegistryEntry → Descriptor → Task) : Task :=
  match registry f with
  | none => .fault .badFormat
  | some r =>
    match s.cfg.catalog[f.toNat]? with
    | none => .refused .badCatalog
    | some desc => k r desc

/-- The register reads of a command as a task. -/
def readTask {α : Type} (x : Except FaultReason α) (k : α → Task) : Task :=
  match x with
  | .error r => .fault r
  | .ok o => k o

/-- EXTRACT and ALIGN (`bfxCommand`) as a task. -/
def bfxTask (s : State) (f : Fmt) (slot : BitVec 2) (g : Layout → Nat → Nat → Nat → Nat) : Task :=
  formatTask s f fun _ desc =>
    match desc with
    | .v210 _ => .fault .formatOp
    | .generic d =>
      match d.slots[slot.toNat] with
      | .pad => .fault .padSlot
      | .field _ sh dp => readTask (s.arg .bfxIn) fun w => .output (BitVec.ofNat 64 (g d sh dp w.toNat))

/-- SELECT as a task. -/
def selectTask (f : Fmt) (k : Key) : Task :=
  match registry f with
  | none => .fault .badFormat
  | some _ => .select k

/-- A line command in the form of CLASS `c` as a task. -/
def lineTask (s : State) (f : Fmt) (c : FormatClass) (x : Except FaultReason LineOperands)
    (k : Descriptor → LineOperands → Transfer) : Task :=
  formatTask s f fun _ desc => if desc.cls = c then readTask x fun o => .transfer (k desc o) else .refused .illFormed

/-- A frame command as a task. -/
def frameTask (s : State) (f : Fmt) (k : RegistryEntry → Descriptor → FrameOperands → Transfer) : Task :=
  formatTask s f fun r desc => readTask s.frameOperands fun o => .transfer (k r desc o)

/-- The task of a command in a state. -/
def task (i : Instr) (s : State) : Task :=
  match i with
  | .extract f slot => bfxTask s f slot fun d sh dp word => extractField (word % 2 ^ d.pkw) sh dp
  | .align f slot => bfxTask s f slot fun _ sh dp v => alignField v sh dp
  | .unpackLineV210 f => lineTask s f .v210 s.unpackLineOperands fun desc o => unpackLineTransfer desc s.bus o
  | .unpackLine f => lineTask s f .generic s.unpackLineOperands fun desc o => unpackLineTransfer desc s.bus o
  | .packLineV210 f fill => lineTask s f .v210 s.packLineOperands fun desc o => packLineTransfer desc s.bus fill o
  | .packLine f fill => lineTask s f .generic s.packLineOperands fun desc o => packLineTransfer desc s.bus fill o
  | .unpackFrame f skip _ => frameTask s f fun r desc o => unpackFrameTransfer desc s.bus (unpackPlan r skip o)
  | .packFrame f skip fill => frameTask s f fun r desc o => packFrameTransfer desc s.bus fill (packPlan r skip o)
  | .selectU f => selectTask f .unpack
  | .selectP f fill => selectTask f (packKey fill)

/-! ### A command is its task -/

theorem withFormat_eq_run {s : State} {f : Fmt} {k : RegistryEntry → Descriptor → Result}
    {k' : RegistryEntry → Descriptor → Task} (hk : ∀ r desc, k r desc = (k' r desc).run f s) :
    withFormat s f k = (formatTask s f k').run f s := by
  unfold withFormat formatTask
  cases registry f with
  | none => rfl
  | some r =>
    cases s.cfg.catalog[f.toNat]? with
    | none => rfl
    | some desc => exact hk r desc

theorem bfxCommand_eq_run (s : State) (f : Fmt) (slot : BitVec 2) (g : Layout → Nat → Nat → Nat → Nat) :
    bfxCommand s f slot g = (bfxTask s f slot g).run f s := by
  refine withFormat_eq_run fun _ desc => ?_
  cases desc with
  | v210 tag => rfl
  | generic d =>
    cases hslot : d.slots[slot.toNat] with
    | pad => simp only [hslot]; rfl
    | field c sh dp =>
      simp only [hslot]
      cases s.arg .bfxIn <;> rfl

theorem selectCommand_eq_run (s : State) (f : Fmt) (k : Key) : selectCommand s f k = (selectTask f k).run f s := by
  unfold selectCommand selectTask
  cases registry f <;> rfl

/-- What a command does is what its task does. -/
theorem exec_eq_run (i : Instr) (s : State) : exec i s = (task i s).run i.fmt s := by
  cases i with
  | extract f slot => exact bfxCommand_eq_run s f slot fun d sh dp word => extractField (word % 2 ^ d.pkw) sh dp
  | align f slot => exact bfxCommand_eq_run s f slot fun _ sh dp v => alignField v sh dp
  | selectU f => exact selectCommand_eq_run s f _
  | selectP f fill => exact selectCommand_eq_run s f _
  | unpackLine f =>
    refine withFormat_eq_run fun _ desc => ?_
    cases desc with
    | generic d => cases s.unpackLineOperands <;> rfl
    | v210 tag => rfl
  | unpackLineV210 f =>
    refine withFormat_eq_run fun _ desc => ?_
    cases desc with
    | generic d => rfl
    | v210 tag => cases s.unpackLineOperands <;> rfl
  | packLine f fill =>
    refine withFormat_eq_run fun _ desc => ?_
    cases desc with
    | generic d => cases s.packLineOperands <;> rfl
    | v210 tag => rfl
  | packLineV210 f fill =>
    refine withFormat_eq_run fun _ desc => ?_
    cases desc with
    | generic d => rfl
    | v210 tag => cases s.packLineOperands <;> rfl
  | unpackFrame f skip one =>
    refine withFormat_eq_run fun _ desc => ?_
    cases s.frameOperands <;> rfl
  | packFrame f skip fill =>
    refine withFormat_eq_run fun _ desc => ?_
    cases s.frameOperands <;> rfl

/-! ### On what a task depends -/

theorem task_withMem (i : Instr) (s : State) (m : Memory) : task i { s with mem := m } = task i s := by
  cases i <;> rfl

theorem task_withDispatch (i : Instr) (s : State) (cache : Vector CacheEntry 150) (accel : List AccelEntry) :
    task i { s with cache := cache, cfg := { s.cfg with accel := accel } } = task i s := by
  cases i <;> rfl

theorem task_putBfxOut (i : Instr) (s : State) (w : Word) : task i (s.putReg .bfxOut w) = task i s := by
  cases i <;> rfl

theorem task_withCache (i : Instr) (s : State) (cache : Vector CacheEntry 150) :
    task i { s with cache := cache } = task i s := by
  cases i <;> rfl

theorem task_resolve (i : Instr) (s : State) (f : Fmt) (k : Key) : task i (s.resolve f k) = task i s := by
  rw [resolve_eq]
  exact task_withCache i s _

end Sys2Proof.Machine
end

section
/-! SUPPORT. The register reads of a command in their order (10_state.md R39, 60_exceptions.md R272 step 4), and what a
command's task says of the command: which transfer it is, which faults come before it, and when it is refused. -/

namespace Sys2Proof.Machine

/-! ### Register reads in order -/

/-- The read of a list of registers, in order, ends with the fault of the first one that has a fault, and else gives a
value. -/
def Reads {α : Type} (s : State) (l : List ArgName) (x : Except FaultReason α) : Prop :=
  match l.findSome? (operandFault s) with
  | some r => x = .error r
  | none => ∃ a, x = .ok a

namespace Reads
variable {α β : Type} {s : State}

theorem pure (a : α) : Reads s [] (.ok a : Except FaultReason α) := ⟨a, rfl⟩

theorem bind {l l' : List ArgName} {x : Except FaultReason α} {f : α → Except FaultReason β} (h : Reads s l x)
    (h' : ∀ a, Reads s l' (f a)) : Reads s (l ++ l') (x >>= f) := by
  unfold Reads at h ⊢
  rw [List.findSome?_append]
  cases hl : l.findSome? (operandFault s) with
  | some r =>
    rw [hl] at h
    rw [h]
    rfl
  | none =>
    rw [hl] at h
    obtain ⟨a, rfl⟩ := h
    exact h' a

theorem single {n : ArgName} {x : Except FaultReason α}
    (h : match operandFault s n with
      | some r => x = .error r
      | none => ∃ a, x = .ok a) : Reads s [n] x := by
  unfold Reads
  rw [List.findSome?_cons, List.findSome?_nil]
  cases hn : operandFault s n with
  | some r => rwa [hn] at h
  | none => rwa [hn] at h

/-- A read faults with the fault of one of its registers. -/
theorem error_mem {l : List ArgName} {x : Except FaultReason α} {r : FaultReason} (h : Reads s l x)
    (hx : x = .error r) : ∃ n ∈ l, operandFault s n = some r := by
  unfold Reads at h
  split at h
  case h_1 r' hl =>
    cases h.symm.trans hx
    obtain ⟨n, hn, hr⟩ := List.exists_of_findSome?_eq_some hl
    exact ⟨n, hn, hr⟩
  case h_2 =>
    obtain ⟨a, ha⟩ := h
    cases ha.symm.trans hx

theorem error_first {pre post : List ArgName} {n : ArgName} {r : FaultReason} {x : Except FaultReason α}
    (h : Reads s (pre ++ n :: post) x) (hpre : ∀ k ∈ pre, operandFault s k = none)
    (hn : operandFault s n = some r) : x = .error r := by
  have hfirst : (pre ++ n :: post).findSome? (operandFault s) = some r := by
    rw [List.findSome?_append, List.findSome?_eq_none_iff.2 hpre, List.findSome?_cons, hn]
    rfl
  unfold Reads at h
  rwa [hfirst] at h

end Reads

section
variable (s : State)

theorem arg_bfxIn_reads : Reads s [.bfxIn] (s.arg .bfxIn) := by
  refine .single ?_
  simp only [operandFault, State.arg]
  cases s.regs.get .bfxIn with
  | unwritten => rfl
  | value w => exact ⟨w, rfl⟩

theorem argPtr_reads {n : ArgName} (hn : (∃ p, n = .src p) ∨ ∃ p, n = .dst p) : Reads s [n] (s.argPtr n) := by
  refine .single ?_
  simp only [operandFault, State.argPtr, State.arg]
  cases hreg : s.regs.get n with
  | unwritten => rfl
  | value w =>
    by_cases hw : w.toNat < 2 ^ s.cfg.addrW
    · rcases hn with ⟨p, rfl⟩ | ⟨p, rfl⟩ <;> simp [hw, not_le.2 hw]
    · rcases hn with ⟨p, rfl⟩ | ⟨p, rfl⟩ <;> simp [hw, not_lt.1 hw]

theorem argDim_reads {n : ArgName} (hn : n = .left ∨ n = .right ∨ n = .width ∨ n = .height) :
    Reads s [n] (s.argDim n) := by
  refine .single ?_
  simp only [operandFault, State.argDim, State.arg]
  cases hreg : s.regs.get n with
  | unwritten => rfl
  | value w =>
    by_cases hw : w.toNat < 2 ^ 32
    · have hfault : ¬ 2 ^ 32 ≤ w.toNat := not_le.2 hw
      rcases hn with rfl | rfl | rfl | rfl <;> simp only [if_pos hw, if_neg hfault] <;> exact ⟨_, rfl⟩
    · rcases hn with rfl | rfl | rfl | rfl <;> simp only [if_neg hw, if_pos (not_lt.1 hw)]

theorem argStride_reads {n : ArgName} (hn : (∃ p, n = .srcStride p) ∨ ∃ p, n = .dstStride p) :
    Reads s [n] (s.argStride n) := by
  refine .single ?_
  simp only [operandFault, State.argStride, State.arg]
  cases hreg : s.regs.get n with
  | unwritten => rfl
  | value w => rcases hn with ⟨p, rfl⟩ | ⟨p, rfl⟩ <;> exact ⟨w.toInt, rfl⟩

theorem src_reads (p : Fin 4) : Reads s [.src p] (s.argPtr (.src p)) := argPtr_reads s (.inl ⟨p, rfl⟩)

theorem dst_reads (p : Fin 4) : Reads s [.dst p] (s.argPtr (.dst p)) := argPtr_reads s (.inr ⟨p, rfl⟩)

theorem unpackLineOperands_reads :
    Reads s [.src 0, .dst 0, .dst 1, .dst 2, .dst 3, .left, .right] s.unpackLineOperands :=
  (src_reads s 0).bind fun _ => (dst_reads s 0).bind fun _ => (dst_reads s 1).bind fun _ =>
    (dst_reads s 2).bind fun _ => (dst_reads s 3).bind fun _ => (argDim_reads s (.inl rfl)).bind fun _ =>
      (argDim_reads s (.inr (.inl rfl))).bind fun _ => .pure _

theorem packLineOperands_reads :
    Reads s [.src 0, .src 1, .src 2, .src 3, .dst 0, .left, .right] s.packLineOperands :=
  (src_reads s 0).bind fun _ => (src_reads s 1).bind fun _ => (src_reads s 2).bind fun _ =>
    (src_reads s 3).bind fun _ => (dst_reads s 0).bind fun _ => (argDim_reads s (.inl rfl)).bind fun _ =>
      (argDim_reads s (.inr (.inl rfl))).bind fun _ => .pure _

theorem planeOperands_reads (p : Fin 4) : Reads s (planeArgs p) (s.planeOperands p) :=
  (src_reads s p).bind fun _ => (argStride_reads s (.inl ⟨p, rfl⟩)).bind fun _ => (dst_reads s p).bind fun _ =>
    (argStride_reads s (.inr ⟨p, rfl⟩)).bind fun _ => .pure _

theorem frameOperands_reads :
    Reads s ([.width, .height] ++ planeArgs 0 ++ planeArgs 1 ++ planeArgs 2 ++ planeArgs 3) s.frameOperands :=
  (argDim_reads s (.inr (.inr (.inl rfl)))).bind fun _ => (argDim_reads s (.inr (.inr (.inr rfl)))).bind fun _ =>
    (planeOperands_reads s 0).bind fun _ => (planeOperands_reads s 1).bind fun _ =>
      (planeOperands_reads s 2).bind fun _ => (planeOperands_reads s 3).bind fun _ => .pure _

end

/-- The reasons a register read has (10_state.md R22, R23): only a dimension gives RANGE, and only a pointer ADDR_WRAP. -/
theorem operandFault_reason {s : State} {n : ArgName} {r : FaultReason} (h : operandFault s n = some r) :
    r = .unwritten ∨ (n ≠ .bfxIn ∧ (r = .range ∨ r = .addrWrap)) := by
  unfold operandFault at h
  cases hreg : s.regs.get n with
  | unwritten => simp_all
  | value w => cases n <;> simp_all

/-! ### The task of a command -/

section
variable {i : Instr} {s : State}

/-- A task that is no refusal or fault of the look-up is that of a format with a descriptor. -/
theorem formatTask_cases {f : Fmt} {k : RegistryEntry → Descriptor → Task} {y : Task} (h : formatTask s f k = y) :
    (registry f = none ∧ y = .fault .badFormat) ∨
    (s.cfg.catalog[f.toNat]? = none ∧ y = .refused .badCatalog) ∨
    ∃ r desc, registry f = some r ∧ s.cfg.catalog[f.toNat]? = some desc ∧ k r desc = y := by
  unfold formatTask at h
  split at h
  case h_1 hr => exact .inl ⟨hr, h.symm⟩
  case h_2 r hr =>
    split at h
    case h_1 hd => exact .inr (.inl ⟨hd, h.symm⟩)
    case h_2 desc hd => exact .inr (.inr ⟨r, desc, hr, hd, h⟩)

theorem formatTask_eq {f : Fmt} {k : RegistryEntry → Descriptor → Task} {r : RegistryEntry} {desc : Descriptor}
    (hr : registry f = some r) (hd : s.cfg.catalog[f.toNat]? = some desc) : formatTask s f k = k r desc := by
  simp only [formatTask, hr, hd]

/-- What a transfer is known to be when it is the task of a command. -/
structure TransferOf (i : Instr) (s : State) (x : Transfer) : Prop where
  memory : mayRaise.isMemory i = true
  footprint : x.footprint = commandFootprint i s
  sound : ∃ r desc, registry i.fmt = some r ∧ s.cfg.catalog[i.fmt.toNat]? = some desc ∧ x.Sound desc s.bus

theorem lineTask_transfer {f : Fmt} {c : FormatClass} {y : Except FaultReason LineOperands}
    {k : Descriptor → LineOperands → Transfer} {x : Transfer} (h : lineTask s f c y k = .transfer x) :
    ∃ r desc o, registry f = some r ∧ s.cfg.catalog[f.toNat]? = some desc ∧ desc.cls = c ∧ y = .ok o ∧ x = k desc o := by
  rcases formatTask_cases h with ⟨_, h⟩ | ⟨_, h⟩ | ⟨r, desc, hr, hd, h⟩
  · cases h
  · cases h
  · split at h
    case isTrue hc =>
      cases y with
      | error e => cases h
      | ok o => cases h; exact ⟨r, desc, o, hr, hd, hc, rfl, rfl⟩
    case isFalse => cases h

theorem frameTask_transfer {f : Fmt} {k : RegistryEntry → Descriptor → FrameOperands → Transfer} {x : Transfer}
    (h : frameTask s f k = .transfer x) :
    ∃ r desc o, registry f = some r ∧ s.cfg.catalog[f.toNat]? = some desc ∧ s.frameOperands = .ok o ∧ x = k r desc o := by
  rcases formatTask_cases h with ⟨_, h⟩ | ⟨_, h⟩ | ⟨r, desc, hr, hd, h⟩
  · cases h
  · cases h
  · cases ho : s.frameOperands with
    | error e => rw [ho] at h; cases h
    | ok o => rw [ho] at h; cases h; exact ⟨r, desc, o, hr, hd, rfl, rfl⟩

theorem bfxTask_ne_transfer {f : Fmt} {slot : BitVec 2} {g : Layout → Nat → Nat → Nat → Nat} (x : Transfer) :
    bfxTask s f slot g ≠ .transfer x := by
  intro h
  rcases formatTask_cases h with ⟨_, h⟩ | ⟨_, h⟩ | ⟨r, desc, hr, hd, h⟩
  · cases h
  · cases h
  · split at h
    · cases h
    · split at h
      · cases h
      · cases ha : s.arg .bfxIn <;> rw [ha] at h <;> cases h

theorem selectTask_ne_transfer {f : Fmt} {k : Key} (x : Transfer) : selectTask f k ≠ .transfer x := by
  unfold selectTask
  split <;> simp

theorem generic_of_cls {desc : Descriptor} (h : desc.cls = .generic) : ∃ d, desc = .generic d := by
  cases desc with
  | generic d => exact ⟨d, rfl⟩
  | v210 tag => cases h

theorem v210_of_cls {desc : Descriptor} (h : desc.cls = .v210) : ∃ tag, desc = .v210 tag := by
  cases desc with
  | generic d => cases h
  | v210 tag => exact ⟨tag, rfl⟩

/-- A command whose task is a transfer is a memory command, and the transfer has the command's footprint. -/
theorem transferOf {x : Transfer} (h : task i s = .transfer x) : TransferOf i s x := by
  cases i with
  | extract f slot | align f slot =>
    rw [task] at h
    exact absurd h (bfxTask_ne_transfer x)
  | selectU f => exact absurd h (selectTask_ne_transfer x)
  | selectP f fill => exact absurd h (selectTask_ne_transfer x)
  | unpackLine f =>
    obtain ⟨r, desc, o, hr, hd, hc, ho, rfl⟩ := lineTask_transfer h
    obtain ⟨d, rfl⟩ := generic_of_cls hc
    refine ⟨rfl, ?_, r, _, hr, hd, unpackLineTransfer_sound _ _ o⟩
    simp only [commandFootprint, commandFootprint.genericOf, commandFootprint.lineOf, hd, ho]
    rfl
  | packLine f fill =>
    obtain ⟨r, desc, o, hr, hd, hc, ho, rfl⟩ := lineTask_transfer h
    obtain ⟨d, rfl⟩ := generic_of_cls hc
    refine ⟨rfl, ?_, r, _, hr, hd, packLineTransfer_sound _ _ fill o⟩
    simp only [commandFootprint, commandFootprint.genericOf, commandFootprint.lineOf, hd, ho]
    rfl
  | unpackLineV210 f =>
    obtain ⟨r, desc, o, hr, hd, hc, ho, rfl⟩ := lineTask_transfer h
    obtain ⟨tag, rfl⟩ := v210_of_cls hc
    refine ⟨rfl, ?_, r, _, hr, hd, unpackLineTransfer_sound _ _ o⟩
    simp only [commandFootprint, commandFootprint.lineOf, ho]
    rfl
  | packLineV210 f fill =>
    obtain ⟨r, desc, o, hr, hd, hc, ho, rfl⟩ := lineTask_transfer h
    obtain ⟨tag, rfl⟩ := v210_of_cls hc
    refine ⟨rfl, ?_, r, _, hr, hd, packLineTransfer_sound _ _ fill o⟩
    simp only [commandFootprint, commandFootprint.lineOf, ho]
    rfl
  | unpackFrame f skip one =>
    obtain ⟨r, desc, o, hr, hd, ho, rfl⟩ := frameTask_transfer h
    refine ⟨rfl, ?_, r, desc, hr, hd, unpackFrameTransfer_sound desc _ _⟩
    simp only [commandFootprint, commandFootprint.frameOf, hr, hd, ho]
    rfl
  | packFrame f skip fill =>
    obtain ⟨r, desc, o, hr, hd, ho, rfl⟩ := frameTask_transfer h
    refine ⟨rfl, ?_, r, desc, hr, hd, packFrameTransfer_sound desc _ fill _⟩
    simp only [commandFootprint, commandFootprint.frameOf, hr, hd, ho]
    rfl

/-! ### Faults and refusals before the cache is resolved -/

theorem classOf_eq (hcat : catalogOk s.cfg.catalog = true) {f : Fmt} {r : RegistryEntry} {desc : Descriptor}
    (hr : registry f = some r) (hd : s.cfg.catalog[f.toNat]? = some desc) : classOf f = some desc.cls := by
  obtain ⟨desc', hd', _, hcls⟩ := catalog_get hcat hr
  cases hd.symm.trans hd'
  rw [classOf, hr, Option.map_some, hcls]

theorem mayRaise_badFormat (h : registry i.fmt = none) : mayRaise s i .badFormat = true := by
  simp [mayRaise, Instr.formatNamed, h]

/-- The faults of a register read are in the rows of the commands that read registers. -/
theorem mayRaise_of_read {α : Type} {l : List ArgName} {y : Except FaultReason α} {r : FaultReason} (h : Reads s l y)
    (hy : y = .error r) (hselect : mayRaise.isSelect i = false)
    (hmem : mayRaise.isMemory i = true ∨ l = [.bfxIn]) : mayRaise s i r = true := by
  obtain ⟨n, hn, hfault⟩ := h.error_mem hy
  rcases operandFault_reason hfault with rfl | ⟨hne, hr⟩
  · simp [mayRaise, hselect]
  · rcases hmem with hmem | rfl
    · rcases hr with rfl | rfl <;> exact hmem
    · exact absurd (List.mem_singleton.1 hn) hne

theorem lineTask_mayRaise {c : FormatClass} {l : List ArgName} {y : Except FaultReason LineOperands}
    {k : Descriptor → LineOperands → Transfer} {r : FaultReason} (hy : Reads s l y)
    (hmem : mayRaise.isMemory i = true) (hselect : mayRaise.isSelect i = false)
    (h : lineTask s i.fmt c y k = .fault r) : mayRaise s i r = true := by
  rcases formatTask_cases h with ⟨hr, h⟩ | ⟨_, h⟩ | ⟨e, desc, hr, hd, h⟩
  · cases h
    exact mayRaise_badFormat hr
  · cases h
  · split at h
    · cases hx : y with
      | error e =>
        rw [hx] at h
        cases h
        exact mayRaise_of_read hy hx hselect (.inl hmem)
      | ok o =>
        rw [hx] at h
        cases h
    · cases h

theorem frameTask_mayRaise {k : RegistryEntry → Descriptor → FrameOperands → Transfer} {r : FaultReason}
    (hmem : mayRaise.isMemory i = true) (hselect : mayRaise.isSelect i = false)
    (h : frameTask s i.fmt k = .fault r) : mayRaise s i r = true := by
  rcases formatTask_cases h with ⟨hr, h⟩ | ⟨_, h⟩ | ⟨e, desc, hr, hd, h⟩
  · cases h
    exact mayRaise_badFormat hr
  · cases h
  · cases hx : s.frameOperands with
    | error e =>
      rw [hx] at h
      cases h
      exact mayRaise_of_read (frameOperands_reads s) hx hselect (.inl hmem)
    | ok o =>
      rw [hx] at h
      cases h

theorem selectTask_mayRaise {k : Key} {r : FaultReason} (h : selectTask i.fmt k = .fault r) : mayRaise s i r = true := by
  unfold selectTask at h
  split at h
  case h_1 hr =>
    cases h
    exact mayRaise_badFormat hr
  case h_2 => cases h

section
variable (hcat : catalogOk s.cfg.catalog = true)
include hcat

theorem bfxTask_mayRaise {slot : BitVec 2} {g : Layout → Nat → Nat → Nat → Nat} {r : FaultReason}
    (hbfx : mayRaise.isBfx i = true) (hselect : mayRaise.isSelect i = false)
    (h : bfxTask s i.fmt slot g = .fault r) : mayRaise s i r = true := by
  rcases formatTask_cases h with ⟨hr, h⟩ | ⟨_, h⟩ | ⟨e, desc, hr, hd, h⟩
  · cases h
    exact mayRaise_badFormat hr
  · cases h
  · have hclass := classOf_eq hcat hr hd
    cases desc with
    | v210 tag =>
      cases h
      simp [mayRaise, hbfx, hclass, Descriptor.cls]
    | generic d =>
      simp only at h
      split at h
      · cases h
        simp [mayRaise, hbfx, hclass, Descriptor.cls]
      · cases ha : s.arg .bfxIn with
        | error e =>
          rw [ha] at h
          cases h
          exact mayRaise_of_read (arg_bfxIn_reads s) ha hselect (.inr rfl)
        | ok w =>
          rw [ha] at h
          cases h

/-- A fault before the cache is resolved is one of the command's row (60_exceptions.md R270). -/
theorem task_mayRaise {r : FaultReason} (h : task i s = .fault r) : mayRaise s i r = true := by
  cases i with
  | extract f slot | align f slot =>
    rw [task] at h
    exact bfxTask_mayRaise hcat rfl rfl h
  | unpackLine f | unpackLineV210 f => exact lineTask_mayRaise (unpackLineOperands_reads s) rfl rfl h
  | packLine f fill | packLineV210 f fill => exact lineTask_mayRaise (packLineOperands_reads s) rfl rfl h
  | unpackFrame f skip one | packFrame f skip fill => exact frameTask_mayRaise rfl rfl h
  | selectU f | selectP f fill => exact selectTask_mayRaise h

/-- EXTRACT and ALIGN on a field slot read BFX_IN and give a result. -/
theorem bfxTask_eq_read {f : Fmt} {slot : BitVec 2} {g : Layout → Nat → Nat → Nat → Nat} {d : Layout} {c : Channel}
    {sh dp : Nat} (hd : s.cfg.catalog[f.toNat]? = some (.generic d)) (hs : d.slots[slot.toNat] = .field c sh dp) :
    bfxTask s f slot g = readTask (s.arg .bfxIn) fun w => .output (BitVec.ofNat 64 (g d sh dp w.toNat)) := by
  obtain ⟨r, hr, _⟩ := registry_of_get hcat hd
  simp only [bfxTask, formatTask_eq hr hd, hs]

/-- A line command in the form of its format's CLASS reads its operands and is a transfer. -/
theorem lineTask_eq_read {f : Fmt} {c : FormatClass} {y : Except FaultReason LineOperands}
    {k : Descriptor → LineOperands → Transfer} (hc : classOf f = some c) :
    ∃ desc, s.cfg.catalog[f.toNat]? = some desc ∧ lineTask s f c y k = readTask y fun o => .transfer (k desc o) := by
  obtain ⟨r, hr, hrc⟩ := Option.map_eq_some_iff.1 hc
  obtain ⟨desc, hd, _, hcls⟩ := catalog_get hcat hr
  exact ⟨desc, hd, (formatTask_eq hr hd).trans (if_pos (hcls.symm.trans hrc))⟩

theorem frameTask_eq_read {f : Fmt} {k : RegistryEntry → Descriptor → FrameOperands → Transfer} {r : RegistryEntry}
    (hr : registry f = some r) : ∃ desc, s.cfg.catalog[f.toNat]? = some desc ∧
      frameTask s f k = readTask s.frameOperands fun o => .transfer (k r desc o) := by
  obtain ⟨desc, hd, _, _⟩ := catalog_get hcat hr
  exact ⟨desc, hd, formatTask_eq hr hd⟩

omit hcat in
/-- A named format is of the one CLASS or of the other. -/
theorem classOf_generic {f : Fmt} {r : RegistryEntry} (hr : registry f = some r) (h : (classOf f != some .v210) = true) :
    classOf f = some .generic := by
  rw [classOf, hr, Option.map_some] at h ⊢
  cases hc : r.cls with
  | generic => rfl
  | v210 => simp [hc] at h

/-- The register reads of a well-formed command that comes to them decide its task. -/
theorem task_reads (hwf : i.wellFormed = true) (hslot : namesSlot s i = true) :
    ∃ (α : Type) (y : Except FaultReason α) (k : α → Task), Reads s (registersRead i) y ∧ task i s = readTask y k := by
  obtain ⟨hnamed, hfit⟩ := Bool.and_eq_true_iff.1 hwf
  obtain ⟨r, hr⟩ := Option.isSome_iff_exists.1 hnamed
  cases i with
  | extract f slot | align f slot =>
    rw [namesSlot, namesSlot.slotNamed] at hslot
    split at hslot
    case h_1 d hd =>
      cases hs : d.slots[slot.toNat] with
      | pad => simp [hs] at hslot
      | field c sh dp =>
        simp only [task]
        exact ⟨_, _, _, arg_bfxIn_reads s, bfxTask_eq_read hcat hd hs⟩
    all_goals cases hslot
  | unpackLine f =>
    obtain ⟨desc, _, h⟩ := lineTask_eq_read hcat (classOf_generic hr hfit)
    exact ⟨_, _, _, unpackLineOperands_reads s, h⟩
  | packLine f fill =>
    obtain ⟨desc, _, h⟩ := lineTask_eq_read hcat (classOf_generic hr hfit)
    exact ⟨_, _, _, packLineOperands_reads s, h⟩
  | unpackLineV210 f =>
    obtain ⟨desc, _, h⟩ := lineTask_eq_read hcat (beq_iff_eq.1 hfit)
    exact ⟨_, _, _, unpackLineOperands_reads s, h⟩
  | packLineV210 f fill =>
    obtain ⟨desc, _, h⟩ := lineTask_eq_read hcat (beq_iff_eq.1 hfit)
    exact ⟨_, _, _, packLineOperands_reads s, h⟩
  | unpackFrame f skip one | packFrame f skip fill =>
    obtain ⟨desc, _, h⟩ := frameTask_eq_read hcat hr
    exact ⟨_, _, _, frameOperands_reads s, h⟩
  | selectU f => exact ⟨Unit, .ok (), fun _ => task (.selectU f) s, .pure (), rfl⟩
  | selectP f fill => exact ⟨Unit, .ok (), fun _ => task (.selectP f fill) s, .pure (), rfl⟩

omit hcat in
theorem readTask_ne_refused {α : Type} {y : Except FaultReason α} {k : α → Task} {q : Refusal}
    (h : ∀ a, k a ≠ .refused q) : readTask y k ≠ .refused q := by
  cases y with
  | error r => exact nofun
  | ok a => exact h a

theorem bfxTask_ne_refused {f : Fmt} {slot : BitVec 2} {g : Layout → Nat → Nat → Nat → Nat} {r : RegistryEntry}
    (hr : registry f = some r) (q : Refusal) : bfxTask s f slot g ≠ .refused q := by
  obtain ⟨desc, hd, _, _⟩ := catalog_get hcat hr
  rw [bfxTask, formatTask_eq hr hd]
  split
  · exact nofun
  · split
    · exact nofun
    · exact readTask_ne_refused fun _ => nofun

theorem lineTask_ne_refused {f : Fmt} {c : FormatClass} {y : Except FaultReason LineOperands}
    {k : Descriptor → LineOperands → Transfer} (hc : classOf f = some c) (q : Refusal) :
    lineTask s f c y k ≠ .refused q := by
  obtain ⟨desc, _, h⟩ := lineTask_eq_read (s := s) (y := y) (k := k) hcat hc
  rw [h]
  exact readTask_ne_refused fun _ => nofun

theorem frameTask_ne_refused {f : Fmt} {k : RegistryEntry → Descriptor → FrameOperands → Transfer}
    {r : RegistryEntry} (hr : registry f = some r) (q : Refusal) : frameTask s f k ≠ .refused q := by
  obtain ⟨desc, _, h⟩ := frameTask_eq_read (s := s) (k := k) hcat hr
  rw [h]
  exact readTask_ne_refused fun _ => nofun

omit hcat in
theorem selectTask_ne_refused {f : Fmt} {k : Key} (q : Refusal) : selectTask f k ≠ .refused q := by
  unfold selectTask
  split <;> exact nofun

/-- A well-formed command over an accepted catalog is never refused (10_state.md R26). -/
theorem task_ne_refused (hwf : i.wellFormed = true) (q : Refusal) : task i s ≠ .refused q := by
  obtain ⟨hnamed, hfit⟩ := Bool.and_eq_true_iff.1 hwf
  obtain ⟨r, hr⟩ := Option.isSome_iff_exists.1 hnamed
  cases i with
  | extract f slot | align f slot =>
    rw [task]
    exact bfxTask_ne_refused hcat hr q
  | unpackLine f | packLine f fill => exact lineTask_ne_refused hcat (classOf_generic hr hfit) q
  | unpackLineV210 f | packLineV210 f fill => exact lineTask_ne_refused hcat (beq_iff_eq.1 hfit) q
  | unpackFrame f skip one | packFrame f skip fill => exact frameTask_ne_refused hcat hr q
  | selectU f | selectP f fill => exact selectTask_ne_refused q

end

end

end Sys2Proof.Machine
end

section
/-! SUPPORT. What holds of every command: it answers, where it faults and with what, which bytes it touches, and on what its
effect does not depend (10_state.md R26; 20_memory.md R74, R75; 43_registry_dispatch.md R223; 60_exceptions.md R270 to
R272). -/

namespace Sys2Proof.Machine

/-! ### The four endings of a transfer, as equations (60_exceptions.md R272 steps 5 to 8) -/

section
variable {s : State} {checks : Except FaultReason Unit} {f : Footprint} {run : Memory → Except FaultReason Memory}

theorem runTransfer_of_checks {r : FaultReason} (hc : checks = .error r) :
    runTransfer s checks f run = .next { s with status := .faulted r } := by
  simp only [runTransfer, hc, raiseFault]

theorem runTransfer_of_overlap (hc : checks = .ok ()) (hno : f.noOverlap = false) :
    runTransfer s checks f run = .next { s with status := .faulted .overlap } := by
  simp [runTransfer, hc, hno, raiseFault]

theorem runTransfer_of_error {r : FaultReason} (hc : checks = .ok ()) (hno : f.noOverlap = true)
    (hr : run s.mem = .error r) : runTransfer s checks f run =
      .next { s with status := .faulted r, mem := forgetRegions s.bus s.freeIx (f.reads ++ f.writes) s.mem,
                     freeIx := s.freeIx + 1 } := by
  simp only [runTransfer, hc, hno, hr, if_true, raiseAccessFault]

theorem runTransfer_of_ok {m : Memory} (hc : checks = .ok ()) (hno : f.noOverlap = true) (hm : run s.mem = .ok m) :
    runTransfer s checks f run = .next { s with mem := m } := by
  simp only [runTransfer, hc, hno, hm, if_true]

end

/-! ### Transfers over two states -/

/-- An access fault has a reason of R170, and MISALIGNED only with ALIGN_CHECK. -/
theorem Transfer.Sound.runFault {x : Transfer} {desc : Descriptor} {b : Bus} (h : x.Sound desc b)
    (hc : x.checks = .ok ()) {m : Memory} {r : FaultReason} (hr : x.run m = .error r) :
    r = .addrWrap ∨ r = .misaligned ∨ r = .buffer :=
  (h.runs hc m).error_reason hr

theorem firstFault_misaligned {b : Bus} {l : List Access} (h : b.firstFault l = some .misaligned) :
    b.alignCheck = true := by
  induction l with
  | nil => cases h
  | cons a rest ih =>
    rw [Bus.firstFault] at h
    split at h
    case h_1 hcheck =>
      cases h
      rcases check_error hcheck with ⟨hr, _⟩ | ⟨_, hal⟩ | ⟨hr, _⟩
      · cases hr
      · cases hcheck : b.alignCheck with
        | true => rfl
        | false => simp [Bus.alignedTo, hcheck] at hal
      · cases hr
    case h_2 => exact ih h

theorem Runs.misaligned {α : Type} {b : Bus} {l : List Access} {x : Except FaultReason α} (h : Runs b l x)
    (hx : x = .error .misaligned) : b.alignCheck = true := by
  unfold Runs at h
  split at h
  case h_1 r hr =>
    cases h.symm.trans hx
    exact firstFault_misaligned hr
  case h_2 =>
    obtain ⟨a, ha⟩ := h
    cases ha.symm.trans hx

/-- Two states in which a transfer goes alike: they share the memory, the bus, the status and the fault counter. -/
structure SameForTransfer (s s' : State) : Prop where
  mem : s'.mem = s.mem
  bus : s'.bus = s.bus
  status : s'.status = s.status
  freeIx : s'.freeIx = s.freeIx

theorem SameForTransfer.resolve {s s' : State} (h : SameForTransfer s s') (f : Fmt) (k : Key) :
    SameForTransfer (s.resolve f k) (s'.resolve f k) :=
  ⟨by simp [h.mem], by simp [h.bus], by simp [h.status], by simp [h.freeIx]⟩

theorem SameForTransfer.run {s s' t : State} (h : SameForTransfer s s') {checks : Except FaultReason Unit}
    {f : Footprint} {run : Memory → Except FaultReason Memory} (ht : runTransfer s checks f run = .next t) :
    ∃ t', runTransfer s' checks f run = .next t' ∧ SameForTransfer t t' ∧ t'.regs = s'.regs := by
  obtain ⟨hmem, hbus, hstatus, hfree⟩ := h
  rcases runTransfer_cases ht with ⟨r, hc, rfl⟩ | ⟨hc, hno, rfl⟩ | ⟨hc, hno, r, hr, rfl⟩ | ⟨hc, hno, m, hm, rfl⟩
  · exact ⟨_, runTransfer_of_checks hc, ⟨hmem, hbus, rfl, hfree⟩, rfl⟩
  · exact ⟨_, runTransfer_of_overlap hc hno, ⟨hmem, hbus, rfl, hfree⟩, rfl⟩
  · rw [← hmem] at hr
    exact ⟨_, runTransfer_of_error hc hno hr, ⟨by simp only [hbus, hfree, hmem], hbus, rfl, by simp only [hfree]⟩, rfl⟩
  · rw [← hmem] at hm
    exact ⟨_, runTransfer_of_ok hc hno hm, ⟨rfl, hbus, hstatus, hfree⟩, rfl⟩

/-- Two runs of a transfer over memories that agree on its footprint leave memories that agree on it. -/
theorem runTransfer_agree {s t t' : State} {checks : Except FaultReason Unit} {f : Footprint}
    {run : Memory → Except FaultReason Memory} {m : Memory} (hw : Memory.wf s.mem = true) (hw' : Memory.wf m = true)
    (htwin : checks = .ok () → Twin (InRegions f.reads) (InRegions f.writes) run)
    (ha : AgreeOn (fun x => f.has x = true) s.mem m) (h : runTransfer s checks f run = .next t)
    (h' : runTransfer { s with mem := m } checks f run = .next t') : AgreeOn (fun x => f.has x = true) t.mem t'.mem := by
  rcases runTransfer_cases h with ⟨r, hc, rfl⟩ | ⟨hc, hno, rfl⟩ | ⟨hc, hno, r, hr, rfl⟩ | ⟨hc, hno, n, hn, rfl⟩
  · cases (runTransfer_of_checks hc).symm.trans h'
    exact ha
  · cases (runTransfer_of_overlap hc hno).symm.trans h'
    exact ha
  · cases (runTransfer_of_error hc hno ((htwin hc).error _ m r hr)).symm.trans h'
    exact forgetRegions_agree s.bus s.freeIx _ hw hw' ha
  · cases hrun : run m with
    | error r => cases hn.symm.trans ((htwin hc).error m _ r hrun)
    | ok n' =>
      cases (runTransfer_of_ok (s := { s with mem := m }) hc hno hrun).symm.trans h'
      have hreads : ∀ x, InRegions f.reads x → f.has x = true := fun x ⟨r, hr, hx⟩ =>
        (footprint_has_iff f x).2 ⟨r, List.mem_append_left _ hr, hx⟩
      exact fun k hk => (htwin hc).agree _ hreads s.mem m n n' hw hw' ha hn hrun k (.inl hk)

/-! ### Every command answers -/

/-- Settles O21: a well-formed command's task is no refusal, and every other task answers a next state. -/
theorem commandsAnswer : Obligations.CommandsAnswer := by
  intro i s hcat hwf
  rw [exec_eq_run]
  cases h : task i s with
  | fault r => exact ⟨_, rfl⟩
  | refused q => exact absurd h (task_ne_refused hcat hwf q)
  | output w => exact ⟨_, rfl⟩
  | select k => exact ⟨_, rfl⟩
  | transfer x => exact runTransfer_next _ _ _ _

/-- Settles O28: the reads end with the first register's fault (`Reads.error_first`), and the task is then that fault. -/
theorem operandFaults : Obligations.OperandFaults := by
  intro i s pre post n r hcat hwf hslot hread hpre hn
  obtain ⟨α, y, k, hy, htask⟩ := task_reads hcat hwf hslot
  rw [hread] at hy
  rw [exec_eq_run, htask, hy.error_first hpre hn]
  rfl

/-! ### Memory commands and register commands -/

theorem footprint_of_register {i : Instr} (s : State) (h : mayRaise.isMemory i = false) :
    commandFootprint i s = ⟨[], []⟩ := by
  cases i with
  | extract | align | selectU | selectP => rfl
  | _ => cases h

theorem lineTask_ne_output {s : State} {f : Fmt} {c : FormatClass} {y : Except FaultReason LineOperands}
    {k : Descriptor → LineOperands → Transfer} :
    (∀ w, lineTask s f c y k ≠ .output w) ∧ ∀ j, lineTask s f c y k ≠ .select j := by
  constructor
  all_goals
    intro v h
    rcases formatTask_cases h with ⟨_, h⟩ | ⟨_, h⟩ | ⟨r, desc, hr, hd, h⟩
    · cases h
    · cases h
    · split at h
      · cases y <;> cases h
      · cases h

theorem frameTask_ne_output {s : State} {f : Fmt} {k : RegistryEntry → Descriptor → FrameOperands → Transfer} :
    (∀ w, frameTask s f k ≠ .output w) ∧ ∀ j, frameTask s f k ≠ .select j := by
  constructor
  all_goals
    intro v h
    rcases formatTask_cases h with ⟨_, h⟩ | ⟨_, h⟩ | ⟨r, desc, hr, hd, h⟩
    · cases h
    · cases h
    · cases ho : s.frameOperands <;> rw [ho] at h <;> cases h

/-- Only a register command writes BFX_OUT. -/
theorem register_of_output {i : Instr} {s : State} (h : (∃ w, task i s = .output w) ∨ ∃ k, task i s = .select k) :
    mayRaise.isMemory i = false := by
  cases i with
  | extract | align | selectU | selectP => rfl
  | unpackLine | unpackLineV210 | packLine | packLineV210 =>
    rcases h with ⟨w, h⟩ | ⟨k, h⟩
    · exact absurd h (lineTask_ne_output.1 w)
    · exact absurd h (lineTask_ne_output.2 k)
  | unpackFrame | packFrame =>
    rcases h with ⟨w, h⟩ | ⟨k, h⟩
    · exact absurd h (frameTask_ne_output.1 w)
    · exact absurd h (frameTask_ne_output.2 k)

/-! ### Noninterference of memory -/

/-- A task that is no transfer leaves memory and does not see it. -/
theorem Task.run_withMem {y : Task} (hy : ∀ x, y ≠ .transfer x) {f : Fmt} {s t : State} (h : y.run f s = .next t)
    (m : Memory) : t.mem = s.mem ∧ y.run f { s with mem := m } = .next { t with mem := m } := by
  cases y with
  | fault r => cases h; exact ⟨rfl, rfl⟩
  | refused q => cases h
  | output w => cases h; exact ⟨rfl, rfl⟩
  | select k =>
    cases h
    refine ⟨resolve_mem s f k, ?_⟩
    simp only [Task.run, resolve_withMem]
    rfl
  | transfer x => exact absurd rfl (hy x)

/-- Settles O23: the task of a register command is no transfer. -/
theorem registerCommandsUseNoMemory : Obligations.RegisterCommandsUseNoMemory := by
  intro i s m hi t h
  have hreg : mayRaise.isMemory i = false := by
    rcases hi with ⟨f, k, rfl⟩ | ⟨f, k, rfl⟩ | ⟨f, rfl⟩ | ⟨f, b, rfl⟩ <;> rfl
  have htask : ∀ x, task i s ≠ .transfer x := fun x hx => by
    have hmem := (transferOf hx).memory
    rw [hreg] at hmem
    cases hmem
  rw [exec_eq_run] at h ⊢
  rw [task_withMem]
  exact Task.run_withMem htask h m

/-- However a command ends, the bytes outside its footprint are unchanged (20_memory.md R74). -/
theorem Ends.outside {i : Instr} {s t : State} (hw : Memory.wf s.mem = true) (h : Ends i s t) :
    OutsideKept (commandFootprint i s) s.mem t.mem := by
  have hres : ∀ s1, Resolved i.fmt s s1 → s1.mem = s.mem := by
    rintro s1 (rfl | ⟨k, rfl⟩)
    · rfl
    · exact resolve_mem s i.fmt k
  intro a ha
  cases h with
  | fault s1 r hs => exact congrArg (Memory.read · a) (hres s1 hs)
  | access s1 r hs => exact forgetRegions_outside s.bus s.freeIx _ s.mem hw a ha
  | bfx s1 w hs => exact congrArg (Memory.read · a) (hres s1 hs)
  | memory s1 m hs hwrote =>
    refine hwrote.outside hw a fun ⟨r, hr, hx⟩ => ?_
    rw [(footprint_has_iff _ _).2 ⟨r, List.mem_append_right _ hr, hx⟩] at ha
    cases ha

/-- Settles O24: outside the footprint no ending writes (`Ends.outside`); inside it, a task that is no transfer writes
nothing, and two runs of a transfer agree (`runTransfer_agree`). -/
theorem footprintBoundsAccess : Obligations.FootprintBoundsAccess := by
  intro i s t t' m hw hw' hag h h'
  refine ⟨(exec_ends h).outside hw, fun a ha => ?_⟩
  have hagree : AgreeOn (fun x => (commandFootprint i s).has x = true) s.mem m := fun k hk => (hag k hk).symm
  rw [exec_eq_run] at h h'
  rw [task_withMem] at h'
  by_cases hx : ∃ x, task i s = .transfer x
  · obtain ⟨x, hx⟩ := hx
    obtain ⟨_, hfoot, r, desc, _, _, hsound⟩ := transferOf hx
    rw [hx] at h h'
    rw [Task.run, Transfer.exec] at h h'
    rw [resolve_withMem] at h'
    rw [← hfoot] at hagree ha
    refine (runTransfer_agree ?_ hw' hsound.twin ?_ h h' a ha).symm
    · rwa [resolve_mem]
    · rwa [resolve_mem]
  · obtain ⟨hmem, hrun⟩ := Task.run_withMem (not_exists.1 hx) h m
    cases hrun.symm.trans h'
    rw [hmem]
    exact hag a ha

/-! ### Completion -/

theorem runTransfer_idle {s t : State} {checks : Except FaultReason Unit} {f : Footprint}
    {run : Memory → Except FaultReason Memory} (h : runTransfer s checks f run = .next t) (hidle : t.status = .idle) :
    checks = .ok () ∧ f.noOverlap = true ∧ ∃ m, run s.mem = .ok m ∧ t = { s with mem := m } := by
  rcases runTransfer_cases h with ⟨r, _, rfl⟩ | ⟨_, _, rfl⟩ | ⟨_, _, r, _, rfl⟩ | ⟨hc, hno, hm⟩
  · cases hidle
  · cases hidle
  · cases hidle
  · exact ⟨hc, hno, hm⟩

theorem Transfer.exec_idle {x : Transfer} {f : Fmt} {s t : State} (h : x.exec f s = .next t) (hidle : t.status = .idle) :
    x.checks = .ok () ∧ x.footprint.noOverlap = true ∧
      ∃ m, x.run s.mem = .ok m ∧ t = { s.resolve f x.key with mem := m } := by
  have := runTransfer_idle h hidle
  rwa [resolve_mem] at this

theorem noFootprint_completed (s t : State) (hmem : t.mem = s.mem) :
    UnwrittenBytesKept ⟨[], []⟩ s.mem t.mem ∧ (⟨[], []⟩ : Footprint).noOverlap = true ∧
      ∀ r ∈ (⟨[], []⟩ : Footprint).reads ++ (⟨[], []⟩ : Footprint).writes, ∀ a : Int, r.has a = true →
        0 ≤ a ∧ a < 2 ^ s.cfg.addrW ∧ admits s.admitSet a = true :=
  ⟨fun a _ => by rw [hmem], rfl, nofun⟩

/-- Settles O25: a transfer that completes passed all its accesses, which cover its footprint (`Transfer.Sound`). -/
theorem completedAccessesAreAdmitted : Obligations.CompletedAccessesAreAdmitted := by
  intro i s t hcat hw h _ hidle
  rw [exec_eq_run] at h
  cases htask : task i s with
  | fault r => rw [htask] at h; cases h; cases hidle
  | refused q => rw [htask] at h; cases h
  | output w =>
    rw [footprint_of_register s (register_of_output (.inl ⟨w, htask⟩))]
    rw [htask] at h
    cases h
    exact noFootprint_completed s _ rfl
  | select k =>
    rw [footprint_of_register s (register_of_output (.inr ⟨k, htask⟩))]
    rw [htask] at h
    cases h
    exact noFootprint_completed s _ (resolve_mem s _ k)
  | transfer x =>
    obtain ⟨_, hfoot, r, desc, _, _, hsound⟩ := transferOf htask
    rw [htask] at h
    obtain ⟨hc, hno, m, hm, rfl⟩ := Transfer.exec_idle h hidle
    rw [← hfoot]
    exact ⟨(hsound.wrote hc s.mem m hm).unwritten hw fun _ hx => hx, hno, fun r hr a ha =>
      (hsound.runs hc s.mem).good_of_ok hm (hsound.covered a ⟨r, hr, ha⟩)⟩

/-! ### Faults -/

/-- Settles O26: before the cache is resolved nothing changes but the status, and a transfer changes memory only where an
access faults. -/
theorem faultEntry : Obligations.FaultEntry := by
  intro i s t r hw hidle h hfault
  have houtside := (exec_ends h).outside hw
  rw [exec_eq_run] at h
  cases htask : task i s with
  | fault e =>
    rw [htask] at h
    cases h
    exact ⟨rfl, fun _ _ _ hres => hres, houtside, fun _ _ _ => ⟨rfl, rfl⟩⟩
  | refused q => rw [htask] at h; cases h
  | output w => rw [htask] at h; cases h; cases hidle.symm.trans hfault
  | select k =>
    rw [htask] at h
    cases h
    simp [hidle] at hfault
  | transfer x =>
    obtain ⟨_, _, e, desc, _, _, hsound⟩ := transferOf htask
    rw [htask] at h
    have hregs : (s.resolve i.fmt x.key).regs = s.regs := resolve_regs s i.fmt x.key
    have hcache : ∀ f k b, s.cacheAt f k = .resolved b → (s.resolve i.fmt x.key).cacheAt f k = .resolved b :=
      fun f k b hres => cacheAt_resolve_keeps s i.fmt f x.key k b hres
    have hkept : (s.resolve i.fmt x.key).mem = s.mem ∧ (s.resolve i.fmt x.key).freeIx = s.freeIx :=
      ⟨resolve_mem s i.fmt x.key, resolve_freeIx s i.fmt x.key⟩
    rcases runTransfer_cases h with ⟨r, _, rfl⟩ | ⟨_, _, rfl⟩ | ⟨hc, _, r, hr, rfl⟩ | ⟨_, _, m, _, rfl⟩
    · exact ⟨hregs, hcache, houtside, fun _ _ _ => hkept⟩
    · exact ⟨hregs, hcache, houtside, fun _ _ _ => hkept⟩
    · cases hfault
      refine ⟨hregs, hcache, houtside, fun hwrap halign hbuffer => ?_⟩
      rcases hsound.runFault hc hr with rfl | rfl | rfl
      · exact absurd rfl hwrap
      · exact absurd rfl halign
      · exact absurd rfl hbuffer
    · simp [hidle] at hfault

/-- The faults of a transfer's checks are in the rows of the memory commands, V210_RANGE in those of a v210 format. -/
theorem mayRaise_checkFault {i : Instr} {s : State} {desc : Descriptor} {r : FaultReason}
    (hmem : mayRaise.isMemory i = true) (hclass : classOf i.fmt = some desc.cls)
    (hr : r = desc.rangeFault ∨ r = .nullPtr) : mayRaise s i r = true := by
  rcases hr with rfl | rfl
  · cases desc with
    | generic d => exact hmem
    | v210 tag => simp [mayRaise, Descriptor.rangeFault, hmem, hclass, Descriptor.cls]
  · exact hmem

/-- Settles O27: a fault before the cache is resolved is in the command's row (`task_mayRaise`), and so is each of a
transfer's: of its checks, of its footprint, and of an access. -/
theorem faultsRaisedBy : Obligations.FaultsRaisedBy := by
  intro i s t r hcat hidle h hfault
  rw [exec_eq_run] at h
  cases htask : task i s with
  | fault e =>
    rw [htask] at h
    cases h
    cases hfault
    exact task_mayRaise hcat htask
  | refused q => rw [htask] at h; cases h
  | output w => rw [htask] at h; cases h; cases hidle.symm.trans hfault
  | select k =>
    rw [htask] at h
    cases h
    simp [hidle] at hfault
  | transfer x =>
    obtain ⟨hmem, _, e, desc, he, hd, hsound⟩ := transferOf htask
    rw [htask] at h
    rcases runTransfer_cases h with ⟨r, hc, rfl⟩ | ⟨_, _, rfl⟩ | ⟨hc, _, r, hr, rfl⟩ | ⟨_, _, m, _, rfl⟩
    · cases hfault
      exact mayRaise_checkFault hmem (classOf_eq hcat he hd) (hsound.checkFault r hc)
    · cases hfault
      exact hmem
    · cases hfault
      rcases hsound.runFault hc hr with rfl | rfl | rfl
      · exact hmem
      · have hal : s.cfg.alignCheck = true := (hsound.runs hc _).misaligned hr
        simp [mayRaise, hmem, hal]
      · exact hmem
    · simp [hidle] at hfault

/-! ### What an effect does not depend on -/

/-- Settles O29: the dispatch cache and ACCEL_TABLE are no part of a task, and a transfer goes alike in the two states. -/
theorem handlesNeverMatter : Obligations.HandlesNeverMatter := by
  intro i s t cache accel h
  rw [exec_eq_run] at h ⊢
  rw [task_withDispatch]
  cases htask : task i s with
  | fault r => rw [htask] at h; cases h; exact ⟨_, rfl, rfl, rfl, rfl, fun _ _ => rfl⟩
  | refused q => rw [htask] at h; cases h
  | output w => rw [htask] at h; cases h; exact ⟨_, rfl, rfl, rfl, rfl, fun _ _ => rfl⟩
  | select k =>
    rw [htask] at h
    cases h
    refine ⟨_, rfl, by simp, by simp, by simp, fun n hn => ?_⟩
    simp only [putReg_regs, resolve_regs, get_put_other _ _ hn]
  | transfer x =>
    rw [htask] at h
    have hsame : SameForTransfer s { s with cache := cache, cfg := { s.cfg with accel := accel } } := ⟨rfl, rfl, rfl, rfl⟩
    obtain ⟨t', ht', ⟨hmem, _, hstatus, hfree⟩, hregs⟩ := (hsame.resolve i.fmt x.key).run h
    have hkeep : t.regs = s.regs := keepsRegs_runTransfer s _ _ _ _ _ t h
    refine ⟨t', ht', hmem, hstatus, hfree, fun n _ => ?_⟩
    rw [hregs, hkeep, resolve_regs]

/-- What the bytes read decide of a transfer: neither its status nor its cache. -/
theorem runTransfer_status_withMem {s t : State} {checks : Except FaultReason Unit} {f : Footprint}
    {run : Memory → Except FaultReason Memory} (h : runTransfer s checks f run = .next t)
    (herror : checks = .ok () → ∀ m m' r, run m = .error r → run m' = .error r) (m : Memory) :
    ∃ t', runTransfer { s with mem := m } checks f run = .next t' ∧ t'.status = t.status ∧ t'.cache = t.cache := by
  rcases runTransfer_cases h with ⟨r, hc, rfl⟩ | ⟨hc, hno, rfl⟩ | ⟨hc, hno, r, hr, rfl⟩ | ⟨hc, hno, n, hn, rfl⟩
  · exact ⟨_, runTransfer_of_checks hc, rfl, rfl⟩
  · exact ⟨_, runTransfer_of_overlap hc hno, rfl, rfl⟩
  · exact ⟨_, runTransfer_of_error hc hno (herror hc _ m r hr), rfl, rfl⟩
  · cases hrun : run m with
    | error r => cases hn.symm.trans (herror hc m _ r hrun)
    | ok n' => exact ⟨_, runTransfer_of_ok (s := { s with mem := m }) hc hno hrun, rfl, rfl⟩

/-- The value of BFX_IN decides at most the value of a result. -/
theorem bfxTask_putBfxIn {s : State} {f : Fmt} {slot : BitVec 2} {g : Layout → Nat → Nat → Nat → Nat} {w : Word}
    (hw : s.regs.get .bfxIn = .value w) (w' : Word) :
    bfxTask (s.putReg .bfxIn w') f slot g = bfxTask s f slot g ∨
      ∃ v v', bfxTask s f slot g = .output v ∧ bfxTask (s.putReg .bfxIn w') f slot g = .output v' := by
  unfold bfxTask formatTask
  rw [putReg_cfg]
  cases registry f with
  | none => exact .inl rfl
  | some r =>
    cases s.cfg.catalog[f.toNat]? with
    | none => exact .inl rfl
    | some desc =>
      cases desc with
      | v210 tag => exact .inl rfl
      | generic d =>
        cases hs : d.slots[slot.toNat] with
        | pad => simp only [hs, true_or]
        | field c sh dp =>
          have harg : s.arg .bfxIn = .ok w := (arg_ok_iff s .bfxIn w).2 hw
          have harg' : (s.putReg .bfxIn w').arg .bfxIn = .ok w' := by
            rw [arg_ok_iff, putReg_regs, get_put_same]
          simp only [hs, harg, harg', readTask]
          exact .inr ⟨_, _, rfl, rfl⟩

theorem task_putBfxIn {i : Instr} {s : State} {w : Word} (hw : s.regs.get .bfxIn = .value w) (w' : Word) :
    task i (s.putReg .bfxIn w') = task i s ∨
      ∃ v v', task i s = .output v ∧ task i (s.putReg .bfxIn w') = .output v' := by
  cases i with
  | extract f slot | align f slot =>
    simp only [task]
    exact bfxTask_putBfxIn hw w'
  | _ => exact .inl rfl

/-- Settles O30: a task is no other over another memory, and with another BFX_IN it is no other but for the value of a
result; the accesses of a transfer fail or pass over every memory alike (`Twin`). -/
theorem dataNeverDecidesAFault : Obligations.DataNeverDecidesAFault := by
  intro i s t h
  rw [exec_eq_run] at h
  refine ⟨fun m => ?_, fun w w' hw => ?_⟩
  · rw [exec_eq_run, task_withMem]
    by_cases hx : ∃ x, task i s = .transfer x
    · obtain ⟨x, hx⟩ := hx
      obtain ⟨_, _, r, desc, _, _, hsound⟩ := transferOf hx
      rw [hx, Task.run, Transfer.exec] at h ⊢
      rw [resolve_withMem]
      exact runTransfer_status_withMem h (fun hc => (hsound.twin hc).error) m
    · exact ⟨_, (Task.run_withMem (not_exists.1 hx) h m).2, rfl, rfl⟩
  · rw [exec_eq_run]
    rcases task_putBfxIn (i := i) hw w' with htask | ⟨v, v', hv, hv'⟩
    · rw [htask]
      cases htask : task i s with
      | fault r => rw [htask] at h; cases h; exact ⟨_, rfl, rfl, rfl⟩
      | refused q => rw [htask] at h; cases h
      | output v => rw [htask] at h; cases h; exact ⟨_, rfl, rfl, rfl⟩
      | select k => rw [htask] at h; cases h; exact ⟨_, rfl, by simp, by simp⟩
      | transfer x =>
        rw [htask] at h
        have hsame : SameForTransfer s (s.putReg .bfxIn w') := ⟨rfl, rfl, rfl, rfl⟩
        obtain ⟨t', ht', hend, _⟩ := (hsame.resolve i.fmt x.key).run h
        exact ⟨t', ht', hend.status, hend.mem⟩
    · rw [hv] at h
      rw [hv']
      cases h
      exact ⟨_, rfl, rfl, rfl⟩

/-! ### Running twice (20_memory.md R75) -/

/-- A run that reads no byte it writes does not change the memory it left. -/
theorem Twin.idempotent {b : Bus} {f : Footprint} {run : Memory → Except FaultReason Memory} {m n n' : Memory}
    (ht : Twin (InRegions f.reads) (InRegions f.writes) run) (hno : f.noOverlap = true) (hw : Memory.wf m = true)
    (hwrote : Wrote b (InRegions f.writes) m n) (hn : run m = .ok n) (hn' : run n = .ok n') : n' = n := by
  have hwn : Memory.wf n = true := hwrote.wf hw
  have hunwritten : AgreeOn (fun x => ¬ InRegions f.writes x) m n := fun k hk => (hwrote.outside hw k hk).symm
  have hreads : ∀ x, InRegions f.reads x → ¬ InRegions f.writes x := fun x ⟨r, hr, hxr⟩ ⟨w, hw, hxw⟩ =>
    apart_not_both (((noOverlap_iff f).1 hno).2 w hw r hr) hxw hxr
  have hall := ht.agree _ hreads m n n n' hw hwn hunwritten hn hn'
  exact memory_ext (ht.wf _ _ hwn hn') hwn fun a => (hall a (em' _)).symm

/-- Settles O31: the task is the same in the state that the command left, and a transfer that completed gives the same
memory again (`Twin.idempotent`). -/
theorem runningTwice : Obligations.RunningTwice := by
  intro i s t hcat hw hidle h hdone
  rw [exec_eq_run] at h
  cases htask : task i s with
  | fault r => rw [htask] at h; cases h; cases hdone
  | refused q => rw [htask] at h; cases h
  | output w =>
    rw [htask] at h
    cases h
    exact ⟨(s.putReg .bfxOut w).putReg .bfxOut w, by rw [exec_eq_run, task_putBfxOut, htask]; rfl, hidle, rfl⟩
  | select k =>
    rw [htask] at h
    cases h
    exact ⟨_, by rw [exec_eq_run, task_putBfxOut, task_resolve, htask]; rfl, by simpa using hidle, by simp⟩
  | transfer x =>
    obtain ⟨_, _, r, desc, _, _, hsound⟩ := transferOf htask
    rw [htask] at h
    obtain ⟨hc, hno, m, hm, rfl⟩ := Transfer.exec_idle h hdone
    rw [exec_eq_run, task_withMem, task_resolve, htask, Task.run, Transfer.exec, resolve_withMem]
    cases hagain : x.run m with
    | error r => cases hm.symm.trans ((hsound.twin hc).error m _ r hagain)
    | ok m' =>
      have hsame : m' = m := (hsound.twin hc).idempotent hno hw (hsound.wrote hc _ _ hm) hm hagain
      exact ⟨_, runTransfer_of_ok hc hno hagain, by simpa using hidle, hsame⟩

end Sys2Proof.Machine
end

section
/-! SUPPORT. What one step of the block and its host can do (10_state.md R40, R42), and from it what holds of every
step: the invariant, the cache, the status and the parameters. -/

namespace Sys2Proof.Machine

/-! ### The register map (10_state.md R21, R37) -/

theorem mem_of_regAt {off : Nat} {x : RegTarget} (h : regAt off = some x) : (off, x) ∈ registerMap := by
  obtain ⟨l, l', hmap, _⟩ := List.lookup_eq_some_iff.1 h
  rw [hmap]
  exact List.mem_append_right l List.mem_cons_self

/-- Every entry of the map lies on a multiple of 8 below 0x0C0 other than 0x038, and only offset 0 is CMD. -/
theorem registerMap_entry : ∀ e ∈ registerMap,
    e.1 % 8 = 0 ∧ e.1 < 0x0C0 ∧ e.1 ≠ 0x038 ∧ (e.2 = .cmd → e.1 = 0) := by decide

theorem regAt_used {off : Nat} {x : RegTarget} (h : regAt off = some x) :
    off % 8 = 0 ∧ off < 0x0C0 ∧ off ≠ 0x038 ∧ (x = .cmd → off = 0) :=
  registerMap_entry _ (mem_of_regAt h)

/-- An aligned 64-bit access at a used offset names what the map gives. -/
theorem regTarget_of_regAt {off : Nat} {x : RegTarget} (h : regAt off = some x) : regTarget off 8 = .ok x := by
  simp [regTarget, (regAt_used h).1, h]

theorem regTarget_ok {off size : Nat} {x : RegTarget} (h : regTarget off size = .ok x) :
    size = 8 ∧ regAt off = some x := by
  unfold regTarget at h
  split at h
  · cases h
  · rename_i hbad
    split at h
    · cases h
    · rename_i y hy
      cases h
      exact ⟨by omega, hy⟩

theorem cmd_of_regTarget {off size : Nat} (h : regTarget off size = .ok .cmd) : off = 0 ∧ size = 8 := by
  obtain ⟨hsize, hoff⟩ := regTarget_ok h
  exact ⟨(regAt_used hoff).2.2.2 rfl, hsize⟩

/-! ### One step (10_state.md R42) -/

/-- All that a step to a next state can do. -/
inductive StepTo (s : State) : State → Prop
  | wait : StepTo s s
  | reset (rest : List HostAction) (h : resetNext s) : StepTo s (State.resetBlock { s with pending := rest })
  | command (i : Instr) (rest : List HostAction) (t : State) (hidle : s.status = .idle)
    (h : exec i { s with pending := rest } = .next t) : StepTo s t
  | fault (r : FaultReason) (rest : List HostAction) (hidle : s.status = .idle) :
    StepTo s { s with pending := rest, status := .faulted r }
  | read (rest : List HostAction) (l : List Word) : StepTo s { s with pending := rest, returned := l }
  | regWrite (n : ArgName) (w : Word) (rest : List HostAction) : StepTo s ({ s with pending := rest }.putReg n w)
  | memWrite (a : Nat) (b : Byte) (rest : List HostAction) (ha : a < 2 ^ s.cfg.addrW) :
    StepTo s { s with pending := rest, mem := s.mem.write a b }

/-- A step with an action to come is that action. -/
theorem step_eq {s : State} {a : HostAction} {rest : List HostAction} (hcat : catalogOk s.cfg.catalog = true)
    (hp : s.pending = a :: rest) : step s = hostMove a { s with pending := rest } := by
  simp [step, runPending, hcat, hp]

theorem step_bad_catalog {s : State} (h : catalogOk s.cfg.catalog = false) : step s = .refused .badCatalog := by
  simp [step, runPending, h]

/-- A CMD write that launches: a reset if the block is Faulted and reset follows, else a command or a decode fault. -/
theorem StepTo.launch {s t : State} {v : Word} {rest : List HostAction} (hp : s.pending = .regWrite 0 8 v :: rest)
    (h : Machine.launch v { s with pending := rest } = .next t) : StepTo s t := by
  unfold Machine.launch at h
  split at h
  case h_1 r hstatus =>
    split at h
    case h_1 rest' hrest =>
      cases h
      refine .reset rest' (.inr ⟨⟨r, hstatus⟩, v, rest', ?_⟩)
      rw [hp, show rest = .reset :: rest' from hrest]
    case h_2 => cases h
  case h_2 hidle =>
    split at h
    case h_1 e _ => cases h; exact .fault _ rest hidle
    case h_2 i _ => exact .command i rest t hidle h

theorem StepTo.regWrite_of {s t : State} {off size : Nat} {v : Word} {rest : List HostAction}
    (hp : s.pending = .regWrite off size v :: rest) (h : hostRegWrite off size v { s with pending := rest } = .next t) :
    StepTo s t := by
  unfold hostRegWrite at h
  split at h
  case h_1 => cases h
  case h_2 hcmd =>
    obtain ⟨rfl, rfl⟩ := cmd_of_regTarget hcmd
    exact .launch hp h
  case h_3 n _ =>
    split at h
    · cases h
    · cases h; exact .regWrite n v rest

theorem StepTo.regRead_of {s t : State} {off size : Nat} {rest : List HostAction}
    (h : hostRegRead off size { s with pending := rest } = .next t) : StepTo s t := by
  unfold hostRegRead at h
  split at h
  case h_1 => cases h
  case h_2 => cases h
  case h_3 n _ =>
    split at h
    case h_1 r _ =>
      split at h
      case h_1 hidle => cases h; exact .fault r rest hidle
      case h_2 => cases h; exact .read rest s.returned
    case h_2 w _ => cases h; exact .read rest _

theorem stepTo_of_step {s t : State} (h : step s = .next t) : StepTo s t := by
  cases hcat : catalogOk s.cfg.catalog with
  | false => rw [step_bad_catalog hcat] at h; cases h
  | true =>
    cases hp : s.pending with
    | nil =>
      simp only [step, runPending, hcat, hp, if_true] at h
      cases h
      exact .wait
    | cons a rest =>
      rw [step_eq hcat hp] at h
      cases a with
      | regWrite off size v => exact .regWrite_of hp h
      | regRead off size => exact .regRead_of h
      | memWrite a v =>
        simp only [hostMove, hostMemWrite] at h
        split at h
        · cases h; exact .memWrite a v rest ‹_›
        · cases h
      | memRead a =>
        simp only [hostMove, hostMemRead] at h
        split at h
        · cases h; exact .read rest _
        · cases h
      | reset => cases h; exact .reset rest (.inl ⟨rest, hp⟩)

/-! ### The invariant (20_memory.md R60, 43_registry_dispatch.md R226) -/

theorem below_iff (m : Memory) (w : Nat) : m.below w = true ↔ ∀ c ∈ m, c.1 < 2 ^ w := by
  simp [Memory.below]

/-- The invariant is about memory, the parameters and the cache alone. -/
theorem State.Inv.withMem {s t : State} (h : s.Inv) (hcfg : t.cfg = s.cfg) (hcache : t.cache = s.cache)
    (hwf : Memory.wf t.mem = true) (hbelow : t.mem.below s.cfg.addrW = true) : t.Inv where
  memWf := hwf
  memInSpace := by rw [hcfg]; exact (below_iff _ _).1 hbelow
  cacheTrue f k b hb := by
    rw [hcfg]
    refine h.cacheTrue f k b ?_
    simpa only [State.cacheAt, hcache] using hb

theorem State.Inv.below {s : State} (h : s.Inv) : s.mem.below s.cfg.addrW = true := (below_iff _ _).2 h.memInSpace

theorem State.Inv.sameMem {s t : State} (h : s.Inv) (hcfg : t.cfg = s.cfg) (hcache : t.cache = s.cache)
    (hmem : t.mem = s.mem) : t.Inv :=
  h.withMem hcfg hcache (by rw [hmem]; exact h.memWf) (by rw [hmem]; exact h.below)

theorem State.Inv.wrote {s s1 t : State} (h : s.Inv) (h1 : s1.Inv) (hcfg : s1.cfg = s.cfg) (hcfg' : t.cfg = s1.cfg)
    (hcache : t.cache = s1.cache) {W : Int → Prop} (hw : Wrote s.bus W s.mem t.mem) : t.Inv :=
  h1.withMem hcfg' hcache (hw.wf h.memWf) (by rw [hcfg]; exact hw.below h.below)

/-- Under the invariant `Resolve` returns the handle of ACCEL_TABLE (43_registry_dispatch.md R226). -/
theorem State.Inv.handle {s : State} (h : s.Inv) (f : Fmt) (k : Key) : s.handle f k = accelHandle f k s.cfg.accel := by
  unfold State.handle
  split
  · rfl
  · exact h.cacheTrue f k _ ‹_›

/-- A RESOLVED entry after `Resolve` was one before, or holds the handle; an id with no entry stays UNRESOLVED. -/
theorem cacheAt_of_resolve {s : State} {f f' : Fmt} {k k' : Key} {b : Byte}
    (h : (s.resolve f k).cacheAt f' k' = .resolved b) :
    s.cacheAt f' k' = .resolved b ∨ f' = f ∧ k' = k ∧ b = s.handle f k := by
  by_cases e : f' = f ∧ k' = k
  · obtain ⟨rfl, rfl⟩ := e
    by_cases hlt : cacheIndex f' k' < 150
    · rw [cacheAt_resolve_same s k' (by unfold cacheIndex at hlt; omega)] at h
      cases h
      exact .inr ⟨rfl, rfl, rfl⟩
    · have hnone : (s.resolve f' k').cache[cacheIndex f' k']? = none := by simp; omega
      simp [State.cacheAt, hnone] at h
  · rw [cacheAt_resolve_other s e] at h
    exact .inl h

theorem State.Inv.resolve {s : State} (h : s.Inv) (f : Fmt) (k : Key) : (s.resolve f k).Inv where
  memWf := by rw [resolve_mem]; exact h.memWf
  memInSpace := by rw [resolve_mem, resolve_cfg]; exact h.memInSpace
  cacheTrue f' k' b hb := by
    rw [resolve_cfg]
    rcases cacheAt_of_resolve hb with hs | ⟨rfl, rfl, rfl⟩
    · exact h.cacheTrue f' k' b hs
    · exact h.handle f' k'

theorem Resolved.inv {f : Fmt} {s s1 : State} (h : Resolved f s s1) (hinv : s.Inv) : s1.Inv := by
  rcases h with rfl | ⟨k, rfl⟩
  · exact hinv
  · exact hinv.resolve f k

theorem Ends.inv {i : Instr} {s t : State} (h : Ends i s t) (hinv : s.Inv) : t.Inv := by
  cases h with
  | fault s1 r hs => exact (hs.inv hinv).sameMem rfl rfl rfl
  | access s1 r hs =>
    exact hinv.wrote (hs.inv hinv) hs.sameSurroundings.1 rfl rfl (forgetRegions_wrote s.bus s.freeIx _ s.mem)
  | bfx s1 w hs => exact (hs.inv hinv).sameMem rfl rfl rfl
  | memory s1 m hs hw => exact hinv.wrote (hs.inv hinv) hs.sameSurroundings.1 rfl rfl hw

/-! ### The cache after reset -/

theorem cacheAt_of_unresolved {s : State} (h : s.cache = Vector.replicate 150 .unresolved) (f : Fmt) (k : Key) :
    s.cacheAt f k = .unresolved := by
  unfold State.cacheAt
  rw [h, Vector.getElem?_replicate]
  split
  · rename_i e he
    split at he
    · cases he; rfl
    · cases he
  · rfl

theorem cacheAt_resetBlock (s : State) (f : Fmt) (k : Key) : s.resetBlock.cacheAt f k = .unresolved :=
  cacheAt_of_unresolved rfl f k

/-- Settles O14: a command writes memory inside the address space and resolves entries to ACCEL_TABLE's handle
(`Ends.inv`), a host write does the first, a reset clears the cache, and no other step touches either. -/
theorem stepKeepsInv : Obligations.StepKeepsInv := by
  intro s t hinv hstep
  cases stepTo_of_step hstep with
  | wait => exact hinv
  | reset rest h =>
    exact ⟨hinv.memWf, hinv.memInSpace, fun f k b hb => by rw [cacheAt_resetBlock] at hb; cases hb⟩
  | command i rest t hidle h =>
    exact (exec_ends h).inv (hinv.sameMem rfl rfl rfl)
  | fault r rest hidle => exact hinv.sameMem rfl rfl rfl
  | read rest l => exact hinv.sameMem rfl rfl rfl
  | regWrite n w rest => exact hinv.sameMem rfl rfl rfl
  | memWrite a b rest ha =>
    exact hinv.withMem rfl rfl (wf_write _ a b hinv.memWf) (below_write b hinv.below ha)

/-- Settles O13: nothing is listed in memory and no entry is RESOLVED. -/
theorem invAtReset : Obligations.InvAtReset :=
  ⟨rfl, nofun, fun f k b hb => by rw [cacheAt_of_unresolved rfl] at hb; cases hb⟩

/-! ### Status, cache and parameters over a step -/

/-- Settles O12: in Faulted a step is a reset, or it leaves the status alone (`StepTo`). -/
theorem onlyResetLeavesFaulted : Obligations.OnlyResetLeavesFaulted := by
  intro s t r hfaulted hstep
  have hnotIdle : s.status ≠ .idle := fun hidle => by rw [hfaulted] at hidle; cases hidle
  cases stepTo_of_step hstep with
  | wait => exact .inl hfaulted
  | reset rest h => exact .inr ⟨h, rfl⟩
  | command i rest t hidle h => exact absurd hidle hnotIdle
  | fault r rest hidle => exact absurd hidle hnotIdle
  | read rest l => exact .inl hfaulted
  | regWrite n w rest => exact .inl hfaulted
  | memWrite a b rest ha => exact .inl hfaulted

theorem Resolved.keeps {f : Fmt} {s s1 : State} (h : Resolved f s s1) {f' : Fmt} {k' : Key} {b : Byte}
    (hb : s.cacheAt f' k' = .resolved b) : s1.cacheAt f' k' = .resolved b := by
  rcases h with rfl | ⟨k, rfl⟩
  · exact hb
  · exact cacheAt_resolve_keeps s f f' k k' b hb

theorem Ends.keeps {i : Instr} {s t : State} (h : Ends i s t) {f : Fmt} {k : Key} {b : Byte}
    (hb : s.cacheAt f k = .resolved b) : t.cacheAt f k = .resolved b := by
  cases h with
  | fault s1 r hs => exact hs.keeps hb
  | access s1 r hs => exact hs.keeps hb
  | bfx s1 w hs => exact hs.keeps hb
  | memory s1 m hs => exact hs.keeps hb

/-- Settles O15: a command keeps RESOLVED entries (`Ends.keeps`), a host access does not touch the cache, and a reset
makes every entry UNRESOLVED. -/
theorem resolvedEntriesStay : Obligations.ResolvedEntriesStay := by
  intro s t f k b hstep hb
  cases stepTo_of_step hstep with
  | wait => exact .inl hb
  | reset rest h => exact .inr ⟨h, fun f' k' _ => cacheAt_resetBlock _ f' k'⟩
  | command i rest t hidle h => exact .inl ((exec_ends h).keeps hb)
  | fault r rest hidle => exact .inl hb
  | read rest l => exact .inl hb
  | regWrite n w rest => exact .inl hb
  | memWrite a v rest ha => exact .inl hb

/-- Settles O16: a command keeps the parameters and ADMIT (`Ends.sameSurroundings`), and no other step writes them. -/
theorem parametersNeverChange : Obligations.ParametersNeverChange := by
  refine ⟨fun s t hstep => ?_, fun s hcat => step_bad_catalog hcat⟩
  cases stepTo_of_step hstep with
  | wait => exact ⟨rfl, rfl⟩
  | reset rest h => exact ⟨rfl, rfl⟩
  | command i rest t hidle h =>
    obtain ⟨hcfg, hadmit, _⟩ := (exec_ends h).sameSurroundings
    exact ⟨hcfg, hadmit⟩
  | fault r rest hidle => exact ⟨rfl, rfl⟩
  | read rest l => exact ⟨rfl, rfl⟩
  | regWrite n w rest => exact ⟨rfl, rfl⟩
  | memWrite a b rest ha => exact ⟨rfl, rfl⟩

/-! ### CMD writes and reset (10_state.md R26, R42; 70_reset_and_hazards.md R300) -/

/-- Settles O11: in Faulted the launch looks at the next action alone. -/
theorem stuckUntilReset : Obligations.StuckUntilReset := by
  intro s v rest r hnext hfaulted
  rw [step_cmdWrite hnext]
  refine ⟨fun hrest => ?_, fun rest' hrest => ?_⟩
  · simp only [launch, hfaulted]
  · simp only [launch, hfaulted, hrest]

/-- Settles O6: the launch in Idle is the decoded command. -/
theorem stepRunsDecodedCommand : Obligations.StepRunsDecodedCommand := by
  intro s v rest i hnext hidle hdec
  rw [step_cmdWrite hnext]
  simp only [launch, hidle, hdec]

/-- Settles O10: the reset action is `resetBlock` in the state whose action has been taken off. -/
theorem resetAction : Obligations.ResetAction := by
  intro s rest hcat hp
  exact ⟨_, step_eq hcat hp, get_reset, rfl, fun f k _ => cacheAt_resetBlock _ f k, rfl, rfl, rfl, rfl, rfl, rfl⟩

/-- Settles O9: the reset state is written out in the model. -/
theorem resetState : Obligations.ResetState :=
  ⟨get_reset, rfl, fun f k _ => cacheAt_of_unresolved rfl f k, rfl, rfl, rfl, rfl, fun _ _ => rfl⟩

/-- Settles O3: ten words, decoded. -/
theorem sampleWords : Obligations.SampleWords := by
  unfold Obligations.SampleWords
  decide

/-! ### The host's accesses (10_state.md R37, R42) -/

/-- Settles O17: the 23 offsets are evaluated, and every used offset is an entry of the map (`regAt_used`). -/
theorem registerMap_offsets : Obligations.RegisterMap := by
  refine ⟨rfl, rfl, rfl, rfl, rfl, rfl, rfl, by decide, fun off hoff => ?_⟩
  obtain ⟨x, hx⟩ := Option.ne_none_iff_exists'.1 hoff
  obtain ⟨hmod, hlt, hne, _⟩ := regAt_used hx
  exact ⟨hmod, hlt, hne⟩

/-- Settles O18: a write of a used offset is `putReg`, a read is `arg`. -/
theorem hostRegisterAccess : Obligations.HostRegisterAccess := by
  intro s off rest n hcat hreg
  have htarget := regTarget_of_regAt hreg
  refine ⟨fun v hp hne => ?_, fun hp => ?_⟩
  · have hstep : step s = .next ({ s with pending := rest }.putReg n v) := by
      simp [step_eq hcat hp, hostMove, hostRegWrite, htarget, hne]
    exact ⟨_, hstep, get_put_same _ n v, fun k hk => get_put_other _ v hk, rfl⟩
  · have hstep := step_eq hcat hp
    simp only [hostMove, hostRegRead, htarget, State.arg] at hstep
    exact ⟨fun w hw => by simp only [hstep, hw], fun hun hidle => by simp only [hstep, hun, hidle, raiseFault],
      fun hun r hr => by simp only [hstep, hun, hr]⟩

theorem step_badTarget {s : State} {off size : Nat} {v : Word} {rest : List HostAction} {q : Refusal}
    (hcat : catalogOk s.cfg.catalog = true)
    (hp : s.pending = .regWrite off size v :: rest ∨ s.pending = .regRead off size :: rest)
    (h : regTarget off size = .error q) : step s = .refused q := by
  rcases hp with hp | hp
  · simp only [step_eq hcat hp, hostMove, hostRegWrite, h]
  · simp only [step_eq hcat hp, hostMove, hostRegRead, h]

/-- Settles O19: the first two refusals are `regTarget`'s, the others those of BFX_OUT and of CMD. -/
theorem hostRefusals : Obligations.HostRefusals := by
  intro s off size v rest hcat hp
  refine ⟨fun hbad => step_badTarget hcat hp (if_pos hbad), fun hsize hoff hnone => step_badTarget hcat hp ?_,
    fun hp => ?_, fun hp => ?_⟩
  · simp [regTarget, hsize, hoff, hnone]
  · have htarget := regTarget_of_regAt (show regAt 0x010 = some (.arg .bfxOut) from rfl)
    simp [step_eq hcat hp, hostMove, hostRegWrite, htarget]
  · have htarget := regTarget_of_regAt (show regAt 0x000 = some .cmd from rfl)
    simp [step_eq hcat hp, hostMove, hostRegRead, htarget]

theorem step_memWrite {s : State} {a : Nat} {v : Byte} {rest : List HostAction} (hcat : catalogOk s.cfg.catalog = true)
    (hp : s.pending = .memWrite a v :: rest) :
    step s = if a < 2 ^ s.cfg.addrW then .next { s with pending := rest, mem := s.mem.write a v }
      else .fault .noSuchAddress :=
  step_eq hcat hp

theorem step_memRead {s : State} {a : Nat} {rest : List HostAction} (hcat : catalogOk s.cfg.catalog = true)
    (hp : s.pending = .memRead a :: rest) :
    step s = if a < 2 ^ s.cfg.addrW then
        .next { s with pending := rest, returned := BitVec.zeroExtend 64 (s.mem.read a) :: s.returned }
      else .fault .noSuchAddress :=
  step_eq hcat hp

/-- Settles O20: the read after the write is `read_write`. -/
theorem hostMemoryAccess : Obligations.HostMemoryAccess := by
  refine ⟨fun s a b v rest hcat hw ha hb hp => ?_, fun s a v rest hcat ha hp => ?_⟩
  · have hwrite := (step_memWrite hcat hp).trans (if_pos ha)
    have hread := (step_memRead (s := { s with pending := .memRead b :: rest, mem := s.mem.write a v }) hcat rfl).trans
      (if_pos hb)
    refine ⟨_, _, hwrite, hread, ?_, rfl, fun c => read_write s.mem a c v hw⟩
    simp only [read_write s.mem a b v hw]
  · rcases hp with hp | hp
    · exact (step_memWrite hcat hp).trans (if_neg (by omega))
    · exact (step_memRead hcat hp).trans (if_neg (by omega))

/-! ### Resolve and SELECT (43_registry_dispatch.md R222 to R226) -/

theorem handle_of_unresolved {s : State} {f : Fmt} {k : Key} (h : s.cacheAt f k = .unresolved) :
    s.handle f k = accelHandle f k s.cfg.accel := by
  simp only [State.handle, h]

theorem handle_of_resolved {s : State} {f : Fmt} {k : Key} {b : Byte} (h : s.cacheAt f k = .resolved b) :
    s.handle f k = b := by
  simp only [State.handle, h]

/-- Settles O55: the entry of the combination holds its handle, every other entry stays, and `resolve` writes the cache
alone. -/
theorem resolveMemoizes : Obligations.ResolveMemoizes := fun s f k hf =>
  ⟨cacheAt_resolve_same s k hf, handle_of_unresolved, fun _ h => handle_of_resolved h,
    fun _ _ h => cacheAt_resolve_other s h, resolve_eq s f k⟩

theorem exec_select {s : State} {f : Fmt} (hf : f.toNat < 50) (k : Key) :
    selectCommand s f k = .next { s.resolve f k with
      regs := { s.regs with bfxOut := .value (BitVec.zeroExtend 64 (s.handle f k)) } } := by
  have hsome : registry f ≠ none := fun h => absurd ((registry_eq_none_iff f).1 h) (by omega)
  obtain ⟨r, hr⟩ := Option.ne_none_iff_exists'.1 hsome
  simp [selectCommand, hr, State.putReg, ArgRegs.put]

/-- Settles O56: SELECT names a format, so it resolves the entry and puts its handle (`exec_select`). -/
theorem selectResult : Obligations.SelectResult := fun _ f _ hf =>
  ⟨exec_select hf .unpack, exec_select hf _, fun hinv k => hinv.handle f k⟩

end Sys2Proof.Machine
end

section
/-! SUPPORT. The laws of the bitfield primitives (40_bitfield.md R150 to R155) and the commands EXTRACT and ALIGN. -/

namespace Sys2Proof.Machine

/-! ### The primitives as arithmetic -/

theorem alignField_eq (v sh dp : Nat) : alignField v sh dp = v % 2 ^ dp * 2 ^ sh := by
  unfold alignField mask
  rw [Nat.and_two_pow_sub_one_eq_mod, Nat.shiftLeft_eq]

theorem testBit_extractField (w sh dp t : Nat) :
    (extractField w sh dp).testBit t = (decide (t < dp) && w.testBit (t + sh)) := by
  rw [extractField_eq, testBit_field]

/-- Numbers that share no bit have their sum as OR. -/
theorem or_eq_add_of_and_eq_zero (a b : Nat) (h : a &&& b = 0) : a ||| b = a + b := by
  induction a using Nat.strongRecOn generalizing b with
  | ind a ih =>
    by_cases ha : a = 0
    · simp [ha]
    have hdiv : a / 2 ||| b / 2 = a / 2 + b / 2 :=
      ih (a / 2) (by omega) (b / 2) (by rw [← Nat.and_div_two, h])
    have hand : a % 2 &&& b % 2 = 0 := by
      have := Nat.and_mod_two_pow (a := a) (b := b) (n := 1)
      rw [h] at this
      simpa using this.symm
    have hmod : (a ||| b) % 2 = a % 2 + b % 2 := by
      have := Nat.or_mod_two_pow (a := a) (b := b) (n := 1)
      simp only [Nat.pow_one] at this
      rw [this]
      rcases Nat.mod_two_eq_zero_or_one a with h1 | h1
      · rw [h1, Nat.zero_or, Nat.zero_add]
      · have h2 : b % 2 = 0 := by
          rcases Nat.mod_two_eq_zero_or_one b with h2 | h2
          · exact h2
          · rw [h1, h2] at hand; cases hand
        rw [h1, h2, Nat.or_zero]
    have hor : (a ||| b) / 2 = a / 2 + b / 2 := Nat.or_div_two.trans hdiv
    omega

/-- Numbers of which no two share a bit have their sum as OR. -/
theorem foldl_or_eq_sum {l : List Nat} (hl : l.Pairwise fun x y => x &&& y = 0) (a : Nat)
    (ha : ∀ x ∈ l, a &&& x = 0) : l.foldl (fun acc x => acc ||| x) a = a + l.sum := by
  induction l generalizing a with
  | nil => rfl
  | cons x rest ih =>
    obtain ⟨hx, hrest⟩ := List.pairwise_cons.1 hl
    have hax := ha x List.mem_cons_self
    have hacc : ∀ y ∈ rest, (a ||| x) &&& y = 0 := fun y hy => by
      rw [Nat.and_or_distrib_right, ha y (List.mem_cons_of_mem x hy), hx y hy]
      rfl
    rw [List.foldl_cons, ih hrest _ hacc, or_eq_add_of_and_eq_zero a x hax, List.sum_cons, Nat.add_assoc]

theorem testBit_foldl_or {α : Type} (f : α → Nat) (l : List α) (a j : Nat) :
    (l.foldl (fun acc x => acc ||| f x) a).testBit j = (a.testBit j || l.any fun x => (f x).testBit j) := by
  induction l generalizing a with
  | nil => simp
  | cons x rest ih => simp [ih, Bool.or_assoc]

/-! ### Slots of an accepted descriptor (40_bitfield.md R154, R155) -/

/-- The aligned value of a slot; 0 for padding (40_bitfield.md R151). -/
def slotPart (v : Nat) : Slot → Nat
  | .pad => 0
  | .field _ sh dp => alignField v sh dp

/-- The field a slot holds of a word, in its place; 0 for padding (40_bitfield.md R155 (c)). -/
def slotOfWord (w : Nat) : Slot → Nat
  | .pad => 0
  | .field _ sh dp => alignField (extractField w sh dp) sh dp

theorem testBit_slotOfWord (w j : Nat) (s : Slot) : (slotOfWord w s).testBit j = true ↔
    w.testBit j = true ∧ ∃ c sh dp, s = .field c sh dp ∧ sh ≤ j ∧ j < sh + dp := by
  cases s with
  | pad => simp [slotOfWord]
  | field c sh dp =>
    rw [slotOfWord, testBit_alignField, testBit_extractField]
    constructor
    · rintro ⟨h1, h2, h3⟩
      rw [Nat.sub_add_cancel h1] at h3
      exact ⟨(Bool.and_eq_true_iff.1 h3).2, c, sh, dp, rfl, h1, h2⟩
    · rintro ⟨hw, c', sh', dp', heq, h1, h2⟩
      cases heq
      refine ⟨h1, h2, ?_⟩
      rw [Nat.sub_add_cancel h1, hw, Bool.and_true, decide_eq_true_eq]
      omega

section
variable {d : Layout} {i j : Fin 4} {c c' : Channel} {sh dp sh' dp' : Nat} (hok : d.ok = true)
  (hi : d.slots[i] = .field c sh dp) (hj : d.slots[j] = .field c' sh' dp') (hij : i ≠ j)
include hok hi hj hij

/-- Two slots of an accepted descriptor share no bit (10_state.md R30). -/
theorem slots_disjoint (t : Nat) : ¬ ((sh ≤ t ∧ t < sh + dp) ∧ sh' ≤ t ∧ t < sh' + dp') := fun ⟨h1, h2⟩ =>
  hij (Fin.ext (slot_unique hok i.isLt j.isLt hi hj h1 h2))

theorem alignField_and_eq_zero (v v' : Nat) : alignField v sh dp &&& alignField v' sh' dp' = 0 := by
  refine Nat.zero_of_testBit_eq_false fun t => ?_
  rw [Nat.testBit_and, Bool.eq_false_iff]
  intro h
  obtain ⟨h1, h2⟩ := Bool.and_eq_true_iff.1 h
  obtain ⟨hlo, hhi, _⟩ := (testBit_alignField v sh dp t).1 h1
  obtain ⟨hlo', hhi', _⟩ := (testBit_alignField v' sh' dp' t).1 h2
  exact slots_disjoint hok hi hj hij t ⟨⟨hlo, hhi⟩, hlo', hhi'⟩

theorem extractField_alignField_other (v : Nat) : extractField (alignField v sh dp) sh' dp' = 0 := by
  refine Nat.zero_of_testBit_eq_false fun t => ?_
  rw [testBit_extractField, Bool.eq_false_iff]
  intro h
  obtain ⟨ht, hbit⟩ := Bool.and_eq_true_iff.1 h
  obtain ⟨hlo, hhi, _⟩ := (testBit_alignField v sh dp _).1 hbit
  exact slots_disjoint hok hi hj hij (t + sh') ⟨⟨hlo, hhi⟩, by omega, by have := of_decide_eq_true ht; omega⟩

end

theorem extractField_alignField (v sh dp : Nat) : extractField (alignField v sh dp) sh dp = v % 2 ^ dp := by
  rw [extractField_eq, alignField_eq, Nat.mul_div_cancel _ (Nat.two_pow_pos sh), Nat.mod_mod]

theorem slotPart_and_eq_zero {d : Layout} (hok : d.ok = true) {i j : Fin 4} (hij : i ≠ j) (v v' : Nat) :
    slotPart v d.slots[i] &&& slotPart v' d.slots[j] = 0 := by
  cases hi : d.slots[i] with
  | pad => simp [slotPart]
  | field c sh dp =>
    cases hj : d.slots[j] with
    | pad => simp [slotPart]
    | field c' sh' dp' => exact alignField_and_eq_zero hok hi hj hij v v'

/-- A word with no bit outside the slots is the OR of its fields (40_bitfield.md R155 (c)). -/
theorem foldl_slotOfWord {d : Layout} {w : Nat} (hw : ∀ b : Nat, w.testBit b = true →
      ∃ (i : Fin 4) (c : Channel) (sh dp : Nat), d.slots[i] = .field c sh dp ∧ sh ≤ b ∧ b < sh + dp) :
    d.slots.toList.foldl (fun acc s => acc ||| slotOfWord w s) 0 = w := by
  refine Nat.eq_of_testBit_eq fun j => ?_
  rw [testBit_foldl_or, Nat.zero_testBit, Bool.false_or, Bool.eq_iff_iff, List.any_eq_true]
  constructor
  · rintro ⟨s, _, hs⟩
    exact ((testBit_slotOfWord w j s).1 hs).1
  · intro hbit
    obtain ⟨i, c, sh, dp, hi, h⟩ := hw j hbit
    exact ⟨d.slots[i], Vector.mem_toList_iff.2 (Vector.getElem_mem i.isLt),
      (testBit_slotOfWord w j _).2 ⟨hbit, c, sh, dp, hi, h⟩⟩

/-- Settles O37: slots share no bit (`slots_disjoint`), so another slot extracts 0, and every bit of a word is a bit of
the one slot it lies in. -/
theorem bitfieldLaws : Obligations.BitfieldLaws := by
  intro d hok
  refine ⟨fun i c sh dp v hi => ⟨extractField_alignField v sh dp,
    fun j c' sh' dp' hj hij => extractField_alignField_other hok hi hj hij v⟩, fun w hw => ?_⟩
  refine Eq.trans ?_ (foldl_slotOfWord hw)
  congr 1
  funext acc s
  cases s with
  | pad => simp [slotOfWord]
  | field c sh dp => rfl

/-- Settles O38: no two slots' parts share a bit (`slotPart_and_eq_zero`), so their OR is their sum. -/
theorem contributionsAdd : Obligations.ContributionsAdd := by
  intro d hok
  refine ⟨fun i j c c' sh dp sh' dp' v v' hij hi hj => alignField_and_eq_zero hok hi hj hij v v', fun v => ?_⟩
  have hpair : ((List.finRange 4).map fun i => slotPart (v i) d.slots[i]).Pairwise fun x y => x &&& y = 0 :=
    List.pairwise_map.2 ((List.nodup_finRange 4).pairwise_of_forall_ne fun i _ j _ hij =>
      slotPart_and_eq_zero hok hij (v i) (v j))
  have hsum := foldl_or_eq_sum hpair 0 fun x _ => Nat.zero_and x
  rw [List.foldl_map, Nat.zero_add] at hsum
  exact hsum

/-! ### EXTRACT and ALIGN (40_bitfield.md R152, R153) -/

/-- EXTRACT and ALIGN on a field slot with BFX_IN written. -/
theorem run_bfxTask {s : State} {f : Fmt} {slot : BitVec 2} {g : Layout → Nat → Nat → Nat → Nat} {d : Layout}
    {c : Channel} {sh dp : Nat} {w : Word} (hcat : catalogOk s.cfg.catalog = true)
    (hd : s.cfg.catalog[f.toNat]? = some (.generic d)) (hs : d.slots[slot.toNat] = .field c sh dp)
    (hw : s.regs.get .bfxIn = .value w) :
    (bfxTask s f slot g).run f s = .next (s.putReg .bfxOut (BitVec.ofNat 64 (g d sh dp w.toNat))) := by
  rw [bfxTask_eq_read hcat hd hs, (arg_ok_iff s .bfxIn w).2 hw]
  rfl

/-- Settles O39: `run_bfxTask` with the extracted field. -/
theorem extractResult : Obligations.ExtractResult := by
  intro s fmt slot d c sh dp w hcat hd hs hw
  rw [exec_eq_run, task, ← extractField_eq]
  exact run_bfxTask hcat hd hs hw

/-- A packed unit has at most 64 bits (10_state.md R29). -/
theorem pkw_le {d : Layout} (h : d.ok = true) : d.pkw ≤ 64 := by
  simp only [Layout.ok, Bool.and_eq_true] at h
  obtain ⟨⟨⟨⟨⟨⟨⟨⟨_, hpkw⟩, _⟩, _⟩, _⟩, _⟩, _⟩, _⟩, _⟩ := h
  simp only [List.contains_eq_mem, List.mem_cons, List.not_mem_nil, or_false, decide_eq_true_eq] at hpkw
  omega

/-- Settles O40: `run_bfxTask` with the aligned value, which ends below the slot's top bit (`slot_fits`). -/
theorem alignResult : Obligations.AlignResult := by
  intro s fmt slot d c sh dp w hcat hd hs hw
  have hok : d.ok = true := descriptor_ok hcat hd
  obtain ⟨_, _, hfits⟩ := slot_fits hok slot.isLt hs
  have hbound : w.toNat % 2 ^ dp * 2 ^ sh < 2 ^ d.pkw := calc
    w.toNat % 2 ^ dp * 2 ^ sh < 2 ^ dp * 2 ^ sh :=
      Nat.mul_lt_mul_of_pos_right (Nat.mod_lt _ (Nat.two_pow_pos dp)) (Nat.two_pow_pos sh)
    _ = 2 ^ (sh + dp) := by rw [Nat.add_comm, Nat.pow_add]
    _ ≤ 2 ^ d.pkw := Nat.pow_le_pow_right (by omega) hfits
  refine ⟨hbound, hbound.trans_le (Nat.pow_le_pow_right (by omega) (pkw_le hok)), ?_⟩
  rw [exec_eq_run, task, ← alignField_eq]
  exact run_bfxTask hcat hd hs hw

/-- Ids 34 and 35 have a v210 descriptor in an accepted catalog (30_encoding.md R105). -/
theorem v210_descriptor {s : State} (hcat : catalogOk s.cfg.catalog = true) {f : Fmt} (hf : f = 34 ∨ f = 35) :
    ∃ r tag, registry f = some r ∧ s.cfg.catalog[f.toNat]? = some (.v210 tag) := by
  have hr : registry f = some ⟨.v210, false, 0, 0⟩ := by rcases hf with rfl | rfl <;> rfl
  obtain ⟨desc, hd, _, hcls⟩ := catalog_get hcat hr
  obtain ⟨tag, rfl⟩ := v210_of_cls hcls.symm
  exact ⟨_, tag, hr, hd⟩

theorem run_bfxTask_v210 {s : State} {f : Fmt} {slot : BitVec 2} {g : Layout → Nat → Nat → Nat → Nat}
    (hcat : catalogOk s.cfg.catalog = true) (hf : f = 34 ∨ f = 35) :
    (bfxTask s f slot g).run f s = .next { s with status := .faulted .formatOp } := by
  obtain ⟨r, tag, hr, hd⟩ := v210_descriptor hcat hf
  rw [bfxTask, formatTask_eq hr hd]
  rfl

theorem run_bfxTask_pad {s : State} {f : Fmt} {slot : BitVec 2} {g : Layout → Nat → Nat → Nat → Nat} {d : Layout}
    (hcat : catalogOk s.cfg.catalog = true) (hd : s.cfg.catalog[f.toNat]? = some (.generic d))
    (hs : d.slots[slot.toNat] = .pad) :
    (bfxTask s f slot g).run f s = .next { s with status := .faulted .padSlot } := by
  obtain ⟨r, hr, _⟩ := registry_of_get hcat hd
  simp only [bfxTask, formatTask_eq hr hd, hs]
  rfl

/-- Settles O41: both faults come before the read of BFX_IN, whatever the primitive. -/
theorem bitfieldFaults : Obligations.BitfieldFaults := by
  intro s i fmt slot hcat hi
  rw [exec_eq_run]
  rcases hi with rfl | rfl <;> rw [task]
  · exact ⟨run_bfxTask_v210 hcat, fun d hd hs => run_bfxTask_pad hcat hd hs⟩
  · exact ⟨run_bfxTask_v210 hcat, fun d hd hs => run_bfxTask_pad hcat hd hs⟩

end Sys2Proof.Machine
end

section
/-! SUPPORT. Byte orders, overlap and the footprints of the line commands, as sums and byte ranges (00_scope.md R10;
20_memory.md R69 to R73). -/

namespace Sys2Proof.Machine

/-! ### Byte order (00_scope.md R10) -/

/-- A sum of byte values with the weights `e`. -/
theorem sum_range_cons (b : Byte) (rest : List Byte) (e : Nat → Nat) :
    ((List.range (b :: rest).length).map fun i => ((b :: rest).getD i 0).toNat * 2 ^ e i).sum =
      b.toNat * 2 ^ e 0 + ((List.range rest.length).map fun i => (rest.getD i 0).toNat * 2 ^ e (i + 1)).sum := by
  rw [List.length_cons, List.range_succ_eq_map, List.map_cons, List.sum_cons, List.map_map]
  rfl

theorem natOfLittle_eq_sum (bs : List Byte) :
    natOfLittle bs = ((List.range bs.length).map fun i => (bs.getD i 0).toNat * 2 ^ (8 * i)).sum := by
  induction bs with
  | nil => rfl
  | cons b rest ih =>
    have hweight : ∀ i, (rest.getD i 0).toNat * 2 ^ (8 * (i + 1)) = 256 * ((rest.getD i 0).toNat * 2 ^ (8 * i)) :=
      fun i => by rw [Nat.mul_add, Nat.pow_add]; ring
    rw [sum_range_cons b rest fun i => 8 * i]
    simp only [hweight]
    rw [List.sum_map_mul_left, ← ih, natOfLittle]
    ring

theorem natOfLittle_append (l l' : List Byte) :
    natOfLittle (l ++ l') = natOfLittle l + 256 ^ l.length * natOfLittle l' := by
  induction l with
  | nil => simp [natOfLittle]
  | cons b rest ih =>
    rw [List.cons_append, natOfLittle, natOfLittle, ih, List.length_cons, Nat.pow_succ]
    ring

theorem natOfBig_eq_sum (bs : List Byte) : natOfBytes .big bs =
    ((List.range bs.length).map fun i => (bs.getD i 0).toNat * 2 ^ (8 * (bs.length - 1 - i))).sum := by
  induction bs with
  | nil => rfl
  | cons b rest ih =>
    have hweight : ∀ i, rest.length + 1 - 1 - (i + 1) = rest.length - 1 - i := fun i => by omega
    rw [sum_range_cons b rest fun i => 8 * ((b :: rest).length - 1 - i)]
    simp only [List.length_cons, hweight]
    rw [← ih, Nat.add_sub_cancel, Nat.sub_zero, natOfBytes, natOfBytes, List.reverse_cons,
      natOfLittle_append, List.length_reverse, natOfLittle, natOfLittle, Nat.pow_mul]
    ring

/-- Settles O33: the weights go up with the address in little order and down in big order, and StoreInt's bytes read
back modulo 256^n. -/
theorem byteOrders : Obligations.ByteOrders := by
  refine ⟨fun bs => ⟨natOfLittle_eq_sum bs, natOfBig_eq_sum bs⟩, fun o n v hv => ⟨length_bytesOfNat o n v, ?_⟩⟩
  rw [Nat.pow_mul] at hv
  rw [natOfBytes_bytesOfNat, Nat.mod_eq_of_lt hv]

/-! ### Overlap (20_memory.md R73) -/

/-- Regions that are not apart share the greater of their bases. -/
theorem apart_iff (r q : Region) : r.apart q = true ↔ ∀ a : Int, ¬ (r.has a = true ∧ q.has a = true) := by
  constructor
  · exact fun h a ⟨hr, hq⟩ => apart_not_both h hr hq
  · intro h
    have hbase := h (max r.base q.base)
    simp only [has_iff] at hbase
    simp only [Region.apart, Bool.or_eq_true, beq_iff_eq, decide_eq_true_eq]
    omega

theorem allApart_iff_pairwise (l : List Region) : allApart l = true ↔ l.Pairwise fun r q => r.apart q = true := by
  induction l with
  | nil => simp [allApart]
  | cons r rest ih => simp [allApart, List.pairwise_cons, ih]

theorem allApart_iff (l : List Region) : allApart l = true ↔
    ∀ (i j : Nat) (hi : i < l.length) (hj : j < l.length), i ≠ j → (l[i]).apart l[j] = true := by
  rw [allApart_iff_pairwise, List.pairwise_iff_getElem]
  constructor
  · intro h i j hi hj hij
    rcases Nat.lt_or_gt_of_ne hij with hlt | hgt
    · exact h i j hi hj hlt
    · exact apart_symm (h j i hj hi hgt)
  · exact fun h i j hi hj hlt => h i j hi hj (Nat.ne_of_lt hlt)

/-- Settles O34: `apart` is the absence of a shared byte (`apart_iff`), and `allApart` is `apart` of any two places. -/
theorem overlapIsASharedByte : Obligations.OverlapIsASharedByte := by
  intro f
  rw [noOverlap_iff, allApart_iff, and_comm]
  simp only [apart_iff]

/-! ### The footprints of the line commands (20_memory.md R69 to R71) -/

theorem any_has_singleton (r : Region) (a : Int) :
    ([r].any fun q => q.has a) = true ↔ r.base ≤ a ∧ a < r.base + r.len := by
  rw [List.any_cons, List.any_nil, Bool.or_false, has_iff]

/-- The units before a range and those of the range are the units before its end. -/
theorem units_add {d : Layout} {left right : Nat} (hppp : 0 < d.ppp) (h : d.admits left right = true) :
    left / d.ppp + d.units left right = right / d.ppp := by
  obtain ⟨hle, hleft, hright⟩ := (admits_iff d left right).1 h
  obtain ⟨a, rfl⟩ := Nat.dvd_of_mod_eq_zero hleft
  obtain ⟨b, rfl⟩ := Nat.dvd_of_mod_eq_zero hright
  have hab : a ≤ b := Nat.le_of_mul_le_mul_left hle hppp
  rw [Layout.units, ← Nat.mul_sub, Nat.mul_div_cancel_left _ hppp, Nat.mul_div_cancel_left _ hppp,
    Nat.mul_div_cancel_left _ hppp]
  omega

theorem packedRegion_any {d : Layout} {packed a : Int} {left right : Nat} (hppp : 0 < d.ppp)
    (h : d.admits left right = true) : ([d.packedRegion packed left right].any fun r => r.has a) = true ↔
      packed + (left / d.ppp * d.pkb : Nat) ≤ a ∧ a < packed + (right / d.ppp * d.pkb : Nat) := by
  rw [any_has_singleton, ← units_add hppp h, Nat.add_mul, Nat.cast_add, ← add_assoc]
  rfl

theorem elem_eq (d : Layout) (c : Channel) (x : Nat) :
    d.elem c x = if (c = .u ∨ c = .v) ∧ 0 < d.ss then x / 2 ^ d.ss else x := by
  simp only [Layout.elem, sub_iff, Nat.shiftRight_eq_div_pow]

theorem active_iff (d : Layout) (p : Planes) (c : Channel) : d.active p c = true ↔ 0 < d.count c ∧ p.get c ≠ 0 := by
  simp [Layout.active, Layout.used, Nat.pos_iff_ne_zero]

theorem planeRegions_any {d : Layout} {p : Planes} {a : Int} {left right : Nat} :
    ((d.planeRegions p left right).any fun r => r.has a) = true ↔ ∃ c : Channel, 0 < d.count c ∧ p.get c ≠ 0 ∧
      p.get c + (d.elem c left * d.eb : Nat) ≤ a ∧
        a < p.get c + ((d.elem c left + (right - left) / d.ppp * d.count c) * d.eb : Nat) := by
  rw [Layout.planeRegions, List.any_map, List.any_eq_true]
  refine exists_congr fun c => ?_
  rw [List.mem_filter, active_iff, Function.comp_apply, has_iff, Layout.planeRegion, cursors_get, Nat.add_mul,
    Nat.cast_add, ← add_assoc]
  exact ⟨fun ⟨⟨_, hc, hn⟩, h⟩ => ⟨hc, hn, h⟩, fun ⟨hc, hn, h⟩ => ⟨⟨mem_channel_all c, hc, hn⟩, h⟩⟩

theorem v210PlaneRegions_any {p : Planes} {a : Int} {left right : Nat} (h : v210Admits left right = true) :
    ((v210PlaneRegions p left right).any fun r => r.has a) = true ↔
      (p.y + (2 * left : Nat) ≤ a ∧ a < p.y + (2 * right : Nat)) ∨
      (p.u + (2 * (left / 2) : Nat) ≤ a ∧ a < p.u + (2 * (right / 2) : Nat)) ∨
      (p.v + (2 * (left / 2) : Nat) ≤ a ∧ a < p.v + (2 * (right / 2) : Nat)) := by
  have hrange := (v210Admits_iff left right).1 h
  simp only [v210PlaneRegions, v210Cursors, v210Groups, List.any_cons, List.any_nil, Bool.or_false, Bool.or_eq_true,
    has_iff]
  refine or_congr ?_ (or_congr ?_ ?_) <;> omega

/-- Settles O35: the units of an admitted range end where its end's units begin (`units_add`); pack's footprint is
unpack's with reads and writes exchanged. -/
theorem lineFootprints : Obligations.LineFootprints := by
  refine ⟨fun d o a hok had => ?_, fun o a had => ⟨?_, v210PlaneRegions_any had, rfl, rfl⟩⟩
  · obtain ⟨_, _, hppp, _⟩ := layout_widths hok
    refine ⟨packedRegion_any hppp had, ?_, rfl, rfl⟩
    simp only [← elem_eq]
    exact planeRegions_any
  · have hrange := (v210Admits_iff o.left o.right).1 had
    rw [v210UnpackFootprint, any_has_singleton]
    simp only [v210PackedRegion, v210PackedCursor, v210Groups]
    omega

end Sys2Proof.Machine
end

section
/-! SUPPORT. How a line or a frame command ends once its registers hold operands that fit: the checks before the first
access, the access faults, and the result (41_scanline.md, 42_v210.md, 44_frame.md; 60_exceptions.md R272). -/

namespace Sys2Proof.Machine

/-! ### The endings of a transfer -/

section
variable {x : Transfer} {f : Fmt} {s : State}

theorem Transfer.exec_of_checks {r : FaultReason} (hc : x.checks = .error r) :
    x.exec f s = .next { s.resolve f x.key with status := .faulted r } :=
  runTransfer_of_checks hc

theorem Transfer.exec_of_overlap (hc : x.checks = .ok ()) (hno : x.footprint.noOverlap = false) :
    x.exec f s = .next { s.resolve f x.key with status := .faulted .overlap } :=
  runTransfer_of_overlap hc hno

theorem Transfer.exec_of_ok (hc : x.checks = .ok ()) (hno : x.footprint.noOverlap = true) {m : Memory}
    (hm : x.run s.mem = .ok m) : x.exec f s = .next { s.resolve f x.key with mem := m } :=
  runTransfer_of_ok hc hno (by rw [resolve_mem]; exact hm)

variable {desc : Descriptor} (hsound : x.Sound desc s.bus) (hw : Memory.wf s.mem = true) (hc : x.checks = .ok ())
  (hno : x.footprint.noOverlap = true)
include hsound hw hc hno

/-- The first access that does not pass its checks decides the fault (60_exceptions.md R272 step 8). -/
theorem Transfer.exec_of_access {r : FaultReason} (hff : s.bus.firstFault x.accesses = some r) :
    ∃ m, x.exec f s = .next { s.resolve f x.key with status := .faulted r, mem := m, freeIx := s.freeIx + 1 } ∧
      OutsideKept x.footprint s.mem m := by
  have hrun : x.run s.mem = .error r := by
    have := hsound.runs hc s.mem
    rwa [Runs, hff] at this
  refine ⟨forgetRegions s.bus s.freeIx (x.footprint.reads ++ x.footprint.writes) s.mem, ?_,
    forgetRegions_outside s.bus s.freeIx x.footprint s.mem hw⟩
  have := runTransfer_of_error (s := s.resolve f x.key) hc hno (by rw [resolve_mem]; exact hrun)
  rwa [resolve_bus, resolve_freeIx, resolve_mem] at this

theorem Transfer.exec_of_passes (hff : s.bus.firstFault x.accesses = none) :
    ∃ m, x.exec f s = .next { s.resolve f x.key with mem := m } ∧ UnwrittenBytesKept x.footprint s.mem m := by
  have hruns := hsound.runs hc s.mem
  rw [Runs, hff] at hruns
  obtain ⟨m, hm⟩ := hruns
  exact ⟨m, Transfer.exec_of_ok hc hno hm, (hsound.wrote hc s.mem m hm).unwritten hw fun _ hx => hx⟩

end

/-! ### The transfer of a command whose registers are held (10_state.md R22, R39) -/

section
variable {s : State} {fmt : Fmt} {fill skip one : Bool}

section
variable {w : LineWords} (hcat : catalogOk s.cfg.catalog = true) (hfit : w.fit s.cfg.addrW = true)
include hcat hfit

theorem exec_unpackLine_held {d : Layout} (hd : s.cfg.catalog[fmt.toNat]? = some (.generic d))
    (hw : unpackLineHeld s w = true) :
    exec (.unpackLine fmt) s = (unpackLineTransfer (.generic d) s.bus w.operands).exec fmt s :=
  exec_unpackLine_eq hcat hd hw hfit

theorem exec_packLine_held {d : Layout} (hd : s.cfg.catalog[fmt.toNat]? = some (.generic d))
    (hw : packLineHeld s w = true) :
    exec (.packLine fmt fill) s = (packLineTransfer (.generic d) s.bus fill w.operands).exec fmt s :=
  exec_packLine_eq hcat hd hw hfit

theorem exec_unpackLineV210_held {tag : ByteOrder} (hd : s.cfg.catalog[fmt.toNat]? = some (.v210 tag))
    (hw : unpackLineHeld s w = true) :
    exec (.unpackLineV210 fmt) s = (unpackLineTransfer (.v210 tag) s.bus w.operands).exec fmt s :=
  exec_unpackLineV210_eq hcat hd hw hfit

theorem exec_packLineV210_held {tag : ByteOrder} (hd : s.cfg.catalog[fmt.toNat]? = some (.v210 tag))
    (hw : packLineHeld s w = true) :
    exec (.packLineV210 fmt fill) s = (packLineTransfer (.v210 tag) s.bus fill w.operands).exec fmt s :=
  exec_packLineV210_eq hcat hd hw hfit

end

section
variable {w : FrameWords} {r : RegistryEntry} {desc : Descriptor} (hr : registry fmt = some r)
  (hd : s.cfg.catalog[fmt.toNat]? = some desc) (hw : frameHeld s w = true) (hfit : w.fit s.cfg.addrW = true)
include hr hd hw hfit

theorem exec_unpackFrame_held : exec (.unpackFrame fmt skip one) s =
    (unpackFrameTransfer desc s.bus (unpackPlan r skip w.operands)).exec fmt s :=
  exec_unpackFrame_eq hr hd hw hfit

theorem exec_packFrame_held : exec (.packFrame fmt skip fill) s =
    (packFrameTransfer desc s.bus fill (packPlan r skip w.operands)).exec fmt s :=
  exec_packFrame_eq hr hd hw hfit

end

end

/-! ### The checks of a row and of a frame -/

theorem rowChecks_pass {desc : Descriptor} {o : LineOperands} (had : desc.admits o.left o.right = true)
    (hp : desc.pointersOk o.packed o.planes = true) : rowChecks desc o = .ok () := by
  rw [rowChecks_eq, if_pos had, if_pos hp]

theorem rowChecks_null {desc : Descriptor} {o : LineOperands} (had : desc.admits o.left o.right = true)
    (hp : ¬ desc.pointersOk o.packed o.planes = true) : rowChecks desc o = .error .nullPtr := by
  rw [rowChecks_eq, if_pos had, if_neg hp]

theorem pointersOk_iff (d : Layout) (packed : Int) (p : Planes) : d.pointersOk packed p = true ↔
    packed ≠ 0 ∧ ∀ c ∈ [Channel.y, .u, .v], 0 < d.count c → p.get c ≠ 0 := by
  simp only [Layout.pointersOk, Layout.needed, Layout.used, Bool.and_eq_true, bne_iff_ne, List.all_eq_true,
    List.mem_filter, and_imp, Nat.pos_iff_ne_zero]

theorem v210PointersOk_iff (packed : Int) (p : Planes) :
    v210PointersOk packed p = true ↔ packed ≠ 0 ∧ p.y ≠ 0 ∧ p.u ≠ 0 ∧ p.v ≠ 0 := by
  simp only [v210PointersOk, Bool.and_eq_true, bne_iff_ne, and_assoc]

/-- A pointer register is null as a word exactly when it is null as an address. -/
theorem word_cast_eq_zero (w : Word) : ((w.toNat : Nat) : Int) = 0 ↔ w = 0 := by
  rw [Int.natCast_eq_zero]
  exact ⟨fun h => BitVec.eq_of_toNat_eq h, fun h => by rw [h]; rfl⟩

theorem v210PointersOk_words (w : LineWords) : v210PointersOk w.operands.packed w.operands.planes = true ↔
    w.packed ≠ 0 ∧ w.y ≠ 0 ∧ w.u ≠ 0 ∧ w.v ≠ 0 := by
  simp only [v210PointersOk_iff, LineWords.operands, ne_eq, word_cast_eq_zero]

theorem not_pointersOk_of_null {d : Layout} {w : LineWords}
    (h : w.packed = 0 ∨ (0 < d.count .y ∧ w.y = 0) ∨ (0 < d.count .u ∧ w.u = 0) ∨ (0 < d.count .v ∧ w.v = 0)) :
    ¬ d.pointersOk w.operands.packed w.operands.planes = true := by
  rw [pointersOk_iff]
  rintro ⟨hpacked, hplanes⟩
  have hget : ∀ c ∈ [Channel.y, .u, .v], 0 < d.count c → w.operands.planes.get c = 0 → False :=
    fun c hc hu h0 => hplanes c hc hu h0
  rcases h with h | ⟨hu, h⟩ | ⟨hu, h⟩ | ⟨hu, h⟩
  · exact hpacked ((word_cast_eq_zero w.packed).2 h)
  · exact hget .y (by decide) hu ((word_cast_eq_zero w.y).2 h)
  · exact hget .u (by decide) hu ((word_cast_eq_zero w.u).2 h)
  · exact hget .v (by decide) hu ((word_cast_eq_zero w.v).2 h)

/-- Settles O45: a null pointer fails the row's checks (`rowChecks_null`), which end the command before its accesses. -/
theorem nullPointers : Obligations.NullPointers := by
  intro s fmt fill w hcat hfit
  refine ⟨fun d hd had hnull => ?_, fun tag hd had hnull => ?_⟩
  · have hc : rowChecks (.generic d) w.operands = .error .nullPtr := rowChecks_null had (not_pointersOk_of_null hnull)
    exact ⟨fun hw => (exec_unpackLine_held hcat hfit hd hw).trans (Transfer.exec_of_checks hc),
      fun hw => (exec_packLine_held hcat hfit hd hw).trans (Transfer.exec_of_checks hc)⟩
  · have hp : ¬ v210PointersOk w.operands.packed w.operands.planes = true := by
      rw [v210PointersOk_words]
      tauto
    have hc : rowChecks (.v210 tag) w.operands = .error .nullPtr := rowChecks_null had hp
    exact ⟨fun hw => (exec_unpackLineV210_held hcat hfit hd hw).trans (Transfer.exec_of_checks hc),
      fun hw => (exec_packLineV210_held hcat hfit hd hw).trans (Transfer.exec_of_checks hc)⟩

/-- Settles O46: once the row's checks pass, an overlap ends the command before its accesses. -/
theorem lineOverlap : Obligations.LineOverlap := by
  intro s fmt fill w hcat hfit
  refine ⟨fun d hd had hp => ?_, fun tag hd had hpacked hy hu hv => ?_⟩
  · have hc : rowChecks (.generic d) w.operands = .ok () := rowChecks_pass had hp
    exact ⟨fun hw hno => (exec_unpackLine_held hcat hfit hd hw).trans (Transfer.exec_of_overlap hc hno),
      fun hw hno => (exec_packLine_held hcat hfit hd hw).trans (Transfer.exec_of_overlap hc hno)⟩
  · have hc : rowChecks (.v210 tag) w.operands = .ok () :=
      rowChecks_pass had ((v210PointersOk_words w).2 ⟨hpacked, hy, hu, hv⟩)
    exact ⟨fun hw hno => (exec_unpackLineV210_held hcat hfit hd hw).trans (Transfer.exec_of_overlap hc hno),
      fun hw hno => (exec_packLineV210_held hcat hfit hd hw).trans (Transfer.exec_of_overlap hc hno)⟩

/-- The checks of a frame over an admitted width: a null pointer of a row or of the luma copy, or none. -/
theorem planChecks_of_admits {p : FramePlan} {desc : Descriptor} (had : desc.admits 0 p.width = true) :
    p.checks desc = if p.rowPointersOk desc && lumaPointersOk p.luma then .ok () else .error .nullPtr := by
  rw [FramePlan.checks, rangeCheck_eq, if_pos had]

theorem planChecks_null {p : FramePlan} {desc : Descriptor} (had : desc.admits 0 p.width = true)
    (h : (∃ y < max p.rows 1, desc.pointersOk (p.packedRow y) (p.planesRow y) = false) ∨
      lumaPointersOk p.luma = false) :
    p.checks desc = .error .nullPtr := by
  rw [planChecks_of_admits had, if_neg]
  intro hall
  obtain ⟨hrows, hluma⟩ := Bool.and_eq_true_iff.1 hall
  rcases h with ⟨y, hy, hnull⟩ | hnull
  · have := List.all_eq_true.1 hrows y (List.mem_range.2 hy)
    rw [hnull] at this
    cases this
  · rw [hnull] at hluma
    cases hluma

/-- A frame command whose registers are held is the transfer of its plan. -/
theorem exec_frame_held {s : State} {fmt : Fmt} {skip fill : Bool} {r : RegistryEntry} {desc : Descriptor}
    {w : FrameWords} (hr : registry fmt = some r) (hd : s.cfg.catalog[fmt.toNat]? = some desc)
    (hw : frameHeld s w = true) (hfit : w.fit s.cfg.addrW = true) {i : Instr} {k : Key} {p : FramePlan} {f : Footprint}
    (h : i = .unpackFrame fmt skip fill ∧ k = .unpack ∧ p = unpackPlan r skip w.operands ∧ f = p.unpackFootprint desc ∨
      i = .packFrame fmt skip fill ∧ k = packKey fill ∧ p = packPlan r skip w.operands ∧ f = p.packFootprint desc) :
    p.width = w.width.toNat ∧ ∃ x : Transfer, exec i s = x.exec fmt s ∧ x.key = k ∧ x.checks = p.checks desc ∧
      x.footprint = f := by
  rcases h with ⟨rfl, rfl, rfl, rfl⟩ | ⟨rfl, rfl, rfl, rfl⟩
  · exact ⟨rfl, _, exec_unpackFrame_held hr hd hw hfit, rfl, rfl, rfl⟩
  · exact ⟨rfl, _, exec_packFrame_held hr hd hw hfit, rfl, rfl, rfl⟩

/-- Settles O60: the frame's checks are the range, then the null checks (`planChecks_null`), and the transfer looks at
overlap after them. -/
theorem frameChecks : Obligations.FrameChecks := by
  intro s fmt skip fill r desc w hcat hr hd hw hfit i k p f hi
  obtain ⟨hwidth, x, hexec, rfl, hchecks, rfl⟩ := exec_frame_held hr hd hw hfit hi
  rw [hexec, ← hwidth]
  refine ⟨fun had => ?_, fun had hnull => ?_, fun had hrows hluma hno => ?_⟩
  · have hrange := (planChecks_range_iff p desc).2 (by rw [had]; exact Bool.false_ne_true)
    exact Transfer.exec_of_checks (hchecks.trans hrange)
  · exact Transfer.exec_of_checks (hchecks.trans (planChecks_null had hnull))
  · exact Transfer.exec_of_overlap (hchecks.trans (planChecks_eq had hrows hluma)) hno

/-! ### Results of the line commands -/

section
variable {desc : Descriptor} {s : State} {o : LineOperands} {fmt : Fmt}

/-- A footprint that the launch memory covers makes each of its regions ready. -/
theorem descReady {f : Footprint} (hp : desc.pointersOk o.packed o.planes = true)
    (hready : f.ready s.bus = true)
    (hregions : ∀ r, r = desc.packedRegion o.packed o.left o.right ∨ r ∈ desc.planeRegions o.planes o.left o.right →
      r ∈ f.reads ∨ r ∈ f.writes)
    (hal : o.left < o.right → desc.alignedRow s.bus o.packed o.planes = true) :
    DescReady desc s.bus o.packed o.planes o.left o.right := by
  have hrdy : ∀ r, r ∈ f.reads ∨ r ∈ f.writes → s.bus.ready r = true := fun r hr =>
    hr.elim (((ready_iff f s.bus).1 hready).1 r) (((ready_iff f s.bus).1 hready).2 r)
  exact ⟨hp, hrdy _ (hregions _ (.inl rfl)), fun r hr => hrdy r (hregions r (.inr hr)), hal⟩

variable (hok : desc.ok = true) (hw : Memory.wf s.mem = true) (had : desc.admits o.left o.right = true)
  (hp : desc.pointersOk o.packed o.planes = true)
  (hal : o.left < o.right → desc.alignedRow s.bus o.packed o.planes = true)
include hok hw had hp hal

/-- UNPACK_LINE of either CLASS completes with the planes of the packed range (41_scanline.md R176, 42_v210.md R204). -/
theorem unpackLine_completes (hno : (unpackLineTransfer desc s.bus o).footprint.noOverlap = true)
    (hready : (unpackLineTransfer desc s.bus o).footprint.ready s.bus = true) :
    ∃ m, (unpackLineTransfer desc s.bus o).exec fmt s = .next { s.resolve fmt .unpack with mem := m } ∧
      desc.Unpacked s.cfg.hostOrder s.mem m o.packed o.planes o.left o.right ∧
      UnwrittenBytesKept (unpackLineTransfer desc s.bus o).footprint s.mem m := by
  have hdesc : DescReady desc s.bus o.packed o.planes o.left o.right :=
    descReady hp hready (fun r hr => hr.imp (fun h => List.mem_singleton.2 h) id) hal
  obtain ⟨hapart, hcross⟩ := (noOverlap_iff _).1 hno
  obtain ⟨m, hm⟩ := descUnpack_total hdesc s.mem
  exact ⟨m, Transfer.exec_of_ok (rowChecks_pass had hp) hno hm,
    descUnpack_value hok hw hp hapart (fun r hr => hcross r hr _ (List.mem_singleton.2 rfl)) hm,
    (descUnpack_wrote hp hm).unwritten hw fun _ hx => hx⟩

/-- PACK_LINE of either CLASS completes with the units of the planes (41_scanline.md R182, 42_v210.md R205). -/
theorem packLine_completes {fill : Bool} (hno : (packLineTransfer desc s.bus fill o).footprint.noOverlap = true)
    (hready : (packLineTransfer desc s.bus fill o).footprint.ready s.bus = true) :
    ∃ m, (packLineTransfer desc s.bus fill o).exec fmt s = .next { s.resolve fmt (packKey fill) with mem := m } ∧
      desc.Packed s.cfg.hostOrder fill s.mem m o.packed o.planes o.left o.right ∧
      UnwrittenBytesKept (packLineTransfer desc s.bus fill o).footprint s.mem m := by
  have hdesc : DescReady desc s.bus o.packed o.planes o.left o.right :=
    descReady hp hready (fun r hr => hr.symm.imp id fun h => List.mem_singleton.2 h) hal
  obtain ⟨_, hcross⟩ := (noOverlap_iff _).1 hno
  obtain ⟨m, hm⟩ := descPack_total hdesc fill s.mem
  exact ⟨m, Transfer.exec_of_ok (rowChecks_pass had hp) hno hm,
    descPack_value hok hw hp (fun r hr => hcross _ (List.mem_singleton.2 rfl) r hr) hm,
    (descPack_wrote hm).unwritten hw fun _ hx => hx⟩

end

/-- Settles O42: `unpackLine_completes` for a GENERIC descriptor. -/
theorem unpackLineResult : Obligations.UnpackLineResult := by
  intro s fmt d w hcat hd hwf hw hfit had hp hno hready hal
  rw [exec_unpackLine_held hcat hfit hd hw]
  exact unpackLine_completes (desc := .generic d) (descriptor_ok hcat hd) hwf had hp hal hno hready

/-- Settles O43: `packLine_completes` for a GENERIC descriptor. -/
theorem packLineResult : Obligations.PackLineResult := by
  intro s fmt fill d w hcat hd hwf hw hfit had hp hno hready hal
  rw [exec_packLine_held hcat hfit hd hw]
  exact packLine_completes (o := w.operands) (desc := .generic d) (descriptor_ok hcat hd) hwf had hp hal hno hready

/-- Settles O51: `unpackLine_completes` for a v210 descriptor. -/
theorem unpackLineV210Result : Obligations.UnpackLineV210Result := by
  intro s fmt tag w hcat hd hwf hw hfit had hpacked hy hu hv hno hready hal
  have hp := (v210PointersOk_words w).2 ⟨hpacked, hy, hu, hv⟩
  rw [exec_unpackLineV210_held hcat hfit hd hw]
  exact unpackLine_completes (desc := .v210 tag) rfl hwf had hp hal hno hready

/-- Settles O52: `packLine_completes` for a v210 descriptor; the fill policy is in the key alone. -/
theorem packLineV210Result : Obligations.PackLineV210Result := by
  intro s fmt fill tag w hcat hd hwf hw hfit had hpacked hy hu hv hno hready hal
  have hp := (v210PointersOk_words w).2 ⟨hpacked, hy, hu, hv⟩
  rw [exec_packLineV210_held hcat hfit hd hw]
  exact packLine_completes (o := w.operands) (desc := .v210 tag) rfl hwf had hp hal hno hready

/-! ### Results of the frame commands -/

/-- Settles O58: the plan's checks pass, and its run copies the luma plane and unpacks every row
(`planUnpack_result`). -/
theorem unpackFrameResult : Obligations.UnpackFrameResult := by
  intro s fmt skip one r desc w hcat hr hd hwf hw hfit had p hp hluma hno hready hal
  have hc : p.checks desc = .ok () := planChecks_eq had hp hluma
  obtain ⟨m, hm, hresult⟩ := planUnpack_result (descriptor_ok hcat hd) hwf hc hno hready hal
  exact ⟨m, (exec_unpackFrame_held hr hd hw hfit).trans (Transfer.exec_of_ok hc hno hm), hresult⟩

/-- Settles O59: the plan's checks pass, and its run copies the luma plane and packs every row (`planPack_result`). -/
theorem packFrameResult : Obligations.PackFrameResult := by
  intro s fmt skip fill r desc w hcat hr hd hwf hw hfit had p hp hluma hno hready hal
  have hc : p.checks desc = .ok () := planChecks_eq had hp hluma
  obtain ⟨m, hm, hresult⟩ := planPack_result (descriptor_ok hcat hd) hwf hc hno hready hal
  exact ⟨m, (exec_packFrame_held hr hd hw hfit).trans (Transfer.exec_of_ok hc hno hm), hresult⟩

end Sys2Proof.Machine
end

section
/-! SUPPORT. The checks of an access, and the access faults of the memory commands (41_scanline.md R170;
20_memory.md R64, R67; 60_exceptions.md R271, R272). -/

namespace Sys2Proof.Machine

/-! ### One access (41_scanline.md R170) -/

section
variable (b : Bus) (a : Int) (n al : Nat)

theorem inSpace_iff_forall (hn : 0 < n) :
    b.inSpace a n = true ↔ ∀ x : Int, a ≤ x → x < a + n → 0 ≤ x ∧ x < 2 ^ b.addrW := by
  rw [inSpace_iff b a hn]
  constructor
  · exact fun ⟨h0, h1⟩ x hx hx' => ⟨by omega, by omega⟩
  · intro h
    have hfirst := h a (Int.le_refl a) (by omega)
    have hlast := h (a + n - 1) (by omega) (by omega)
    exact ⟨hfirst.1, by omega⟩

theorem alignedTo_iff : b.alignedTo a al = true ↔ ¬ (b.alignCheck = true ∧ ¬ (al : Int) ∣ a) := by
  rw [Bus.alignedTo, Bool.or_eq_true, Bool.not_eq_true', beq_iff_eq, ← Int.dvd_iff_emod_eq_zero]
  cases b.alignCheck <;> simp

variable {b a n al}

theorem check_of_not_inSpace (hs : ¬ b.inSpace a n = true) : b.check a n al = .error .addrWrap := by
  simp [Bus.check, hs]

theorem check_of_not_aligned (hs : b.inSpace a n = true) (hal : ¬ b.alignedTo a al = true) :
    b.check a n al = .error .misaligned := by
  simp [Bus.check, hs, hal]

theorem check_of_not_admitted (hs : b.inSpace a n = true) (hal : b.alignedTo a al = true)
    (had : ¬ admitsAll b.admitSet a n = true) : b.check a n al = .error .buffer := by
  simp [Bus.check, hs, hal, had]

end

/-! ### The access fault of a command -/

/-- A command whose footprint has no overlap ends by the first access of the list that does not pass, or completes. -/
def EndsByAccesses (s : State) (fmt : Fmt) (i : Instr) (k : Key) (f : Footprint) (l : List Access) : Prop :=
  f.noOverlap = true →
    match s.bus.firstFault l with
    | some r => ∃ m, exec i s = .next { s.resolve fmt k with status := .faulted r, mem := m, freeIx := s.freeIx + 1 } ∧
        OutsideKept f s.mem m
    | none => ∃ m, exec i s = .next { s.resolve fmt k with mem := m } ∧ UnwrittenBytesKept f s.mem m

theorem endsByAccesses {x : Transfer} {desc : Descriptor} {s : State} {fmt : Fmt} {i : Instr}
    (hsound : x.Sound desc s.bus) (hexec : exec i s = x.exec fmt s) (hw : Memory.wf s.mem = true)
    (hc : x.checks = .ok ()) : EndsByAccesses s fmt i x.key x.footprint x.accesses := by
  intro hno
  rw [hexec]
  cases hff : s.bus.firstFault x.accesses with
  | some r => exact Transfer.exec_of_access hsound hw hc hno hff
  | none => exact Transfer.exec_of_passes hsound hw hc hno hff

/-- Settles O36: the checks of an access are tried in order, and a command's accesses are those of its transfer
(`endsByAccesses`). -/
theorem accessFaults : Obligations.AccessFaults := by
  refine ⟨fun b a n al hn => ?_, fun s fmt fill skip one hcat hwf => ⟨fun w hfit => ⟨?_, ?_⟩, ?_⟩⟩
  · simp only [← inSpace_iff_forall b a n hn, ← admitsAll_iff]
    exact ⟨check_of_not_inSpace, fun hs hal => check_of_not_aligned hs fun h => (alignedTo_iff b a al).1 h hal,
      fun hs hal had => check_of_not_admitted hs ((alignedTo_iff b a al).2 hal) had,
      fun hs hal had => (check_ok_iff b a n al).2 ⟨hs, (alignedTo_iff b a al).2 hal, had⟩⟩
  · intro d hd had hp
    have hc : rowChecks (.generic d) w.operands = .ok () := rowChecks_pass had hp
    exact ⟨fun hw => endsByAccesses (unpackLineTransfer_sound (.generic d) s.bus w.operands)
        (exec_unpackLine_held hcat hfit hd hw) hwf hc,
      fun hw => endsByAccesses (packLineTransfer_sound (.generic d) s.bus fill w.operands)
        (exec_packLine_held hcat hfit hd hw) hwf hc⟩
  · intro tag hd had hp
    have hc : rowChecks (.v210 tag) w.operands = .ok () := rowChecks_pass had hp
    exact ⟨fun hw => endsByAccesses (unpackLineTransfer_sound (.v210 tag) s.bus w.operands)
        (exec_unpackLineV210_held hcat hfit hd hw) hwf hc,
      fun hw => endsByAccesses (packLineTransfer_sound (.v210 tag) s.bus fill w.operands)
        (exec_packLineV210_held hcat hfit hd hw) hwf hc⟩
  · exact fun w r desc hfit hw hr hd had =>
      ⟨fun ⟨hp, hluma⟩ => endsByAccesses (unpackFrameTransfer_sound desc s.bus _)
          (exec_unpackFrame_held hr hd hw hfit) hwf (planChecks_eq had hp hluma),
        fun ⟨hp, hluma⟩ => endsByAccesses (packFrameTransfer_sound desc s.bus fill _)
          (exec_packFrame_held hr hd hw hfit) hwf (planChecks_eq had hp hluma)⟩

/-! ### A line that completes was aligned (20_memory.md R67) -/

/-- Alignment at a multiple beyond an address is alignment at the address. -/
theorem alignedTo_of_add {b : Bus} {a : Int} {al n : Nat} (hn : al ∣ n) (h : b.alignedTo (a + (n : Nat)) al = true) :
    b.alignedTo a al = true := by
  rw [alignedTo_iff] at h ⊢
  rwa [← Int.dvd_add_left (Int.natCast_dvd_natCast.2 hn)]

theorem unitAlign_dvd (pkb : Nat) : unitAlign pkb ∣ pkb := by
  unfold unitAlign
  split
  · exact dvd_refl pkb
  · exact one_dvd pkb

theorem Runs.aligned {α : Type} {b : Bus} {l : List Access} {x : Except FaultReason α} {v : α} (h : Runs b l x)
    (hx : x = .ok v) {a : Access} (ha : a ∈ l) : b.alignedTo a.addr a.align = true :=
  ((check_ok_iff b a.addr a.len a.align).1 (h.check_of_ok hx ha)).2.1

/-- A non-empty admitted range holds a unit. -/
theorem units_pos {d : Layout} {left right : Nat} (hppp : 0 < d.ppp) (had : d.admits left right = true)
    (hlr : left < right) : 0 < d.units left right := by
  obtain ⟨_, hleft, hright⟩ := (admits_iff d left right).1 had
  obtain ⟨i, rfl⟩ := Nat.dvd_of_mod_eq_zero hleft
  obtain ⟨j, rfl⟩ := Nat.dvd_of_mod_eq_zero hright
  rw [Layout.units, ← Nat.mul_sub, Nat.mul_div_cancel_left _ hppp]
  exact Nat.sub_pos_of_lt (Nat.lt_of_mul_lt_mul_left hlr)

section
variable {b : Bus} {packed : Int} {p : Planes} {left : Nat} {l : List Access}
  (hal : ∀ a ∈ l, b.alignedTo a.addr a.align = true)
include hal

/-- A list of aligned accesses that holds those of a row's first unit. -/
theorem alignedRow_of_unit {d : Layout}
    (hmem : ∀ a, a = d.unitAccess packed left 0 ∨ a ∈ d.elemAccesses p left 0 → a ∈ l) :
    d.alignedRow b packed p = true := by
  refine Bool.and_eq_true_iff.2 ⟨?_, List.all_eq_true.2 fun c _ => ?_⟩
  · exact alignedTo_of_add (Dvd.dvd.mul_left (unitAlign_dvd d.pkb) _) (hal _ (hmem _ (.inl rfl)))
  · rw [Bool.or_eq_true, Bool.not_eq_true', or_iff_not_imp_left, Bool.not_eq_false, active_iff]
    rintro ⟨hcount, hnull⟩
    obtain ⟨k, hk, sh, dp, hs, _⟩ := exists_slot d.slots.toList hcount
    exact alignedTo_of_add (Dvd.intro_left _ rfl) (hal _ (hmem _ (.inr (elemAccess_mem hk hs hnull))))

/-- A list of aligned accesses that holds those of a v210 row's first group. -/
theorem v210AlignedRow_of_group
    (hmem : ∀ a, a ∈ v210WordAccesses packed left 0 ∨ a ∈ v210SampleAccesses p left 0 → a ∈ l) :
    v210AlignedRow b packed p = true := by
  have hword : (⟨packed + ((left / 6 + 0) * 16 + 4 * 0 : Nat), 4, 4⟩ : Access) ∈ v210WordAccesses packed left 0 :=
    List.mem_map.2 ⟨0, by decide, rfl⟩
  have hsample : ∀ c, 0 < perGroup c → b.alignedTo (v210Elem p left 0 c 0) 2 = true := fun c hc =>
    hal _ (hmem _ (.inr (sampleAccess_mem p left 0 hc)))
  simp only [v210AlignedRow, Bool.and_eq_true]
  refine ⟨⟨⟨?_, ?_⟩, ?_⟩, ?_⟩
  · exact alignedTo_of_add (by omega) (hal _ (hmem _ (.inl hword)))
  · exact alignedTo_of_add (Dvd.intro _ rfl) (hsample .y (by decide))
  · exact alignedTo_of_add (Dvd.intro _ rfl) (hsample .u (by decide))
  · exact alignedTo_of_add (Dvd.intro _ rfl) (hsample .v (by decide))

end

/-- The first unit's or group's accesses are among those of a row that is not empty, in both directions. -/
theorem alignedRow_of_accesses {desc : Descriptor} {b : Bus} {packed : Int} {p : Planes} {left right : Nat}
    {l : List Access} (hok : desc.ok = true) (had : desc.admits left right = true) (hlr : left < right)
    (hl : l = desc.unpackAccesses packed p left right ∨ l = desc.packAccesses packed p left right)
    (hal : ∀ a ∈ l, b.alignedTo a.addr a.align = true) : desc.alignedRow b packed p = true := by
  cases desc with
  | generic d =>
    obtain ⟨_, _, hppp, _⟩ := layout_widths hok
    refine alignedRow_of_unit (left := left) hal fun a ha => ?_
    rcases hl with rfl | rfl <;> refine List.mem_flatMap.2 ⟨0, List.mem_range.2 (units_pos hppp had hlr), ?_⟩
    · exact List.mem_cons.2 ha
    · exact List.mem_append.2 (ha.symm.imp id List.mem_singleton.2)
  | v210 tag =>
    have hgroups : 0 < v210Groups left right := by
      have := (v210Admits_iff left right).1 had
      unfold v210Groups
      omega
    refine v210AlignedRow_of_group (left := left) hal fun a ha => ?_
    rcases hl with rfl | rfl <;> refine List.mem_flatMap.2 ⟨0, List.mem_range.2 hgroups, ?_⟩
    · exact List.mem_append.2 ha
    · exact List.mem_append.2 ha.symm

/-- A line transfer that completes over a range that is not empty had its pointers aligned. -/
theorem alignedRow_of_completes {desc : Descriptor} {s t : State} {o : LineOperands} {fmt : Fmt} {x : Transfer}
    (hok : desc.ok = true) (hlr : o.left < o.right)
    (hx : x = unpackLineTransfer desc s.bus o ∨ ∃ fill, x = packLineTransfer desc s.bus fill o)
    (h : x.exec fmt s = .next t) (hidle : t.status = .idle) : desc.alignedRow s.bus o.packed o.planes = true := by
  obtain ⟨hc, _, m, hm, _⟩ := Transfer.exec_idle h hidle
  rcases hx with rfl | ⟨fill, rfl⟩
  · exact alignedRow_of_accesses hok (rowChecks_ok hc).1 hlr (.inl rfl) fun a ha =>
      ((unpackLineTransfer_sound desc s.bus o).runs hc s.mem).aligned hm ha
  · exact alignedRow_of_accesses hok (rowChecks_ok hc).1 hlr (.inr rfl) fun a ha =>
      ((packLineTransfer_sound desc s.bus fill o).runs hc s.mem).aligned hm ha

/-- Settles O47: each pointer is a multiple of its access's alignment before the first access to it, which passed
(`alignedRow_of_accesses`). -/
theorem completedRowsAreAligned : Obligations.CompletedRowsAreAligned := by
  intro s t fmt fill w hcat hfit hidle htidle hlr
  refine ⟨fun d hd h => ?_, fun tag hd h => ?_⟩
  · have hok : (Descriptor.generic d).ok = true := descriptor_ok hcat hd
    rcases h with ⟨hw, h⟩ | ⟨hw, h⟩
    · rw [exec_unpackLine_held hcat hfit hd hw] at h
      exact alignedRow_of_completes (o := w.operands) hok hlr (.inl rfl) h htidle
    · rw [exec_packLine_held hcat hfit hd hw] at h
      exact alignedRow_of_completes (o := w.operands) hok hlr (.inr ⟨fill, rfl⟩) h htidle
  · have hok : (Descriptor.v210 tag).ok = true := rfl
    rcases h with ⟨hw, h⟩ | ⟨hw, h⟩
    · rw [exec_unpackLineV210_held hcat hfit hd hw] at h
      exact alignedRow_of_completes (o := w.operands) hok hlr (.inl rfl) h htidle
    · rw [exec_packLineV210_held hcat hfit hd hw] at h
      exact alignedRow_of_completes (o := w.operands) hok hlr (.inr ⟨fill, rfl⟩) h htidle

end Sys2Proof.Machine
end

section
/-! SUPPORT. Empty ranges and empty frames: their transfers have no overlap and leave memory as it is (41_scanline.md
R176, 42_v210.md R204, 44_frame.md R241, R245). -/

namespace Sys2Proof.Machine

/-! ### Transfers that touch nothing -/

/-- A transfer over no bytes. -/
structure Transfer.Empty (x : Transfer) : Prop where
  noOverlap : x.footprint.noOverlap = true
  run : ∀ m, x.run m = .ok m

theorem Transfer.Empty.exec {x : Transfer} (h : x.Empty) {f : Fmt} {s : State} (hc : x.checks = .ok ()) :
    x.exec f s = .next (s.resolve f x.key) := by
  rw [Transfer.exec_of_ok hc h.noOverlap (h.run s.mem), ← resolve_mem s f x.key]

theorem Transfer.Empty.mem {x : Transfer} (h : x.Empty) {f : Fmt} {s t : State} (ht : x.exec f s = .next t) :
    t.mem = s.mem := by
  rcases runTransfer_cases ht with ⟨r, _, rfl⟩ | ⟨_, _, rfl⟩ | ⟨_, _, r, hr, _⟩ | ⟨_, _, m, hm, rfl⟩
  · exact resolve_mem s f x.key
  · exact resolve_mem s f x.key
  · cases (h.run _).symm.trans hr
  · cases (h.run _).symm.trans hm
    exact resolve_mem s f x.key

/-- A command all of whose possible transfers are empty leaves memory as it is. -/
theorem mem_of_empty {i : Instr} {s t : State} (hx : ∀ x, task i s = .transfer x → x.Empty) (h : exec i s = .next t) :
    t.mem = s.mem := by
  rw [exec_eq_run] at h
  cases htask : task i s with
  | fault r => rw [htask] at h; cases h; rfl
  | refused q => rw [htask] at h; cases h
  | output w => rw [htask] at h; cases h; rfl
  | select k => rw [htask] at h; cases h; exact resolve_mem s i.fmt k
  | transfer x => rw [htask] at h; exact (hx x htask).mem h

/-- Writes of no bytes overlap nothing. -/
theorem noOverlap_of_empty {f : Footprint} (h : ∀ r ∈ f.writes, r.len = 0) : f.noOverlap = true := by
  have hapart : ∀ r ∈ f.writes, ∀ q, r.apart q = true := fun r hr q => by simp [Region.apart, h r hr]
  exact (noOverlap_iff f).2 ⟨(allApart_iff _).2 fun i j hi _ _ => hapart _ (List.getElem_mem hi) _,
    fun w hw r _ => hapart w hw r⟩

/-! ### Empty rows -/

section
variable {desc : Descriptor} {left right : Nat} (h : ¬ left < right)
include h

theorem packedRegion_empty (packed : Int) : (desc.packedRegion packed left right).len = 0 := by
  cases desc with
  | generic d => simp [Descriptor.packedRegion, Layout.packedRegion, units_empty h]
  | v210 tag => simp [Descriptor.packedRegion, v210PackedRegion, groups_empty h]

theorem planeRegions_empty {p : Planes} {r : Region} (hr : r ∈ desc.planeRegions p left right) : r.len = 0 := by
  cases desc with
  | generic d =>
    obtain ⟨c, _, rfl⟩ := List.mem_map.1 hr
    simp [Layout.planeRegion, units_empty h]
  | v210 tag =>
    simp only [Descriptor.planeRegions, v210PlaneRegions, groups_empty h, Nat.mul_zero, List.mem_cons,
      List.not_mem_nil, or_false] at hr
    rcases hr with rfl | rfl | rfl <;> rfl

theorem unpackRow_empty (b : Bus) (packed : Int) (p : Planes) (m : Memory) :
    desc.unpackRow b packed p left right m = .ok m := by
  cases desc with
  | generic d => simp [Descriptor.unpackRow, Layout.unpackRow, units_empty h, unpackUnits]
  | v210 tag => simp [Descriptor.unpackRow, v210UnpackRow, groups_empty h, unpackGroups]

theorem packRow_empty (b : Bus) (fill : Bool) (packed : Int) (p : Planes) (m : Memory) :
    desc.packRow b fill p packed left right m = .ok m := by
  cases desc with
  | generic d => simp [Descriptor.packRow, Layout.packRow, units_empty h, packUnits]
  | v210 tag => simp [Descriptor.packRow, v210PackRow, groups_empty h, packGroups]

end

section
variable (desc : Descriptor) (b : Bus) {o : LineOperands} (h : ¬ o.left < o.right)
include h

theorem unpackLineTransfer_empty : (unpackLineTransfer desc b o).Empty where
  noOverlap := noOverlap_of_empty fun _ hr => planeRegions_empty h hr
  run := unpackRow_empty h b o.packed o.planes

theorem packLineTransfer_empty (fill : Bool) : (packLineTransfer desc b fill o).Empty where
  noOverlap := noOverlap_of_empty fun r hr => by
    rw [List.mem_singleton.1 hr]
    exact packedRegion_empty h o.packed
  run := packRow_empty h b fill o.packed o.planes

end

/-! ### Empty frames -/

/-- A frame of no width or of no rows, whose luma copy, if it runs, has no bytes. -/
structure FramePlan.Empty (p : FramePlan) : Prop where
  rows : p.width = 0 ∨ p.rows = 0
  luma : ∀ l, p.luma = some l → l.nbytes = 0 ∨ l.nrows = 0

theorem frameRows_skip {row : Nat → Memory → Except FaultReason Memory} {n : Nat}
    (h : n = 0 ∨ ∀ y m, row y m = .ok m) (y : Nat) (m : Memory) : frameRows row n y m = .ok m := by
  induction n generalizing y with
  | zero => rfl
  | succ n ih =>
    have hrow := h.resolve_left (Nat.succ_ne_zero n)
    rw [frameRows, hrow y m]
    exact ih (.inr hrow) (y + 1)

/-- A row of no bytes is copied by two accesses of no bytes, which pass. -/
theorem copyRow_empty {l : LumaCopy} (h : l.nbytes = 0) (b : Bus) (y : Nat) (m : Memory) : copyRow b l y m = .ok m := by
  have hread : b.memRead m (l.src + y * l.srcStride) l.nbytes 1 = .ok [] := by
    rw [h]
    exact memRead_eq m (check_of_good (fun x h1 h2 => by omega) (alignedTo_one b _))
  rw [copyRow, hread]
  exact memWrite_eq m (check_of_good (fun x h1 h2 => by simp only [List.length_nil] at h2; omega) (alignedTo_one b _))

section
variable {p : FramePlan} (h : p.Empty)
include h

theorem FramePlan.Empty.copyLuma (b : Bus) (m : Memory) : Machine.copyLuma b p.luma m = .ok m := by
  cases hl : p.luma with
  | none => rfl
  | some l =>
    rw [Machine.copyLuma, copyRows_eq]
    exact frameRows_skip ((h.luma l hl).symm.imp id fun hb => copyRow_empty hb b) 0 m

theorem FramePlan.Empty.run {b : Bus} {row : Nat → Memory → Except FaultReason Memory}
    (hrow : p.width = 0 → ∀ y m, row y m = .ok m) (m : Memory) : p.run b row m = .ok m := by
  rw [FramePlan.run, h.copyLuma b m]
  exact frameRows_skip (h.rows.symm.imp id hrow) 0 m

theorem FramePlan.Empty.lumaWrites {r : Region} (hr : r ∈ p.lumaWrites) : r.len = 0 := by
  unfold FramePlan.lumaWrites at hr
  cases hl : p.luma with
  | none => rw [hl] at hr; cases hr
  | some l =>
    rw [hl] at hr
    obtain ⟨y, hy, rfl⟩ := List.mem_map.1 hr
    have := List.mem_range.1 hy
    rcases h.luma l hl with hb | hn
    · exact hb
    · omega

/-- A region of a row of an empty frame has no bytes: the row has no width, or there is no row. -/
theorem FramePlan.Empty.region {g : Nat → List Region} (hg : p.width = 0 → ∀ y, ∀ r ∈ g y, r.len = 0) {r : Region}
    (hr : r ∈ (List.range p.rows).flatMap g) : r.len = 0 := by
  obtain ⟨y, hy, hr⟩ := List.mem_flatMap.1 hr
  have := List.mem_range.1 hy
  rcases h.rows with hw | hn
  · exact hg hw y r hr
  · omega

variable (desc : Descriptor) (b : Bus)

theorem unpackFrameTransfer_empty : (unpackFrameTransfer desc b p).Empty where
  noOverlap := noOverlap_of_empty fun _ hr => (List.mem_append.1 hr).elim h.lumaWrites
    (h.region fun hw _ _ hr => planeRegions_empty (by omega) hr)
  run := h.run fun hw y m => unpackRow_empty (by omega) b _ _ m

theorem packFrameTransfer_empty (fill : Bool) : (packFrameTransfer desc b fill p).Empty where
  noOverlap := noOverlap_of_empty fun r hr => by
    rw [packFrameTransfer, packFootprint_writes] at hr
    refine (List.mem_append.1 hr).elim h.lumaWrites (h.region fun hw y r hr => ?_)
    rw [List.mem_singleton.1 hr]
    exact packedRegion_empty (by omega) _
  run := h.run fun hw y m => packRow_empty (by omega) b fill _ _ m

end

/-- The plan of a frame with WIDTH = 0 or HEIGHT = 0 is empty, in both directions. -/
theorem plan_empty (r : RegistryEntry) (skip : Bool) {o : FrameOperands} (h : o.width = 0 ∨ o.height = 0)
    {p : FramePlan} (hp : p = unpackPlan r skip o ∨ p = packPlan r skip o) : p.Empty := by
  have hplan : p.width = o.width ∧ p.rows = frameRowCount r o.height ∧ p.luma = lumaOf r skip o := by
    rcases hp with rfl | rfl <;> exact ⟨rfl, rfl, rfl⟩
  obtain ⟨hwidth, hrows, hluma⟩ := hplan
  refine ⟨?_, fun l hl => ?_⟩
  · rw [hwidth, hrows]
    refine h.imp id fun h0 => ?_
    rw [h0, frameRowCount]
    split <;> simp
  · rw [hluma, lumaOf] at hl
    split at hl
    · cases hl
      exact h.imp (fun h0 => by simp [h0]) id
    · cases hl

/-! ### Commands over nothing -/

section
variable {s t : State} {fmt : Fmt} {fill skip one : Bool}

/-- A line command over an empty range, in the form of either CLASS, is no transfer or an empty one. -/
theorem lineTask_empty {c : FormatClass} {y : Except FaultReason LineOperands} {o : LineOperands} (hy : y = .ok o)
    {k : Descriptor → LineOperands → Transfer} (hk : ∀ desc, (k desc o).Empty) {x : Transfer}
    (h : lineTask s fmt c y k = .transfer x) : x.Empty := by
  obtain ⟨_, desc, o', _, _, _, ho, rfl⟩ := lineTask_transfer h
  cases hy.symm.trans ho
  exact hk desc

theorem frameTask_empty {o : FrameOperands} (hy : s.frameOperands = .ok o)
    {k : RegistryEntry → Descriptor → FrameOperands → Transfer} (hk : ∀ r desc, (k r desc o).Empty) {x : Transfer}
    (h : frameTask s fmt k = .transfer x) : x.Empty := by
  obtain ⟨r, desc, o', _, _, ho, rfl⟩ := frameTask_transfer h
  cases hy.symm.trans ho
  exact hk r desc

theorem unpackLine_mem_of_empty {o : LineOperands} (hlr : o.left = o.right) (ho : s.unpackLineOperands = .ok o)
    (h : exec (.unpackLine fmt) s = .next t ∨ exec (.unpackLineV210 fmt) s = .next t) : t.mem = s.mem := by
  have hempty : ∀ desc, (unpackLineTransfer desc s.bus o).Empty := fun desc =>
    unpackLineTransfer_empty desc s.bus (by omega)
  rcases h with h | h
  · refine mem_of_empty (fun x hx => ?_) h
    exact lineTask_empty ho hempty hx
  · refine mem_of_empty (fun x hx => ?_) h
    exact lineTask_empty ho hempty hx

theorem packLine_mem_of_empty {o : LineOperands} (hlr : o.left = o.right) (ho : s.packLineOperands = .ok o)
    (h : exec (.packLine fmt fill) s = .next t ∨ exec (.packLineV210 fmt fill) s = .next t) : t.mem = s.mem := by
  have hempty : ∀ desc, (packLineTransfer desc s.bus fill o).Empty := fun desc =>
    packLineTransfer_empty desc s.bus (by omega) fill
  rcases h with h | h
  · refine mem_of_empty (fun x hx => ?_) h
    exact lineTask_empty ho hempty hx
  · refine mem_of_empty (fun x hx => ?_) h
    exact lineTask_empty ho hempty hx

theorem frame_mem_of_empty {o : FrameOperands} (ho : s.frameOperands = .ok o) (hzero : o.width = 0 ∨ o.height = 0)
    (h : exec (.unpackFrame fmt skip one) s = .next t ∨ exec (.packFrame fmt skip fill) s = .next t) :
    t.mem = s.mem := by
  rcases h with h | h
  · refine mem_of_empty (fun x hx => ?_) h
    exact frameTask_empty ho (k := fun r desc o => unpackFrameTransfer desc s.bus (unpackPlan r skip o))
      (fun r desc => unpackFrameTransfer_empty (plan_empty r skip hzero (.inl rfl)) desc s.bus) hx
  · refine mem_of_empty (fun x hx => ?_) h
    exact frameTask_empty ho (k := fun r desc o => packFrameTransfer desc s.bus fill (packPlan r skip o))
      (fun r desc => packFrameTransfer_empty (plan_empty r skip hzero (.inr rfl)) desc s.bus fill) hx

end

/-- Settles O32: the transfer of an empty range or frame is empty (`Transfer.Empty`), so it completes once its checks
pass and leaves memory in any case. -/
theorem emptyCommandsTouchNothing : Obligations.EmptyCommandsTouchNothing := by
  intro s fmt fill skip one
  refine ⟨fun hcat w hfit hlr => ⟨fun d hd had hp => ?_, fun tag hd had hpacked hy hu hv => ?_⟩,
    fun hcat w r desc hfit hw hzero hr hd had => ?_, fun o t hlr h => ?_,
    fun o t ho hzero h => frame_mem_of_empty ho hzero h⟩
  · have hrange : ¬ w.operands.left < w.operands.right := by simp [LineWords.operands, hlr]
    have hc : rowChecks (.generic d) w.operands = .ok () := rowChecks_pass had hp
    exact ⟨fun hw => (exec_unpackLine_held hcat hfit hd hw).trans ((unpackLineTransfer_empty _ s.bus hrange).exec hc),
      fun hw => (exec_packLine_held hcat hfit hd hw).trans ((packLineTransfer_empty _ s.bus hrange fill).exec hc)⟩
  · have hrange : ¬ w.operands.left < w.operands.right := by simp [LineWords.operands, hlr]
    have hc : rowChecks (.v210 tag) w.operands = .ok () :=
      rowChecks_pass had ((v210PointersOk_words w).2 ⟨hpacked, hy, hu, hv⟩)
    exact ⟨fun hw =>
        (exec_unpackLineV210_held hcat hfit hd hw).trans ((unpackLineTransfer_empty _ s.bus hrange).exec hc),
      fun hw => (exec_packLineV210_held hcat hfit hd hw).trans ((packLineTransfer_empty _ s.bus hrange fill).exec hc)⟩
  · have hzero' : w.operands.width = 0 ∨ w.operands.height = 0 :=
      hzero.imp (fun h => by simp [FrameWords.operands, h]) fun h => by simp [FrameWords.operands, h]
    exact ⟨fun ⟨hp, hluma⟩ => (exec_unpackFrame_held hr hd hw hfit).trans
        ((unpackFrameTransfer_empty (plan_empty r skip hzero' (.inl rfl)) desc s.bus).exec
          (planChecks_eq had hp hluma)),
      fun ⟨hp, hluma⟩ => (exec_packFrame_held hr hd hw hfit).trans
        ((packFrameTransfer_empty (plan_empty r skip hzero' (.inr rfl)) desc s.bus fill).exec
          (planChecks_eq had hp hluma))⟩
  · rcases h with ⟨ho, h⟩ | ⟨ho, h⟩
    · exact unpackLine_mem_of_empty hlr ho h
    · exact packLine_mem_of_empty hlr ho h

end Sys2Proof.Machine
end

section
/-! SUPPORT. The laws of the row functions: round trips, sub-ranges and byte-order duality (41_scanline.md R183, R184;
42_v210.md R208; 20_memory.md R81). -/

namespace Sys2Proof.Machine

/-! ### The v210 group (42_v210.md R201, R208) -/

section
variable (a b c : Nat)

theorem field10Low_word10 : field10Low (word10 a b c) = a % 2 ^ 10 := by rw [field10Low_eq, word10_low]

theorem field10Mid_word10 : field10Mid (word10 a b c) = b % 2 ^ 10 := by rw [field10Mid_eq, word10_mid]

theorem field10High_word10 : field10High (word10 a b c) = c % 2 ^ 10 := by rw [field10High_eq, word10_high]

end

theorem word10_field10 (w : Nat) : word10 (field10Low w) (field10Mid w) (field10High w) = w % 2 ^ 30 := by
  rw [word10_fields, field10Low_eq, field10Mid_eq, field10High_eq]
  omega

/-- Settles O54: each sample is the field it was packed into, and each word is its three fields below bit 30. -/
theorem v210RoundTrip : Obligations.V210RoundTrip := by
  refine ⟨fun g hg => ?_, fun g => ?_⟩
  · have hsmall : ∀ x ∈ g.ys ++ g.us ++ g.vs, x % 2 ^ 10 = x := fun x hx => Nat.mod_eq_of_lt (hg x hx)
    simp only [GroupSamples.ys, GroupSamples.us, GroupSamples.vs, List.cons_append, List.nil_append, List.mem_cons,
      List.not_mem_nil, or_false, forall_eq_or_imp, forall_eq] at hsmall
    simp only [groupUnpack, groupPack, field10Low_word10, field10Mid_word10, field10High_word10, hsmall]
  · simp only [groupPack, groupUnpack, GroupWords.list, word10_field10, List.map_cons, List.map_nil]

/-! ### Rows over a footprint without overlap -/

section
variable {d : Layout} {b : Bus} {fill : Bool} {packed : Int} {p : Planes} {left right : Nat} {m m' : Memory}

theorem unpackRow_unpacked (hok : d.ok = true) (hw : Memory.wf m = true) (hp : d.pointersOk packed p = true)
    (hno : (d.unpackFootprint ⟨packed, p, left, right⟩).noOverlap = true)
    (h : d.unpackRow b packed p left right m = .ok m') : d.Unpacked b.hostOrder m m' packed p left right := by
  obtain ⟨hapart, hcross⟩ := (noOverlap_iff _).1 hno
  exact unpackRow_value hok hw hp hapart (fun r hr => hcross r hr _ (List.mem_singleton.2 rfl)) h

theorem packRow_packed (hok : d.ok = true) (hw : Memory.wf m = true) (hp : d.pointersOk packed p = true)
    (hno : (d.packFootprint ⟨packed, p, left, right⟩).noOverlap = true)
    (h : d.packRow b fill p packed left right m = .ok m') : d.Packed b.hostOrder fill m m' packed p left right :=
  packRow_value hok hw hp (fun r hr => ((noOverlap_iff _).1 hno).2 _ (List.mem_singleton.2 rfl) r hr) h

/-- A footprint of UNPACK_LINE without overlap is one of PACK_LINE without overlap. -/
theorem packFootprint_noOverlap {o : LineOperands} (hno : (d.unpackFootprint o).noOverlap = true) :
    (d.packFootprint o).noOverlap = true := by
  obtain ⟨_, hcross⟩ := (noOverlap_iff _).1 hno
  refine (noOverlap_iff _).2 ⟨rfl, fun w hw r hr => ?_⟩
  rw [List.mem_singleton.1 hw]
  exact apart_symm (hcross r hr _ (List.mem_singleton.2 rfl))

end

/-! ### Round trips of a GENERIC row (41_scanline.md R183) -/

/-- Settles O48: the second row reads what the first one left (`unpackRow_unpacked`, `packRow_packed`). -/
theorem genericRoundTrip : Obligations.GenericRoundTrip := by
  intro d b fill packed packed' p q left right m m1 m2 hok hw had hp hp' hq hno
  refine ⟨fun h1 h2 u hu k c sh dp hs hpc hqc => ?_, fun h1 h2 u hu => ?_⟩
  · have hw1 : Memory.wf m1 = true := (packRow_wrote h1).wf hw
    obtain ⟨hslots, _⟩ := packRow_packed hok hw hp (hno _ (.inl rfl)).2 h1 u hu
    calc planarValue b.hostOrder m2 (d.elemAddr q left u k c) d.eb
      _ = d.unitValue m1 (d.unitAddr packed left u) / 2 ^ sh % 2 ^ dp :=
        unpackRow_unpacked hok hw1 hq (hno _ (.inr (.inr rfl))).1 h2 u hu k c sh dp hs hqc
      _ = planarValue b.hostOrder m (d.elemAddr p left u k c) d.eb % 2 ^ dp :=
        (hslots k c sh dp hs).trans (if_neg hpc)
  · have hw1 : Memory.wf m1 = true := (unpackRow_wrote hp h1).wf hw
    obtain ⟨hslots, hzero⟩ := packRow_packed hok hw1 hp' (hno _ (.inr (.inl rfl))).2 h2 u hu
    refine ⟨fun k c sh dp hs => ?_, hzero⟩
    rw [hslots k c sh dp hs]
    split
    · rfl
    · rename_i hpc
      rw [unpackRow_unpacked hok hw hp (hno _ (.inl rfl)).1 h1 u hu k c sh dp hs hpc, Nat.mod_mod]

/-! ### Byte-order duality (20_memory.md R81) -/

theorem v210_word_lt {e : V210Field} (he : e ∈ v210Table) : e.word < 4 := by
  revert e
  decide

/-- Settles O50: bytes reversed under the other tag are the same units and words (`natOfBytes_reverse`), of which both
runs leave the fields. -/
theorem byteOrderDuality : Obligations.ByteOrderDuality := by
  refine ⟨fun d b packed p left right m n m' n' hok hw hwn htag had hp hno hrev h h' u hu k c sh dp hs hpc => ?_,
    fun b packed p left right m n m' n' hw hwn had hp hno hrev h h' g hg e he => ?_⟩
  · have hunit : ({ d with tag := .big } : Layout).unitValue n (d.unitAddr packed left u) =
        d.unitValue m (d.unitAddr packed left u) := by
      rw [Layout.unitValue, Layout.unitValue, htag, ← natOfBytes_reverse, ← hrev u hu]
      rfl
    have hbig : planarValue b.hostOrder n' (d.elemAddr p left u k c) d.eb =
        ({ d with tag := .big } : Layout).unitValue n (d.unitAddr packed left u) / 2 ^ sh % 2 ^ dp :=
      unpackRow_unpacked (d := { d with tag := .big }) hok hwn hp hno h' u hu k c sh dp hs hpc
    rw [hbig, hunit, unpackRow_unpacked hok hw hp hno h u hu k c sh dp hs hpc]
  · obtain ⟨hapart, hcross⟩ := (noOverlap_iff _).1 hno
    have hsrc : ∀ r ∈ v210PlaneRegions p left right, r.apart (v210PackedRegion packed left right) = true :=
      fun r hr => hcross r hr _ (List.mem_singleton.2 rfl)
    have hword : v210Word .big n packed left g e.word = v210Word .little m packed left g e.word := by
      rw [v210Word, hrev g hg e.word (v210_word_lt he), natOfBytes_reverse]
      rfl
    rw [v210UnpackRow_value hwn hapart hsrc h' g hg e he, hword, v210UnpackRow_value hw hapart hsrc h g hg e he]

/-! ### Sub-ranges (41_scanline.md R184) -/

theorem elem_of_units {d : Layout} (hok : d.ok = true) {c : Channel} (hc : 0 < d.count c) {left : Nat}
    (hleft : left % d.ppp = 0) : d.elem c left = left / d.ppp * d.count c := by
  obtain ⟨_, _, hppp, _⟩ := layout_widths hok
  obtain ⟨i, rfl⟩ := Nat.dvd_of_mod_eq_zero hleft
  rw [elem_eq, count_eq_of_pos hok hc, Nat.mul_div_cancel_left _ hppp]
  split
  · obtain ⟨j, hj⟩ := Nat.dvd_of_mod_eq_zero (ppp_mod_two_pow_ss hok)
    rw [hj, Nat.mul_assoc, Nat.mul_div_cancel_left _ (Nat.two_pow_pos d.ss),
      Nat.mul_div_cancel_left _ (Nat.two_pow_pos d.ss), Nat.mul_comm]
  · rw [Nat.mul_comm]

theorem elem_zero (d : Layout) (c : Channel) : d.elem c 0 = 0 := by
  rw [elem_eq, Nat.zero_div, ite_self]

theorem unitAddr_shift (d : Layout) (packed : Int) (left u : Nat) :
    d.unitAddr packed left u = d.unitAddr packed 0 (left / d.ppp + u) := by
  rw [Layout.unitAddr, Layout.unitAddr, Nat.zero_div, Nat.zero_add]

theorem elemAddr_shift {d : Layout} (hok : d.ok = true) (p : Planes) {left : Nat} (hleft : left % d.ppp = 0) (u k : Nat)
    {c : Channel} (hc : 0 < d.count c) : d.elemAddr p left u k c = d.elemAddr p 0 (left / d.ppp + u) k c := by
  rw [Layout.elemAddr, Layout.elemAddr, elem_of_units hok hc hleft, elem_zero, Nat.add_mul (left / d.ppp), Nat.zero_add,
    Nat.add_assoc]

/-- A byte of the memory from the number its element stands for. -/
theorem read_of_value {o : ByteOrder} {m m' : Memory} {a : Int} {n : Nat} (ha : 0 ≤ a)
    (h : natOfBytes o (m.readBytes a.toNat n) = natOfBytes o (m'.readBytes a.toNat n)) {k : Nat} (h1 : a ≤ k)
    (h2 : (k : Int) < a + n) : m.read k = m'.read k := by
  have hbytes : m.readBytes a.toNat n = m'.readBytes a.toNat n := by
    have hm := bytesOfNat_natOfBytes o (m.readBytes a.toNat n)
    have hm' := bytesOfNat_natOfBytes o (m'.readBytes a.toNat n)
    rw [length_readBytes] at hm hm'
    rw [← hm, ← hm', h]
  have hk : a.toNat + (k - a.toNat) = k := by omega
  have hi : ∀ l : Memory, k - a.toNat < (l.readBytes a.toNat n).length := fun l => by rw [length_readBytes]; omega
  have hget : (m.readBytes a.toNat n)[k - a.toNat]'(hi m) = (m'.readBytes a.toNat n)[k - a.toNat]'(hi m') := by
    simp only [hbytes]
  rwa [getElem_readBytes, getElem_readBytes, hk] at hget

theorem nonneg_of_check {b : Bus} {a : Int} {n al : Nat} (hn : 0 < n) (h : b.check a n al = .ok ()) : 0 ≤ a :=
  (good_of_check h a (Int.le_refl a) (by omega)).1

theorem mem_elemAccesses {d : Layout} {p : Planes} {left u : Nat} {x : Access} (h : x ∈ d.elemAccesses p left u) :
    ∃ (k : Fin 4) (c : Channel) (sh dp : Nat), d.slots[k] = .field c sh dp ∧ p.get c ≠ 0 ∧
      x = ⟨d.elemAddr p left u k c, d.eb, d.eb⟩ := by
  obtain ⟨⟨s, k⟩, hs, hx⟩ := List.mem_filterMap.1 h
  obtain ⟨hk, hslot⟩ := List.getElem?_eq_some_iff.1 (List.mem_zipIdx_iff_getElem?.1 hs)
  have hk4 : k < 4 := by simpa using hk
  cases s with
  | pad => cases hx
  | field c sh dp =>
    simp only [Option.ite_none_left_eq_some, Option.some.injEq] at hx
    obtain ⟨hnull, rfl⟩ := hx
    exact ⟨⟨k, hk4⟩, c, sh, dp, (slot_toList hk4).symm.trans hslot, hnull, rfl⟩

/-- Units that agree in every slot and are 0 in every other bit are the same. -/
theorem unit_ext {d : Layout} {v w : Nat}
    (hslots : ∀ (k : Fin 4) (c : Channel) (sh dp : Nat), d.slots[k] = .field c sh dp →
      v / 2 ^ sh % 2 ^ dp = w / 2 ^ sh % 2 ^ dp)
    (hzero : ∀ j, (∀ (k : Fin 4) (c : Channel) (sh dp : Nat), d.slots[k] = .field c sh dp → ¬(sh ≤ j ∧ j < sh + dp)) →
      v.testBit j = false ∧ w.testBit j = false) : v = w := by
  refine Nat.eq_of_testBit_eq fun j => ?_
  by_cases hj : ∃ (k : Fin 4) (c : Channel) (sh dp : Nat), d.slots[k] = .field c sh dp ∧ sh ≤ j ∧ j < sh + dp
  · obtain ⟨k, c, sh, dp, hs, hlo, hhi⟩ := hj
    have hbit := congrArg (fun z => z.testBit (j - sh)) (hslots k c sh dp hs)
    simp only [testBit_field, Nat.sub_add_cancel hlo, show j - sh < dp by omega, decide_true, Bool.true_and] at hbit
    exact hbit
  · obtain ⟨hv, hw⟩ := hzero j fun k c sh dp hs hin => hj ⟨k, c, sh, dp, hs, hin⟩
    rw [hv, hw]

/-- A sub-range's part of the plane of a used channel lies in the whole's. -/
theorem planeRegion_sub {d : Layout} (hok : d.ok = true) {p : Planes} {left right last : Nat}
    (had : d.admits left right = true) (hadLast : d.admits 0 last = true) (hlast : right ≤ last) {c : Channel}
    (hc : 0 < d.count c) {a : Int} (h : (d.planeRegion p left right c).has a = true) :
    (d.planeRegion p 0 last c).has a = true := by
  obtain ⟨_, _, hppp, _⟩ := layout_widths hok
  have hend : left / d.ppp + d.units left right ≤ d.units 0 last := by
    have hwhole := units_add hppp hadLast
    rw [Nat.zero_div, Nat.zero_add] at hwhole
    rw [units_add hppp had, hwhole]
    exact Nat.div_le_div_right hlast
  have hbytes := Nat.mul_le_mul_right (d.count c * d.eb) hend
  rw [has_iff] at h ⊢
  simp only [Layout.planeRegion, cursors_get, elem_zero, elem_of_units hok hc ((admits_iff d left right).1 had).2.1,
    Nat.add_mul, Nat.mul_assoc, Nat.zero_mul] at h hbytes ⊢
  omega

theorem packedRegion_sub {d : Layout} (hppp : 0 < d.ppp) {packed : Int} {left right last : Nat}
    (had : d.admits left right = true) (hadLast : d.admits 0 last = true) (hlast : right ≤ last) {a : Int}
    (h : (d.packedRegion packed left right).has a = true) : (d.packedRegion packed 0 last).has a = true := by
  have h' := (packedRegion_any hppp had).1 (by rw [List.any_cons, h]; rfl)
  have hbytes := Nat.mul_le_mul_right d.pkb (Nat.div_le_div_right (c := d.ppp) hlast)
  have hwhole := (packedRegion_any (packed := packed) (a := a) hppp hadLast).2
    ⟨by rw [Nat.zero_div]; omega, by omega⟩
  rwa [List.any_cons, List.any_nil, Bool.or_false] at hwhole

/-- The footprint of a sub-range has no overlap if that of the whole has none. -/
theorem subRange_noOverlap {d : Layout} (hok : d.ok = true) {packed : Int} {p : Planes} {left right last : Nat}
    (had : d.admits left right = true) (hadLast : d.admits 0 last = true) (hlast : right ≤ last)
    (hno : (d.unpackFootprint ⟨packed, p, 0, last⟩).noOverlap = true) :
    (d.unpackFootprint ⟨packed, p, left, right⟩).noOverlap = true := by
  obtain ⟨_, _, hppp, _⟩ := layout_widths hok
  obtain ⟨hapart, hcross⟩ := (noOverlap_iff _).1 hno
  have hsub : ∀ c ∈ Channel.all.filter (fun c => d.active p c), ∀ a, (d.planeRegion p left right c).has a = true →
      (d.planeRegion p 0 last c).has a = true := fun c hc a =>
    planeRegion_sub hok had hadLast hlast ((active_iff d p c).1 (List.mem_filter.1 hc).2).1
  have hplanes := (allApart_iff_pairwise _).1 hapart
  rw [Layout.unpackFootprint, Layout.planeRegions, List.pairwise_map] at hplanes
  refine (noOverlap_iff _).2 ⟨(allApart_iff_pairwise _).2 (List.pairwise_map.2 ?_), fun r hr q hq => ?_⟩
  · refine hplanes.imp_of_mem fun {c c'} hc hc' h => (apart_iff _ _).2 fun a ⟨ha, ha'⟩ => ?_
    exact apart_not_both h (hsub c hc a ha) (hsub c' hc' a ha')
  · obtain ⟨c, hc, rfl⟩ := List.mem_map.1 hr
    rw [List.mem_singleton.1 hq]
    refine (apart_iff _ _).2 fun a ⟨ha, ha'⟩ => ?_
    exact apart_not_both (hcross _ (List.mem_map.2 ⟨c, hc, rfl⟩) _ (List.mem_singleton.2 rfl)) (hsub c hc a ha)
      (packedRegion_sub hppp had hadLast hlast ha')

section
variable {d : Layout} {b : Bus} {packed : Int} {p : Planes} {left right last : Nat} {m m1 m2 : Memory}
  (hok : d.ok = true) (hw : Memory.wf m = true) (had : d.admits left right = true) (hadLast : d.admits 0 last = true)
  (hlast : right ≤ last) (hp : d.pointersOk packed p = true)
  (hno : (d.unpackFootprint ⟨packed, p, 0, last⟩).noOverlap = true)
include hok hw had hadLast hlast hp hno

omit hw hp hno in
/-- Unit `u` of a sub-range is unit `left / PPP + u` of the whole. -/
theorem subRange_unit {u : Nat} (hu : u < d.units left right) : left / d.ppp + u < d.units 0 last := by
  obtain ⟨_, _, hppp, _⟩ := layout_widths hok
  have hsub := units_add hppp had
  have hwhole := units_add hppp hadLast
  have := Nat.div_le_div_right (c := d.ppp) hlast
  rw [Nat.zero_div] at hwhole
  omega

/-- Unpacking a sub-range leaves the bytes there that unpacking the whole leaves. -/
theorem unpackRow_subRange (h1 : d.unpackRow b packed p left right m = .ok m1)
    (h2 : d.unpackRow b packed p 0 last m = .ok m2) {r : Region} (hr : r ∈ d.planeRegions p left right) {a : Nat}
    (ha : r.has a = true) : m1.read a = m2.read a := by
  obtain ⟨_, heb, _, _⟩ := layout_widths hok
  have hleft := ((admits_iff d left right).1 had).2.1
  obtain ⟨u, hu, x, hx, hlo, hhi⟩ := covered_planeRegions ⟨r, hr, ha⟩
  have hcheck := (unpackRow_runs hp m).check_of_ok h1 (List.mem_flatMap.2 ⟨u, List.mem_range.2 hu, .tail _ hx⟩)
  obtain ⟨k, c, sh, dp, hs, hnull, rfl⟩ := mem_elemAccesses hx
  have hpart := unpackRow_unpacked hok hw hp (subRange_noOverlap hok had hadLast hlast hno) h1 u hu k c sh dp hs hnull
  have hwhole := unpackRow_unpacked hok hw hp hno h2 _ (subRange_unit hok had hadLast hlast hu) k c sh dp hs hnull
  rw [← unitAddr_shift, ← elemAddr_shift hok p hleft u k (count_pos k.isLt hs), ← hpart] at hwhole
  exact read_of_value (nonneg_of_check heb hcheck) hwhole.symm hlo hhi

/-- Packing a sub-range leaves the bytes there that packing the whole leaves. -/
theorem packRow_subRange {fill : Bool} (h1 : d.packRow b fill p packed left right m = .ok m1)
    (h2 : d.packRow b fill p packed 0 last m = .ok m2) {a : Nat}
    (ha : (d.packedRegion packed left right).has a = true) : m1.read a = m2.read a := by
  obtain ⟨hpkb, _, _, _⟩ := layout_widths hok
  have hleft := ((admits_iff d left right).1 had).2.1
  obtain ⟨u, hu, x, hx, hlo, hhi⟩ := covered_packedRegion ha
  obtain rfl := List.mem_singleton.1 hx
  have hcheck := (packRow_runs hp m).check_of_ok h1
    (List.mem_flatMap.2 ⟨u, List.mem_range.2 hu, List.mem_append_right _ hx⟩)
  have hsubno := packFootprint_noOverlap (subRange_noOverlap hok had hadLast hlast hno)
  obtain ⟨hslots, hzero⟩ := packRow_packed hok hw hp hsubno h1 u hu
  obtain ⟨hslots', hzero'⟩ :=
    packRow_packed hok hw hp (packFootprint_noOverlap hno) h2 _ (subRange_unit hok had hadLast hlast hu)
  rw [← unitAddr_shift] at hslots' hzero'
  refine read_of_value (nonneg_of_check hpkb hcheck) (unit_ext (d := d) (fun k c sh dp hs => ?_) fun j hj =>
    ⟨hzero j hj, hzero' j hj⟩) hlo hhi
  refine (hslots k c sh dp hs).trans ((hslots' k c sh dp hs).trans ?_).symm
  rw [← elemAddr_shift hok p hleft u k (count_pos k.isLt hs)]

end

/-- Settles O49: both rows leave the same values in the elements and units they share (`unpackRow_subRange`,
`packRow_subRange`). -/
theorem subRanges : Obligations.SubRanges := by
  intro d b fill packed p left right last m m1 m2 hok hw had hadLast hlast hp hno
  exact ⟨fun h1 h2 _ hr _ ha => unpackRow_subRange hok hw had hadLast hlast hp hno h1 h2 hr ha,
    fun h1 h2 _ ha => packRow_subRange hok hw had hadLast hlast hp hno h1 h2 ha⟩

end Sys2Proof.Machine
end
